-- ==== Sys2Proof/Word.lean ====
section
/-! DEFINITION. The machine's word types (spec/10_state.md R30, R37; spec/30_encoding.md R151). -/

namespace Sys2Proof

/-- A register, a value, a memory cell or a data address: `XLEN = ADDR_BITS = 64` bits (00_scope.md R8). -/
abbrev Word := BitVec 64

/-- One instruction word (30_encoding.md R151). -/
abbrev InstrWord := BitVec 32

/-- A program-counter value, an instruction index (10_state.md R37). -/
abbrev Pc := BitVec 32

end Sys2Proof
end

