-- ==== Sys2Proof/Syntax.lean ====
section
/-! DEFINITION. Instruction syntax: the eleven instructions of spec/opcode_table.json (spec/30_encoding.md
R150, R153, R154) and the closed sets of names they use. -/

namespace Sys2Proof

/-- An architectural register: the register code of 10_state.md R33 with its file made a constructor. -/
inductive Reg where
  /-- integer register `R i` -/
  | R (i : Fin 32)
  /-- floating-point register `F i` -/
  | F (i : Fin 32)
  deriving DecidableEq, Repr, Inhabited

/-- The register is in the integer file (bit 5 of its code is 0, 10_state.md R33). -/
def Reg.isInt : Reg → Bool
  | .R _ => true
  | .F _ => false

/-- The opcodes of 30_encoding.md R153, by name. -/
inductive Op where
  | nop | add | sub | addi | addD | subD | multD | ld | sd | beq | bne
  deriving DecidableEq, Repr, Inhabited

/-- The functional-unit classes of 00_scope.md R9. -/
inductive FuClass where
  | fpadd | int | mult | ls | br
  deriving DecidableEq, Repr, Inhabited

/-- The ROB kinds of 10_state.md R47. -/
inductive RobKind where
  /-- writes a register -/
  | reg
  | store
  | branch
  | nop
  deriving DecidableEq, Repr, Inhabited

/-- Why a word is invalid (60_exceptions.md R402). -/
inductive DecodeReason where
  /-- 30_encoding.md R163 (a): `w[31:28]` is 11 to 15 -/
  | reservedOpcode
  /-- 30_encoding.md R163 (b): a reserved field is not zero -/
  | reservedBits
  /-- 30_encoding.md R163 (c): a register field names a file the operand does not allow -/
  | registerFile
  deriving DecidableEq, Repr

/-- The decoded instruction record, one constructor per row of the opcode table (30_encoding.md R150, R154). -/
inductive Instr where
  | nop
  | add (rd rs rt : Reg)
  | sub (rd rs rt : Reg)
  | addi (rd rs : Reg) (imm : BitVec 16)
  | addD (fd fs ft : Reg)
  | subD (fd fs ft : Reg)
  | multD (fd fs ft : Reg)
  | ld (rt rb : Reg) (off : BitVec 16)
  | sd (rt rb : Reg) (off : BitVec 16)
  | beq (rs rt : Reg) (off : BitVec 16)
  | bne (rs rt : Reg) (off : BitVec 16)
  deriving DecidableEq, Repr, Inhabited

/-- The result of `decode` (30_encoding.md R162). -/
inductive Decoded where
  | valid (i : Instr)
  | invalid (reason : DecodeReason)
  deriving DecidableEq, Repr

end Sys2Proof
end

