-- ==== Sys2Proof/Config.lean ====
section
/-! DEFINITION. What a launch fixes and what the spec leaves free: the parameters of spec/00_scope.md R8 with
their legal ranges and defaults, and the free inputs (spec/93_implementation_defined.md section 1). -/

namespace Sys2Proof

/-- One thing per functional-unit class, in the table order of 00_scope.md R9. -/
structure ClassMap (α : Type) where
  fpadd : α
  int : α
  mult : α
  ls : α
  br : α
  deriving DecidableEq, Repr

/-- The item of class `k`. -/
def ClassMap.get {α : Type} (m : ClassMap α) : FuClass → α
  | .fpadd => m.fpadd
  | .int => m.int
  | .mult => m.mult
  | .ls => m.ls
  | .br => m.br

/-- The map with the item of class `k` changed. -/
def ClassMap.modify {α : Type} (m : ClassMap α) (k : FuClass) (f : α → α) : ClassMap α :=
  match k with
  | .fpadd => { m with fpadd := f m.fpadd }
  | .int => { m with int := f m.int }
  | .mult => { m with mult := f m.mult }
  | .ls => { m with ls := f m.ls }
  | .br => { m with br := f m.br }

/-- The image of every item. -/
def ClassMap.map {α β : Type} (f : α → β) (m : ClassMap α) : ClassMap β :=
  ⟨f m.fpadd, f m.int, f m.mult, f m.ls, f m.br⟩

/-- One thing per class that has a functional-unit pool (10_state.md R52: the branch class has none). -/
structure PoolMap (α : Type) where
  fpadd : α
  int : α
  mult : α
  ls : α
  deriving DecidableEq, Repr

/-- The item of class `k`, none for the branch class. -/
def PoolMap.get? {α : Type} (m : PoolMap α) : FuClass → Option α
  | .fpadd => some m.fpadd
  | .int => some m.int
  | .mult => some m.mult
  | .ls => some m.ls
  | .br => none

/-- The map with the item of class `k` changed; nothing for the branch class. -/
def PoolMap.modify {α : Type} (m : PoolMap α) (k : FuClass) (f : α → α) : PoolMap α :=
  match k with
  | .fpadd => { m with fpadd := f m.fpadd }
  | .int => { m with int := f m.int }
  | .mult => { m with mult := f m.mult }
  | .ls => { m with ls := f m.ls }
  | .br => m

/-- The image of every item. -/
def PoolMap.map {α β : Type} (f : α → β) (m : PoolMap α) : PoolMap β :=
  ⟨f m.fpadd, f m.int, f m.mult, f m.ls⟩

/-- The configuration of a launch (00_scope.md R8, 10_state.md R59). -/
structure Config where
  /-- `ROB_SIZE` -/
  robSize : Nat
  /-- `BTB_ENTRIES` -/
  btbEntries : Nat
  /-- `RS_COUNT[k]` -/
  rsCount : ClassMap Nat
  /-- `EX_LAT[k]` -/
  exLat : ClassMap Nat
  /-- `MEM_LAT` -/
  memLat : Nat
  /-- `FU_COUNT[k]` -/
  fuCount : PoolMap Nat
  deriving DecidableEq, Repr

/-- The defaults of 00_scope.md R8 (92_eei_decisions.md D16). -/
def Config.default : Config where
  robSize := 16
  btbEntries := 8
  rsCount := ⟨3, 2, 2, 3, 2⟩
  exLat := ⟨3, 1, 20, 1, 1⟩
  memLat := 4
  fuCount := ⟨1, 1, 1, 1⟩

/-- `n` lies in `lo` to `hi`. -/
def inRange (lo hi n : Nat) : Bool := decide (lo ≤ n ∧ n ≤ hi)

/-- Every item lies in `lo` to `hi`. -/
def ClassMap.allInRange (lo hi : Nat) (m : ClassMap Nat) : Bool :=
  [m.fpadd, m.int, m.mult, m.ls, m.br].all (inRange lo hi)

/-- Every item lies in `lo` to `hi`. -/
def PoolMap.allInRange (lo hi : Nat) (m : PoolMap Nat) : Bool :=
  [m.fpadd, m.int, m.mult, m.ls].all (inRange lo hi)

/-- The execution latencies: at least 1, for branches possibly 0 (00_scope.md R8). -/
def Config.latenciesLegal (m : ClassMap Nat) : Bool :=
  [m.fpadd, m.int, m.mult, m.ls].all (inRange 1 255) && inRange 0 255 m.br

/-- A power of two, 1 to 2^16. -/
def isBtbSize (n : Nat) : Bool := (List.range 17).any (fun e => n == 2 ^ e)

/-- The configuration lies within the legal values of 00_scope.md R8. -/
def Config.legal (c : Config) : Bool :=
  [inRange 1 64 c.robSize, isBtbSize c.btbEntries, c.rsCount.allInRange 1 16,
   Config.latenciesLegal c.exLat, inRange 1 255 c.memLat, c.fuCount.allInRange 1 16].all id

/-- `ARF_UNSET(r)`: the value of a register that the launch does not name, a free input (10_state.md R35, D11). -/
opaque Config.arfUnset : Reg → Word

/-- `MEM_UNSET(a)`: the value of a memory cell that the launch does not name, a free input (20_memory.md R102,
D11). -/
opaque Config.memUnset : Word → Word

/-- The sign of `FP_NAN`, free (42_fp.md R300, D5). -/
opaque Config.fpNanSign : BitVec 1

/-- One less than the fraction of `FP_NAN`: every non-zero fraction is possible (42_fp.md R300, D5). -/
opaque Config.fpNanFraction : Fin (4503599627370494 + 1)

/-- `FP_NAN`: some binary64 NaN, fixed for the run, its sign and payload unknown (42_fp.md R300, D5). -/
def Config.fpNan : Word :=
  Config.fpNanSign ++ 0x7FF#11 ++ BitVec.ofNat 52 (Config.fpNanFraction.val + 1)

/-- What an operand slot that still waits for tag `t` would give as a value. No rule reads it (10_state.md R45);
the model keeps it free (log entry 11). -/
opaque Config.absentOperand : Nat → Word

end Sys2Proof
end

