-- ==== Sys2Proof/Machine/State.lean ====
section
/-! DEFINITION. The machine's state as plain data (spec/10_state.md), the launch, and the state after reset
(spec/70_reset_and_hazards.md R430 to R434). -/

namespace Sys2Proof.Machine

/-- Why a step stops the machine for good. Nobody: raising a fault of 60_exceptions.md R400 sets the fault register
and the machine goes on counting cycles (R401), so every fault of the spec is a NEXT state here (log entry 6, safe:
no behaviour is cut off). -/
inductive Fault where
  deriving DecidableEq, Repr

/-- Why a step gives no meaning. -/
inductive Refusal where
  /-- An instruction of the opcode table that has no meaning yet; raised by `exec`'s arms only, and by none of
  them. Safe: the machine stops where the hardware goes on. -/
  | notModelled (mnemonic : String)
  /-- Raised by `step` in a state whose configuration or program length lies outside the legal values of
  00_scope.md R8. The spec says nothing of such a launch (70 R433; 93 section 4, `refuse`). Safe. -/
  | illegalLaunch
  deriving DecidableEq, Repr

/-- A RAT entry (10_state.md R39). -/
inductive RatEntry where
  /-- the committed value in the ARF is current -/
  | arf
  /-- the value will come from ROB entry `t` -/
  | rob (t : Nat)
  deriving DecidableEq, Repr

/-- The whole RAT, one entry per register code (10_state.md R39). -/
abbrev AliasTable := Vector RatEntry 64

/-- Every entry `ARF`, as at reset (10_state.md R39). -/
def AliasTable.allArf : AliasTable := Vector.replicate 64 .arf

/-- An operand slot (10_state.md R41). -/
inductive Slot where
  /-- a concrete value -/
  | resolved (v : Word)
  /-- a ROB tag awaiting broadcast -/
  | pending (t : Nat)
  deriving DecidableEq, Repr

/-- The phase of a reservation-station entry (10_state.md R43). -/
inductive Phase where
  | waiting | executing | memWait | memAccess | resultReady | storeDone
  deriving DecidableEq, Repr

/-- A reservation-station entry (10_state.md R41). -/
structure RsEntry where
  busy : Bool
  op : Op
  dest : Nat
  j : Slot
  k : Slot
  imm : Word
  phase : Phase
  remaining : Nat
  addr : Word
  addrValid : Bool
  result : Word
  /-- the "already broadcast" flag, held at 0 (10_state.md R44) -/
  broadcast : Bool
  deriving DecidableEq, Repr

/-- A free entry as at reset; only `busy` is specified (10_state.md R41, log entry 5). -/
def RsEntry.free : RsEntry where
  busy := false
  op := .nop
  dest := 0
  j := .resolved 0
  k := .resolved 0
  imm := 0
  phase := .waiting
  remaining := 0
  addr := 0
  addrValid := false
  result := 0
  broadcast := false

/-- The timing record (10_state.md R48). -/
structure Timing where
  issue : Option Nat
  exStart : Option Nat
  exEnd : Option Nat
  memStart : Option Nat
  memEnd : Option Nat
  wb : Option Nat
  commit : Option Nat
  deriving DecidableEq, Repr

/-- Every field unset. -/
def Timing.unset : Timing := ⟨none, none, none, none, none, none, none⟩

/-- A ROB entry (10_state.md R47). -/
structure RobEntry where
  busy : Bool
  kind : RobKind
  op : Op
  dest : Reg
  value : Word
  complete : Bool
  done : Bool
  seq : Nat
  pc : Pc
  predTaken : Bool
  predTarget : Pc
  ckpt : AliasTable
  stAddr : Word
  stData : Word
  timing : Timing
  deriving DecidableEq, Repr

/-- A free entry as at reset; only `busy` is specified (10_state.md R47, log entry 5). -/
def RobEntry.free : RobEntry where
  busy := false
  kind := .nop
  op := .nop
  dest := .R 0
  value := 0
  complete := false
  done := false
  seq := 0
  pc := 0
  predTaken := false
  predTarget := 0
  ckpt := AliasTable.allArf
  stAddr := 0
  stData := 0
  timing := Timing.unset

/-- The reorder buffer (10_state.md R46). -/
structure Rob where
  entries : List RobEntry
  head : Nat
  tail : Nat
  count : Nat
  deriving DecidableEq, Repr

/-- The common data bus (10_state.md R51); `dest` is the source's "alias". -/
structure Cdb where
  valid : Bool
  tag : Nat
  dest : Reg
  value : Word
  seq : Nat
  deriving DecidableEq, Repr

/-- One functional-unit pool (10_state.md R52). -/
structure Pool where
  busy : Nat
  release : Nat
  deriving DecidableEq, Repr

/-- Who holds the memory port (10_state.md R53). -/
inductive PortOwner where
  | none
  /-- the load in LS entry `i` -/
  | load (i : Nat)
  /-- the store being committed at the ROB head -/
  | commit
  deriving DecidableEq, Repr

/-- The memory port (10_state.md R53). -/
structure Port where
  owner : PortOwner
  remaining : Nat
  release : Bool
  deriving DecidableEq, Repr

/-- A BTB entry (10_state.md R54). -/
structure BtbEntry where
  valid : Bool
  taken : Bool
  target : Pc
  deriving DecidableEq, Repr

/-- An invalid entry as at reset; only `valid` is specified (10_state.md R54, log entry 5). -/
def BtbEntry.invalid : BtbEntry := ⟨false, false, 0⟩

/-- The stages of a cycle that can raise a fault (40_engine_cycle.md R200). -/
inductive Stage where
  | issue | execute | writeBack | commit
  deriving DecidableEq, Repr

/-- A fault code with its information (60_exceptions.md R400). -/
inductive EngineFault where
  /-- code 1, raised by issue (R402) -/
  | illegalInstruction (pc : Pc) (word : InstrWord) (reason : DecodeReason)
  /-- code 2, raised by write-back (R403) -/
  | unknownOpcode (op : Op)
  /-- code 3, raised by any stage (R404) -/
  | invariantViolation (stage : Stage) (tag : Nat)
  deriving DecidableEq, Repr

/-- What a commit event carries besides the identity and the timing (40_engine_cycle.md R249). -/
inductive EventEffect where
  /-- kind `REG`: destination and committed value -/
  | wrote (dest : Reg) (value : Word)
  /-- kind `STORE`: address and data -/
  | stored (addr data : Word)
  /-- kinds `BRANCH` and `NOP` -/
  | nothing
  deriving DecidableEq, Repr

/-- A commit event (40_engine_cycle.md R249). -/
structure CommitEvent where
  seq : Nat
  pc : Pc
  op : Op
  effect : EventEffect
  timing : Timing
  deriving DecidableEq, Repr

/-- The data memory (20_memory.md R100, R101): address and 64-bit cell pairs, addresses strictly rising, no pair
equal to what an unlisted cell reads as (log entry 4). -/
abbrev Memory := List (Nat × Word)

/-- The machine's state: everything spec/10_state.md gives it, plain data. -/
structure State where
  /-- the launch's configuration (10_state.md R59) -/
  cfg : Config
  /-- the program store (20_memory.md R100 (b)) -/
  prog : List InstrWord
  /-- R0 to R31 (10_state.md R30) -/
  intRegs : Vector Word 32
  /-- F0 to F31 (10_state.md R31) -/
  fpRegs : Vector Word 32
  /-- the data memory (20_memory.md R100 (a)) -/
  mem : Memory
  /-- the clock (10_state.md R36) -/
  cycle : Nat
  /-- the fetch program counter (10_state.md R37) -/
  pc : Pc
  /-- the sequence counter (10_state.md R38) -/
  nextSeq : Nat
  /-- the register alias table (10_state.md R39) -/
  rat : AliasTable
  /-- the five reservation-station tables (10_state.md R41) -/
  rs : ClassMap (List RsEntry)
  /-- the reorder buffer (10_state.md R46) -/
  rob : Rob
  /-- the common data bus (10_state.md R51) -/
  cdb : Cdb
  /-- the functional-unit pools (10_state.md R52) -/
  pools : PoolMap Pool
  /-- the memory port (10_state.md R53) -/
  port : Port
  /-- the branch target buffer (10_state.md R54) -/
  btb : List BtbEntry
  /-- the fault register, `none` for `NONE` (10_state.md R55) -/
  fault : Option EngineFault
  /-- the commit events emitted so far, oldest first (40_engine_cycle.md R249, log entry 9) -/
  events : List CommitEvent
  deriving DecidableEq, Repr

/-- The state of 70_reset_and_hazards.md R430 under configuration `cfg` and program `prog`, before the launch maps
are applied: every register its free input, no memory cell named. -/
def State.blank (cfg : Config) (prog : List InstrWord) : State where
  cfg := cfg
  prog := prog
  intRegs := Vector.ofFn (fun i => Config.arfUnset (.R i))
  fpRegs := Vector.ofFn (fun i => Config.arfUnset (.F i))
  mem := []
  cycle := 0
  pc := 0
  nextSeq := 0
  rat := AliasTable.allArf
  rs := cfg.rsCount.map (fun n => List.replicate n RsEntry.free)
  rob := ⟨List.replicate cfg.robSize RobEntry.free, 0, 0, 0⟩
  cdb := ⟨false, 0, .R 0, 0, 0⟩
  pools := cfg.fuCount.map (fun _ => ⟨0, 0⟩)
  port := ⟨.none, 0, false⟩
  btb := List.replicate cfg.btbEntries BtbEntry.invalid
  fault := none
  events := []

/-- The machine right after reset with nothing supplied by a launch: the default configuration (70 R433), an empty
program, and every register and cell its free input (70 R430, 10_state.md R60). -/
def State.reset : State := State.blank Config.default []

end Sys2Proof.Machine
end

