-- ==== Sys2Proof/Machine/Ops.lean ====
section
/-! DEFINITION. Named operations over registers, memory, the tables and the fault register, shared by every stage
(spec/10_state.md, spec/20_memory.md, spec/60_exceptions.md R400 to R405). -/

namespace Sys2Proof.Machine

/-! ## Registers (10_state.md R33, R34) -/

/-- `x[r]`. -/
def State.readReg (s : State) : Reg → Word
  | .R i => s.intRegs[i]
  | .F i => s.fpRegs[i]

/-- `x[r] <- v`. No register is hardwired (10_state.md R32). -/
def State.writeReg (s : State) (r : Reg) (v : Word) : State :=
  match r with
  | .R i => { s with intRegs := s.intRegs.set i v }
  | .F i => { s with fpRegs := s.fpRegs.set i v }

/-! ## Memory (20_memory.md R101, R102, R113) -/

/-- `MemRead(addr, 1)`: the cell's value, its free input where nothing is listed. -/
def Memory.read (m : Memory) (a : Word) : Word :=
  match m with
  | [] => Config.memUnset a
  | (b, v) :: rest => if b = a.toNat then v else Memory.read rest a

/-- The memory with the pair of cell `a` taken out, if it has one. -/
def Memory.erase (m : Memory) (a : Nat) : Memory :=
  match m with
  | [] => []
  | (b, v) :: rest => if b = a then rest else (b, v) :: Memory.erase rest a

/-- The memory with the pair `(a, v)` put in its place, replacing a pair of cell `a`. -/
def Memory.insert (m : Memory) (a : Nat) (v : Word) : Memory :=
  match m with
  | [] => [(a, v)]
  | (b, w) :: rest =>
    if a < b then (a, v) :: (b, w) :: rest
    else if a = b then (a, v) :: rest
    else (b, w) :: Memory.insert rest a v

/-- `MemWrite(addr, 1, v)`: the cell becomes `v`; a cell that again holds its free input is not listed. -/
def Memory.write (m : Memory) (a v : Word) : Memory :=
  if v = Config.memUnset a then Memory.erase m a.toNat else Memory.insert m a.toNat v

/-- Addresses are at least `lo`, strictly rising and below 2^64, and no pair equals what an unlisted cell reads
as. -/
def Memory.wfFrom (lo : Nat) : Memory → Bool
  | [] => true
  | (a, v) :: rest =>
    decide (lo ≤ a) && decide (a < 2 ^ 64) && !(v == Config.memUnset (BitVec.ofNat 64 a))
      && Memory.wfFrom (a + 1) rest

/-- The canonical form of the memory (log entry 4). -/
def Memory.wf (m : Memory) : Bool := Memory.wfFrom 0 m

/-! ## The launch (70_reset_and_hazards.md R430, R434) -/

/-- The state a launch leaves: configuration, program store, `ARF_INIT` and `MEM_INIT`, everything else at its reset
value. It does not depend on any earlier state, so it is also a reset applied during a run (70 R430). -/
def State.launch (cfg : Config) (prog : List InstrWord) (arfInit : List (Reg × Word))
    (memInit : List (Word × Word)) : State :=
  let s := arfInit.foldl (fun s p => s.writeReg p.1 p.2) (State.blank cfg prog)
  { s with mem := memInit.foldl (fun m p => Memory.write m p.1 p.2) [] }

/-- The launch is within the legal values of 00_scope.md R8: configuration and `PROG_LEN`. -/
def State.launchLegal (s : State) : Bool :=
  s.cfg.legal && decide (s.prog.length < 2 ^ 32)

/-- `PROG` with word `w` at index `n`; indices below it that held no word hold the word 0, a `nop`. -/
def placeWord (prog : List InstrWord) (n : Nat) (w : InstrWord) : List InstrWord :=
  (prog ++ List.replicate (n + 1 - prog.length) 0).set n w

/-! ## The RAT (10_state.md R33, R39) -/

/-- The RAT index of a register: its 6-bit code. -/
def regIndex : Reg → Fin 64
  | .R i => ⟨i.val, by omega⟩
  | .F i => ⟨32 + i.val, by omega⟩

/-- `RAT[r]`, of the RAT or of a checkpoint. -/
def AliasTable.lookup (m : AliasTable) (r : Reg) : RatEntry := m[regIndex r]

/-- `RAT[r] <- v`. -/
def AliasTable.assign (m : AliasTable) (r : Reg) (v : RatEntry) : AliasTable := m.set (regIndex r) v

/-! ## The ROB (10_state.md R46, R47) -/

/-- `ROB[t]`; an index outside the buffer gives a free entry. -/
def State.robAt (s : State) (t : Nat) : RobEntry := (s.rob.entries[t]?).getD RobEntry.free

/-- Change `ROB[t]`. -/
def State.modifyRob (s : State) (t : Nat) (f : RobEntry → RobEntry) : State :=
  { s with rob := { s.rob with entries := s.rob.entries.modify t f } }

/-- Change the timing record of `ROB[t]`. -/
def State.modifyTiming (s : State) (t : Nat) (f : Timing → Timing) : State :=
  s.modifyRob t (fun e => { e with timing := f e.timing })

/-- How many entries `t` lies after the head, round the ring. -/
def State.robOffset (s : State) (t : Nat) : Nat :=
  (t + s.cfg.robSize - s.rob.head) % s.cfg.robSize

/-! ## The reservation stations (10_state.md R41) -/

/-- The table of class `k`. -/
def State.table (s : State) (k : FuClass) : List RsEntry := s.rs.get k

/-- `RS[k][i]`; an index outside the table gives a free entry. -/
def State.station (s : State) (k : FuClass) (i : Nat) : RsEntry := ((s.table k)[i]?).getD RsEntry.free

/-- Change the table of class `k`. -/
def State.modifyTable (s : State) (k : FuClass) (f : List RsEntry → List RsEntry) : State :=
  { s with rs := s.rs.modify k f }

/-- Change `RS[k][i]`. -/
def State.modifyStation (s : State) (k : FuClass) (i : Nat) (f : RsEntry → RsEntry) : State :=
  s.modifyTable k (fun tbl => tbl.modify i f)

/-- The classes in table order (00_scope.md R9). -/
def tableOrder : List FuClass := [.fpadd, .int, .mult, .ls, .br]

/-! ## The functional-unit pools (10_state.md R52) -/

/-- Class `k` has a unit to give: the branch class always (40_engine_cycle.md R222, R224). -/
def State.unitFree (s : State) (k : FuClass) : Bool :=
  match s.pools.get? k, s.cfg.fuCount.get? k with
  | some p, some n => decide (p.busy < n)
  | _, _ => true

/-- `fu_busy[k] <- fu_busy[k] + 1`, nothing for the branch class. -/
def State.takeUnit (s : State) (k : FuClass) : State :=
  { s with pools := s.pools.modify k (fun p => { p with busy := p.busy + 1 }) }

/-- `fu_release[k] <- fu_release[k] + n`, nothing for the branch class. -/
def State.releaseUnits (s : State) (k : FuClass) (n : Nat) : State :=
  { s with pools := s.pools.modify k (fun p => { p with release := p.release + n }) }

/-! ## The BTB (10_state.md R54) -/

/-- `index(pc) = pc mod BTB_ENTRIES`. -/
def State.btbIndex (s : State) (pc : Pc) : Nat := pc.toNat % s.cfg.btbEntries

/-- `BTB[pc mod BTB_ENTRIES]`. -/
def State.btbAt (s : State) (pc : Pc) : BtbEntry := (s.btb[s.btbIndex pc]?).getD BtbEntry.invalid

/-! ## Faults (60_exceptions.md R400 to R405)

The machine's only exception: raising a fault sets the fault register and stops the stage. There is no vector, no
saved state and no return (R401, R408). -/

/-- `fault ≠ NONE`. -/
def State.faulted (s : State) : Bool := s.fault.isSome

/-- `raise Fault(code, info)` (60_exceptions.md R401). -/
def raiseFault (f : EngineFault) (s : State) : State := { s with fault := some f }

/-- The number of a fault code, 0 for `NONE` (60_exceptions.md R400). -/
def faultNumber : Option EngineFault → Nat
  | none => 0
  | some (.illegalInstruction _ _ _) => 1
  | some (.unknownOpcode _) => 2
  | some (.invariantViolation _ _) => 3

/-- Run a stage, or a later part of one, only while no fault has been raised (40_engine_cycle.md R202). -/
def unlessFaulted (f : State → State) (s : State) : State := if s.faulted then s else f s

/-- A run of parts that stops at the first fault raised (40_engine_cycle.md R202). -/
def foldUnlessFaulted {α : Type} (f : α → State → State) : List α → State → State
  | [], s => s
  | x :: xs, s => foldUnlessFaulted f xs (unlessFaulted (f x) s)

/-! ## Age order (40_engine_cycle.md R220, R221; 60_exceptions.md R404) -/

/-- The indices of the busy entries of table `k`, rising. -/
def State.busyStations (s : State) (k : FuClass) : List Nat :=
  (List.range (s.table k).length).filter (fun i => (s.station k i).busy)

/-- The sequence id of the instruction in `RS[k][i]`. -/
def State.stationSeq (s : State) (k : FuClass) (i : Nat) : Nat := (s.robAt (s.station k i).dest).seq

/-- Put index `i` into a list of indices that rises by age. -/
def insertByAge (age : Nat → Nat) (i : Nat) : List Nat → List Nat
  | [] => [i]
  | j :: js => if age i ≤ age j then i :: j :: js else j :: insertByAge age i js

/-- The busy entries of table `k` in ascending sequence id (40_engine_cycle.md R221). -/
def State.ageOrder (s : State) (k : FuClass) : List Nat :=
  (s.busyStations k).foldr (insertByAge (s.stationSeq k)) []

/-- The `dest` tag of the first busy entry of table `k` whose ROB entry is not in flight: what a scan of the table
raises `INVARIANT_VIOLATION` for (60_exceptions.md R404, log entry 10). -/
def State.danglingStation (s : State) (k : FuClass) : Option Nat :=
  ((s.busyStations k).find? (fun i => !(s.robAt (s.station k i).dest).busy)).map
    (fun i => (s.station k i).dest)

/-! ## Halting (10_state.md R56, 40_engine_cycle.md R203) -/

/-- The output `halted`. -/
def State.halted (s : State) : Bool :=
  !s.faulted && decide (s.prog.length ≤ s.pc.toNat) && decide (s.rob.count = 0)

end Sys2Proof.Machine
end

