-- ==== Sys2Proof/Machine/Commit.lean ====
section
/-! DEFINITION. The commit stage: retirement in program order, the register write, and the store's commit transaction
(spec/40_engine_cycle.md R245 to R249; spec/43_load_store.md R336 to R339). -/

namespace Sys2Proof.Machine

/-- What the commit event of an entry carries besides identity and timing (40_engine_cycle.md R249). -/
def eventEffect (e : RobEntry) : EventEffect :=
  match e.kind with
  | .reg => .wrote e.dest e.value
  | .store => .stored e.stAddr e.stData
  | .branch => .nothing
  | .nop => .nothing

/-- The commit event of a retiring entry (40_engine_cycle.md R249). -/
def commitEvent (e : RobEntry) : CommitEvent := ⟨e.seq, e.pc, e.op, eventEffect e, e.timing⟩

/-- `retire(h, c)` of the head (40_engine_cycle.md R248). -/
def retire (s : State) : State :=
  let h := s.rob.head
  let s1 := s.modifyTiming h (fun t => { t with commit := some s.cycle })
  let s2 := { s1 with events := s1.events ++ [commitEvent (s1.robAt h)] }
  let s3 := s2.modifyRob h (fun e => { e with busy := false })
  { s3 with rob := { s3.rob with head := (h + 1) % s.cfg.robSize, count := s3.rob.count - 1 } }

/-- A RAT or checkpoint after entry `h`, which writes register `r`, has committed (40_engine_cycle.md R246, R247). -/
def AliasTable.settle (m : AliasTable) (r : Reg) (h : Nat) : AliasTable :=
  if m.lookup r = .rob h then m.assign r .arf else m

/-- Checkpoint upkeep in one ROB entry (40_engine_cycle.md R246, R247). -/
def settleCheckpoint (r : Reg) (h : Nat) (e : RobEntry) : RobEntry :=
  if e.busy && decide (e.kind = .branch) then { e with ckpt := e.ckpt.settle r h } else e

/-- `commit_reg(h, c)` (40_engine_cycle.md R246). -/
def commitReg (s : State) : State :=
  let h := s.rob.head
  let e := s.robAt h
  let s1 := s.writeReg e.dest e.value
  let s2 := { s1 with rat := s1.rat.settle e.dest h }
  retire { s2 with rob := { s2.rob with entries := s2.rob.entries.map (settleCheckpoint e.dest h) } }

/-- The station of the store at the head leaves its table (43_load_store.md R338). -/
def leaveTable (h : Nat) (e : RsEntry) : RsEntry :=
  if e.dest = h then { e with busy := false } else e

/-- `store_finish(c)` (43_load_store.md R338). A head that is not in flight is a fault (60_exceptions.md R404). -/
def storeFinish (s : State) : State :=
  let h := s.rob.head
  let e := s.robAt h
  if !e.busy then raiseFault (.invariantViolation .commit h) s
  else
    let s1 := { s with mem := s.mem.write e.stAddr e.stData }
    let s2 := s1.modifyTiming h (fun t => { t with memEnd := some s.cycle })
    let s3 := { s2 with port := { s2.port with release := true } }
    retire (s3.modifyTable .ls (List.map (leaveTable h)))

/-- `store_commit_start(c)` (43_load_store.md R336). -/
def storeCommitStart (s : State) : State :=
  let s1 := { s with port := { s.port with owner := .commit, remaining := s.cfg.memLat - 1 } }
  let s2 := s1.modifyTiming s.rob.head (fun t => { t with memStart := some s.cycle })
  if s2.port.remaining = 0 then storeFinish s2 else s2

/-- `store_commit_step(c)` (43_load_store.md R337). -/
def storeCommitStep (s : State) : State :=
  let s1 := { s with port := { s.port with remaining := s.port.remaining - 1 } }
  if s1.port.remaining = 0 then storeFinish s1 else s1

/-- The commit stage at a head that is in flight (40_engine_cycle.md R245). -/
def commitHead (s : State) : State :=
  let e := s.robAt s.rob.head
  if !e.done then s
  else
    match e.kind with
    | .reg => commitReg s
    | .store => if s.port.owner = .none then storeCommitStart s else s
    | .branch => retire s
    | .nop => retire s

/-- The commit stage (40_engine_cycle.md R245); a head that is not in flight is a fault (60_exceptions.md R404). -/
def commit (s : State) : State :=
  if s.port.owner = .commit then storeCommitStep s
  else if s.rob.count = 0 then s
  else if !(s.robAt s.rob.head).busy then raiseFault (.invariantViolation .commit s.rob.head) s
  else commitHead s

end Sys2Proof.Machine
end

