-- ==== Sys2Proof/Machine/Flags.lean ====
section
/-! DEFINITION. Conditions. The engine has no flags and no condition codes (spec/10_state.md R58); the two branches
compare two registers directly (spec/44_branch_recovery.md R365). -/

namespace Sys2Proof.Machine

/-- `beq` is taken when all 64 bits are equal (44_branch_recovery.md R365). -/
def beqTaken (a b : Word) : Bool := a == b

/-- `bne` is taken when some bit differs (44_branch_recovery.md R365). -/
def bneTaken (a b : Word) : Bool := !(a == b)

/-- `outcome(op, a, b)` (44_branch_recovery.md R365); only the two branches have one. -/
def branchOutcome : Op → Word → Word → Bool
  | .beq, a, b => beqTaken a b
  | .bne, a, b => bneTaken a b
  | _, _, _ => false

/-- `mispredicted(R, taken, target)` (44_branch_recovery.md R370): the direction differs, or both are taken and the
targets differ. -/
def mispredicted (e : RobEntry) (taken : Bool) (target : Pc) : Bool :=
  (e.predTaken != taken) || (e.predTaken && taken && (e.predTarget != target))

end Sys2Proof.Machine
end

