-- ==== Sys2Proof/WellFormed.lean ====
section
/-! DEFINITION. Which instruction records are well formed: the register file each operand must name
(spec/30_encoding.md R154, R163 (c)). -/

namespace Sys2Proof

/-- The operand must be an integer register. -/
def Reg.mustBeR (r : Reg) : Bool := r.isInt

/-- The operand must be a floating-point register. -/
def Reg.mustBeF (r : Reg) : Bool := !r.isInt

/-- The register files 30_encoding.md R154 demands of each instruction's operands. -/
def Instr.wf : Instr → Bool
  | .nop => true
  | .add rd rs rt => rd.mustBeR && rs.mustBeR && rt.mustBeR
  | .sub rd rs rt => rd.mustBeR && rs.mustBeR && rt.mustBeR
  | .addi rd rs _ => rd.mustBeR && rs.mustBeR
  | .addD fd fs ft => fd.mustBeF && fs.mustBeF && ft.mustBeF
  | .subD fd fs ft => fd.mustBeF && fs.mustBeF && ft.mustBeF
  | .multD fd fs ft => fd.mustBeF && fs.mustBeF && ft.mustBeF
  | .ld _ rb _ => rb.mustBeR
  | .sd _ rb _ => rb.mustBeR
  | .beq rs rt _ => rs.mustBeR && rt.mustBeR
  | .bne rs rt _ => rs.mustBeR && rt.mustBeR

/-- `Instr.wf` as a proposition. -/
abbrev WellFormed (i : Instr) : Prop := i.wf = true

end Sys2Proof
end

