-- ==== Sys2Proof/Decode.lean ====
section
/-! DEFINITION. The opcode map, the total decoder and the encoder (spec/30_encoding.md R152 to R164, R173). -/

namespace Sys2Proof

/-- Opcode map, class column (30_encoding.md R153): the reservation-station table the instruction uses. -/
def Op.fuClass : Op → Option FuClass
  | .nop => none
  | .add => some .int
  | .sub => some .int
  | .addi => some .int
  | .addD => some .fpadd
  | .subD => some .fpadd
  | .multD => some .mult
  | .ld => some .ls
  | .sd => some .ls
  | .beq => some .br
  | .bne => some .br

/-- Opcode map, ROB-kind column (30_encoding.md R153). -/
def Op.kind : Op → RobKind
  | .nop => .nop
  | .add => .reg
  | .sub => .reg
  | .addi => .reg
  | .addD => .reg
  | .subD => .reg
  | .multD => .reg
  | .ld => .reg
  | .sd => .store
  | .beq => .branch
  | .bne => .branch

/-- Opcode map, number column (30_encoding.md R153). -/
def Op.code : Op → BitVec 4
  | .nop => 0
  | .add => 1
  | .sub => 2
  | .addi => 3
  | .addD => 4
  | .subD => 5
  | .multD => 6
  | .ld => 7
  | .sd => 8
  | .beq => 9
  | .bne => 10

/-- The opcode of an instruction record. -/
def Instr.op : Instr → Op
  | .nop => .nop
  | .add _ _ _ => .add
  | .sub _ _ _ => .sub
  | .addi _ _ _ => .addi
  | .addD _ _ _ => .addD
  | .subD _ _ _ => .subD
  | .multD _ _ _ => .multD
  | .ld _ _ _ => .ld
  | .sd _ _ _ => .sd
  | .beq _ _ _ => .beq
  | .bne _ _ _ => .bne

/-- The 6-bit register code: bit 5 the file, bits 4:0 the index (10_state.md R33). -/
def Reg.code : Reg → BitVec 6
  | .R i => BitVec.ofNat 6 i.val
  | .F i => BitVec.ofNat 6 (32 + i.val)

/-- The register a 6-bit code names (10_state.md R33). -/
def Reg.ofCode (c : BitVec 6) : Reg :=
  let i : Fin 32 := ⟨c.toNat % 32, Nat.mod_lt _ (by decide)⟩
  if c.toNat < 32 then .R i else .F i

/-- The fields of 30_encoding.md R152. -/
def opField (w : InstrWord) : BitVec 4 := w.extractLsb' 28 4

/-- `ra = w[27:22]`. -/
def raField (w : InstrWord) : Reg := Reg.ofCode (w.extractLsb' 22 6)

/-- `rb = w[21:16]`. -/
def rbField (w : InstrWord) : Reg := Reg.ofCode (w.extractLsb' 16 6)

/-- `rc = w[15:10]`. -/
def rcField (w : InstrWord) : Reg := Reg.ofCode (w.extractLsb' 10 6)

/-- `imm16 = w[15:0]` (30_encoding.md R160). -/
def immField (w : InstrWord) : BitVec 16 := w.extractLsb' 0 16

/-- 30_encoding.md R163 (c): the record is valid only when its registers are of the files R154 allows. -/
def checkFiles (i : Instr) : Decoded :=
  if i.wf then .valid i else .invalid .registerFile

/-- An R-format word: `w[9:0]` must be 0 (R163 (b)), then the files are checked (R163 (c)). -/
def decodeR (mk : Reg → Reg → Reg → Instr) (w : InstrWord) : Decoded :=
  if w.extractLsb' 0 10 = 0#10 then checkFiles (mk (raField w) (rbField w) (rcField w))
  else .invalid .reservedBits

/-- An I-format word. -/
def decodeI (mk : Reg → Reg → BitVec 16 → Instr) (w : InstrWord) : Decoded :=
  checkFiles (mk (raField w) (rbField w) (immField w))

/-- An N-format word: `w[27:0]` must be 0 (R163 (b)). -/
def decodeN (i : Instr) (w : InstrWord) : Decoded :=
  if w.extractLsb' 0 28 = 0#28 then checkFiles i else .invalid .reservedBits

/-- `decode(w)` (30_encoding.md R162, R163), total on all 32-bit words; the first reason in the order of
60_exceptions.md R402. -/
def decode (w : InstrWord) : Decoded :=
  match (opField w).toNat with
  | 0 => decodeN .nop w
  | 1 => decodeR .add w
  | 2 => decodeR .sub w
  | 3 => decodeI .addi w
  | 4 => decodeR .addD w
  | 5 => decodeR .subD w
  | 6 => decodeR .multD w
  | 7 => decodeI .ld w
  | 8 => decodeI .sd w
  | 9 => decodeI .beq w
  | 10 => decodeI .bne w
  | _ => .invalid .reservedOpcode

/-- Format R of 30_encoding.md R152, R173: `op ‖ ra ‖ rb ‖ rc ‖ 0`. -/
def encodeR (op : Op) (ra rb rc : Reg) : InstrWord :=
  op.code ++ ra.code ++ rb.code ++ rc.code ++ 0#10

/-- Format I of 30_encoding.md R152, R173: `op ‖ ra ‖ rb ‖ imm16`. -/
def encodeI (op : Op) (ra rb : Reg) (imm : BitVec 16) : InstrWord :=
  op.code ++ ra.code ++ rb.code ++ imm

/-- The word of an instruction (30_encoding.md R173). -/
def encode : Instr → InstrWord
  | .nop => Op.nop.code ++ 0#28
  | .add rd rs rt => encodeR .add rd rs rt
  | .sub rd rs rt => encodeR .sub rd rs rt
  | .addi rd rs imm => encodeI .addi rd rs imm
  | .addD fd fs ft => encodeR .addD fd fs ft
  | .subD fd fs ft => encodeR .subD fd fs ft
  | .multD fd fs ft => encodeR .multD fd fs ft
  | .ld rt rb off => encodeI .ld rt rb off
  | .sd rt rb off => encodeI .sd rt rb off
  | .beq rs rt off => encodeI .beq rs rt off
  | .bne rs rt off => encodeI .bne rs rt off

/-- The decoder on a word numbered as spec/opcode_table.json numbers it: bits above `nbits` are 0. An
instruction is one 32-bit word (30_encoding.md R151); a table of more bits than that holds none. -/
def decodeTableWord (nbits w : Nat) : Option Instr :=
  if nbits ≤ 32 then
    match decode (BitVec.ofNat 32 (w % 2 ^ nbits)) with
    | .valid i => some i
    | .invalid _ => none
  else none

end Sys2Proof
end

