-- ==== Sys2Proof/Machine/Operands.lean ====
section
/-! DEFINITION. Operand forms: resolution against the RAT, operand slots, immediates, effective addresses and branch
targets (spec/40_engine_cycle.md R213, R214, R235; spec/30_encoding.md R160; spec/43_load_store.md R322;
spec/44_branch_recovery.md R366). -/

namespace Sys2Proof.Machine

/-- How an operand slot is filled (40_engine_cycle.md R214). -/
inductive Operand where
  /-- `resolve(r)` -/
  | reg (r : Reg)
  /-- `resolved(v)` -/
  | value (v : Word)
  deriving DecidableEq, Repr

/-- What resolving an operand gives: a slot, or the tag of a ROB entry that is not in flight (60_exceptions.md
R404). -/
inductive Resolution where
  | slot (v : Slot)
  | dangling (tag : Nat)
  deriving DecidableEq, Repr

/-- `resolve(r)` (40_engine_cycle.md R213). -/
def resolveReg (s : State) (r : Reg) : Resolution :=
  match s.rat.lookup r with
  | .arf => .slot (.resolved (s.readReg r))
  | .rob u =>
    let e := s.robAt u
    if !e.busy then .dangling u
    else if e.complete then .slot (.resolved e.value)
    else .slot (.pending u)

/-- The slot an operand form gives (40_engine_cycle.md R214). -/
def resolveOperand (s : State) : Operand → Resolution
  | .reg r => resolveReg s r
  | .value v => .slot (.resolved v)

/-- The slot holds a value. -/
def Slot.ready : Slot → Bool
  | .resolved _ => true
  | .pending _ => false

/-- The slot's value. No rule reads it while the slot is pending (10_state.md R45): there it is a free value (log
entry 11). -/
def Slot.val : Slot → Word
  | .resolved v => v
  | .pending t => Config.absentOperand t

/-- The slot after a broadcast of `v` for `tag` (40_engine_cycle.md R235). -/
def Slot.capture (tag : Nat) (v : Word) : Slot → Slot
  | .resolved w => .resolved w
  | .pending t => if t = tag then .resolved v else .pending t

/-- `sext_64(imm16)` (30_encoding.md R160). -/
def sext64 (imm : BitVec 16) : Word := imm.signExtend 64

/-- `sext_32(imm[15:0])` of the station's immediate field (44_branch_recovery.md R364). -/
def branchDisplacement (imm : Word) : Pc := (imm.extractLsb' 0 16).signExtend 32

/-- `addr = base +_64 imm` (43_load_store.md R322). -/
def effectiveAddress (base imm : Word) : Word := base + imm

/-- `target = pc +_32 1 +_32 sext_32(off)` (44_branch_recovery.md R366). -/
def branchTarget (pc : Pc) (imm : Word) : Pc := pc + 1 + branchDisplacement imm

end Sys2Proof.Machine
end

