-- ==== Sys2Proof/Machine/Issue.lean ====
section
/-! DEFINITION. The issue stage behind the decoder: gates, allocation, operand resolution, prediction and checkpoint,
rename, next pc (spec/40_engine_cycle.md R206, R208 to R219; spec/44_branch_recovery.md R362, R363). -/

namespace Sys2Proof.Machine

/-- What the issue stage needs to know of an instruction: its opcode, the register it renames, the forms of its two
operand slots and the station's immediate field (40_engine_cycle.md R214, R215, R217). -/
structure IssueForm where
  op : Op
  dest : Option Reg
  j : Operand
  k : Operand
  imm : Word
  deriving DecidableEq, Repr

/-- The lowest index of a free entry of table `k` (40_engine_cycle.md R215). -/
def State.freeStation (s : State) (k : FuClass) : Option Nat :=
  (s.table k).findIdx? (fun e => !e.busy)

/-- The issue gates (40_engine_cycle.md R209): a free ROB entry, and a free entry of the class's table unless the
instruction has no class. -/
def State.canIssue (s : State) (op : Op) : Bool :=
  decide (s.rob.count < s.cfg.robSize) &&
    (match op.fuClass with
     | none => true
     | some k => (s.freeStation k).isSome)

/-- The ROB entry issue writes over the old one (40_engine_cycle.md R211); the fields the rule leaves unspecified keep
what they held (log entry 5). -/
def newRobEntry (f : IssueForm) (s : State) (old : RobEntry) : RobEntry :=
  { old with
    busy := true
    kind := f.op.kind
    op := f.op
    dest := f.dest.getD old.dest
    complete := false
    done := false
    seq := s.nextSeq
    pc := s.pc
    timing := { Timing.unset with issue := some s.cycle } }

/-- ROB allocation and the sequence id (40_engine_cycle.md R211, R212). -/
def allocateRob (f : IssueForm) (s : State) : State :=
  { s with
    rob :=
      { entries := s.rob.entries.modify s.rob.tail (newRobEntry f s)
        head := s.rob.head
        tail := (s.rob.tail + 1) % s.cfg.robSize
        count := s.rob.count + 1 }
    nextSeq := s.nextSeq + 1 }

/-- The station entry issue writes over the old one (40_engine_cycle.md R215). -/
def newStation (f : IssueForm) (t : Nat) (j k : Slot) (old : RsEntry) : RsEntry :=
  { old with
    busy := true
    op := f.op
    dest := t
    j := j
    k := k
    imm := f.imm
    phase := .waiting
    addrValid := false
    broadcast := false }

/-- Fill the free entry of table `k` with the lowest index (40_engine_cycle.md R215). -/
def fillStation (f : IssueForm) (c : FuClass) (t : Nat) (j k : Slot) (s : State) : State :=
  match s.freeStation c with
  | none => s
  | some i => s.modifyStation c i (newStation f t j k)

/-- `predict(pc)` (44_branch_recovery.md R362): the pair `(pred_taken, pred_target)`. -/
def predict (s : State) (pc : Pc) : Bool × Pc :=
  let b := s.btbAt pc
  if b.valid && b.taken then (true, b.target) else (false, pc + 1)

/-- For a branch, record the prediction and copy the whole RAT (40_engine_cycle.md R216, 44_branch_recovery.md R362,
R363). -/
def snapshotBranch (op : Op) (t : Nat) (s : State) : State :=
  if op.kind = .branch then
    let p := predict s s.pc
    s.modifyRob t (fun e => { e with predTaken := p.1, predTarget := p.2, ckpt := s.rat })
  else s

/-- Rename the destination, if there is one (40_engine_cycle.md R217). -/
def renameDest (dest : Option Reg) (t : Nat) (s : State) : State :=
  match dest with
  | none => s
  | some r => { s with rat := s.rat.assign r (.rob t) }

/-- A nop is complete at once (40_engine_cycle.md R218). -/
def completeAtIssue (t : Nat) (s : State) : State :=
  s.modifyRob t (fun e => { e with complete := true })

/-- The next pc (40_engine_cycle.md R219). -/
def chooseNextPc (op : Op) (t : Nat) (s : State) : State :=
  if op.kind = .branch ∧ (s.robAt t).predTaken then { s with pc := (s.robAt t).predTarget }
  else { s with pc := s.pc + 1 }

/-- Issue into a reservation station of class `c`, the ROB entry `t` already allocated: resolve the operands, fill the
station, snapshot, rename, choose the next pc, in the order of 40_engine_cycle.md R206. -/
def issueToStation (f : IssueForm) (c : FuClass) (t : Nat) (s : State) : State :=
  match resolveOperand s f.j with
  | .dangling u => raiseFault (.invariantViolation .issue u) s
  | .slot j =>
    match resolveOperand s f.k with
    | .dangling u => raiseFault (.invariantViolation .issue u) s
    | .slot k =>
      chooseNextPc f.op t (renameDest f.dest t (snapshotBranch f.op t (fillStation f c t j k s)))

/-- Issue one decoded instruction (40_engine_cycle.md R206 from R208 on): a closed gate stalls and changes nothing
(R210). -/
def issue (f : IssueForm) (s : State) : State :=
  if s.canIssue f.op then
    let t := s.rob.tail
    let s1 := allocateRob f s
    match f.op.fuClass with
    | none => chooseNextPc f.op t (completeAtIssue t s1)
    | some c => issueToStation f c t s1
  else s

end Sys2Proof.Machine
end

