-- ==== Sys2Proof/Machine/Branch.lean ====
section
/-! DEFINITION. The branches (spec/44_branch_recovery.md): issue, resolution, BTB training, squash and recovery. -/

namespace Sys2Proof.Machine

/-- `beq rs, rt, off` (44_branch_recovery.md R360). -/
def execBeq (rs rt : Reg) (off : BitVec 16) (s : State) : Host.Outcome State Fault Refusal :=
  .next (issue ⟨.beq, none, .reg rs, .reg rt, sext64 off⟩ s)

/-- `bne rs, rt, off` (44_branch_recovery.md R361). -/
def execBne (rs rt : Reg) (off : BitVec 16) (s : State) : Host.Outcome State Fault Refusal :=
  .next (issue ⟨.bne, none, .reg rs, .reg rt, sext64 off⟩ s)

/-- BTB training with the actual outcome and the computed target (44_branch_recovery.md R367). -/
def trainBtb (pc : Pc) (taken : Bool) (target : Pc) (s : State) : State :=
  { s with btb := s.btb.set (s.btbIndex pc) ⟨true, taken, target⟩ }

/-- The entry holds an instruction younger than sequence id `n`. -/
def State.younger (s : State) (n : Nat) (e : RsEntry) : Bool :=
  e.busy && decide (n < (s.robAt e.dest).seq)

/-- Squash one table (44_branch_recovery.md R375): executing entries give their units back, a load's port hold ends,
and the younger entries leave the table. A dangling tag is a fault (60_exceptions.md R404). -/
def squashTable (n : Nat) (k : FuClass) (s : State) : State :=
  match s.danglingStation k with
  | some u => raiseFault (.invariantViolation .execute u) s
  | none =>
    let dropped := (s.table k).filter (s.younger n)
    let s1 := s.releaseUnits k (dropped.countP (fun e : RsEntry => decide (e.phase = Phase.executing)))
    let s2 := { s1 with port := { s1.port with
      release := s1.port.release || dropped.any (fun e => decide (e.phase = Phase.memAccess)) } }
    s2.modifyTable k (List.map (fun e : RsEntry => { e with busy := e.busy && !s.younger n e }))

/-- Free the `n` ROB entries from index `t` on, round the ring. -/
def freeRobFrom (t n : Nat) (s : State) : State :=
  match n with
  | 0 => s
  | n + 1 => freeRobFrom ((t + 1) % s.cfg.robSize) n (s.modifyRob t (fun e => { e with busy := false }))

/-- Truncate the ROB after entry `b` (44_branch_recovery.md R375). -/
def truncateRob (b : Nat) (s : State) : State :=
  let kept := s.robOffset b + 1
  let next := (b + 1) % s.cfg.robSize
  let s1 := freeRobFrom next (s.rob.count - kept) s
  { s1 with rob := { s1.rob with tail := next, count := kept } }

/-- Purge a younger pending broadcast (44_branch_recovery.md R375). -/
def purgeCdb (n : Nat) (s : State) : State :=
  if s.cdb.valid && decide (n < s.cdb.seq) then { s with cdb := { s.cdb with valid := false } } else s

/-- `squash(b, c)` (44_branch_recovery.md R375). -/
def squash (b : Nat) (s : State) : State :=
  let n := (s.robAt b).seq
  unlessFaulted (fun s => purgeCdb n (truncateRob b s)) (foldUnlessFaulted (squashTable n) tableOrder s)

/-- RAT restore, redirect and sequence restore (44_branch_recovery.md R376 to R378). -/
def recover (b : Nat) (taken : Bool) (target : Pc) (s : State) : State :=
  let e := s.robAt b
  { s with
    rat := e.ckpt
    pc := if taken then target else e.pc + 1
    nextSeq := e.seq + 1 }

/-- `resolve_branch(i, c)` (44_branch_recovery.md R364 to R378). -/
def resolveBranch (i : Nat) (s : State) : State :=
  let e := s.station .br i
  let r := s.robAt e.dest
  let taken := branchOutcome e.op e.j.val e.k.val
  let target := branchTarget r.pc e.imm
  let s1 := trainBtb r.pc taken target s
  let s2 := s1.modifyStation .br i (fun e => { e with busy := false })
  let s3 := s2.modifyRob e.dest (fun r => { r with complete := true })
  if mispredicted r taken target then
    unlessFaulted (recover e.dest taken target) (squash e.dest s3)
  else s3

end Sys2Proof.Machine
end

