-- ==== Sys2Proof/Machine/LoadStore.lean ====
section
/-! DEFINITION. The load and the store (spec/43_load_store.md): issue, address completion, disambiguation, forwarding
and the load's memory phase. The store's commit transaction is in Machine/Commit.lean. -/

namespace Sys2Proof.Machine

/-- `ld rt, off(rb)` (43_load_store.md R320): base in `j`, `k` unused. -/
def execLd (rt rb : Reg) (off : BitVec 16) (s : State) : Host.Outcome State Fault Refusal :=
  .next (issue ⟨.ld, some rt, .reg rb, .value 0, sext64 off⟩ s)

/-- `sd rt, off(rb)` (43_load_store.md R321): base in `j`, the value to store in `k`. -/
def execSd (rt rb : Reg) (off : BitVec 16) (s : State) : Host.Outcome State Fault Refusal :=
  .next (issue ⟨.sd, none, .reg rb, .reg rt, sext64 off⟩ s)

/-- The result of a load at write-back: the value it obtained (43_load_store.md R320). -/
def ldValue (e : RsEntry) : Word := e.result

/-- A load's address phase ends (43_load_store.md R323). -/
def loadAddressed (a : Word) (e : RsEntry) : RsEntry :=
  { e with addr := a, addrValid := true, phase := .memWait }

/-- A store's address phase ends (43_load_store.md R323). -/
def storeAddressed (a : Word) (e : RsEntry) : RsEntry :=
  { e with addr := a, addrValid := true, phase := .storeDone }

/-- `ls_finish(i, c)` (43_load_store.md R322, R323). -/
def lsFinish (i : Nat) (s : State) : State :=
  let e := s.station .ls i
  let a := effectiveAddress e.j.val e.imm
  if e.op = .ld then s.modifyStation .ls i (loadAddressed a)
  else
    (s.modifyStation .ls i (storeAddressed a)).modifyRob e.dest
      (fun r => { r with stAddr := a, stData := e.k.val, complete := true })

/-- The older resident stores of the load in LS entry `i`: the set `S` of 43_load_store.md R324. -/
def State.olderStores (s : State) (i : Nat) : List Nat :=
  (s.busyStations .ls).filter
    (fun q => decide ((s.station .ls q).op = .sd) && decide (s.stationSeq .ls q < s.stationSeq .ls i))

/-- Those of them with the load's address: the set `M` of 43_load_store.md R324. -/
def State.matchingStores (s : State) (i : Nat) : List Nat :=
  (s.olderStores i).filter (fun q => (s.station .ls q).addr == (s.station .ls i).addr)

/-- The entry of a list of LS indices with the largest sequence id. -/
def State.youngest (s : State) : List Nat → Option Nat
  | [] => none
  | q :: qs =>
    match State.youngest s qs with
    | none => some q
    | some p => if s.stationSeq .ls p < s.stationSeq .ls q then some q else some p

/-- A recorded cycle number lies before cycle `c`; an unset one does not. -/
def before (x : Option Nat) (c : Nat) : Bool :=
  match x with
  | none => false
  | some n => decide (n < c)

/-- `forward(i, q, c)` (43_load_store.md R326). -/
def forward (i q : Nat) (s : State) : State :=
  let v := (s.robAt (s.station .ls q).dest).stData
  (s.modifyStation .ls i (fun e => { e with result := v, phase := .resultReady })).modifyTiming
    (s.station .ls i).dest (fun t => { t with memStart := some s.cycle, memEnd := some s.cycle })

/-- `load_finish(i, c)` (43_load_store.md R328). -/
def loadFinish (i : Nat) (s : State) : State :=
  let e := s.station .ls i
  let s1 := s.modifyStation .ls i
    (fun e => { e with result := s.mem.read e.addr, phase := .resultReady })
  let s2 := s1.modifyTiming e.dest (fun t => { t with memEnd := some s.cycle })
  { s2 with port := { s2.port with release := true } }

/-- `load_start(i, c)` (43_load_store.md R327). -/
def loadStart (i : Nat) (s : State) : State :=
  let e := s.station .ls i
  let s1 := { s with port := { s.port with owner := .load i } }
  let s2 := s1.modifyTiming e.dest (fun t => { t with memStart := some s.cycle })
  let s3 := s2.modifyStation .ls i
    (fun e => { e with phase := .memAccess, remaining := s.cfg.memLat - 1 })
  if s.cfg.memLat - 1 = 0 then loadFinish i s3 else s3

/-- The visit of a load in phase `MEM_ACCESS` (43_load_store.md R324). -/
def memAccessStep (i : Nat) (s : State) : State :=
  let s1 := s.modifyStation .ls i (fun e => { e with remaining := e.remaining - 1 })
  if (s1.station .ls i).remaining = 0 then loadFinish i s1 else s1

/-- The visit of a load in phase `MEM_WAIT`: disambiguation, then forwarding or a memory access (43_load_store.md R324
to R327). -/
def memWaitStep (i : Nat) (s : State) : State :=
  if (s.olderStores i).any (fun q => !(s.station .ls q).addrValid) then s
  else
    match s.youngest (s.matchingStores i) with
    | some q =>
      if before (s.robAt (s.station .ls q).dest).timing.exEnd s.cycle then forward i q s else s
    | none => if s.port.owner = .none then loadStart i s else s

end Sys2Proof.Machine
end

