-- ==== Sys2Proof/Machine/Execute.lean ====
section
/-! DEFINITION. The execute stage shared by every class (spec/40_engine_cycle.md R220 to R226). -/

namespace Sys2Proof.Machine

/-- `L(k)`: `EX_LAT[k]`, and `max(EX_LAT[BR], 1)` for branches (40_engine_cycle.md R225). -/
def Config.latency (c : Config) : FuClass → Nat
  | .br => max c.exLat.br 1
  | k => c.exLat.get k

/-- `finish(k, i, c)` (40_engine_cycle.md R226). -/
def finish (k : FuClass) (i : Nat) (s : State) : State :=
  let s1 := s.modifyTiming (s.station k i).dest (fun t => { t with exEnd := some s.cycle })
  let s2 := s1.releaseUnits k 1
  match k with
  | .fpadd => s2.modifyStation .fpadd i (fun e => { e with phase := .resultReady })
  | .int => s2.modifyStation .int i (fun e => { e with phase := .resultReady })
  | .mult => s2.modifyStation .mult i (fun e => { e with phase := .resultReady })
  | .ls => lsFinish i s2
  | .br => resolveBranch i s2

/-- `start(k, i, c)` (40_engine_cycle.md R225). -/
def start (k : FuClass) (i : Nat) (s : State) : State :=
  let s1 := s.takeUnit k
  let s2 := s1.modifyTiming (s.station k i).dest (fun t => { t with exStart := some s.cycle })
  let s3 := s2.modifyStation k i
    (fun e => { e with phase := .executing, remaining := Config.latency s.cfg k - 1 })
  if Config.latency s.cfg k - 1 = 0 then finish k i s3 else s3

/-- An entry may start: both slots resolved, not issued in this cycle, and a unit free (40_engine_cycle.md R222 to
R224, 10_state.md R45). -/
def State.canStart (s : State) (k : FuClass) (i : Nat) : Bool :=
  let e := s.station k i
  e.j.ready && e.k.ready && before (s.robAt e.dest).timing.issue s.cycle && s.unitFree k

/-- The visit of an entry in phase `EXECUTING` (40_engine_cycle.md R222). -/
def executingStep (k : FuClass) (i : Nat) (s : State) : State :=
  let s1 := s.modifyStation k i (fun e => { e with remaining := e.remaining - 1 })
  if (s1.station k i).remaining = 0 then finish k i s1 else s1

/-- `step(k, i, c)`, one visit (40_engine_cycle.md R222): an entry removed earlier in the stage is skipped (R220), and a
tag that names no entry in flight is a fault (60_exceptions.md R404). -/
def visit (k : FuClass) (i : Nat) (s : State) : State :=
  let e := s.station k i
  if !e.busy then s
  else if !(s.robAt e.dest).busy then raiseFault (.invariantViolation .execute e.dest) s
  else
    match e.phase with
    | .waiting => if s.canStart k i then start k i s else s
    | .executing => executingStep k i s
    | .memWait => memWaitStep i s
    | .memAccess => memAccessStep i s
    | .resultReady => s
    | .storeDone => s

/-- Scan one table in age order, the list of entries taken when the scan begins (40_engine_cycle.md R220, R221). -/
def scanTable (k : FuClass) (s : State) : State :=
  match s.danglingStation k with
  | some u => raiseFault (.invariantViolation .execute u) s
  | none => foldUnlessFaulted (visit k) (s.ageOrder k) s

/-- The execute stage (40_engine_cycle.md R220). -/
def execute (s : State) : State := foldUnlessFaulted scanTable tableOrder s

end Sys2Proof.Machine
end

