-- ==== Sys2Proof/Machine/FpArith.lean ====
section
/-! DEFINITION. IEEE 754 binary64 addition, subtraction and multiplication, round to nearest, ties to even
(spec/42_fp.md R300). Finite values are exact integers counted in units of 2^-1074, the least subnormal, so every
result is computed exactly and rounded once. -/

namespace Sys2Proof.Machine

/-- Bit 63. -/
def fpSign (a : Word) : Bool := a.getLsbD 63

/-- Bits 62:52, the biased exponent. -/
def fpExp (a : Word) : Nat := (a.extractLsb' 52 11).toNat

/-- Bits 51:0, the fraction. -/
def fpFrac (a : Word) : Nat := (a.extractLsb' 0 52).toNat

/-- The exponent is all ones and the fraction is not zero. -/
def fpIsNaN (a : Word) : Bool := fpExp a == 2047 && fpFrac a != 0

/-- The exponent is all ones and the fraction is zero. -/
def fpIsInf (a : Word) : Bool := fpExp a == 2047 && fpFrac a == 0

/-- The exponent is not all ones. -/
def fpIsFinite (a : Word) : Bool := fpExp a != 2047

/-- The magnitude of a finite value in units of 2^-1074: a subnormal is its fraction, a normal its significand
times 2^(exponent - 1). -/
def fpMagnitude (a : Word) : Nat :=
  if fpExp a = 0 then fpFrac a else (2 ^ 52 + fpFrac a) * 2 ^ (fpExp a - 1)

/-- The signed value of a finite pattern in units of 2^-1074. -/
def fpUnits (a : Word) : Int :=
  if fpSign a then -(fpMagnitude a : Int) else (fpMagnitude a : Int)

/-- A pattern from its sign and its low 63 bits. -/
def fpPack (sign : Bool) (low : Nat) : Word :=
  (if sign then 1#1 else 0#1) ++ BitVec.ofNat 63 low

/-- The low 63 bits of infinity. -/
def fpInfLow : Nat := 2047 * 2 ^ 52

/-- `±∞`. -/
def fpInf (sign : Bool) : Word := fpPack sign fpInfLow

/-- `±0`. -/
def fpZero (sign : Bool) : Word := fpPack sign 0

/-- `n / 2^k` rounded to the nearest integer, ties to even. -/
def roundShift (n k : Nat) : Nat :=
  let q := n / 2 ^ k
  let r := n % 2 ^ k
  if 2 ^ k < 2 * r ∨ (2 * r = 2 ^ k ∧ q % 2 = 1) then q + 1 else q

/-- The low 63 bits of the binary64 value nearest to `n * 2^-(1074 + extra)`, ties to even: the significand keeps 53
bits, fewer where the value is subnormal, and a value too large becomes infinity (overflow, 42_fp.md R300). A carry
out of the significand moves into the exponent field by itself. -/
def fpRoundLow (n extra : Nat) : Nat :=
  let k := max extra (Nat.log2 n - 52)
  min fpInfLow ((k - extra) * 2 ^ 52 + roundShift n k)

/-- The sum of two finite values (42_fp.md R300): exact, then rounded; an exact zero is `+0` unless both operands are
negative. -/
def fpAddFinite (a b : Word) : Word :=
  let z := fpUnits a + fpUnits b
  if z = 0 then fpZero (fpSign a && fpSign b)
  else fpPack (decide (z < 0)) (fpRoundLow z.natAbs 0)

/-- `fadd64` (42_fp.md R300). -/
def fadd64 (a b : Word) : Word :=
  if fpIsNaN a || fpIsNaN b then Config.fpNan
  else if fpIsInf a && fpIsInf b then
    (if fpSign a = fpSign b then a else Config.fpNan)
  else if fpIsInf a then a
  else if fpIsInf b then b
  else fpAddFinite a b

/-- The pattern with its sign bit flipped. -/
def fpNegate (a : Word) : Word := a ^^^ 0x8000000000000000#64

/-- `fsub64` (42_fp.md R300): addition of the second operand with its sign flipped. -/
def fsub64 (a b : Word) : Word := fadd64 a (fpNegate b)

/-- `fmul64` (42_fp.md R300): the sign is the exclusive or of the signs; `0 × ∞` is a NaN. -/
def fmul64 (a b : Word) : Word :=
  let sign := fpSign a != fpSign b
  if fpIsNaN a || fpIsNaN b then Config.fpNan
  else if fpIsInf a || fpIsInf b then
    (if fpMagnitude a = 0 || fpMagnitude b = 0 then Config.fpNan else fpInf sign)
  else fpPack sign (fpRoundLow (fpMagnitude a * fpMagnitude b) 1074)

end Sys2Proof.Machine
end

