-- ==== Sys2Proof/Machine/FloatingPoint.lean ====
section
/-! DEFINITION. The floating-point instructions `add.d`, `sub.d`, `mult.d` (spec/42_fp.md): what each computes at
write-back and how each is issued. -/

namespace Sys2Proof.Machine

/-- `add.d`: `fadd64(j.val, k.val)` (42_fp.md R301). -/
def addDValue (j k : Word) : Word := fadd64 j k

/-- `sub.d`: `fsub64(j.val, k.val)` (42_fp.md R302). -/
def subDValue (j k : Word) : Word := fsub64 j k

/-- `mult.d`: `fmul64(j.val, k.val)` (42_fp.md R303). -/
def multDValue (j k : Word) : Word := fmul64 j k

/-- `add.d fd, fs, ft` (42_fp.md R301); its sum is `addDValue`. -/
def execAddD (fd fs ft : Reg) (s : State) : Host.Outcome State Fault Refusal :=
  .next (issue ⟨.addD, some fd, .reg fs, .reg ft, 0⟩ s)

/-- `sub.d fd, fs, ft` (42_fp.md R302); its difference is `subDValue`. -/
def execSubD (fd fs ft : Reg) (s : State) : Host.Outcome State Fault Refusal :=
  .next (issue ⟨.subD, some fd, .reg fs, .reg ft, 0⟩ s)

/-- `mult.d fd, fs, ft` (42_fp.md R303); its product is `multDValue`. -/
def execMultD (fd fs ft : Reg) (s : State) : Host.Outcome State Fault Refusal :=
  .next (issue ⟨.multD, some fd, .reg fs, .reg ft, 0⟩ s)

end Sys2Proof.Machine
end

