-- ==== Sys2Proof/Machine/Integer.lean ====
section
/-! DEFINITION. The integer instructions `nop`, `add`, `sub`, `addi` (spec/41_integer.md): what each computes at
write-back and how each is issued. -/

namespace Sys2Proof.Machine

/-- `add`: `j.val +_64 k.val` (41_integer.md R280). -/
def addValue (j k : Word) : Word := j + k

/-- `sub`: `j.val −_64 k.val` (41_integer.md R281). -/
def subValue (j k : Word) : Word := j - k

/-- `addi`: `j.val +_64 k.val`, with the sign-extended immediate in `k` (41_integer.md R282). -/
def addiValue (j k : Word) : Word := j + k

/-- `nop` (41_integer.md R283): only `pc` and a ROB entry that is complete at once. -/
def execNop (s : State) : Host.Outcome State Fault Refusal :=
  .next (issue ⟨.nop, none, .value 0, .value 0, 0⟩ s)

/-- `add rd, rs, rt` (41_integer.md R280); its sum is `addValue`. -/
def execAdd (rd rs rt : Reg) (s : State) : Host.Outcome State Fault Refusal :=
  .next (issue ⟨.add, some rd, .reg rs, .reg rt, 0⟩ s)

/-- `sub rd, rs, rt` (41_integer.md R281); its difference is `subValue`. -/
def execSub (rd rs rt : Reg) (s : State) : Host.Outcome State Fault Refusal :=
  .next (issue ⟨.sub, some rd, .reg rs, .reg rt, 0⟩ s)

/-- `addi rd, rs, imm` (41_integer.md R282); its sum is `addiValue`. -/
def execAddi (rd rs : Reg) (imm : BitVec 16) (s : State) : Host.Outcome State Fault Refusal :=
  .next (issue ⟨.addi, some rd, .reg rs, .value (sext64 imm), sext64 imm⟩ s)

end Sys2Proof.Machine
end

