-- ==== Sys2Proof/Machine/WriteBack.lean ====
section
/-! DEFINITION. The write-back stage: CDB arbitration, the result table, broadcast and drain
(spec/40_engine_cycle.md R230 to R237). -/

namespace Sys2Proof.Machine

/-- The result table of 40_engine_cycle.md R232; no row for an opcode that never broadcasts. -/
def resultOf (e : RsEntry) : Option Word :=
  match e.op with
  | .add => some (addValue e.j.val e.k.val)
  | .sub => some (subValue e.j.val e.k.val)
  | .addi => some (addiValue e.j.val e.k.val)
  | .addD => some (addDValue e.j.val e.k.val)
  | .subD => some (subDValue e.j.val e.k.val)
  | .multD => some (multDValue e.j.val e.k.val)
  | .ld => some (ldValue e)
  | .nop => none
  | .sd => none
  | .beq => none
  | .bne => none

/-- The cycle in which an entry's result became ready (40_engine_cycle.md R230). -/
def readyCycle (e : RsEntry) (t : Timing) : Option Nat :=
  if e.op = .ld then t.memEnd else t.exEnd

/-- `RS[k][i]` is a CDB candidate (40_engine_cycle.md R230). -/
def State.isCandidate (s : State) (k : FuClass) (i : Nat) : Bool :=
  let e := s.station k i
  e.busy && decide (e.phase = .resultReady)
    && before (readyCycle e (s.robAt e.dest).timing) s.cycle

/-- What CDB arbitration finds. -/
inductive CdbPick where
  | noCandidate
  | winner (k : FuClass) (i : Nat)
  /-- a scanned entry's tag names no entry in flight (60_exceptions.md R404) -/
  | dangling (tag : Nat)
  deriving DecidableEq, Repr

/-- CDB arbitration over the given tables: the first candidate, each table in age order (40_engine_cycle.md R231). -/
def State.arbitrate (s : State) : List FuClass → CdbPick
  | [] => .noCandidate
  | k :: ks =>
    match s.danglingStation k with
    | some u => .dangling u
    | none =>
      match (s.ageOrder k).find? (s.isCandidate k) with
      | some i => .winner k i
      | none => State.arbitrate s ks

/-- The tag of a pending slot that names no entry in flight. -/
def State.danglingSlot (s : State) : Slot → Option Nat
  | .resolved _ => none
  | .pending u => if (s.robAt u).busy then none else some u

/-- The first tag in table `k` that the drain finds to name no entry in flight: a station's own, then the pending
operands in age order (60_exceptions.md R404, log entry 10). -/
def State.danglingOperand (s : State) (k : FuClass) : Option Nat :=
  match s.danglingStation k with
  | some u => some u
  | none =>
    (s.ageOrder k).findSome? (fun i =>
      match s.danglingSlot (s.station k i).j with
      | some u => some u
      | none => s.danglingSlot (s.station k i).k)

/-- A busy entry's slots after the broadcast (40_engine_cycle.md R235). -/
def captureBroadcast (tag : Nat) (v : Word) (e : RsEntry) : RsEntry :=
  if e.busy then { e with j := e.j.capture tag v, k := e.k.capture tag v } else e

/-- Drain into the reservation stations and the ROB (40_engine_cycle.md R235, R236). -/
def drainCdb (s : State) : State :=
  match tableOrder.findSome? s.danglingOperand with
  | some u => raiseFault (.invariantViolation .writeBack u) s
  | none =>
    let s1 := { s with rs := s.rs.map (List.map (captureBroadcast s.cdb.tag s.cdb.value)) }
    s1.modifyRob s.cdb.tag (fun r =>
      { r with value := s.cdb.value, complete := true, timing := { r.timing with wb := some s.cycle } })

/-- CDB write and the winner's leaving its table (40_engine_cycle.md R233, R234), then the drain. -/
def broadcast (k : FuClass) (i : Nat) (v : Word) (s : State) : State :=
  let t := (s.station k i).dest
  let r := s.robAt t
  let s1 := { s with cdb := ⟨true, t, r.dest, v, r.seq⟩ }
  drainCdb (s1.modifyStation k i (fun e => { e with busy := false }))

/-- The write-back stage (40_engine_cycle.md R230 to R237). -/
def writeBack (s : State) : State :=
  match s.arbitrate tableOrder with
  | .noCandidate => s
  | .dangling u => raiseFault (.invariantViolation .writeBack u) s
  | .winner k i =>
    match resultOf (s.station k i) with
    | none => raiseFault (.unknownOpcode (s.station k i).op) s
    | some v => broadcast k i v s

end Sys2Proof.Machine
end

