-- ==== Sys2Proof/Machine/Cycle.lean ====
section
/-! DEFINITION. The end-of-cycle step and the part of a cycle that follows issue (spec/40_engine_cycle.md R200, R202,
R260). -/

namespace Sys2Proof.Machine

/-- A busy, complete entry becomes done (40_engine_cycle.md R260). -/
def markDone (e : RobEntry) : RobEntry := if e.busy && e.complete then { e with done := true } else e

/-- A pool gives the released units back (40_engine_cycle.md R260). -/
def Pool.settle (p : Pool) : Pool := ⟨p.busy - p.release, 0⟩

/-- The port after the end of the cycle (40_engine_cycle.md R260). -/
def Port.settle (p : Port) : Port := if p.release then ⟨.none, 0, false⟩ else p

/-- The registered effects of the end of a cycle without a fault (40_engine_cycle.md R260). -/
def settleCycle (s : State) : State :=
  { s with
    rob := { s.rob with entries := s.rob.entries.map markDone }
    pools := s.pools.map Pool.settle
    port := s.port.settle
    cdb := { s.cdb with valid := false } }

/-- `end_of_cycle()` (40_engine_cycle.md R260, R202). -/
def endOfCycle (s : State) : State :=
  let s1 := unlessFaulted settleCycle s
  { s1 with cycle := s1.cycle + 1 }

/-- The rest of a cycle after issue: execute, write-back, commit, each only while no fault is set, and the end of the
cycle (40_engine_cycle.md R200, R202). -/
def restOfCycle (s : State) : State :=
  endOfCycle (unlessFaulted commit (unlessFaulted writeBack (unlessFaulted execute s)))

/-- Complete the cycle after whatever issue answered. -/
def completeCycle : Host.Outcome State Fault Refusal → Host.Outcome State Fault Refusal
  | .next s => .next (restOfCycle s)
  | .fault f => .fault f
  | .refused r => .refused r

end Sys2Proof.Machine
end

