-- ==== Sys2Proof/Machine/Fetch.lean ====
section
/-! DEFINITION. Fetch and decode, the first part of the issue stage (spec/40_engine_cycle.md R207). -/

namespace Sys2Proof.Machine

/-- What fetch delivers to issue. -/
inductive Fetched where
  /-- `pc ≥ PROG_LEN`: issue stops and changes nothing -/
  | idle
  /-- the word at `pc` is invalid -/
  | illegal (word : InstrWord) (reason : DecodeReason)
  | instr (i : Instr)
  deriving DecidableEq, Repr

/-- Fetch and decode the word at `pc` (40_engine_cycle.md R207). -/
def State.fetch (s : State) : Fetched :=
  match s.prog[s.pc.toNat]? with
  | none => .idle
  | some w =>
    match decode w with
    | .invalid r => .illegal w r
    | .valid i => .instr i

/-- Raise `ILLEGAL_INSTRUCTION` for the word at `pc` (60_exceptions.md R402): nothing is allocated. -/
def raiseIllegal (w : InstrWord) (r : DecodeReason) (s : State) : State :=
  raiseFault (.illegalInstruction s.pc w r) s

end Sys2Proof.Machine
end

