-- ==== Sys2Proof/Machine/Step.lean ====
section
/-! DEFINITION. One clock cycle (spec/40_engine_cycle.md R200), the run of a driver (R204), and where a program word is
placed for the next fetch. -/

namespace Sys2Proof.Machine

/-- The issue stage (40_engine_cycle.md R202, R206, R207): nothing while a fault is set, idle past the program, a fault
for an invalid word, else the decoded instruction is issued by `exec`. -/
def issueStage (s : State) : Host.Outcome State Fault Refusal :=
  if s.faulted then .next s
  else
    match s.fetch with
    | .idle => .next s
    | .illegal w r => .next (raiseIllegal w r s)
    | .instr i => exec i s

/-- One cycle: issue, execute, write-back, commit, end of cycle (40_engine_cycle.md R200). A launch outside the legal
values of 00_scope.md R8 is refused (93 section 4). -/
def step (s : State) : Host.Outcome State Fault Refusal :=
  if s.launchLegal then completeCycle (issueStage s) else .refused .illegalLaunch

/-- A run of at most `n` cycles, ended at the first cycle boundary at which the engine is halted or has faulted
(40_engine_cycle.md R204, `MAX_CYCLES = n`). -/
def runCycles : Nat → State → Host.Outcome State Fault Refusal
  | 0, s => .next s
  | n + 1, s =>
    if s.halted || s.faulted then .next s
    else
      match step s with
      | .next t => runCycles n t
      | .fault f => .fault f
      | .refused r => .refused r

/-- The word with the given bits placed in the program store at `pc`, where issue fetches next. -/
def State.withFetchWord (s : State) (nbits w : Nat) : State :=
  { s with prog := placeWord s.prog s.pc.toNat (BitVec.ofNat 32 (w % 2 ^ nbits)) }

end Sys2Proof.Machine
end

