-- ==== Sys2Proof/Machine/Assembly.lean ====
section
/-! DEFINITION. The text syntax of programs: assembler and canonical disassembler over lists of characters
(spec/30_encoding.md R170 to R174). Outside the core by 00_scope.md R6; kept so that programs can be written as the spec
writes them. -/

namespace Sys2Proof.Machine

/-! ## Characters and numbers -/

/-- White space inside a line (log entry 18). -/
def isBlankChar (c : Char) : Bool := c == ' ' || c == '\t' || c == '\r'

/-- A text without its leading and trailing white space: before the mnemonic, after the last operand and round each
comma. Only the white space round commas is R170's; accepting it at the ends of a line is the model's choice (log entry
18, DESIGN CHOICE). -/
def trimBlank (cs : List Char) : List Char :=
  ((cs.dropWhile isBlankChar).reverse.dropWhile isBlankChar).reverse

/-- The pieces of a text between occurrences of `sep`. -/
def splitAtChar (sep : Char) : List Char → List (List Char)
  | [] => [[]]
  | c :: cs =>
    if c = sep then [] :: splitAtChar sep cs
    else
      match splitAtChar sep cs with
      | [] => [[c]]
      | p :: ps => (c :: p) :: ps

/-- The value of a decimal digit. -/
def decimalDigit (c : Char) : Option Nat :=
  if '0'.toNat ≤ c.toNat ∧ c.toNat ≤ '9'.toNat then some (c.toNat - '0'.toNat) else none

/-- The value of a hexadecimal digit, in either case. -/
def hexDigit (c : Char) : Option Nat :=
  if 'a'.toNat ≤ c.toNat ∧ c.toNat ≤ 'f'.toNat then some (c.toNat - 'a'.toNat + 10)
  else if 'A'.toNat ≤ c.toNat ∧ c.toNat ≤ 'F'.toNat then some (c.toNat - 'A'.toNat + 10)
  else decimalDigit c

/-- Digits in a base, after the value `acc` of those before. -/
def readDigits (digit : Char → Option Nat) (base : Nat) : Nat → List Char → Option Nat
  | acc, [] => some acc
  | acc, c :: cs =>
    match digit c with
    | none => none
    | some d => readDigits digit base (acc * base + d) cs

/-- A number in a base: at least one digit. -/
def readNumber (digit : Char → Option Nat) (base : Nat) : List Char → Option Nat
  | [] => none
  | cs => readDigits digit base 0 cs

/-- An immediate or offset: decimal with an optional `-` or `+`, or `0x` hexadecimal with an optional `-`
(30_encoding.md R172). -/
def readInt : List Char → Option Int
  | '0' :: 'x' :: cs => (readNumber hexDigit 16 cs).map Int.ofNat
  | '-' :: '0' :: 'x' :: cs => (readNumber hexDigit 16 cs).map (fun n => -Int.ofNat n)
  | '-' :: cs => (readNumber decimalDigit 10 cs).map (fun n => -Int.ofNat n)
  | '+' :: cs => (readNumber decimalDigit 10 cs).map Int.ofNat
  | cs => (readNumber decimalDigit 10 cs).map Int.ofNat

/-- An immediate in `-32768` to `32767`; any other value is rejected (30_encoding.md R172). -/
def readImm16 (cs : List Char) : Option (BitVec 16) :=
  match readInt cs with
  | none => none
  | some z => if -32768 ≤ z ∧ z ≤ 32767 then some (BitVec.ofInt 16 z) else none

/-! ## Operands -/

/-- Register `i` of a file, for an index 0 to 31. -/
def regOfIndex (mk : Fin 32 → Reg) (n : Nat) : Option Reg :=
  if h : n < 32 then some (mk ⟨n, h⟩) else none

/-- A register operand: `R` or `F` in either case, then a decimal index 0 to 31 (30_encoding.md R171). -/
def readRegister : List Char → Option Reg
  | c :: cs =>
    match readNumber decimalDigit 10 cs with
    | none => none
    | some n =>
      if c = 'R' ∨ c = 'r' then regOfIndex .R n
      else if c = 'F' ∨ c = 'f' then regOfIndex .F n
      else none
  | [] => none

/-- `OFF(Rb)` (30_encoding.md R173). -/
def readAddress (cs : List Char) : Option (BitVec 16 × Reg) :=
  match splitAtChar '(' cs with
  | [off, rest] =>
    match rest.reverse with
    | ')' :: base =>
      match readImm16 off, readRegister base.reverse with
      | some i, some r => some (i, r)
      | _, _ => none
    | _ => none
  | _ => none

/-- The lower-case spelling of a mnemonic (30_encoding.md R173, R174). -/
def Op.spelling : Op → List Char
  | .nop => ['n', 'o', 'p']
  | .add => ['a', 'd', 'd']
  | .sub => ['s', 'u', 'b']
  | .addi => ['a', 'd', 'd', 'i']
  | .addD => ['a', 'd', 'd', '.', 'd']
  | .subD => ['s', 'u', 'b', '.', 'd']
  | .multD => ['m', 'u', 'l', 't', '.', 'd']
  | .ld => ['l', 'd']
  | .sd => ['s', 'd']
  | .beq => ['b', 'e', 'q']
  | .bne => ['b', 'n', 'e']

/-- The opcodes in the order of 30_encoding.md R153. -/
def allOps : List Op := [.nop, .add, .sub, .addi, .addD, .subD, .multD, .ld, .sd, .beq, .bne]

/-- The opcode a mnemonic names, in either case (30_encoding.md R171). -/
def readMnemonic (cs : List Char) : Option Op :=
  allOps.find? (fun op => Op.spelling op == cs.map Char.toLower)

/-- Three register operands. -/
def readRRR (mk : Reg → Reg → Reg → Instr) : List (List Char) → Option Instr
  | [a, b, c] =>
    match readRegister a, readRegister b, readRegister c with
    | some x, some y, some z => some (mk x y z)
    | _, _, _ => none
  | _ => none

/-- Two register operands and a number. -/
def readRRI (mk : Reg → Reg → BitVec 16 → Instr) : List (List Char) → Option Instr
  | [a, b, c] =>
    match readRegister a, readRegister b, readImm16 c with
    | some x, some y, some z => some (mk x y z)
    | _, _, _ => none
  | _ => none

/-- A register operand and `OFF(Rb)`. -/
def readRAddress (mk : Reg → Reg → BitVec 16 → Instr) : List (List Char) → Option Instr
  | [a, b] =>
    match readRegister a, readAddress b with
    | some x, some (off, r) => some (mk x r off)
    | _, _ => none
  | _ => none

/-- The operand form of each mnemonic (30_encoding.md R173). -/
def readOperands (op : Op) (ps : List (List Char)) : Option Instr :=
  match op with
  | .nop => if ps = [] then some .nop else none
  | .add => readRRR .add ps
  | .sub => readRRR .sub ps
  | .addi => readRRI .addi ps
  | .addD => readRRR .addD ps
  | .subD => readRRR .subD ps
  | .multD => readRRR .multD ps
  | .ld => readRAddress .ld ps
  | .sd => readRAddress .sd ps
  | .beq => readRRI .beq ps
  | .bne => readRRI .bne ps

/-! ## Lines and programs -/

/-- What a line of assembly holds. -/
inductive AsmLine where
  | blank
  | instr (i : Instr)
  | malformed
  deriving DecidableEq, Repr

/-- The operand texts after the mnemonic, separated by commas with optional white space round each (30_encoding.md
R170). -/
def operandTexts (cs : List Char) : List (List Char) :=
  match trimBlank cs with
  | [] => []
  | rest => (splitAtChar ',' rest).map trimBlank

/-- One line (30_encoding.md R170, R173): an operand from the wrong register file is malformed. That white space may
stand before the mnemonic and after the last operand, and that a line of white space alone is blank, is the model's
choice (log entry 18, DESIGN CHOICE). -/
def readLine (line : List Char) : AsmLine :=
  match trimBlank line with
  | [] => .blank
  | text =>
    match readMnemonic (text.takeWhile (fun c => !isBlankChar c)) with
    | none => .malformed
    | some op =>
      match readOperands op (operandTexts (text.dropWhile (fun c => !isBlankChar c))) with
      | none => .malformed
      | some i => if i.wf then .instr i else .malformed

/-- The words of a list of lines: blank lines take no index, a malformed line rejects the program (30_encoding.md
R170). -/
def assembleLines : List (List Char) → Option (List InstrWord)
  | [] => some []
  | l :: ls =>
    match readLine l with
    | .malformed => none
    | .blank => assembleLines ls
    | .instr i => (assembleLines ls).map (fun ws => encode i :: ws)

/-- Assemble a program text (30_encoding.md R170). -/
def assemble (text : List Char) : Option (List InstrWord) := assembleLines (splitAtChar '\n' text)

/-! ## The canonical spelling (30_encoding.md R174) -/

/-- The character of a decimal digit. -/
def digitChar (d : Nat) : Char := Char.ofNat ('0'.toNat + d % 10)

/-- A number in decimal, at most `fuel + 1` digits. -/
def decimalChars : Nat → Nat → List Char
  | 0, n => [digitChar n]
  | fuel + 1, n => if n < 10 then [digitChar n] else decimalChars fuel (n / 10) ++ [digitChar n]

/-- A signed 16-bit number in decimal. -/
def signedChars (v : BitVec 16) : List Char :=
  if v.toInt < 0 then '-' :: decimalChars 4 v.toInt.natAbs else decimalChars 4 v.toInt.natAbs

/-- A register name in upper case. -/
def registerChars : Reg → List Char
  | .R i => 'R' :: decimalChars 4 i.val
  | .F i => 'F' :: decimalChars 4 i.val

/-- The printed name of a ROB tag: entry `t` is `ROB<t+1>` (10_state.md R46). -/
def robTagChars (t : Nat) : List Char := 'R' :: 'O' :: 'B' :: decimalChars 4 (t + 1)

/-- `OFF(Rb)`. -/
def addressChars (rb : Reg) (off : BitVec 16) : List Char :=
  signedChars off ++ '(' :: registerChars rb ++ [')']

/-- The mnemonic and its operands, separated by a comma and a space. -/
def instrChars (op : Op) (a : List Char) (rest : List (List Char)) : List Char :=
  Op.spelling op ++ ' ' :: a ++ rest.flatMap (fun p => ',' :: ' ' :: p)

/-- The canonical spelling of an instruction. -/
def disassemble : Instr → List Char
  | .nop => Op.spelling .nop
  | .add rd rs rt => instrChars .add (registerChars rd) [registerChars rs, registerChars rt]
  | .sub rd rs rt => instrChars .sub (registerChars rd) [registerChars rs, registerChars rt]
  | .addi rd rs imm => instrChars .addi (registerChars rd) [registerChars rs, signedChars imm]
  | .addD fd fs ft => instrChars .addD (registerChars fd) [registerChars fs, registerChars ft]
  | .subD fd fs ft => instrChars .subD (registerChars fd) [registerChars fs, registerChars ft]
  | .multD fd fs ft => instrChars .multD (registerChars fd) [registerChars fs, registerChars ft]
  | .ld rt rb off => instrChars .ld (registerChars rt) [addressChars rb off]
  | .sd rt rb off => instrChars .sd (registerChars rt) [addressChars rb off]
  | .beq rs rt off => instrChars .beq (registerChars rs) [registerChars rt, signedChars off]
  | .bne rs rt off => instrChars .bne (registerChars rs) [registerChars rt, signedChars off]

end Sys2Proof.Machine
end

