-- ==== Sys2Proof/Machine/Sequential.lean ====
section
/-! DEFINITION. The one-at-a-time execution that spec/40_engine_cycle.md R268 compares the engine with: each
instruction's architectural effect (spec/41_integer.md, 42_fp.md, 43_load_store.md, 44_branch_recovery.md) applied to
the registers, the memory and the program counter alone. -/

namespace Sys2Proof.Machine

/-- The architectural state: program counter, register files, data memory. -/
structure Arch where
  pc : Pc
  intRegs : Vector Word 32
  fpRegs : Vector Word 32
  mem : Memory
  deriving DecidableEq, Repr

/-- The architectural part of the engine's state. -/
def State.arch (s : State) : Arch := ⟨s.pc, s.intRegs, s.fpRegs, s.mem⟩

/-- `x[r]`. -/
def Arch.readReg (a : Arch) : Reg → Word
  | .R i => a.intRegs[i]
  | .F i => a.fpRegs[i]

/-- `x[r] <- v`. -/
def Arch.writeReg (a : Arch) (r : Reg) (v : Word) : Arch :=
  match r with
  | .R i => { a with intRegs := a.intRegs.set i v }
  | .F i => { a with fpRegs := a.fpRegs.set i v }

/-- `pc <- pc +_32 1`. -/
def Arch.nextPc (a : Arch) : Arch := { a with pc := a.pc + 1 }

/-- `x[rb] +_64 sext_64(off)` (43_load_store.md R320, R321). -/
def Arch.address (a : Arch) (rb : Reg) (off : BitVec 16) : Word := effectiveAddress (a.readReg rb) (sext64 off)

/-- A conditional branch (44_branch_recovery.md R360, R361). -/
def Arch.branch (a : Arch) (taken : Bool) (off : BitVec 16) : Arch :=
  { a with pc := if taken then branchTarget a.pc (sext64 off) else a.pc + 1 }

/-- The architectural effect of one instruction, by the rule that gives it. -/
def archExec (i : Instr) (a : Arch) : Arch :=
  match i with
  | .nop => a.nextPc
  | .add rd rs rt => (a.writeReg rd (addValue (a.readReg rs) (a.readReg rt))).nextPc
  | .sub rd rs rt => (a.writeReg rd (subValue (a.readReg rs) (a.readReg rt))).nextPc
  | .addi rd rs imm => (a.writeReg rd (addiValue (a.readReg rs) (sext64 imm))).nextPc
  | .addD fd fs ft => (a.writeReg fd (addDValue (a.readReg fs) (a.readReg ft))).nextPc
  | .subD fd fs ft => (a.writeReg fd (subDValue (a.readReg fs) (a.readReg ft))).nextPc
  | .multD fd fs ft => (a.writeReg fd (multDValue (a.readReg fs) (a.readReg ft))).nextPc
  | .ld rt rb off => (a.writeReg rt (a.mem.read (a.address rb off))).nextPc
  | .sd rt rb off => { a with mem := a.mem.write (a.address rb off) (a.readReg rt) }.nextPc
  | .beq rs rt off => a.branch (beqTaken (a.readReg rs) (a.readReg rt)) off
  | .bne rs rt off => a.branch (bneTaken (a.readReg rs) (a.readReg rt)) off

/-- What a commit event says of an instruction's effect, in the one-at-a-time execution (40_engine_cycle.md R249). -/
def archEffect (i : Instr) (a : Arch) : EventEffect :=
  match i with
  | .nop => .nothing
  | .add rd _ _ => .wrote rd ((archExec i a).readReg rd)
  | .sub rd _ _ => .wrote rd ((archExec i a).readReg rd)
  | .addi rd _ _ => .wrote rd ((archExec i a).readReg rd)
  | .addD fd _ _ => .wrote fd ((archExec i a).readReg fd)
  | .subD fd _ _ => .wrote fd ((archExec i a).readReg fd)
  | .multD fd _ _ => .wrote fd ((archExec i a).readReg fd)
  | .ld rt _ _ => .wrote rt ((archExec i a).readReg rt)
  | .sd rt rb off => .stored (a.address rb off) (a.readReg rt)
  | .beq _ _ _ => .nothing
  | .bne _ _ _ => .nothing

/-- The instruction the one-at-a-time execution runs next: none past the program or at an invalid word. -/
def Arch.fetch (prog : List InstrWord) (a : Arch) : Option Instr :=
  match prog[a.pc.toNat]? with
  | none => none
  | some w =>
    match decode w with
    | .valid i => some i
    | .invalid _ => none

/-- `n` instructions of the one-at-a-time execution: the state they leave and what each did, in order; none when it
ends before. -/
def seqRun (prog : List InstrWord) : Nat → Arch → Option (Arch × List (Pc × Op × EventEffect))
  | 0, a => some (a, [])
  | n + 1, a =>
    match a.fetch prog with
    | none => none
    | some i =>
      match seqRun prog n (archExec i a) with
      | none => none
      | some (b, es) => some (b, (a.pc, i.op, archEffect i a) :: es)

end Sys2Proof.Machine
end

