-- ==== Sys2Proof/Safety.lean ====
section
/-! DEFINITION. The terms in which claims speak of a good state: the launch premises, the quiet engine, and the
invariants of the engine's structures (spec/10_state.md R40, R45, R46, R50, R52, R53; spec/70_reset_and_hazards.md
R434). -/

namespace Sys2Proof.Machine

/-! ## Launches -/

/-- The structures have the sizes the configuration gives them, and the launch is legal (00_scope.md R8, 10_state.md
R41, R46, R54). -/
structure State.Sized (s : State) : Prop where
  legal : s.launchLegal = true
  rob : s.rob.entries.length = s.cfg.robSize
  tables : ∀ k : FuClass, (s.table k).length = s.cfg.rsCount.get k
  btb : s.btb.length = s.cfg.btbEntries

/-- Every word of the program decodes (30_encoding.md R164). -/
def progDecodes (prog : List InstrWord) : Prop := ∀ w ∈ prog, ∃ i : Instr, decode w = .valid i

/-- Nothing is in flight and nothing is held: no ROB entry and no station is busy, the pools and the port are free,
the CDB is empty, and no fault is set (70_reset_and_hazards.md R434; it holds at any cycle boundary with `count = 0`
too). -/
structure State.Quiet (s : State) : Prop where
  sized : s.Sized
  noFault : s.fault = none
  count : s.rob.count = 0
  head : s.rob.head < s.cfg.robSize
  tail : s.rob.tail = s.rob.head
  entries : ∀ t, (s.robAt t).busy = false
  stations : ∀ k i, (s.station k i).busy = false
  pools : s.pools = ⟨⟨0, 0⟩, ⟨0, 0⟩, ⟨0, 0⟩, ⟨0, 0⟩⟩
  port : s.port = ⟨.none, 0, false⟩
  cdb : s.cdb.valid = false
  rat : ∀ r, s.rat.lookup r = .arf

/-! ## The reorder buffer's ring (10_state.md R46) -/

/-- The tag of the `n`-th oldest place of the ring. -/
def State.tagAt (s : State) (n : Nat) : Nat := (s.rob.head + n) % s.cfg.robSize

/-- The entry at the `n`-th oldest place of the ring. -/
def State.nthEntry (s : State) (n : Nat) : RobEntry := s.robAt (s.tagAt n)

/-- The busy entries are exactly the `count` entries from `head` on, and their sequence ids are consecutive and end
just below the sequence counter (10_state.md R46, R38; 44_branch_recovery.md R378). -/
structure State.RingOk (s : State) : Prop where
  head : s.rob.head < s.cfg.robSize
  count : s.rob.count ≤ s.cfg.robSize
  tail : s.rob.tail = (s.rob.head + s.rob.count) % s.cfg.robSize
  busy : ∀ n < s.cfg.robSize, (s.nthEntry n).busy = decide (n < s.rob.count)
  seq : ∀ n < s.rob.count, (s.nthEntry n).seq + s.rob.count = s.nextSeq + n

/-- The `n`-th commit event has sequence id `n`, and the instructions in flight follow them without a gap
(44_branch_recovery.md R378, 40_engine_cycle.md R265). -/
structure State.EventsOk (s : State) : Prop where
  inOrder : s.events.map CommitEvent.seq = List.range s.events.length
  dense : s.nextSeq = s.events.length + s.rob.count

/-! ## The RAT and the checkpoints (10_state.md R40, R49) -/

/-- The RAT entry register `r` has after the `n` oldest instructions in flight have been renamed: the youngest of them
that writes `r`, or the ARF. -/
def State.youngestWriter (s : State) (r : Reg) : Nat → RatEntry
  | 0 => .arf
  | n + 1 =>
    if (s.nthEntry n).kind = .reg ∧ (s.nthEntry n).dest = r then .rob (s.tagAt n)
    else State.youngestWriter s r n

/-- The RAT names the youngest writer in flight (10_state.md R40), and a branch's checkpoint the youngest writer older
than the branch (10_state.md R49, 44_branch_recovery.md R376). -/
structure State.RenamingOk (s : State) : Prop where
  rat : ∀ r, s.rat.lookup r = s.youngestWriter r s.rob.count
  ckpt : ∀ n < s.rob.count, (s.nthEntry n).kind = .branch →
    ∀ r, (s.nthEntry n).ckpt.lookup r = s.youngestWriter r n

/-! ## The stations (10_state.md R41 to R45) -/

/-- The instruction kinds and the two completion bits at a cycle boundary (10_state.md R47, 40_engine_cycle.md R218,
R260). -/
structure State.EntriesOk (s : State) : Prop where
  kind : ∀ n < s.rob.count, (s.nthEntry n).kind = (s.nthEntry n).op.kind
  done : ∀ n < s.rob.count, (s.nthEntry n).done = (s.nthEntry n).complete
  nop : ∀ n < s.rob.count, (s.nthEntry n).kind = .nop → (s.nthEntry n).complete = true
  issued : ∀ n < s.rob.count, before (s.nthEntry n).timing.issue s.cycle = true

/-- A waiting operand names an older register-writing instruction that is in flight and not complete. -/
def State.SlotOk (s : State) (user : Nat) : Slot → Prop
  | .resolved _ => True
  | .pending u =>
    (s.robAt u).busy = true ∧ (s.robAt u).kind = .reg ∧ (s.robAt u).complete = false ∧
      (s.robAt u).seq < (s.robAt user).seq

/-- What the phase of a busy entry of table `k`, index `i`, says of its fields (10_state.md R43, R45, R53). -/
def State.PhaseOk (s : State) (k : FuClass) (i : Nat) : Prop :=
  let e := s.station k i
  match e.phase with
  | .waiting => e.addrValid = false
  | .executing => e.j.ready = true ∧ e.k.ready = true ∧ e.addrValid = false ∧
      0 < e.remaining ∧ e.remaining < Config.latency s.cfg k
  | .memWait => e.j.ready = true ∧ e.k.ready = true ∧ e.op = .ld ∧ e.addrValid = true
  | .memAccess => e.j.ready = true ∧ e.k.ready = true ∧ e.op = .ld ∧ e.addrValid = true ∧ s.port.owner = .load i ∧
      0 < e.remaining ∧ e.remaining < s.cfg.memLat
  | .resultReady => e.j.ready = true ∧ e.k.ready = true ∧ e.op.kind = .reg ∧
      (e.op = .ld → e.addrValid = true) ∧
      before (readyCycle e (s.robAt e.dest).timing) s.cycle = true
  | .storeDone => e.j.ready = true ∧ e.k.ready = true ∧ e.op = .sd ∧ e.addrValid = true ∧ (s.robAt e.dest).stAddr = e.addr ∧
      before (s.robAt e.dest).timing.exEnd s.cycle = true

/-- Every busy station holds an instruction in flight of its class, its operands and phase are in order, no two
stations hold the same instruction, and every instruction in flight that is not complete, and every store, is in a
station (10_state.md R41 to R45, 43_load_store.md R339). -/
structure State.StationsOk (s : State) : Prop where
  inFlight : ∀ k i, (s.station k i).busy = true → (s.robAt (s.station k i).dest).busy = true
  sameOp : ∀ k i, (s.station k i).busy = true →
    (s.robAt (s.station k i).dest).op = (s.station k i).op ∧ (s.station k i).op.fuClass = some k
  completes : ∀ k i, (s.station k i).busy = true →
    (s.robAt (s.station k i).dest).complete = decide ((s.station k i).phase = .storeDone)
  unique : ∀ k i k' i', (s.station k i).busy = true → (s.station k' i').busy = true →
    (s.station k i).dest = (s.station k' i').dest → k = k' ∧ i = i'
  slots : ∀ k i, (s.station k i).busy = true →
    s.SlotOk (s.station k i).dest (s.station k i).j ∧ s.SlotOk (s.station k i).dest (s.station k i).k
  phase : ∀ k i, (s.station k i).busy = true → s.PhaseOk k i
  present : ∀ n < s.rob.count,
    (s.nthEntry n).complete = false ∨ (s.nthEntry n).kind = .store →
      ∃ k i, (s.station k i).busy = true ∧ (s.station k i).dest = s.tagAt n

/-! ## Units and port (10_state.md R52, R53) -/

/-- How many entries of table `k` hold a unit: the busy ones in phase `EXECUTING`. -/
def State.executingCount (s : State) (k : FuClass) : Nat :=
  (s.table k).countP (fun e => e.busy && decide (e.phase = .executing))

/-- At a cycle boundary a pool's busy count is the number of executing entries, within `FU_COUNT`, and nothing is to be
released (10_state.md R52, 40_engine_cycle.md R224, R260). -/
def State.PoolsOk (s : State) : Prop :=
  ∀ k p n, s.pools.get? k = some p → s.cfg.fuCount.get? k = some n →
    p.release = 0 ∧ p.busy = s.executingCount k ∧ p.busy ≤ n

/-- At a cycle boundary the port is free with its counter 0, or held by the one load in its memory phase, or by the
store at the head in its commit transaction; nothing is to be released, and the CDB is empty (10_state.md R51, R53;
43_load_store.md R340). -/
structure State.PortOk (s : State) : Prop where
  release : s.port.release = false
  idle : s.port.owner ≠ .commit → s.port.remaining = 0
  load : ∀ i, s.port.owner = .load i →
    (s.station .ls i).busy = true ∧ (s.station .ls i).phase = .memAccess
  commit : s.port.owner = .commit →
    0 < s.rob.count ∧ (s.nthEntry 0).kind = .store ∧ (s.nthEntry 0).done = true ∧
      0 < s.port.remaining ∧ s.port.remaining < s.cfg.memLat
  cdb : s.cdb.valid = false

/-- At most one operation holds the port: two loads in their memory phase are the same entry, and there is none while a
store's commit transaction holds the port or the port is free (43_load_store.md R340, 20_memory.md R110). -/
def State.PortExclusive (s : State) : Prop :=
  (∀ i j, (s.station .ls i).busy = true → (s.station .ls i).phase = .memAccess →
    (s.station .ls j).busy = true → (s.station .ls j).phase = .memAccess → i = j) ∧
  (s.port.owner = .commit → ∀ i, (s.station .ls i).busy = true → (s.station .ls i).phase ≠ .memAccess) ∧
  (s.port.owner = .none → ∀ i, (s.station .ls i).busy = true → (s.station .ls i).phase ≠ .memAccess)

/-- No fault is set but possibly `ILLEGAL_INSTRUCTION` (60_exceptions.md R403, R404). -/
def State.FaultOk (s : State) : Prop :=
  ∀ f, s.fault = some f → ∃ pc w r, f = .illegalInstruction pc w r

/-- The engine's whole invariant at a cycle boundary. -/
structure State.Inv (s : State) : Prop where
  sized : s.Sized
  ring : s.RingOk
  entries : s.EntriesOk
  rat : s.RenamingOk
  stations : s.StationsOk
  pools : s.PoolsOk
  port : s.PortOk
  fault : s.FaultOk
  mem : s.mem.wf = true

/-! ## What an issue does -/

/-- Operand resolution of register `r` against the RAT gives slot `v` (40_engine_cycle.md R213). -/
def State.ResolvesTo (s : State) (r : Reg) (v : Slot) : Prop :=
  (s.rat.lookup r = .arf ∧ v = .resolved (s.readReg r)) ∨
  ∃ u, s.rat.lookup r = .rob u ∧ (s.robAt u).busy = true ∧
    (((s.robAt u).complete = true ∧ v = .resolved (s.robAt u).value) ∨
     ((s.robAt u).complete = false ∧ v = .pending u))

/-- Both issue gates of class `k` are open: a free ROB entry and a free station (40_engine_cycle.md R209). -/
def State.GatesOpen (s : State) (k : FuClass) : Prop :=
  s.rob.count < s.cfg.robSize ∧ ∃ i < (s.table k).length, (s.station k i).busy = false

/-- An issue gate of class `k` is closed: the ROB is full or the table of `k` is full (40_engine_cycle.md R209). -/
def State.GateClosed (s : State) (k : FuClass) : Prop :=
  s.rob.count = s.cfg.robSize ∨ ∀ i < (s.table k).length, (s.station k i).busy = true

/-- The registers and every memory cell read as before. -/
def State.ArchKept (s t : State) : Prop :=
  (∀ r, t.readReg r = s.readReg r) ∧ ∀ a, t.mem.read a = s.mem.read a

/-- What no visit of a load, no broadcast and no commit changes: configuration, program, clock, `pc`, sequence counter,
pools, BTB and fault register. -/
structure State.ControlKept (s t : State) : Prop where
  cfg : t.cfg = s.cfg
  prog : t.prog = s.prog
  cycle : t.cycle = s.cycle
  pc : t.pc = s.pc
  nextSeq : t.nextSeq = s.nextSeq
  pools : t.pools = s.pools
  btb : t.btb = s.btb
  fault : t.fault = s.fault

/-- The head, the tail and the count of the ROB stay. -/
structure State.RingKept (s t : State) : Prop where
  head : t.rob.head = s.rob.head
  tail : t.rob.tail = s.rob.tail
  count : t.rob.count = s.rob.count

/-- Issue leaves everything but `pc`, the sequence counter, the RAT, the ROB and the stations as it was. -/
structure State.OnlyIssued (s t : State) : Prop where
  arch : s.ArchKept t
  cfg : t.cfg = s.cfg
  prog : t.prog = s.prog
  cycle : t.cycle = s.cycle
  cdb : t.cdb = s.cdb
  pools : t.pools = s.pools
  port : t.port = s.port
  btb : t.btb = s.btb
  fault : t.fault = s.fault
  events : t.events = s.events

/-- The ROB entry at the old tail is allocated to an instruction fetched at `pc`, the ring grows by one, no other entry
changes, and the sequence counter moves on (40_engine_cycle.md R211, R212). -/
structure State.RobAllocated (s t : State) (op : Op) (kind : RobKind) (complete : Bool) : Prop where
  busy : (t.robAt s.rob.tail).busy = true
  op : (t.robAt s.rob.tail).op = op
  kind : (t.robAt s.rob.tail).kind = kind
  complete : (t.robAt s.rob.tail).complete = complete
  done : (t.robAt s.rob.tail).done = false
  seq : (t.robAt s.rob.tail).seq = s.nextSeq
  pc : (t.robAt s.rob.tail).pc = s.pc
  timing : (t.robAt s.rob.tail).timing = ⟨some s.cycle, none, none, none, none, none, none⟩
  others : ∀ u, u ≠ s.rob.tail → t.robAt u = s.robAt u
  head : t.rob.head = s.rob.head
  tail : t.rob.tail = (s.rob.tail + 1) % s.cfg.robSize
  count : t.rob.count = s.rob.count + 1
  nextSeq : t.nextSeq = s.nextSeq + 1

/-- The free station of table `k` with the lowest index is filled with the instruction of ROB entry `tag`, and no other
station changes (40_engine_cycle.md R215). -/
def State.StationFilled (s t : State) (k : FuClass) (op : Op) (tag : Nat) (j kk : Slot) (imm : Word) : Prop :=
  ∃ n, n < (s.table k).length ∧ (s.station k n).busy = false ∧ (∀ m < n, (s.station k m).busy = true) ∧
    (t.station k n).busy = true ∧ (t.station k n).op = op ∧ (t.station k n).dest = tag ∧
    (t.station k n).j = j ∧ (t.station k n).k = kk ∧ (t.station k n).imm = imm ∧
    (t.station k n).phase = .waiting ∧ (t.station k n).addrValid = false ∧ (t.station k n).broadcast = false ∧
    ∀ c m, (c, m) ≠ (k, n) → t.station c m = s.station c m

/-- The RAT after `r` has been renamed to ROB entry `tag` (40_engine_cycle.md R217). -/
def State.Renamed (s t : State) (r : Reg) (tag : Nat) : Prop :=
  t.rat.lookup r = .rob tag ∧ ∀ q, q ≠ r → t.rat.lookup q = s.rat.lookup q

/-! ## An instruction alone in the engine -/

/-- The word at `pc` is instruction `i`, and it is the last word of the program. -/
def State.NextIsLast (s : State) (i : Instr) : Prop :=
  s.prog[s.pc.toNat]? = some (encode i) ∧ s.prog.length = s.pc.toNat + 1

/-- `n` cycles later the one instruction issued has retired, the engine is quiet again, and fetch stands behind the
instruction. -/
structure State.RetiredAlone (s t : State) (n : Nat) : Prop where
  quiet : t.Quiet
  cycle : t.cycle = s.cycle + n
  nextSeq : t.nextSeq = s.nextSeq + 1
  pc : t.pc = s.pc + 1
  cfg : t.cfg = s.cfg
  prog : t.prog = s.prog
  btb : t.btb = s.btb

/-! ## What one stage does -/

/-- Every busy station's tag names an instruction in flight (10_state.md R50, 60_exceptions.md R404). -/
def State.StationsInFlight (s : State) : Prop :=
  ∀ k i, (s.station k i).busy = true → (s.robAt (s.station k i).dest).busy = true

/-- Every operand a busy station waits for is the result of an instruction in flight (60_exceptions.md R404). -/
def State.WaitsInFlight (s : State) : Prop :=
  ∀ k i u, (s.station k i).busy = true → ((s.station k i).j = .pending u ∨ (s.station k i).k = .pending u) →
    (s.robAt u).busy = true

/-- `RS[k][i]` may broadcast: its result became ready in an earlier cycle (40_engine_cycle.md R230). -/
def State.Candidate (s : State) (k : FuClass) (i : Nat) : Prop :=
  (s.station k i).busy = true ∧ (s.station k i).phase = .resultReady ∧
    ∃ n < s.cycle, (if (s.station k i).op = .ld then (s.robAt (s.station k i).dest).timing.memEnd
      else (s.robAt (s.station k i).dest).timing.exEnd) = some n

/-- LS entry `q` is a store, still resident, older than the load in LS entry `i` (43_load_store.md R324). -/
def State.OlderStore (s : State) (i q : Nat) : Prop :=
  (s.station .ls q).busy = true ∧ (s.station .ls q).op = .sd ∧ s.stationSeq .ls q < s.stationSeq .ls i

/-- LS entry `i` holds a load that is in flight and waits to start its memory phase (10_state.md R43). -/
def State.LoadWaiting (s : State) (i : Nat) : Prop :=
  (s.station .ls i).busy = true ∧ (s.robAt (s.station .ls i).dest).busy = true ∧ (s.station .ls i).phase = .memWait

/-- BR entry `i` holds the branch of the `n`-th oldest instruction in flight, its operands are `a` and `b`, and
every station's tag is live (44_branch_recovery.md R364). -/
structure State.BranchAt (s : State) (i n : Nat) (a b : Word) : Prop where
  sized : s.Sized
  ring : s.RingOk
  noFault : s.fault = none
  inFlight : s.StationsInFlight
  busy : (s.station .br i).busy = true
  place : n < s.rob.count
  dest : (s.station .br i).dest = s.tagAt n
  op : (s.station .br i).op = .beq ∨ (s.station .br i).op = .bne
  j : (s.station .br i).j = .resolved a
  k : (s.station .br i).k = .resolved b

/-- The outcome of the branch in BR entry `i` on operands `a` and `b` (44_branch_recovery.md R365). -/
def State.outcomeAt (s : State) (i : Nat) (a b : Word) : Bool :=
  if (s.station .br i).op = .beq then decide (a = b) else decide (a ≠ b)

/-- The target of the branch in BR entry `i`, the `n`-th oldest instruction (44_branch_recovery.md R366). -/
def State.targetAt (s : State) (i n : Nat) : Pc :=
  (s.nthEntry n).pc + 1 + ((s.station .br i).imm.extractLsb' 0 16).signExtend 32

/-- The prediction recorded in `e` was wrong (44_branch_recovery.md R370). -/
def RobEntry.PredictedWrong (e : RobEntry) (taken : Bool) (target : Pc) : Prop :=
  e.predTaken ≠ taken ∨ (e.predTaken = true ∧ taken = true ∧ e.predTarget ≠ target)

/-- The BTB entry of `pc` holds the outcome and the target, and no other entry changes (44_branch_recovery.md
R367). -/
def State.Trained (s t : State) (pc : Pc) (taken : Bool) (target : Pc) : Prop :=
  t.btb[pc.toNat % s.cfg.btbEntries]? = some ⟨true, taken, target⟩ ∧
    ∀ n, n ≠ pc.toNat % s.cfg.btbEntries → t.btb[n]? = s.btb[n]?

/-- The head retires (40_engine_cycle.md R248, R249): its event, with the given effect and timing, is emitted, its
entry is free and the head moves on. -/
structure State.HeadRetired (s t : State) (effect : EventEffect) (timing : Timing) : Prop where
  event : t.events = s.events ++ [⟨(s.robAt s.rob.head).seq, (s.robAt s.rob.head).pc, (s.robAt s.rob.head).op,
    effect, timing⟩]
  freed : (t.robAt s.rob.head).busy = false
  head : t.rob.head = (s.rob.head + 1) % s.cfg.robSize
  tail : t.rob.tail = s.rob.tail
  count : t.rob.count + 1 = s.rob.count

/-- The RAT entry or checkpoint entry `x` after ROB entry `h` has committed (40_engine_cycle.md R246, R247). -/
def RatEntry.committed (h : Nat) (x : RatEntry) : RatEntry := if x = .rob h then .arf else x

/-! ## Timing records -/

/-- The timing record of a retired instruction with opcode `op`, under configuration `c`: which fields are set, their
order, and the latencies (60_exceptions.md R421, 43_load_store.md R333, 40_engine_cycle.md R225). -/
def Timing.RetiredOk (c : Config) (op : Op) (t : Timing) : Prop :=
  match op with
  | .nop => ∃ i r, t = ⟨some i, none, none, none, none, none, some r⟩ ∧ i < r
  | .beq | .bne => ∃ i x y r, t = ⟨some i, some x, some y, none, none, none, some r⟩ ∧
      i < x ∧ y + 1 = x + max c.exLat.br 1 ∧ y < r
  | .sd => ∃ i x y m n, t = ⟨some i, some x, some y, some m, some n, none, some n⟩ ∧
      i < x ∧ y + 1 = x + c.exLat.ls ∧ y < m ∧ n + 1 = m + c.memLat
  | .ld => ∃ i x y m n w r, t = ⟨some i, some x, some y, some m, some n, some w, some r⟩ ∧
      i < x ∧ y + 1 = x + c.exLat.ls ∧ y < m ∧ (n = m ∨ n + 1 = m + c.memLat) ∧ n < w ∧ w < r
  | .add | .sub | .addi => ∃ i x y w r, t = ⟨some i, some x, some y, none, none, some w, some r⟩ ∧
      i < x ∧ y + 1 = x + c.exLat.int ∧ y < w ∧ w < r
  | .addD | .subD => ∃ i x y w r, t = ⟨some i, some x, some y, none, none, some w, some r⟩ ∧
      i < x ∧ y + 1 = x + c.exLat.fpadd ∧ y < w ∧ w < r
  | .multD => ∃ i x y w r, t = ⟨some i, some x, some y, none, none, some w, some r⟩ ∧
      i < x ∧ y + 1 = x + c.exLat.mult ∧ y < w ∧ w < r

/-! ## Invalid words, bit by bit -/

/-- Case (a) of 30_encoding.md R163: bits 31:28 are 11 to 15. -/
def hasReservedOpcode (w : InstrWord) : Prop := 11 ≤ (w.extractLsb' 28 4).toNat

/-- Case (b) of 30_encoding.md R163: the format is R and bits 9:0 are not 0, or it is N and bits 27:0 are not 0. -/
def hasReservedBits (w : InstrWord) : Prop :=
  ((w.extractLsb' 28 4).toNat ∈ [1, 2, 4, 5, 6] ∧ w.extractLsb' 0 10 ≠ 0#10) ∨
    ((w.extractLsb' 28 4).toNat = 0 ∧ w.extractLsb' 0 28 ≠ 0#28)

/-- Case (c) of 30_encoding.md R163: a file bit (27, 21 or 15) is not the one R154 demands. -/
def hasWrongFile (w : InstrWord) : Prop :=
  ((w.extractLsb' 28 4).toNat ∈ [1, 2] ∧
    (w.getLsbD 27 = true ∨ w.getLsbD 21 = true ∨ w.getLsbD 15 = true)) ∨
  ((w.extractLsb' 28 4).toNat ∈ [4, 5, 6] ∧
    (w.getLsbD 27 = false ∨ w.getLsbD 21 = false ∨ w.getLsbD 15 = false)) ∨
  ((w.extractLsb' 28 4).toNat ∈ [3, 9, 10] ∧ (w.getLsbD 27 = true ∨ w.getLsbD 21 = true)) ∨
  ((w.extractLsb' 28 4).toNat ∈ [7, 8] ∧ w.getLsbD 21 = true)

/-! ## Rounding -/

/-- `r` is the binary64 value nearest to `z`, where one unit of `r` counts as `scale` and ties go to the even
significand (42_fp.md R300; round to nearest, ties to even, log entry 16). -/
def NearestTo (z : Int) (scale : Nat) (r : Word) : Prop :=
  fpIsFinite r = true ∧ ∀ c : Word, fpIsFinite c = true →
    (fpUnits r * scale - z).natAbs ≤ (fpUnits c * scale - z).natAbs ∧
    ((fpUnits r * scale - z).natAbs = (fpUnits c * scale - z).natAbs → fpUnits r ≠ fpUnits c → r.getLsbD 0 = false)

/-- The magnitude, in units of 2^-1074, from which on a value rounds to infinity: half way between the largest finite
value and 2^1024. -/
def fpOverflowUnits : Nat := (2 ^ 54 - 1) * 2 ^ 2044

/-! ## Commit events and the architectural state -/

/-- The registers and the memory of `t` are those of `s` with the effect of a commit event applied
(40_engine_cycle.md R249). -/
def State.EffectApplied (s t : State) : EventEffect → Prop
  | .wrote r v => t.readReg r = v ∧ (∀ q, q ≠ r → t.readReg q = s.readReg q) ∧ ∀ a, t.mem.read a = s.mem.read a
  | .stored a v => (∀ r, t.readReg r = s.readReg r) ∧ t.mem.read a = v ∧
      ∀ b, b ≠ a → t.mem.read b = s.mem.read b
  | .nothing => s.ArchKept t

end Sys2Proof.Machine
end

