-- ==== Sys2Proof/Certificates/Slice0/Obligations.lean ====
section
/-! DEFINITION. The statements for the provers, from the numbered rules of spec/. -/

open Sys2Proof Sys2Proof.Machine

/-! ## Encoding -/

/-- Decode and encode agree: every well-formed instruction is read back from its word (30_encoding.md R162, R173). -/
def Obligations.DecodeOfEncode : Prop :=
  ∀ i : Instr, WellFormed i → decode (encode i) = .valid i

/-- The other direction: a word the decoder accepts is the word of a well-formed instruction, so every bit of it is
fixed by that instruction (30_encoding.md R152, R162, R163). -/
def Obligations.EncodeOfDecode : Prop :=
  ∀ (w : InstrWord) (i : Instr), decode w = .valid i → WellFormed i ∧ encode i = w

/-- Which words are invalid, bit by bit: exactly those of cases (a), (b) and (c), and every other word is an
instruction. -/
def Obligations.InvalidWordsExactly : Prop :=
  ∀ w : InstrWord,
    ((∃ r, decode w = .invalid r) ↔ (hasReservedOpcode w ∨ hasReservedBits w ∨ hasWrongFile w)) ∧
    ((∃ i, decode w = .valid i) ↔ ¬ (hasReservedOpcode w ∨ hasReservedBits w ∨ hasWrongFile w))

/-- The reason reported for an invalid word is the first of its faults, in the order of 60_exceptions.md R402. -/
def Obligations.InvalidReasonIsFirst : Prop :=
  ∀ w : InstrWord,
    (decode w = .invalid .reservedOpcode ↔ hasReservedOpcode w) ∧
    (decode w = .invalid .reservedBits ↔ hasReservedBits w) ∧
    (decode w = .invalid .registerFile ↔ hasWrongFile w ∧ ¬ hasReservedBits w)

/-- A few words written out from the encoding tables, one for each format and family (30_encoding.md R152 to R154,
R173). -/
def Obligations.SampleWordsDecode : Prop :=
  decode 0x00000000#32 = .valid .nop ∧
  decode (0b0001#4 ++ 0b000001#6 ++ 0b000010#6 ++ 0b000011#6 ++ 0#10) = .valid (.add (.R 1) (.R 2) (.R 3)) ∧
  decode (0b0011#4 ++ 0b000111#6 ++ 0b001000#6 ++ 0x8000#16) = .valid (.addi (.R 7) (.R 8) 0x8000#16) ∧
  decode (0b0100#4 ++ 0b100001#6 ++ 0b100010#6 ++ 0b100011#6 ++ 0#10) = .valid (.addD (.F 1) (.F 2) (.F 3)) ∧
  decode (0b0110#4 ++ 0b100000#6 ++ 0b100001#6 ++ 0b100010#6 ++ 0#10) = .valid (.multD (.F 0) (.F 1) (.F 2)) ∧
  decode (0b0111#4 ++ 0b100010#6 ++ 0b000001#6 ++ 0x0008#16) = .valid (.ld (.F 2) (.R 1) 8#16) ∧
  decode (0b1000#4 ++ 0b100001#6 ++ 0b000001#6 ++ 0x0008#16) = .valid (.sd (.F 1) (.R 1) 8#16) ∧
  decode (0b1001#4 ++ 0b000001#6 ++ 0b000010#6 ++ 0xFFFE#16) = .valid (.beq (.R 1) (.R 2) 0xFFFE#16)

/-- Assembling the canonical spelling of a valid word gives the word back (30_encoding.md R174; the assembler's details
are log entry 18). -/
def Obligations.AssemblerReadsCanonicalSpelling : Prop :=
  ∀ (w : InstrWord) (i : Instr), decode w = .valid i → assemble (disassemble i) = some [w]

/-! ## One cycle -/

/-- A step runs the decoded instruction: it issues it by `exec`, then runs execute, write-back, commit and the end of
the cycle, each only while no fault is set (40_engine_cycle.md R200, R202, R206, R207). -/
def Obligations.StepRunsDecodedInstruction : Prop :=
  ∀ (s : State) (w : InstrWord) (i : Instr),
    s.launchLegal = true → s.fault = none → s.prog[s.pc.toNat]? = some w → decode w = .valid i →
    ∃ u, exec i s = .next u ∧
      step s = .next (endOfCycle (unlessFaulted commit (unlessFaulted writeBack (unlessFaulted execute u))))

/-- Past the end of the program issue changes nothing and the rest of the cycle runs (40_engine_cycle.md R207). -/
def Obligations.FetchPastTheEndIsIdle : Prop :=
  ∀ s : State, s.launchLegal = true → s.fault = none → s.prog.length ≤ s.pc.toNat →
    step s = .next (endOfCycle (unlessFaulted commit (unlessFaulted writeBack (unlessFaulted execute s))))

/-- An invalid word at `pc` sets the fault register and allocates nothing: `pc` and everything else stay as they are,
and the clock advances (60_exceptions.md R401, R402). -/
def Obligations.IllegalWordStopsTheEngine : Prop :=
  ∀ (s : State) (w : InstrWord) (r : DecodeReason),
    s.launchLegal = true → s.fault = none → s.prog[s.pc.toNat]? = some w → decode w = .invalid r →
    step s = .next { s with fault := some (.illegalInstruction s.pc w r), cycle := s.cycle + 1 }

/-- A faulted engine only counts cycles (60_exceptions.md R401). -/
def Obligations.FaultedEngineOnlyCounts : Prop :=
  ∀ s : State, s.launchLegal = true → s.fault ≠ none → step s = .next { s with cycle := s.cycle + 1 }

/-- A halted engine only counts cycles and stays halted. -/
def Obligations.HaltedEngineOnlyCounts : Prop :=
  ∀ s : State, s.Inv →
    (s.halted = true ↔ s.fault = none ∧ s.prog.length ≤ s.pc.toNat ∧ s.rob.count = 0) ∧
    (s.halted = true → step s = .next { s with cycle := s.cycle + 1 } ∧
      ({ s with cycle := s.cycle + 1 } : State).halted = true)

/-- Every step on a legal launch answers a next state, one cycle later, with the configuration and the program as they
were (10_state.md R36, R59; 70_reset_and_hazards.md R433). -/
def Obligations.EveryStepCountsOneCycle : Prop :=
  ∀ s : State, s.launchLegal = true →
    ∃ t, step s = .next t ∧ t.cycle = s.cycle + 1 ∧ t.cfg = s.cfg ∧ t.prog = s.prog

/-- In cycle 0 only issue acts, and an empty program is halted at reset, so that its run performs no cycle. -/
def Obligations.FirstCycleOnlyIssues : Prop :=
  ∀ (cfg : Config) (prog : List InstrWord) (arfInit : List (Reg × Word)) (memInit : List (Word × Word)),
    (State.launch cfg prog arfInit memInit).launchLegal = true →
    (∀ u, issueStage (State.launch cfg prog arfInit memInit) = .next u →
      step (State.launch cfg prog arfInit memInit) = .next (endOfCycle u)) ∧
    (prog = [] → (State.launch cfg prog arfInit memInit).halted = true ∧
      ∀ n, runCycles n (State.launch cfg prog arfInit memInit) = .next (State.launch cfg prog arfInit memInit))

/-! ## Issue: what `exec` does with each instruction -/

/-- `nop` issues into the ROB alone and is complete at once (41_integer.md R283, 40_engine_cycle.md R218). -/
def Obligations.NopIssues : Prop :=
  ∀ s : State, s.Sized → s.RingOk → s.rob.count < s.cfg.robSize →
    ∃ t, exec .nop s = .next t ∧ s.OnlyIssued t ∧ s.RobAllocated t .nop .nop true ∧
      t.rs = s.rs ∧ t.rat = s.rat ∧ t.pc = s.pc + 1

/-- `add`, `sub`, `add.d`, `sub.d` and `mult.d` issue: the two sources resolve against the RAT as it stood, the
destination is renamed, and the instruction waits in its class's table (40_engine_cycle.md R211 to R219). -/
def Obligations.ThreeRegisterInstructionsIssue : Prop :=
  ∀ (s : State) (rd rs rt : Reg) (i : Instr) (c : FuClass) (j k : Slot),
    (i, c) ∈ [(.add rd rs rt, .int), (.sub rd rs rt, .int), (.addD rd rs rt, .fpadd), (.subD rd rs rt, .fpadd),
      (.multD rd rs rt, .mult)] →
    s.Sized → s.RingOk → s.GatesOpen c → s.ResolvesTo rs j → s.ResolvesTo rt k →
    ∃ t, exec i s = .next t ∧ s.OnlyIssued t ∧ s.RobAllocated t i.op .reg false ∧
      (t.robAt s.rob.tail).dest = rd ∧ s.StationFilled t c i.op s.rob.tail j k 0 ∧
      s.Renamed t rd s.rob.tail ∧ t.pc = s.pc + 1

/-- `addi` issues: its second slot holds the sign-extended immediate at once (41_integer.md R282). -/
def Obligations.AddiIssues : Prop :=
  ∀ (s : State) (rd rs : Reg) (imm : BitVec 16) (j : Slot),
    s.Sized → s.RingOk → s.GatesOpen .int → s.ResolvesTo rs j →
    ∃ t, exec (.addi rd rs imm) s = .next t ∧ s.OnlyIssued t ∧ s.RobAllocated t .addi .reg false ∧
      (t.robAt s.rob.tail).dest = rd ∧
      s.StationFilled t .int .addi s.rob.tail j (.resolved (imm.signExtend 64)) (imm.signExtend 64) ∧
      s.Renamed t rd s.rob.tail ∧ t.pc = s.pc + 1

/-- `ld` issues: the base in slot `j`, slot `k` unused, the offset in the immediate field, and the destination, of
either file, renamed (43_load_store.md R320). -/
def Obligations.LoadIssues : Prop :=
  ∀ (s : State) (rt rb : Reg) (off : BitVec 16) (j : Slot),
    s.Sized → s.RingOk → s.GatesOpen .ls → s.ResolvesTo rb j →
    ∃ t, exec (.ld rt rb off) s = .next t ∧ s.OnlyIssued t ∧ s.RobAllocated t .ld .reg false ∧
      (t.robAt s.rob.tail).dest = rt ∧
      s.StationFilled t .ls .ld s.rob.tail j (.resolved 0) (off.signExtend 64) ∧
      s.Renamed t rt s.rob.tail ∧ t.pc = s.pc + 1

/-- `sd` issues: base and data in the two slots, and no register renamed (43_load_store.md R321). -/
def Obligations.StoreIssues : Prop :=
  ∀ (s : State) (rt rb : Reg) (off : BitVec 16) (j k : Slot),
    s.Sized → s.RingOk → s.GatesOpen .ls → s.ResolvesTo rb j → s.ResolvesTo rt k →
    ∃ t, exec (.sd rt rb off) s = .next t ∧ s.OnlyIssued t ∧ s.RobAllocated t .sd .store false ∧
      s.StationFilled t .ls .sd s.rob.tail j k (off.signExtend 64) ∧ t.rat = s.rat ∧ t.pc = s.pc + 1

/-- `beq` and `bne` issue: the BTB's prediction is recorded and chooses the next `pc`, the whole RAT is copied, and no
register is renamed (44_branch_recovery.md R360 to R363, 40_engine_cycle.md R216, R219). -/
def Obligations.BranchesIssue : Prop :=
  ∀ (s : State) (rs rt : Reg) (off : BitVec 16) (i : Instr) (j k : Slot),
    i ∈ [.beq rs rt off, .bne rs rt off] →
    s.Sized → s.RingOk → s.GatesOpen .br → s.ResolvesTo rs j → s.ResolvesTo rt k →
    ∃ t b, s.btb[s.pc.toNat % s.cfg.btbEntries]? = some b ∧ exec i s = .next t ∧
      s.OnlyIssued t ∧ s.RobAllocated t i.op .branch false ∧
      s.StationFilled t .br i.op s.rob.tail j k (off.signExtend 64) ∧ t.rat = s.rat ∧
      (t.robAt s.rob.tail).ckpt = s.rat ∧
      (t.robAt s.rob.tail).predTaken = (b.valid && b.taken) ∧
      (t.robAt s.rob.tail).predTarget = (if b.valid && b.taken then b.target else s.pc + 1) ∧
      t.pc = (if b.valid && b.taken then b.target else s.pc + 1)

/-- When a gate fails, issue stops and changes nothing, whatever the instruction. -/
def Obligations.ClosedGateStalls : Prop :=
  ∀ (s : State) (i : Instr),
    (s.rob.count = s.cfg.robSize → exec i s = .next s) ∧
    (∀ c, i.op.fuClass = some c → (∀ n < (s.table c).length, (s.station c n).busy = true) → exec i s = .next s)

/-- A source register whose RAT entry names an entry that is not in flight (other than the one just allocated, 40 R206)
is an invariant violation of the issue stage, for the first source an instruction resolves and for the second behind a
live first; no register and no cell changes (60_exceptions.md R404; which tag is reported is log entry 10). -/
def Obligations.DeadOperandTagFaults : Prop :=
  ∀ (s : State) (rd r q : Reg) (imm : BitVec 16) (i : Instr) (c : FuClass) (u : Nat),
    ((i, c) ∈ [(.add rd r q, .int), (.sub rd r q, .int), (.addi rd r imm, .int), (.addD rd r q, .fpadd),
        (.subD rd r q, .fpadd), (.multD rd r q, .mult), (.ld rd r imm, .ls), (.sd q r imm, .ls),
        (.beq r q imm, .br), (.bne r q imm, .br)] ∨
      ((i, c) ∈ [(.add rd q r, .int), (.sub rd q r, .int), (.addD rd q r, .fpadd), (.subD rd q r, .fpadd),
          (.multD rd q r, .mult), (.sd r q imm, .ls), (.beq q r imm, .br), (.bne q r imm, .br)] ∧
        ∃ j, s.ResolvesTo q j)) →
    s.GatesOpen c → s.rat.lookup r = .rob u → u ≠ s.rob.tail → (s.robAt u).busy = false →
    ∃ t, exec i s = .next t ∧ t.fault = some (.invariantViolation .issue u) ∧ s.ArchKept t ∧ t.events = s.events

/-! ## An instruction alone in the engine, from issue to commit

The `events` field keeps every commit event emitted, oldest first (the model's own, log entry 9). -/

/-- `add`, `sub` and `addi` alone: the result is in the destination `EX_LAT[INT] + 2` cycles after issue, nothing else
of the architectural state changes, and the timing is that of 70_reset_and_hazards.md R447 (41_integer.md R280 to
R282). -/
def Obligations.LoneIntegerInstruction : Prop :=
  ∀ (s : State) (rd rs rt : Reg) (imm : BitVec 16) (i : Instr) (v : Word),
    (i, v) ∈ [(.add rd rs rt, s.readReg rs + s.readReg rt), (.sub rd rs rt, s.readReg rs - s.readReg rt),
      (.addi rd rs imm, s.readReg rs + imm.signExtend 64)] →
    WellFormed i → s.Quiet → s.NextIsLast i →
    ∃ u t, exec i s = .next u ∧ Host.Core.run Sys2Proof.core (s.cfg.exLat.int + 3) s = .next t ∧
      s.RetiredAlone t (s.cfg.exLat.int + 3) ∧
      t.readReg rd = v ∧ (∀ q, q ≠ rd → t.readReg q = s.readReg q) ∧ (∀ a, t.mem.read a = s.mem.read a) ∧
      t.events = s.events ++ [⟨s.nextSeq, s.pc, i.op, .wrote rd v,
        ⟨some s.cycle, some (s.cycle + 1), some (s.cycle + s.cfg.exLat.int), none, none,
          some (s.cycle + s.cfg.exLat.int + 1), some (s.cycle + s.cfg.exLat.int + 2)⟩⟩]

/-- `add.d` and `sub.d` alone (42_fp.md R301, R302; 70_reset_and_hazards.md R447). -/
def Obligations.LoneFpAdderInstruction : Prop :=
  ∀ (s : State) (fd fs ft : Reg) (i : Instr) (v : Word),
    (i, v) ∈ [(.addD fd fs ft, fadd64 (s.readReg fs) (s.readReg ft)),
      (.subD fd fs ft, fsub64 (s.readReg fs) (s.readReg ft))] →
    WellFormed i → s.Quiet → s.NextIsLast i →
    ∃ u t, exec i s = .next u ∧ Host.Core.run Sys2Proof.core (s.cfg.exLat.fpadd + 3) s = .next t ∧
      s.RetiredAlone t (s.cfg.exLat.fpadd + 3) ∧
      t.readReg fd = v ∧ (∀ q, q ≠ fd → t.readReg q = s.readReg q) ∧ (∀ a, t.mem.read a = s.mem.read a) ∧
      t.events = s.events ++ [⟨s.nextSeq, s.pc, i.op, .wrote fd v,
        ⟨some s.cycle, some (s.cycle + 1), some (s.cycle + s.cfg.exLat.fpadd), none, none,
          some (s.cycle + s.cfg.exLat.fpadd + 1), some (s.cycle + s.cfg.exLat.fpadd + 2)⟩⟩]

/-- `mult.d` alone (42_fp.md R303; 70_reset_and_hazards.md R447). -/
def Obligations.LoneMultiply : Prop :=
  ∀ (s : State) (fd fs ft : Reg),
    WellFormed (.multD fd fs ft) → s.Quiet → s.NextIsLast (.multD fd fs ft) →
    ∃ u t, exec (.multD fd fs ft) s = .next u ∧
      Host.Core.run Sys2Proof.core (s.cfg.exLat.mult + 3) s = .next t ∧
      s.RetiredAlone t (s.cfg.exLat.mult + 3) ∧
      t.readReg fd = fmul64 (s.readReg fs) (s.readReg ft) ∧
      (∀ q, q ≠ fd → t.readReg q = s.readReg q) ∧ (∀ a, t.mem.read a = s.mem.read a) ∧
      t.events = s.events ++ [⟨s.nextSeq, s.pc, .multD, .wrote fd (fmul64 (s.readReg fs) (s.readReg ft)),
        ⟨some s.cycle, some (s.cycle + 1), some (s.cycle + s.cfg.exLat.mult), none, none,
          some (s.cycle + s.cfg.exLat.mult + 1), some (s.cycle + s.cfg.exLat.mult + 2)⟩⟩]

/-- `ld` alone: the whole cell at base plus offset is in the destination, of either file (43_load_store.md R320, R322,
R327, R328; 70_reset_and_hazards.md R447). -/
def Obligations.LoneLoad : Prop :=
  ∀ (s : State) (rt rb : Reg) (off : BitVec 16),
    WellFormed (.ld rt rb off) → s.Quiet → s.NextIsLast (.ld rt rb off) →
    ∃ u t, exec (.ld rt rb off) s = .next u ∧
      Host.Core.run Sys2Proof.core (s.cfg.exLat.ls + s.cfg.memLat + 3) s = .next t ∧
      s.RetiredAlone t (s.cfg.exLat.ls + s.cfg.memLat + 3) ∧
      t.readReg rt = s.mem.read (s.readReg rb + off.signExtend 64) ∧
      (∀ q, q ≠ rt → t.readReg q = s.readReg q) ∧ (∀ a, t.mem.read a = s.mem.read a) ∧
      t.events = s.events ++ [⟨s.nextSeq, s.pc, .ld, .wrote rt (s.mem.read (s.readReg rb + off.signExtend 64)),
        ⟨some s.cycle, some (s.cycle + 1), some (s.cycle + s.cfg.exLat.ls),
          some (s.cycle + s.cfg.exLat.ls + 1), some (s.cycle + s.cfg.exLat.ls + s.cfg.memLat),
          some (s.cycle + s.cfg.exLat.ls + s.cfg.memLat + 1),
          some (s.cycle + s.cfg.exLat.ls + s.cfg.memLat + 2)⟩⟩]

/-- `sd` alone: the one cell at base plus offset holds the data register's value, no register changes, and the store
retires in the last cycle of its commit transaction (43_load_store.md R321, R322, R336 to R338;
70_reset_and_hazards.md R447). The premise on the memory is its canonical form (log entry 4). -/
def Obligations.LoneStore : Prop :=
  ∀ (s : State) (rt rb : Reg) (off : BitVec 16),
    WellFormed (.sd rt rb off) → s.Quiet → s.mem.wf = true → s.NextIsLast (.sd rt rb off) →
    ∃ u t, exec (.sd rt rb off) s = .next u ∧
      Host.Core.run Sys2Proof.core (s.cfg.exLat.ls + s.cfg.memLat + 1) s = .next t ∧
      s.RetiredAlone t (s.cfg.exLat.ls + s.cfg.memLat + 1) ∧
      t.mem.read (s.readReg rb + off.signExtend 64) = s.readReg rt ∧
      (∀ a, a ≠ s.readReg rb + off.signExtend 64 → t.mem.read a = s.mem.read a) ∧
      (∀ q, t.readReg q = s.readReg q) ∧
      t.events = s.events ++ [⟨s.nextSeq, s.pc, .sd, .stored (s.readReg rb + off.signExtend 64) (s.readReg rt),
        ⟨some s.cycle, some (s.cycle + 1), some (s.cycle + s.cfg.exLat.ls),
          some (s.cycle + s.cfg.exLat.ls + 1), some (s.cycle + s.cfg.exLat.ls + s.cfg.memLat), none,
          some (s.cycle + s.cfg.exLat.ls + s.cfg.memLat)⟩⟩]

/-- `nop` alone: issued in one cycle, committed in the next, and nothing changes but `pc` (41_integer.md R283). -/
def Obligations.LoneNop : Prop :=
  ∀ s : State, s.Quiet → s.NextIsLast .nop →
    ∃ u t, exec .nop s = .next u ∧ Host.Core.run Sys2Proof.core 2 s = .next t ∧
      s.RetiredAlone t 2 ∧ s.ArchKept t ∧
      t.events = s.events ++ [⟨s.nextSeq, s.pc, .nop, .nothing,
        ⟨some s.cycle, none, none, none, none, none, some (s.cycle + 1)⟩⟩]

/-- `beq` and `bne` alone, predicted not taken: `max(EX_LAT[BR], 1)` cycles after issue the branch has compared all 64
bits, sent `pc` to the right place, trained its BTB entry, left its table and is done, with no effect on registers or
memory (44_branch_recovery.md R360, R361, R364 to R369). -/
def Obligations.LoneBranchResolves : Prop :=
  ∀ (s : State) (rs rt : Reg) (off : BitVec 16) (i : Instr) (taken : Bool),
    (i, taken) ∈ [(.beq rs rt off, decide (s.readReg rs = s.readReg rt)),
      (.bne rs rt off, decide (s.readReg rs ≠ s.readReg rt))] →
    WellFormed i → s.Quiet → s.NextIsLast i → ((s.btbAt s.pc).valid && (s.btbAt s.pc).taken) = false →
    ∃ u t, exec i s = .next u ∧ Host.Core.run Sys2Proof.core (max s.cfg.exLat.br 1 + 1) s = .next t ∧
      t.pc = (if taken then s.pc + 1 + off.signExtend 32 else s.pc + 1) ∧
      s.Trained t s.pc taken (s.pc + 1 + off.signExtend 32) ∧
      s.ArchKept t ∧ t.fault = none ∧ t.events = s.events ∧ t.nextSeq = s.nextSeq + 1 ∧
      t.cycle = s.cycle + (max s.cfg.exLat.br 1 + 1) ∧ t.rob.count = 1 ∧ t.rob.head = s.rob.head ∧
      (t.robAt s.rob.head).done = true ∧ (t.robAt s.rob.head).kind = .branch ∧
      (t.robAt s.rob.head).timing = ⟨some s.cycle, some (s.cycle + 1), some (s.cycle + max s.cfg.exLat.br 1),
        none, none, none, none⟩ ∧
      (∀ c n, (t.station c n).busy = false) ∧ (∀ r, t.rat.lookup r = .arf)

/-! ## Execute -/

/-- A waiting entry starts in the visit exactly when both operands are resolved, it was issued in an earlier cycle and
its pool has a free unit; the branch class needs no unit. Otherwise the visit changes nothing. -/
def Obligations.WaitingEntryStartsExactlyWhen : Prop :=
  ∀ (s : State) (c : FuClass) (i : Nat),
    (s.station c i).busy = true → (s.robAt (s.station c i).dest).busy = true → (s.station c i).phase = .waiting →
    (((∃ a b, (s.station c i).j = .resolved a ∧ (s.station c i).k = .resolved b) ∧
        (∃ n < s.cycle, (s.robAt (s.station c i).dest).timing.issue = some n) ∧
        (∀ p n, s.pools.get? c = some p → s.cfg.fuCount.get? c = some n → p.busy < n)) →
      ((visit c i s).robAt (s.station c i).dest).timing.exStart = some s.cycle) ∧
    (¬ ((∃ a b, (s.station c i).j = .resolved a ∧ (s.station c i).k = .resolved b) ∧
        (∃ n < s.cycle, (s.robAt (s.station c i).dest).timing.issue = some n) ∧
        (∀ p n, s.pools.get? c = some p → s.cfg.fuCount.get? c = some n → p.busy < n)) →
      visit c i s = s)

/-- A load waits while an older resident store has not computed its address (43_load_store.md R324, R325). -/
def Obligations.LoadWaitsForOlderStoreAddress : Prop :=
  ∀ (s : State) (i q : Nat), s.LoadWaiting i → s.OlderStore i q → (s.station .ls q).addrValid = false →
    visit .ls i s = s

/-- A load whose older resident stores all have addresses takes the data of the youngest one with its address, without
the port and without memory, once that store's address phase ended in an earlier cycle; until then it waits
(43_load_store.md R324, R326). -/
def Obligations.LoadForwardsFromYoungestStore : Prop :=
  ∀ (s : State) (i q n : Nat), s.LoadWaiting i →
    (∀ p, s.OlderStore i p → (s.station .ls p).addrValid = true) →
    s.OlderStore i q → (s.station .ls q).addr = (s.station .ls i).addr →
    (∀ p, p ≠ q → s.OlderStore i p → (s.station .ls p).addr = (s.station .ls i).addr →
      s.stationSeq .ls p < s.stationSeq .ls q) →
    (s.robAt (s.station .ls q).dest).timing.exEnd = some n →
    (s.cycle ≤ n → visit .ls i s = s) ∧
    (n < s.cycle →
      (visit .ls i s).station .ls i =
        { s.station .ls i with result := (s.robAt (s.station .ls q).dest).stData, phase := .resultReady } ∧
      (∀ c m, (c, m) ≠ (.ls, i) → (visit .ls i s).station c m = s.station c m) ∧
      (visit .ls i s).robAt (s.station .ls i).dest =
        { s.robAt (s.station .ls i).dest with
          timing := { (s.robAt (s.station .ls i).dest).timing with
            memStart := some s.cycle, memEnd := some s.cycle } } ∧
      (∀ u, u ≠ (s.station .ls i).dest → (visit .ls i s).robAt u = s.robAt u) ∧
      s.RingKept (visit .ls i s) ∧ s.ControlKept (visit .ls i s) ∧ s.ArchKept (visit .ls i s) ∧
      (visit .ls i s).port = s.port ∧ (visit .ls i s).rat = s.rat ∧ (visit .ls i s).cdb = s.cdb ∧
      (visit .ls i s).events = s.events)

/-- A load with no older resident store at its address takes the free port, and with a one-cycle memory reads its cell
at once; while the port is held it waits (43_load_store.md R324, R327, R328). -/
def Obligations.LoadWithoutMatchTakesPort : Prop :=
  ∀ (s : State) (i : Nat), s.LoadWaiting i →
    (∀ p, s.OlderStore i p → (s.station .ls p).addrValid = true ∧ (s.station .ls p).addr ≠ (s.station .ls i).addr) →
    (s.port.owner ≠ .none → visit .ls i s = s) ∧
    (s.port.owner = .none →
      (visit .ls i s).port.owner = .load i ∧
      ((visit .ls i s).robAt (s.station .ls i).dest).timing.memStart = some s.cycle ∧
      s.RingKept (visit .ls i s) ∧ s.ControlKept (visit .ls i s) ∧ s.ArchKept (visit .ls i s) ∧
      (visit .ls i s).rat = s.rat ∧ (visit .ls i s).cdb = s.cdb ∧ (visit .ls i s).events = s.events ∧
      (∀ c m, (c, m) ≠ (.ls, i) → (visit .ls i s).station c m = s.station c m) ∧
      (∀ u, u ≠ (s.station .ls i).dest → (visit .ls i s).robAt u = s.robAt u) ∧
      (2 ≤ s.cfg.memLat →
        (visit .ls i s).station .ls i =
          { s.station .ls i with phase := .memAccess, remaining := s.cfg.memLat - 1 } ∧
        (visit .ls i s).port.release = s.port.release) ∧
      (s.cfg.memLat = 1 →
        (visit .ls i s).station .ls i =
          { s.station .ls i with
            phase := .resultReady, remaining := 0, result := s.mem.read (s.station .ls i).addr } ∧
        ((visit .ls i s).robAt (s.station .ls i).dest).timing.memEnd = some s.cycle ∧
        (visit .ls i s).port.release = true))

/-- A mispredicted branch: the BTB is trained, everything younger leaves the stations, the ROB and the CDB, and the RAT,
`pc` and the sequence counter are restored; no register, cell or event changes, and everything older stays as it was
(44_branch_recovery.md R364 to R368, R370, R375 to R378). -/
def Obligations.MispredictedBranchRecovers : Prop :=
  ∀ (s : State) (i n : Nat) (a b : Word), s.BranchAt i n a b →
    (s.nthEntry n).PredictedWrong (s.outcomeAt i a b) (s.targetAt i n) →
    (resolveBranch i s).fault = none ∧
    (resolveBranch i s).pc = (if s.outcomeAt i a b then s.targetAt i n else (s.nthEntry n).pc + 1) ∧
    (resolveBranch i s).rat = (s.nthEntry n).ckpt ∧
    (resolveBranch i s).nextSeq = (s.nthEntry n).seq + 1 ∧
    s.Trained (resolveBranch i s) (s.nthEntry n).pc (s.outcomeAt i a b) (s.targetAt i n) ∧
    (resolveBranch i s).rob.head = s.rob.head ∧ (resolveBranch i s).rob.count = n + 1 ∧
    (resolveBranch i s).rob.tail = (s.tagAt n + 1) % s.cfg.robSize ∧
    (resolveBranch i s).robAt (s.tagAt n) = { s.nthEntry n with complete := true } ∧
    (∀ m < n, (resolveBranch i s).robAt (s.tagAt m) = s.nthEntry m) ∧
    (∀ m, n < m → m < s.cfg.robSize → ((resolveBranch i s).robAt (s.tagAt m)).busy = false) ∧
    (∀ c m, ((resolveBranch i s).station c m).busy = true ↔
      ((s.station c m).busy = true ∧ (c, m) ≠ (.br, i) ∧ s.stationSeq c m ≤ (s.nthEntry n).seq)) ∧
    (∀ c m, ((resolveBranch i s).station c m).busy = true → (resolveBranch i s).station c m = s.station c m) ∧
    ((resolveBranch i s).cdb.valid = true → s.cdb.valid = true ∧ s.cdb.seq ≤ (s.nthEntry n).seq) ∧
    s.ArchKept (resolveBranch i s) ∧ (resolveBranch i s).events = s.events

/-- A branch that was predicted right: it trains the BTB, leaves its table and is complete, and nothing else changes
(44_branch_recovery.md R364 to R368, R371). -/
def Obligations.PredictedBranchKeepsGoing : Prop :=
  ∀ (s : State) (i n : Nat) (a b : Word), s.BranchAt i n a b →
    ¬ (s.nthEntry n).PredictedWrong (s.outcomeAt i a b) (s.targetAt i n) →
    s.Trained (resolveBranch i s) (s.nthEntry n).pc (s.outcomeAt i a b) (s.targetAt i n) ∧
    (resolveBranch i s).fault = none ∧ (resolveBranch i s).pc = s.pc ∧ (resolveBranch i s).rat = s.rat ∧
    (resolveBranch i s).nextSeq = s.nextSeq ∧
    (resolveBranch i s).robAt (s.tagAt n) = { s.nthEntry n with complete := true } ∧
    (∀ u, u ≠ s.tagAt n → (resolveBranch i s).robAt u = s.robAt u) ∧
    (resolveBranch i s).rob.count = s.rob.count ∧
    ((resolveBranch i s).station .br i).busy = false ∧
    (∀ c m, (c, m) ≠ (.br, i) → (resolveBranch i s).station c m = s.station c m) ∧
    (resolveBranch i s).rob.head = s.rob.head ∧ (resolveBranch i s).rob.tail = s.rob.tail ∧
    (resolveBranch i s).pools = s.pools ∧ (resolveBranch i s).port = s.port ∧
    (resolveBranch i s).cdb = s.cdb ∧ (resolveBranch i s).cycle = s.cycle ∧
    (resolveBranch i s).cfg = s.cfg ∧ (resolveBranch i s).prog = s.prog ∧
    s.ArchKept (resolveBranch i s) ∧ (resolveBranch i s).events = s.events

/-- A squash gives back the unit of every younger executing entry and ends a younger load's hold of the port
(44_branch_recovery.md R375). -/
def Obligations.SquashGivesBackUnitsAndPort : Prop :=
  ∀ (s : State) (b : Nat), s.fault = none → s.StationsInFlight →
    (∀ c p, s.pools.get? c = some p → (squash b s).pools.get? c = some ⟨p.busy,
      p.release + (s.table c).countP (fun e => e.busy && decide ((s.robAt b).seq < (s.robAt e.dest).seq) &&
        decide (e.phase = .executing))⟩) ∧
    ((squash b s).port.release = true ↔ s.port.release = true ∨
      ∃ c m, (s.station c m).busy = true ∧ (s.robAt b).seq < s.stationSeq c m ∧
        (s.station c m).phase = .memAccess) ∧
    (squash b s).port.owner = s.port.owner ∧ (squash b s).port.remaining = s.port.remaining

/-! ## Write-back -/

/-- The CDB goes to the first candidate: tables in table order, each in age order. With no candidate write-back does
nothing. -/
def Obligations.ArbitrationPicksFirst : Prop :=
  ∀ s : State, s.StationsInFlight →
    (∀ c i, s.arbitrate tableOrder = .winner c i →
      s.Candidate c i ∧ ∀ d m, s.Candidate d m →
        tableOrder.idxOf c < tableOrder.idxOf d ∨ (c = d ∧ s.stationSeq c i ≤ s.stationSeq d m)) ∧
    ((∃ c i, s.Candidate c i) → ∃ c i, s.arbitrate tableOrder = .winner c i) ∧
    ((∀ c i, ¬ s.Candidate c i) → writeBack s = s)

/-- A broadcast: the winner's value, computed from its operands by its opcode, goes to the CDB, to every waiting operand
with its tag and to its ROB entry, and the winner leaves its table (40_engine_cycle.md R232 to R236). -/
def Obligations.BroadcastReachesEveryWaiter : Prop :=
  ∀ (s : State) (c : FuClass) (i : Nat) (a b v : Word),
    s.StationsInFlight → s.WaitsInFlight → s.arbitrate tableOrder = .winner c i →
    (s.station c i).j = .resolved a → (s.station c i).k = .resolved b →
    ((s.station c i).op, v) ∈ [(.add, a + b), (.sub, a - b), (.addi, a + b), (.addD, fadd64 a b),
      (.subD, fsub64 a b), (.multD, fmul64 a b), (.ld, (s.station c i).result)] →
    s.RingKept (writeBack s) ∧ s.ControlKept (writeBack s) ∧ (writeBack s).port = s.port ∧
    (writeBack s).events = s.events ∧
    (writeBack s).cdb = ⟨true, (s.station c i).dest, (s.robAt (s.station c i).dest).dest, v, s.stationSeq c i⟩ ∧
    ((writeBack s).station c i).busy = false ∧
    (∀ d m, (d, m) ≠ (c, i) → (s.station d m).busy = true →
      (writeBack s).station d m =
        { s.station d m with
          j := if (s.station d m).j = .pending (s.station c i).dest then .resolved v else (s.station d m).j
          k := if (s.station d m).k = .pending (s.station c i).dest then .resolved v else (s.station d m).k }) ∧
    (∀ d m, (s.station d m).busy = false → (writeBack s).station d m = s.station d m) ∧
    (writeBack s).robAt (s.station c i).dest =
      { s.robAt (s.station c i).dest with
        value := v, complete := true
        timing := { (s.robAt (s.station c i).dest).timing with wb := some s.cycle } } ∧
    (∀ u, u ≠ (s.station c i).dest → (writeBack s).robAt u = s.robAt u) ∧
    (writeBack s).rat = s.rat ∧ s.ArchKept (writeBack s)

/-! ## Commit and the end of the cycle -/

/-- A done register-writing instruction at the head commits: the ARF write, the RAT back to the ARF where it still names
the entry, the same in every checkpoint, and the retirement (40_engine_cycle.md R246 to R249). -/
def Obligations.CommitWritesRegister : Prop :=
  ∀ s : State, s.port.owner ≠ .commit → s.rob.count ≠ 0 → (s.robAt s.rob.head).busy = true →
    (s.robAt s.rob.head).done = true → (s.robAt s.rob.head).kind = .reg →
    (commit s).readReg (s.robAt s.rob.head).dest = (s.robAt s.rob.head).value ∧
    (∀ q, q ≠ (s.robAt s.rob.head).dest → (commit s).readReg q = s.readReg q) ∧
    (∀ a, (commit s).mem.read a = s.mem.read a) ∧
    (commit s).rat.lookup (s.robAt s.rob.head).dest =
      (s.rat.lookup (s.robAt s.rob.head).dest).committed s.rob.head ∧
    (∀ q, q ≠ (s.robAt s.rob.head).dest → (commit s).rat.lookup q = s.rat.lookup q) ∧
    (∀ u, u ≠ s.rob.head → (s.robAt u).busy = true → (s.robAt u).kind = .branch →
      ((commit s).robAt u).ckpt.lookup (s.robAt s.rob.head).dest =
        ((s.robAt u).ckpt.lookup (s.robAt s.rob.head).dest).committed s.rob.head ∧
      ∀ q, q ≠ (s.robAt s.rob.head).dest → ((commit s).robAt u).ckpt.lookup q = (s.robAt u).ckpt.lookup q) ∧
    (∀ u, u ≠ s.rob.head → { (commit s).robAt u with ckpt := (s.robAt u).ckpt } = s.robAt u) ∧
    s.HeadRetired (commit s) (.wrote (s.robAt s.rob.head).dest (s.robAt s.rob.head).value)
      { (s.robAt s.rob.head).timing with commit := some s.cycle } ∧
    s.ControlKept (commit s) ∧ (commit s).rs = s.rs ∧ (commit s).port = s.port ∧ (commit s).cdb = s.cdb

/-- The last cycle of a store's commit transaction: the cell is written, the port is given back, the store leaves the
load/store table and retires; no register and no other cell changes (43_load_store.md R336 to R339). The premise on the
memory is its canonical form (log entry 4). -/
def Obligations.StoreCommitWritesOneCell : Prop :=
  ∀ s : State, s.mem.wf = true → (s.robAt s.rob.head).busy = true → (s.robAt s.rob.head).kind = .store →
    s.rob.count ≠ 0 →
    ((s.port.owner = .commit ∧ s.port.remaining = 1) ∨
      (s.port.owner = .none ∧ s.cfg.memLat = 1 ∧ (s.robAt s.rob.head).done = true)) →
    (commit s).mem.read (s.robAt s.rob.head).stAddr = (s.robAt s.rob.head).stData ∧
    (∀ a, a ≠ (s.robAt s.rob.head).stAddr → (commit s).mem.read a = s.mem.read a) ∧
    (∀ q, (commit s).readReg q = s.readReg q) ∧ (commit s).rat = s.rat ∧
    (commit s).port.release = true ∧ s.ControlKept (commit s) ∧ (commit s).cdb = s.cdb ∧
    (∀ m, ((commit s).station .ls m).busy = ((s.station .ls m).busy && decide ((s.station .ls m).dest ≠ s.rob.head))) ∧
    (∀ c m, c ≠ .ls → (commit s).station c m = s.station c m) ∧
    (∀ u, u ≠ s.rob.head → (commit s).robAt u = s.robAt u) ∧
    s.HeadRetired (commit s) (.stored (s.robAt s.rob.head).stAddr (s.robAt s.rob.head).stData)
      { (s.robAt s.rob.head).timing with
        memStart := if s.port.owner = .none then some s.cycle else (s.robAt s.rob.head).timing.memStart
        memEnd := some s.cycle
        commit := some s.cycle }

/-- A store at the head waits for the port, takes it for `MEM_LAT` cycles, and until the last of them writes nothing and
retires nothing (43_load_store.md R336, R337). -/
def Obligations.StoreTransactionHoldsThePort : Prop :=
  ∀ s : State,
    (s.rob.count ≠ 0 → (s.robAt s.rob.head).busy = true → (s.robAt s.rob.head).done = true →
      (s.robAt s.rob.head).kind = .store →
      (∀ i, s.port.owner = .load i → commit s = s) ∧
      (s.port.owner = .none → 2 ≤ s.cfg.memLat →
        (commit s).port = ⟨.commit, s.cfg.memLat - 1, s.port.release⟩ ∧ s.ArchKept (commit s) ∧
        ((commit s).robAt s.rob.head).timing =
          { (s.robAt s.rob.head).timing with memStart := some s.cycle } ∧
        (commit s).events = s.events ∧ (commit s).rob.count = s.rob.count)) ∧
    (s.port.owner = .commit → 2 ≤ s.port.remaining →
      commit s = { s with port := { s.port with remaining := s.port.remaining - 1 } })

/-- A done branch or nop at the head retires with no other effect (40_engine_cycle.md R245, R248). -/
def Obligations.BranchAndNopRetire : Prop :=
  ∀ s : State, s.port.owner ≠ .commit → s.rob.count ≠ 0 → (s.robAt s.rob.head).busy = true →
    (s.robAt s.rob.head).done = true → ((s.robAt s.rob.head).kind = .branch ∨ (s.robAt s.rob.head).kind = .nop) →
    s.HeadRetired (commit s) .nothing { (s.robAt s.rob.head).timing with commit := some s.cycle } ∧
    (commit s).robAt s.rob.head =
      { s.robAt s.rob.head with
        busy := false
        timing := { (s.robAt s.rob.head).timing with commit := some s.cycle } } ∧
    (∀ u, u ≠ s.rob.head → (commit s).robAt u = s.robAt u) ∧
    s.ControlKept (commit s) ∧ s.ArchKept (commit s) ∧ (commit s).rat = s.rat ∧ (commit s).rs = s.rs ∧
    (commit s).port = s.port ∧ (commit s).cdb = s.cdb

/-- Commit clears at most one ROB entry in a cycle, and emits at most one event. -/
def Obligations.AtMostOneRetirement : Prop :=
  ∀ s : State,
    (∃ h, ∀ u, u ≠ h → ((commit s).robAt u).busy = (s.robAt u).busy) ∧
    ((commit s).events = s.events ∨ ∃ e, (commit s).events = s.events ++ [e])

/-- The end of the cycle: completed entries are done, released units and the released port are free, the CDB is empty,
and the clock advances; with a fault set only the clock advances. -/
def Obligations.EndOfCycleSettles : Prop :=
  ∀ s : State,
    (s.fault ≠ none → endOfCycle s = { s with cycle := s.cycle + 1 }) ∧
    (s.fault = none →
      (∀ u, (endOfCycle s).robAt u =
        if (s.robAt u).busy && (s.robAt u).complete then { s.robAt u with done := true } else s.robAt u) ∧
      (∀ c p, s.pools.get? c = some p → (endOfCycle s).pools.get? c = some ⟨p.busy - p.release, 0⟩) ∧
      (endOfCycle s).port = (if s.port.release then ⟨.none, 0, false⟩ else s.port) ∧
      (endOfCycle s).cdb = { s.cdb with valid := false } ∧
      (endOfCycle s).cycle = s.cycle + 1 ∧
      (endOfCycle s).rob.head = s.rob.head ∧ (endOfCycle s).rob.tail = s.rob.tail ∧
      (endOfCycle s).rob.count = s.rob.count ∧ (endOfCycle s).rs = s.rs ∧ (endOfCycle s).rat = s.rat ∧
      (endOfCycle s).pc = s.pc ∧ (endOfCycle s).nextSeq = s.nextSeq ∧ (endOfCycle s).btb = s.btb ∧
      (endOfCycle s).cfg = s.cfg ∧ (endOfCycle s).prog = s.prog ∧
      (endOfCycle s).fault = none ∧ (endOfCycle s).events = s.events ∧ s.ArchKept (endOfCycle s))

/-! ## Reset and the invariants -/

/-- What a launch leaves: the listed reset values, the named registers and cells at their launch values and every other
at its free input (70_reset_and_hazards.md R430, 10_state.md R35, R60, 20_memory.md R102). -/
def Obligations.LaunchLeavesListedValues : Prop :=
  ∀ (cfg : Config) (prog : List InstrWord) (arfInit : List (Reg × Word)) (memInit : List (Word × Word)) (s : State),
    s = State.launch cfg prog arfInit memInit → (arfInit.map Prod.fst).Nodup → (memInit.map Prod.fst).Nodup →
    s.cycle = 0 ∧ s.pc = 0 ∧ s.nextSeq = 0 ∧ (∀ r, s.rat.lookup r = .arf) ∧
    (∀ c i, (s.station c i).busy = false) ∧ (∀ u, (s.robAt u).busy = false) ∧
    s.rob.head = 0 ∧ s.rob.tail = 0 ∧ s.rob.count = 0 ∧ s.cdb.valid = false ∧
    (∀ c p, s.pools.get? c = some p → p = ⟨0, 0⟩) ∧ s.port = ⟨.none, 0, false⟩ ∧
    (∀ b ∈ s.btb, b.valid = false) ∧ s.fault = none ∧
    (∀ r v, (r, v) ∈ arfInit → s.readReg r = v) ∧
    (∀ r, r ∉ arfInit.map Prod.fst → s.readReg r = Config.arfUnset r) ∧
    (∀ a v, (a, v) ∈ memInit → s.mem.read a = v) ∧
    (∀ a, a ∉ memInit.map Prod.fst → s.mem.read a = Config.memUnset a)

/-- The machine right after reset is the launch with the default configuration, no program and no launch values
(70_reset_and_hazards.md R430, R433; that reset takes the defaults is log entry 1). -/
def Obligations.ResetIsTheDefaultLaunch : Prop :=
  State.reset = State.launch Config.default [] [] [] ∧ State.reset.halted = true ∧
  State.reset.cfg.robSize = 16 ∧ State.reset.cfg.btbEntries = 8 ∧ State.reset.cfg.rsCount = ⟨3, 2, 2, 3, 2⟩ ∧
  State.reset.cfg.exLat = ⟨3, 1, 20, 1, 1⟩ ∧ State.reset.cfg.memLat = 4 ∧ State.reset.cfg.fuCount = ⟨1, 1, 1, 1⟩

/-- Every legal launch meets the engine's invariants and is quiet. Two clauses are the model's own choice: `Inv.mem`, the
memory's canonical form (log entry 4), and `EventsOk`, which speaks of the list of events (log entry 9). -/
def Obligations.LaunchMeetsInvariant : Prop :=
  ∀ (cfg : Config) (prog : List InstrWord) (arfInit : List (Reg × Word)) (memInit : List (Word × Word)),
    cfg.legal = true → prog.length < 2 ^ 32 →
    (State.launch cfg prog arfInit memInit).Inv ∧ (State.launch cfg prog arfInit memInit).EventsOk ∧
    (State.launch cfg prog arfInit memInit).Quiet

/-- Every step keeps the ring of the ROB, the density of the sequence ids and the order of the commit events, whatever
the rest of the state holds (10_state.md R38, R46; 40_engine_cycle.md R265; 44_branch_recovery.md R378). -/
def Obligations.RingAndSequenceKept : Prop :=
  ∀ s t : State, s.Sized → s.RingOk → s.EventsOk → step s = .next t → t.Sized ∧ t.RingOk ∧ t.EventsOk

/-- Every step keeps the memory's canonical form (the model's representation of 20_memory.md R101, log entry 4). -/
def Obligations.MemoryStaysCanonical : Prop :=
  ∀ s t : State, s.mem.wf = true → step s = .next t → t.mem.wf = true

/-- Every step keeps the engine's whole invariant: sizes, ring, renaming and checkpoints, stations, pools, port, faults
and memory (10_state.md R40, R45, R46, R49, R50, R52, R53; 60_exceptions.md R403, R404). The memory's clause, its
canonical form, is the model's own choice (log entry 4). -/
def Obligations.EngineInvariantKept : Prop :=
  ∀ s t : State, s.Inv → step s = .next t → t.Inv

/-- At most one operation holds the memory port, under the invariant and again after every step: one load in its memory
phase, or one store commit transaction (43_load_store.md R340). -/
def Obligations.PortHeldByOne : Prop :=
  ∀ s : State, s.Inv → s.PortExclusive ∧ ∀ t, step s = .next t → t.PortExclusive

/-- The registers and the memory change only with a commit event, and exactly as that event says
(10_state.md R34, 20_memory.md R115, 40_engine_cycle.md R249; the list of events is log entry 9). -/
def Obligations.StepEffectsFollowCommitEvents : Prop :=
  ∀ s t : State, s.Inv → step s = .next t →
    (t.events = s.events ∧ s.ArchKept t) ∨
    ∃ e, t.events = s.events ++ [e] ∧ e.timing.commit = some s.cycle ∧ e.seq = (s.robAt s.rob.head).seq ∧
      s.EffectApplied t e.effect

/-! ## Whole runs -/

/-- A run of a program whose words all decode never faults and never stops: no fault of 60_exceptions.md R402 to R404
can be raised (30_encoding.md R164). -/
def Obligations.LaunchedRunsNeverFault : Prop :=
  ∀ (cfg : Config) (prog : List InstrWord) (arfInit : List (Reg × Word)) (memInit : List (Word × Word)) (n : Nat),
    cfg.legal = true → prog.length < 2 ^ 32 → progDecodes prog →
    ∃ t, Host.Core.run Sys2Proof.core n (State.launch cfg prog arfInit memInit) = .next t ∧ t.fault = none

/-- Every instruction that retires in a run carries a timing record with exactly the fields of its kind set, in order
and with the configured latencies (60_exceptions.md R421, 43_load_store.md R333; the list of events is log entry 9). -/
def Obligations.RetiredTimingRecords : Prop :=
  ∀ (cfg : Config) (prog : List InstrWord) (arfInit : List (Reg × Word)) (memInit : List (Word × Word)) (n : Nat)
    (t : State),
    Host.Core.run Sys2Proof.core n (State.launch cfg prog arfInit memInit) = .next t →
    ∀ e ∈ t.events, e.timing.RetiredOk cfg e.op

/-- Sequential equivalence: a halted run of a program whose words all decode has the registers, the memory and the
commit events of the one-at-a-time execution, for every configuration. -/
def Obligations.SequentialEquivalence : Prop :=
  ∀ (cfg : Config) (prog : List InstrWord) (arfInit : List (Reg × Word)) (memInit : List (Word × Word)) (n : Nat)
    (t : State),
    cfg.legal = true → prog.length < 2 ^ 32 → progDecodes prog →
    Host.Core.run Sys2Proof.core n (State.launch cfg prog arfInit memInit) = .next t → t.halted = true →
    ∃ b, seqRun prog t.events.length (State.launch cfg prog arfInit memInit).arch =
        some (b, t.events.map (fun e => (e.pc, e.op, e.effect))) ∧
      b.fetch prog = none ∧ b.pc = t.pc ∧ (∀ r, b.readReg r = t.readReg r) ∧
      ∀ a, b.mem.read a = t.mem.read a

/-! ## Memory -/

/-- A cell reads as last written, and distinct addresses name distinct cells (20_memory.md R101). The premise is the
model's canonical form of the list, which every operation keeps (log entry 4). -/
def Obligations.ReadAfterWrite : Prop :=
  ∀ (m : Memory) (a v : Word), m.wf = true →
    (m.write a v).read a = v ∧ ∀ b, b ≠ a → (m.write a v).read b = m.read b

/-- Two canonical memories that read the same everywhere are the same data (the model's representation, log
entry 4). -/
def Obligations.EqualMemoriesAreEqualData : Prop :=
  ∀ m n : Memory, m.wf = true → n.wf = true → (∀ a, m.read a = n.read a) → m = n

/-! ## Floating point (42_fp.md R300; the meaning of the IEEE 754 operations is log entry 16) -/

/-- A sum or difference of finite values within range is the nearest binary64 value, ties to even, and an exact zero has
the sign IEEE 754 gives it. -/
def Obligations.FpSumIsNearest : Prop :=
  ∀ (a b : Word), fpIsFinite a = true → fpIsFinite b = true →
    ((fpUnits a + fpUnits b).natAbs < fpOverflowUnits → NearestTo (fpUnits a + fpUnits b) 1 (fadd64 a b)) ∧
    ((fpUnits a - fpUnits b).natAbs < fpOverflowUnits → NearestTo (fpUnits a - fpUnits b) 1 (fsub64 a b)) ∧
    (fpUnits a + fpUnits b = 0 → fadd64 a b = fpZero (fpSign a && fpSign b)) ∧
    (fpUnits a - fpUnits b = 0 → fsub64 a b = fpZero (fpSign a && !fpSign b))

/-- A product of finite values within range is the nearest binary64 value, ties to even, and its sign is the exclusive
or of the signs, zero included. -/
def Obligations.FpProductIsNearest : Prop :=
  ∀ (a b : Word), fpIsFinite a = true → fpIsFinite b = true →
    fpSign (fmul64 a b) = (fpSign a != fpSign b) ∧
    ((fpUnits a * fpUnits b).natAbs < fpOverflowUnits * 2 ^ 1074 →
      NearestTo (fpUnits a * fpUnits b) (2 ^ 1074) (fmul64 a b))

/-- A sum, difference or product of finite values too large to round to a finite value is infinity with the sign of the
exact result. -/
def Obligations.FpOverflowGoesToInfinity : Prop :=
  ∀ (a b : Word), fpIsFinite a = true → fpIsFinite b = true →
    (fpOverflowUnits ≤ (fpUnits a + fpUnits b).natAbs → fadd64 a b = fpInf (decide (fpUnits a + fpUnits b < 0))) ∧
    (fpOverflowUnits ≤ (fpUnits a - fpUnits b).natAbs → fsub64 a b = fpInf (decide (fpUnits a - fpUnits b < 0))) ∧
    (fpOverflowUnits * 2 ^ 1074 ≤ (fpUnits a * fpUnits b).natAbs →
      fmul64 a b = fpInf (decide (fpUnits a * fpUnits b < 0)))

/-- NaNs and infinities: `FP_NAN` is a NaN; a NaN operand, `∞ − ∞` and `0 × ∞` give it; every other operation with an
infinity gives an infinity. -/
def Obligations.FpSpecialOperands : Prop :=
  fpIsNaN Config.fpNan = true ∧
  ∀ (a b : Word),
    ((fpIsNaN a = true ∨ fpIsNaN b = true) →
      fadd64 a b = Config.fpNan ∧ fsub64 a b = Config.fpNan ∧ fmul64 a b = Config.fpNan) ∧
    (∀ x : Bool, fadd64 (fpInf x) (fpInf (!x)) = Config.fpNan ∧ fsub64 (fpInf x) (fpInf x) = Config.fpNan ∧
      fadd64 (fpInf x) (fpInf x) = fpInf x ∧ fsub64 (fpInf x) (fpInf (!x)) = fpInf x) ∧
    (∀ x : Bool, fpIsFinite a = true →
      fadd64 (fpInf x) a = fpInf x ∧ fadd64 a (fpInf x) = fpInf x ∧
      fsub64 (fpInf x) a = fpInf x ∧ fsub64 a (fpInf x) = fpInf (!x)) ∧
    (∀ x : Bool, fpIsNaN a = false →
      (fpUnits a = 0 → fmul64 (fpInf x) a = Config.fpNan ∧ fmul64 a (fpInf x) = Config.fpNan) ∧
      (fpUnits a ≠ 0 → fmul64 (fpInf x) a = fpInf (x != fpSign a) ∧ fmul64 a (fpInf x) = fpInf (x != fpSign a)))
end

