-- ==== Sys2Proof/Laws/State.lean ====
section
/-! SUPPORT. What each named update of the state leaves in each field: one lemma per field per update, true by
unfolding once, so that no later proof unfolds a record update. -/

namespace Sys2Proof.Machine

/-! ## `writeReg` -/

@[simp] theorem writeReg_cfg (s : State) (r : Reg) (v : Word) :
    (s.writeReg r v).cfg = s.cfg := by cases r <;> rfl
@[simp] theorem writeReg_prog (s : State) (r : Reg) (v : Word) :
    (s.writeReg r v).prog = s.prog := by cases r <;> rfl
@[simp] theorem writeReg_mem (s : State) (r : Reg) (v : Word) :
    (s.writeReg r v).mem = s.mem := by cases r <;> rfl
@[simp] theorem writeReg_cycle (s : State) (r : Reg) (v : Word) :
    (s.writeReg r v).cycle = s.cycle := by cases r <;> rfl
@[simp] theorem writeReg_pc (s : State) (r : Reg) (v : Word) :
    (s.writeReg r v).pc = s.pc := by cases r <;> rfl
@[simp] theorem writeReg_nextSeq (s : State) (r : Reg) (v : Word) :
    (s.writeReg r v).nextSeq = s.nextSeq := by cases r <;> rfl
@[simp] theorem writeReg_rat (s : State) (r : Reg) (v : Word) :
    (s.writeReg r v).rat = s.rat := by cases r <;> rfl
@[simp] theorem writeReg_rs (s : State) (r : Reg) (v : Word) :
    (s.writeReg r v).rs = s.rs := by cases r <;> rfl
@[simp] theorem writeReg_rob (s : State) (r : Reg) (v : Word) :
    (s.writeReg r v).rob = s.rob := by cases r <;> rfl
@[simp] theorem writeReg_cdb (s : State) (r : Reg) (v : Word) :
    (s.writeReg r v).cdb = s.cdb := by cases r <;> rfl
@[simp] theorem writeReg_pools (s : State) (r : Reg) (v : Word) :
    (s.writeReg r v).pools = s.pools := by cases r <;> rfl
@[simp] theorem writeReg_port (s : State) (r : Reg) (v : Word) :
    (s.writeReg r v).port = s.port := by cases r <;> rfl
@[simp] theorem writeReg_btb (s : State) (r : Reg) (v : Word) :
    (s.writeReg r v).btb = s.btb := by cases r <;> rfl
@[simp] theorem writeReg_fault (s : State) (r : Reg) (v : Word) :
    (s.writeReg r v).fault = s.fault := by cases r <;> rfl
@[simp] theorem writeReg_events (s : State) (r : Reg) (v : Word) :
    (s.writeReg r v).events = s.events := by cases r <;> rfl

/-! ## `modifyRob` -/

@[simp] theorem modifyRob_cfg (s : State) (t : Nat) (f : RobEntry → RobEntry) :
    (s.modifyRob t f).cfg = s.cfg := rfl
@[simp] theorem modifyRob_prog (s : State) (t : Nat) (f : RobEntry → RobEntry) :
    (s.modifyRob t f).prog = s.prog := rfl
@[simp] theorem modifyRob_intRegs (s : State) (t : Nat) (f : RobEntry → RobEntry) :
    (s.modifyRob t f).intRegs = s.intRegs := rfl
@[simp] theorem modifyRob_fpRegs (s : State) (t : Nat) (f : RobEntry → RobEntry) :
    (s.modifyRob t f).fpRegs = s.fpRegs := rfl
@[simp] theorem modifyRob_mem (s : State) (t : Nat) (f : RobEntry → RobEntry) :
    (s.modifyRob t f).mem = s.mem := rfl
@[simp] theorem modifyRob_cycle (s : State) (t : Nat) (f : RobEntry → RobEntry) :
    (s.modifyRob t f).cycle = s.cycle := rfl
@[simp] theorem modifyRob_pc (s : State) (t : Nat) (f : RobEntry → RobEntry) :
    (s.modifyRob t f).pc = s.pc := rfl
@[simp] theorem modifyRob_nextSeq (s : State) (t : Nat) (f : RobEntry → RobEntry) :
    (s.modifyRob t f).nextSeq = s.nextSeq := rfl
@[simp] theorem modifyRob_rat (s : State) (t : Nat) (f : RobEntry → RobEntry) :
    (s.modifyRob t f).rat = s.rat := rfl
@[simp] theorem modifyRob_rs (s : State) (t : Nat) (f : RobEntry → RobEntry) :
    (s.modifyRob t f).rs = s.rs := rfl
@[simp] theorem modifyRob_cdb (s : State) (t : Nat) (f : RobEntry → RobEntry) :
    (s.modifyRob t f).cdb = s.cdb := rfl
@[simp] theorem modifyRob_pools (s : State) (t : Nat) (f : RobEntry → RobEntry) :
    (s.modifyRob t f).pools = s.pools := rfl
@[simp] theorem modifyRob_port (s : State) (t : Nat) (f : RobEntry → RobEntry) :
    (s.modifyRob t f).port = s.port := rfl
@[simp] theorem modifyRob_btb (s : State) (t : Nat) (f : RobEntry → RobEntry) :
    (s.modifyRob t f).btb = s.btb := rfl
@[simp] theorem modifyRob_fault (s : State) (t : Nat) (f : RobEntry → RobEntry) :
    (s.modifyRob t f).fault = s.fault := rfl
@[simp] theorem modifyRob_events (s : State) (t : Nat) (f : RobEntry → RobEntry) :
    (s.modifyRob t f).events = s.events := rfl

/-! ## `modifyTiming` -/

@[simp] theorem modifyTiming_cfg (s : State) (t : Nat) (f : Timing → Timing) :
    (s.modifyTiming t f).cfg = s.cfg := rfl
@[simp] theorem modifyTiming_prog (s : State) (t : Nat) (f : Timing → Timing) :
    (s.modifyTiming t f).prog = s.prog := rfl
@[simp] theorem modifyTiming_intRegs (s : State) (t : Nat) (f : Timing → Timing) :
    (s.modifyTiming t f).intRegs = s.intRegs := rfl
@[simp] theorem modifyTiming_fpRegs (s : State) (t : Nat) (f : Timing → Timing) :
    (s.modifyTiming t f).fpRegs = s.fpRegs := rfl
@[simp] theorem modifyTiming_mem (s : State) (t : Nat) (f : Timing → Timing) :
    (s.modifyTiming t f).mem = s.mem := rfl
@[simp] theorem modifyTiming_cycle (s : State) (t : Nat) (f : Timing → Timing) :
    (s.modifyTiming t f).cycle = s.cycle := rfl
@[simp] theorem modifyTiming_pc (s : State) (t : Nat) (f : Timing → Timing) :
    (s.modifyTiming t f).pc = s.pc := rfl
@[simp] theorem modifyTiming_nextSeq (s : State) (t : Nat) (f : Timing → Timing) :
    (s.modifyTiming t f).nextSeq = s.nextSeq := rfl
@[simp] theorem modifyTiming_rat (s : State) (t : Nat) (f : Timing → Timing) :
    (s.modifyTiming t f).rat = s.rat := rfl
@[simp] theorem modifyTiming_rs (s : State) (t : Nat) (f : Timing → Timing) :
    (s.modifyTiming t f).rs = s.rs := rfl
@[simp] theorem modifyTiming_cdb (s : State) (t : Nat) (f : Timing → Timing) :
    (s.modifyTiming t f).cdb = s.cdb := rfl
@[simp] theorem modifyTiming_pools (s : State) (t : Nat) (f : Timing → Timing) :
    (s.modifyTiming t f).pools = s.pools := rfl
@[simp] theorem modifyTiming_port (s : State) (t : Nat) (f : Timing → Timing) :
    (s.modifyTiming t f).port = s.port := rfl
@[simp] theorem modifyTiming_btb (s : State) (t : Nat) (f : Timing → Timing) :
    (s.modifyTiming t f).btb = s.btb := rfl
@[simp] theorem modifyTiming_fault (s : State) (t : Nat) (f : Timing → Timing) :
    (s.modifyTiming t f).fault = s.fault := rfl
@[simp] theorem modifyTiming_events (s : State) (t : Nat) (f : Timing → Timing) :
    (s.modifyTiming t f).events = s.events := rfl

/-! ## `modifyTable` -/

@[simp] theorem modifyTable_cfg (s : State) (k : FuClass) (f : List RsEntry → List RsEntry) :
    (s.modifyTable k f).cfg = s.cfg := rfl
@[simp] theorem modifyTable_prog (s : State) (k : FuClass) (f : List RsEntry → List RsEntry) :
    (s.modifyTable k f).prog = s.prog := rfl
@[simp] theorem modifyTable_intRegs (s : State) (k : FuClass) (f : List RsEntry → List RsEntry) :
    (s.modifyTable k f).intRegs = s.intRegs := rfl
@[simp] theorem modifyTable_fpRegs (s : State) (k : FuClass) (f : List RsEntry → List RsEntry) :
    (s.modifyTable k f).fpRegs = s.fpRegs := rfl
@[simp] theorem modifyTable_mem (s : State) (k : FuClass) (f : List RsEntry → List RsEntry) :
    (s.modifyTable k f).mem = s.mem := rfl
@[simp] theorem modifyTable_cycle (s : State) (k : FuClass) (f : List RsEntry → List RsEntry) :
    (s.modifyTable k f).cycle = s.cycle := rfl
@[simp] theorem modifyTable_pc (s : State) (k : FuClass) (f : List RsEntry → List RsEntry) :
    (s.modifyTable k f).pc = s.pc := rfl
@[simp] theorem modifyTable_nextSeq (s : State) (k : FuClass) (f : List RsEntry → List RsEntry) :
    (s.modifyTable k f).nextSeq = s.nextSeq := rfl
@[simp] theorem modifyTable_rat (s : State) (k : FuClass) (f : List RsEntry → List RsEntry) :
    (s.modifyTable k f).rat = s.rat := rfl
@[simp] theorem modifyTable_rob (s : State) (k : FuClass) (f : List RsEntry → List RsEntry) :
    (s.modifyTable k f).rob = s.rob := rfl
@[simp] theorem modifyTable_cdb (s : State) (k : FuClass) (f : List RsEntry → List RsEntry) :
    (s.modifyTable k f).cdb = s.cdb := rfl
@[simp] theorem modifyTable_pools (s : State) (k : FuClass) (f : List RsEntry → List RsEntry) :
    (s.modifyTable k f).pools = s.pools := rfl
@[simp] theorem modifyTable_port (s : State) (k : FuClass) (f : List RsEntry → List RsEntry) :
    (s.modifyTable k f).port = s.port := rfl
@[simp] theorem modifyTable_btb (s : State) (k : FuClass) (f : List RsEntry → List RsEntry) :
    (s.modifyTable k f).btb = s.btb := rfl
@[simp] theorem modifyTable_fault (s : State) (k : FuClass) (f : List RsEntry → List RsEntry) :
    (s.modifyTable k f).fault = s.fault := rfl
@[simp] theorem modifyTable_events (s : State) (k : FuClass) (f : List RsEntry → List RsEntry) :
    (s.modifyTable k f).events = s.events := rfl

/-! ## `modifyStation` -/

@[simp] theorem modifyStation_cfg (s : State) (k : FuClass) (i : Nat) (f : RsEntry → RsEntry) :
    (s.modifyStation k i f).cfg = s.cfg := rfl
@[simp] theorem modifyStation_prog (s : State) (k : FuClass) (i : Nat) (f : RsEntry → RsEntry) :
    (s.modifyStation k i f).prog = s.prog := rfl
@[simp] theorem modifyStation_intRegs (s : State) (k : FuClass) (i : Nat) (f : RsEntry → RsEntry) :
    (s.modifyStation k i f).intRegs = s.intRegs := rfl
@[simp] theorem modifyStation_fpRegs (s : State) (k : FuClass) (i : Nat) (f : RsEntry → RsEntry) :
    (s.modifyStation k i f).fpRegs = s.fpRegs := rfl
@[simp] theorem modifyStation_mem (s : State) (k : FuClass) (i : Nat) (f : RsEntry → RsEntry) :
    (s.modifyStation k i f).mem = s.mem := rfl
@[simp] theorem modifyStation_cycle (s : State) (k : FuClass) (i : Nat) (f : RsEntry → RsEntry) :
    (s.modifyStation k i f).cycle = s.cycle := rfl
@[simp] theorem modifyStation_pc (s : State) (k : FuClass) (i : Nat) (f : RsEntry → RsEntry) :
    (s.modifyStation k i f).pc = s.pc := rfl
@[simp] theorem modifyStation_nextSeq (s : State) (k : FuClass) (i : Nat) (f : RsEntry → RsEntry) :
    (s.modifyStation k i f).nextSeq = s.nextSeq := rfl
@[simp] theorem modifyStation_rat (s : State) (k : FuClass) (i : Nat) (f : RsEntry → RsEntry) :
    (s.modifyStation k i f).rat = s.rat := rfl
@[simp] theorem modifyStation_rob (s : State) (k : FuClass) (i : Nat) (f : RsEntry → RsEntry) :
    (s.modifyStation k i f).rob = s.rob := rfl
@[simp] theorem modifyStation_cdb (s : State) (k : FuClass) (i : Nat) (f : RsEntry → RsEntry) :
    (s.modifyStation k i f).cdb = s.cdb := rfl
@[simp] theorem modifyStation_pools (s : State) (k : FuClass) (i : Nat) (f : RsEntry → RsEntry) :
    (s.modifyStation k i f).pools = s.pools := rfl
@[simp] theorem modifyStation_port (s : State) (k : FuClass) (i : Nat) (f : RsEntry → RsEntry) :
    (s.modifyStation k i f).port = s.port := rfl
@[simp] theorem modifyStation_btb (s : State) (k : FuClass) (i : Nat) (f : RsEntry → RsEntry) :
    (s.modifyStation k i f).btb = s.btb := rfl
@[simp] theorem modifyStation_fault (s : State) (k : FuClass) (i : Nat) (f : RsEntry → RsEntry) :
    (s.modifyStation k i f).fault = s.fault := rfl
@[simp] theorem modifyStation_events (s : State) (k : FuClass) (i : Nat) (f : RsEntry → RsEntry) :
    (s.modifyStation k i f).events = s.events := rfl

/-! ## `takeUnit` -/

@[simp] theorem takeUnit_cfg (s : State) (k : FuClass) :
    (s.takeUnit k).cfg = s.cfg := rfl
@[simp] theorem takeUnit_prog (s : State) (k : FuClass) :
    (s.takeUnit k).prog = s.prog := rfl
@[simp] theorem takeUnit_intRegs (s : State) (k : FuClass) :
    (s.takeUnit k).intRegs = s.intRegs := rfl
@[simp] theorem takeUnit_fpRegs (s : State) (k : FuClass) :
    (s.takeUnit k).fpRegs = s.fpRegs := rfl
@[simp] theorem takeUnit_mem (s : State) (k : FuClass) :
    (s.takeUnit k).mem = s.mem := rfl
@[simp] theorem takeUnit_cycle (s : State) (k : FuClass) :
    (s.takeUnit k).cycle = s.cycle := rfl
@[simp] theorem takeUnit_pc (s : State) (k : FuClass) :
    (s.takeUnit k).pc = s.pc := rfl
@[simp] theorem takeUnit_nextSeq (s : State) (k : FuClass) :
    (s.takeUnit k).nextSeq = s.nextSeq := rfl
@[simp] theorem takeUnit_rat (s : State) (k : FuClass) :
    (s.takeUnit k).rat = s.rat := rfl
@[simp] theorem takeUnit_rs (s : State) (k : FuClass) :
    (s.takeUnit k).rs = s.rs := rfl
@[simp] theorem takeUnit_rob (s : State) (k : FuClass) :
    (s.takeUnit k).rob = s.rob := rfl
@[simp] theorem takeUnit_cdb (s : State) (k : FuClass) :
    (s.takeUnit k).cdb = s.cdb := rfl
@[simp] theorem takeUnit_port (s : State) (k : FuClass) :
    (s.takeUnit k).port = s.port := rfl
@[simp] theorem takeUnit_btb (s : State) (k : FuClass) :
    (s.takeUnit k).btb = s.btb := rfl
@[simp] theorem takeUnit_fault (s : State) (k : FuClass) :
    (s.takeUnit k).fault = s.fault := rfl
@[simp] theorem takeUnit_events (s : State) (k : FuClass) :
    (s.takeUnit k).events = s.events := rfl

/-! ## `releaseUnits` -/

@[simp] theorem releaseUnits_cfg (s : State) (k : FuClass) (n : Nat) :
    (s.releaseUnits k n).cfg = s.cfg := rfl
@[simp] theorem releaseUnits_prog (s : State) (k : FuClass) (n : Nat) :
    (s.releaseUnits k n).prog = s.prog := rfl
@[simp] theorem releaseUnits_intRegs (s : State) (k : FuClass) (n : Nat) :
    (s.releaseUnits k n).intRegs = s.intRegs := rfl
@[simp] theorem releaseUnits_fpRegs (s : State) (k : FuClass) (n : Nat) :
    (s.releaseUnits k n).fpRegs = s.fpRegs := rfl
@[simp] theorem releaseUnits_mem (s : State) (k : FuClass) (n : Nat) :
    (s.releaseUnits k n).mem = s.mem := rfl
@[simp] theorem releaseUnits_cycle (s : State) (k : FuClass) (n : Nat) :
    (s.releaseUnits k n).cycle = s.cycle := rfl
@[simp] theorem releaseUnits_pc (s : State) (k : FuClass) (n : Nat) :
    (s.releaseUnits k n).pc = s.pc := rfl
@[simp] theorem releaseUnits_nextSeq (s : State) (k : FuClass) (n : Nat) :
    (s.releaseUnits k n).nextSeq = s.nextSeq := rfl
@[simp] theorem releaseUnits_rat (s : State) (k : FuClass) (n : Nat) :
    (s.releaseUnits k n).rat = s.rat := rfl
@[simp] theorem releaseUnits_rs (s : State) (k : FuClass) (n : Nat) :
    (s.releaseUnits k n).rs = s.rs := rfl
@[simp] theorem releaseUnits_rob (s : State) (k : FuClass) (n : Nat) :
    (s.releaseUnits k n).rob = s.rob := rfl
@[simp] theorem releaseUnits_cdb (s : State) (k : FuClass) (n : Nat) :
    (s.releaseUnits k n).cdb = s.cdb := rfl
@[simp] theorem releaseUnits_port (s : State) (k : FuClass) (n : Nat) :
    (s.releaseUnits k n).port = s.port := rfl
@[simp] theorem releaseUnits_btb (s : State) (k : FuClass) (n : Nat) :
    (s.releaseUnits k n).btb = s.btb := rfl
@[simp] theorem releaseUnits_fault (s : State) (k : FuClass) (n : Nat) :
    (s.releaseUnits k n).fault = s.fault := rfl
@[simp] theorem releaseUnits_events (s : State) (k : FuClass) (n : Nat) :
    (s.releaseUnits k n).events = s.events := rfl

/-! ## `raiseFault` -/

@[simp] theorem raiseFault_cfg (f : EngineFault) (s : State) :
    (raiseFault f s).cfg = s.cfg := rfl
@[simp] theorem raiseFault_prog (f : EngineFault) (s : State) :
    (raiseFault f s).prog = s.prog := rfl
@[simp] theorem raiseFault_intRegs (f : EngineFault) (s : State) :
    (raiseFault f s).intRegs = s.intRegs := rfl
@[simp] theorem raiseFault_fpRegs (f : EngineFault) (s : State) :
    (raiseFault f s).fpRegs = s.fpRegs := rfl
@[simp] theorem raiseFault_mem (f : EngineFault) (s : State) :
    (raiseFault f s).mem = s.mem := rfl
@[simp] theorem raiseFault_cycle (f : EngineFault) (s : State) :
    (raiseFault f s).cycle = s.cycle := rfl
@[simp] theorem raiseFault_pc (f : EngineFault) (s : State) :
    (raiseFault f s).pc = s.pc := rfl
@[simp] theorem raiseFault_nextSeq (f : EngineFault) (s : State) :
    (raiseFault f s).nextSeq = s.nextSeq := rfl
@[simp] theorem raiseFault_rat (f : EngineFault) (s : State) :
    (raiseFault f s).rat = s.rat := rfl
@[simp] theorem raiseFault_rs (f : EngineFault) (s : State) :
    (raiseFault f s).rs = s.rs := rfl
@[simp] theorem raiseFault_rob (f : EngineFault) (s : State) :
    (raiseFault f s).rob = s.rob := rfl
@[simp] theorem raiseFault_cdb (f : EngineFault) (s : State) :
    (raiseFault f s).cdb = s.cdb := rfl
@[simp] theorem raiseFault_pools (f : EngineFault) (s : State) :
    (raiseFault f s).pools = s.pools := rfl
@[simp] theorem raiseFault_port (f : EngineFault) (s : State) :
    (raiseFault f s).port = s.port := rfl
@[simp] theorem raiseFault_btb (f : EngineFault) (s : State) :
    (raiseFault f s).btb = s.btb := rfl
@[simp] theorem raiseFault_events (f : EngineFault) (s : State) :
    (raiseFault f s).events = s.events := rfl

/-! ## `trainBtb` -/

@[simp] theorem trainBtb_cfg (pc : Pc) (taken : Bool) (target : Pc) (s : State) :
    (trainBtb pc taken target s).cfg = s.cfg := rfl
@[simp] theorem trainBtb_prog (pc : Pc) (taken : Bool) (target : Pc) (s : State) :
    (trainBtb pc taken target s).prog = s.prog := rfl
@[simp] theorem trainBtb_intRegs (pc : Pc) (taken : Bool) (target : Pc) (s : State) :
    (trainBtb pc taken target s).intRegs = s.intRegs := rfl
@[simp] theorem trainBtb_fpRegs (pc : Pc) (taken : Bool) (target : Pc) (s : State) :
    (trainBtb pc taken target s).fpRegs = s.fpRegs := rfl
@[simp] theorem trainBtb_mem (pc : Pc) (taken : Bool) (target : Pc) (s : State) :
    (trainBtb pc taken target s).mem = s.mem := rfl
@[simp] theorem trainBtb_cycle (pc : Pc) (taken : Bool) (target : Pc) (s : State) :
    (trainBtb pc taken target s).cycle = s.cycle := rfl
@[simp] theorem trainBtb_pc (pc : Pc) (taken : Bool) (target : Pc) (s : State) :
    (trainBtb pc taken target s).pc = s.pc := rfl
@[simp] theorem trainBtb_nextSeq (pc : Pc) (taken : Bool) (target : Pc) (s : State) :
    (trainBtb pc taken target s).nextSeq = s.nextSeq := rfl
@[simp] theorem trainBtb_rat (pc : Pc) (taken : Bool) (target : Pc) (s : State) :
    (trainBtb pc taken target s).rat = s.rat := rfl
@[simp] theorem trainBtb_rs (pc : Pc) (taken : Bool) (target : Pc) (s : State) :
    (trainBtb pc taken target s).rs = s.rs := rfl
@[simp] theorem trainBtb_rob (pc : Pc) (taken : Bool) (target : Pc) (s : State) :
    (trainBtb pc taken target s).rob = s.rob := rfl
@[simp] theorem trainBtb_cdb (pc : Pc) (taken : Bool) (target : Pc) (s : State) :
    (trainBtb pc taken target s).cdb = s.cdb := rfl
@[simp] theorem trainBtb_pools (pc : Pc) (taken : Bool) (target : Pc) (s : State) :
    (trainBtb pc taken target s).pools = s.pools := rfl
@[simp] theorem trainBtb_port (pc : Pc) (taken : Bool) (target : Pc) (s : State) :
    (trainBtb pc taken target s).port = s.port := rfl
@[simp] theorem trainBtb_fault (pc : Pc) (taken : Bool) (target : Pc) (s : State) :
    (trainBtb pc taken target s).fault = s.fault := rfl
@[simp] theorem trainBtb_events (pc : Pc) (taken : Bool) (target : Pc) (s : State) :
    (trainBtb pc taken target s).events = s.events := rfl

/-! ## The fields an update changes -/

@[simp] theorem raiseFault_fault (f : EngineFault) (s : State) : (raiseFault f s).fault = some f := rfl
@[simp] theorem modifyRob_head (s : State) (t : Nat) (f : RobEntry → RobEntry) :
    (s.modifyRob t f).rob.head = s.rob.head := rfl
@[simp] theorem modifyRob_tail (s : State) (t : Nat) (f : RobEntry → RobEntry) :
    (s.modifyRob t f).rob.tail = s.rob.tail := rfl
@[simp] theorem modifyRob_count (s : State) (t : Nat) (f : RobEntry → RobEntry) :
    (s.modifyRob t f).rob.count = s.rob.count := rfl
@[simp] theorem modifyRob_entries (s : State) (t : Nat) (f : RobEntry → RobEntry) :
    (s.modifyRob t f).rob.entries = s.rob.entries.modify t f := rfl
@[simp] theorem modifyTable_rs (s : State) (k : FuClass) (f : List RsEntry → List RsEntry) :
    (s.modifyTable k f).rs = s.rs.modify k f := rfl
@[simp] theorem takeUnit_pools (s : State) (k : FuClass) :
    (s.takeUnit k).pools = s.pools.modify k (fun p => { p with busy := p.busy + 1 }) := rfl
@[simp] theorem releaseUnits_pools (s : State) (k : FuClass) (n : Nat) :
    (s.releaseUnits k n).pools = s.pools.modify k (fun p => { p with release := p.release + n }) := rfl
@[simp] theorem trainBtb_btb (pc : Pc) (taken : Bool) (target : Pc) (s : State) :
    (trainBtb pc taken target s).btb = s.btb.set (s.btbIndex pc) ⟨true, taken, target⟩ := rfl
theorem modifyTiming_eq (s : State) (t : Nat) (f : Timing → Timing) :
    s.modifyTiming t f = s.modifyRob t (fun e => { e with timing := f e.timing }) := rfl
theorem modifyStation_eq (s : State) (k : FuClass) (i : Nat) (f : RsEntry → RsEntry) :
    s.modifyStation k i f = s.modifyTable k (fun tbl => tbl.modify i f) := rfl

end Sys2Proof.Machine
end

