-- ==== Sys2Proof/Laws/Tables.lean ====
section
/-! SUPPORT. Laws of the table accessors: what an entry, a station, a RAT entry or a register reads as after an update,
and which indices a scan visits. -/

namespace Sys2Proof.Machine

/-! ## Registers and the RAT -/

@[simp] theorem readReg_writeReg (s : State) (r q : Reg) (v : Word) :
    (s.writeReg r v).readReg q = if q = r then v else s.readReg q := by
  cases r <;> cases q <;> simp [State.writeReg, State.readReg, Vector.getElem_set, Fin.ext_iff, eq_comm]

theorem regIndex_injective {r q : Reg} (h : regIndex r = regIndex q) : r = q := by
  cases r <;> cases q <;> simp only [regIndex, Fin.mk.injEq] at h <;> first | omega | (congr 1; done) | (congr 1; omega)

@[simp] theorem lookup_assign (m : AliasTable) (r q : Reg) (v : RatEntry) :
    (m.assign r v).lookup q = if q = r then v else m.lookup q := by
  unfold AliasTable.assign AliasTable.lookup
  by_cases h : q = r
  · subst h
    simp
  · have : regIndex r ≠ regIndex q := fun e => h (regIndex_injective e).symm
    simp [h, Fin.val_ne_of_ne this]

@[simp] theorem lookup_allArf (r : Reg) : AliasTable.allArf.lookup r = .arf := by
  simp [AliasTable.allArf, AliasTable.lookup]

/-! ## The ROB -/

/-- An entry after a change of entry `t`: a change of an index outside the buffer does nothing. -/
theorem robAt_modifyRob (s : State) (t u : Nat) (f : RobEntry → RobEntry) :
    (s.modifyRob t f).robAt u =
      if u = t ∧ u < s.rob.entries.length then f (s.robAt u) else s.robAt u := by
  unfold State.robAt State.modifyRob
  rw [List.getElem?_modify]
  by_cases h : u = t
  · subst h
    by_cases hu : u < s.rob.entries.length <;> simp [hu]
  · simp [h, Ne.symm h]

@[simp] theorem robAt_modifyRob_other (s : State) {t u : Nat} (f : RobEntry → RobEntry) (h : u ≠ t) :
    (s.modifyRob t f).robAt u = s.robAt u := by
  simp [robAt_modifyRob, h]

theorem robAt_modifyRob_same (s : State) {t : Nat} (f : RobEntry → RobEntry) (h : t < s.rob.entries.length) :
    (s.modifyRob t f).robAt t = f (s.robAt t) := by
  simp [robAt_modifyRob, h]

/-- A busy entry lies inside the buffer. -/
theorem lt_length_of_busy {s : State} {t : Nat} (h : (s.robAt t).busy = true) : t < s.rob.entries.length := by
  by_contra hc
  simp [State.robAt, List.getElem?_eq_none (Nat.le_of_not_lt hc), RobEntry.free] at h

/-! ## The stations -/

@[simp] theorem get_modify_same {α : Type} (m : ClassMap α) (k : FuClass) (f : α → α) :
    (m.modify k f).get k = f (m.get k) := by
  cases k <;> rfl

theorem get_modify_other {α : Type} (m : ClassMap α) {k c : FuClass} (f : α → α) (h : c ≠ k) :
    (m.modify k f).get c = m.get c := by
  cases k <;> cases c <;> first | rfl | exact absurd rfl h

@[simp] theorem get_map {α β : Type} (f : α → β) (m : ClassMap α) (k : FuClass) :
    (m.map f).get k = f (m.get k) := by
  cases k <;> rfl

@[simp] theorem table_modifyTable_same (s : State) (k : FuClass) (f : List RsEntry → List RsEntry) :
    (s.modifyTable k f).table k = f (s.table k) := by
  simp [State.table]

theorem table_modifyTable_other (s : State) {k c : FuClass} (f : List RsEntry → List RsEntry) (h : c ≠ k) :
    (s.modifyTable k f).table c = s.table c := by
  simp [State.table, get_modify_other _ _ h]

/-- A station after a change of station `(k, i)`. -/
theorem station_modifyStation (s : State) (k c : FuClass) (i j : Nat) (f : RsEntry → RsEntry) :
    (s.modifyStation k i f).station c j =
      if c = k ∧ j = i ∧ j < (s.table k).length then f (s.station c j) else s.station c j := by
  unfold State.station
  rw [modifyStation_eq]
  by_cases hk : c = k
  · subst hk
    rw [table_modifyTable_same, List.getElem?_modify]
    by_cases hj : j = i
    · subst hj
      by_cases hl : j < (s.table c).length <;> simp [hl]
    · simp [hj, Ne.symm hj]
  · rw [table_modifyTable_other _ _ hk]
    simp [hk]

/-- A busy station lies inside its table. -/
theorem lt_length_of_station_busy {s : State} {k : FuClass} {i : Nat} (h : (s.station k i).busy = true) :
    i < (s.table k).length := by
  by_contra hc
  simp [State.station, List.getElem?_eq_none (Nat.le_of_not_lt hc), RsEntry.free] at h

theorem mem_busyStations (s : State) (k : FuClass) (i : Nat) :
    i ∈ s.busyStations k ↔ (s.station k i).busy = true := by
  simp only [State.busyStations, List.mem_filter, List.mem_range]
  exact ⟨fun h => h.2, fun h => ⟨lt_length_of_station_busy h, h⟩⟩

theorem mem_insertByAge (age : Nat → Nat) (i j : Nat) (l : List Nat) :
    j ∈ insertByAge age i l ↔ j = i ∨ j ∈ l := by
  induction l with
  | nil => simp [insertByAge]
  | cons a l ih =>
    unfold insertByAge
    split
    · simp
    · simp [ih]; tauto

/-- A scan visits exactly the busy entries (40_engine_cycle.md R220). -/
theorem mem_ageOrder (s : State) (k : FuClass) (i : Nat) :
    i ∈ s.ageOrder k ↔ (s.station k i).busy = true := by
  rw [← mem_busyStations]
  unfold State.ageOrder
  induction s.busyStations k with
  | nil => simp
  | cons a l ih => simp [mem_insertByAge, ih]

theorem insertByAge_sorted (age : Nat → Nat) (i : Nat) {l : List Nat}
    (h : l.Pairwise (fun a b => age a ≤ age b)) :
    (insertByAge age i l).Pairwise (fun a b => age a ≤ age b) := by
  induction l with
  | nil => simp [insertByAge]
  | cons a l ih =>
    obtain ⟨ha, hl⟩ := List.pairwise_cons.1 h
    unfold insertByAge
    split
    · rename_i hia
      refine List.pairwise_cons.2 ⟨fun b hb => ?_, h⟩
      rcases List.mem_cons.1 hb with rfl | hb
      · exact hia
      · exact hia.trans (ha b hb)
    · rename_i hia
      refine List.pairwise_cons.2 ⟨fun b hb => ?_, ih hl⟩
      rcases (mem_insertByAge age i b l).1 hb with rfl | hb
      · omega
      · exact ha b hb

/-- A scan goes from the oldest to the youngest (40_engine_cycle.md R221). -/
theorem ageOrder_sorted (s : State) (k : FuClass) :
    (s.ageOrder k).Pairwise (fun a b => s.stationSeq k a ≤ s.stationSeq k b) := by
  unfold State.ageOrder
  induction s.busyStations k with
  | nil => simp
  | cons a l ih => exact insertByAge_sorted _ a ih

theorem nodup_busyStations (s : State) (k : FuClass) : (s.busyStations k).Nodup :=
  List.Nodup.filter _ List.nodup_range

theorem nodup_insertByAge (age : Nat → Nat) (i : Nat) {l : List Nat} (h : l.Nodup) (hi : i ∉ l) :
    (insertByAge age i l).Nodup := by
  induction l with
  | nil => simp [insertByAge]
  | cons a l ih =>
    obtain ⟨ha, hl⟩ := List.nodup_cons.1 h
    rw [List.mem_cons, not_or] at hi
    unfold insertByAge
    split
    · exact List.nodup_cons.2 ⟨by simp [hi], h⟩
    · refine List.nodup_cons.2 ⟨fun hm => ?_, ih hl hi.2⟩
      rcases (mem_insertByAge age i a l).1 hm with rfl | hm
      · exact hi.1 rfl
      · exact ha hm

/-- A scan visits no entry twice. -/
theorem nodup_ageOrder (s : State) (k : FuClass) : (s.ageOrder k).Nodup := by
  unfold State.ageOrder
  have hmem : ∀ l : List Nat, ∀ i, i ∈ l.foldr (insertByAge (s.stationSeq k)) [] ↔ i ∈ l := by
    intro l
    induction l with
    | nil => simp
    | cons a l ih => intro i; simp [mem_insertByAge, ih]
  have h := nodup_busyStations s k
  revert h
  generalize s.busyStations k = l
  intro h
  induction l with
  | nil => simp
  | cons a l ih =>
    obtain ⟨ha, hl⟩ := List.nodup_cons.1 h
    exact nodup_insertByAge _ a (ih hl) (by rwa [hmem])

/-- The scan of a table meets a dead tag exactly when some busy entry has one (60_exceptions.md R404). -/
theorem danglingStation_eq_none (s : State) (k : FuClass) :
    s.danglingStation k = none ↔
      ∀ i, (s.station k i).busy = true → (s.robAt (s.station k i).dest).busy = true := by
  simp [State.danglingStation, mem_busyStations]

/-! ## Runs of parts -/

@[simp] theorem foldUnlessFaulted_nil {α : Type} (f : α → State → State) (s : State) :
    foldUnlessFaulted f [] s = s := rfl

theorem foldUnlessFaulted_cons {α : Type} (f : α → State → State) (x : α) (xs : List α) (s : State) :
    foldUnlessFaulted f (x :: xs) s = foldUnlessFaulted f xs (unlessFaulted (f x) s) := rfl

theorem unlessFaulted_of_none (f : State → State) {s : State} (h : s.fault = none) : unlessFaulted f s = f s := by
  simp [unlessFaulted, State.faulted, h]

theorem unlessFaulted_of_some (f : State → State) {s : State} {e : EngineFault} (h : s.fault = some e) :
    unlessFaulted f s = s := by
  simp [unlessFaulted, State.faulted, h]

/-- What every part keeps, the run keeps: the one induction over a stage's scan. -/
theorem foldUnlessFaulted_keeps {α : Type} (P : State → Prop) (f : α → State → State) (xs : List α)
    (hf : ∀ x ∈ xs, ∀ s, s.fault = none → P s → P (f x s)) {s : State} (h : P s) :
    P (foldUnlessFaulted f xs s) := by
  induction xs generalizing s with
  | nil => exact h
  | cons x xs ih =>
    rw [foldUnlessFaulted_cons]
    refine ih (fun y hy => hf y (List.mem_cons_of_mem _ hy)) ?_
    cases hs : s.fault with
    | none => rw [unlessFaulted_of_none _ hs]; exact hf x (by simp) s hs h
    | some e => rwa [unlessFaulted_of_some _ hs]

/-- What a part keeps, it keeps when it may be skipped. -/
theorem unlessFaulted_keeps (P : State → Prop) (f : State → State)
    (hf : ∀ s, s.fault = none → P s → P (f s)) {s : State} (h : P s) : P (unlessFaulted f s) := by
  cases hs : s.fault with
  | none => rw [unlessFaulted_of_none _ hs]; exact hf s hs h
  | some e => rwa [unlessFaulted_of_some _ hs]

end Sys2Proof.Machine
end

