-- ==== Sys2Proof/Laws/Check.lean ====
section
/-! SUPPORT. Boolean checks of a concrete state that imply the predicates of Sys2Proof/Safety.lean, whose quantifiers
run over all indices. The tests' witnesses use them. -/

namespace Sys2Proof.Machine

/-- Every busy station of every table passes. -/
def State.allBusy (s : State) (p : FuClass → Nat → Bool) : Bool :=
  tableOrder.all (fun k => (List.range (s.table k).length).all (fun i => !(s.station k i).busy || p k i))

theorem State.of_allBusy {s : State} {p : FuClass → Nat → Bool} (h : s.allBusy p = true) (k : FuClass) (i : Nat)
    (hb : (s.station k i).busy = true) : p k i = true := by
  have hk : k ∈ tableOrder := by cases k <;> decide
  have h1 := List.all_eq_true.mp h k hk
  have h2 := List.all_eq_true.mp h1 i (List.mem_range.mpr (lt_length_of_station_busy hb))
  simpa [hb] using h2

/-- Every register passes. -/
def allRegisters (p : Reg → Bool) : Bool := (List.finRange 32).all (fun i => p (.R i) && p (.F i))

theorem of_allRegisters {p : Reg → Bool} (h : allRegisters p = true) (r : Reg) : p r = true := by
  have h1 := List.all_eq_true.mp h
  cases r with
  | R i => exact (Bool.and_eq_true_iff.mp (h1 i (List.mem_finRange i))).1
  | F i => exact (Bool.and_eq_true_iff.mp (h1 i (List.mem_finRange i))).2

/-! ## Sizes, ring, events -/

def State.checkSized (s : State) : Bool :=
  s.launchLegal && decide (s.rob.entries.length = s.cfg.robSize)
    && tableOrder.all (fun k => decide ((s.table k).length = s.cfg.rsCount.get k))
    && decide (s.btb.length = s.cfg.btbEntries)

theorem State.sized_of_check {s : State} (h : s.checkSized = true) : s.Sized := by
  simp only [checkSized, Bool.and_eq_true, decide_eq_true_eq, List.all_eq_true] at h
  exact ⟨h.1.1.1, h.1.1.2, fun k => h.1.2 k (by cases k <;> decide), h.2⟩

def State.checkRing (s : State) : Bool :=
  decide (s.rob.head < s.cfg.robSize) && decide (s.rob.count ≤ s.cfg.robSize)
    && decide (s.rob.tail = (s.rob.head + s.rob.count) % s.cfg.robSize)
    && decide (∀ n < s.cfg.robSize, (s.nthEntry n).busy = decide (n < s.rob.count))
    && decide (∀ n < s.rob.count, (s.nthEntry n).seq + s.rob.count = s.nextSeq + n)

theorem State.ringOk_of_check {s : State} (h : s.checkRing = true) : s.RingOk := by
  simp only [checkRing, Bool.and_eq_true, decide_eq_true_eq] at h
  exact ⟨h.1.1.1.1, h.1.1.1.2, h.1.1.2, h.1.2, h.2⟩

/-! ## Quiet states -/

def State.checkQuiet (s : State) : Bool :=
  s.checkSized && s.fault.isNone && decide (s.rob.count = 0) && decide (s.rob.head < s.cfg.robSize)
    && decide (s.rob.tail = s.rob.head) && s.rob.entries.all (fun e => !e.busy) && s.allBusy (fun _ _ => false)
    && decide (s.pools = ⟨⟨0, 0⟩, ⟨0, 0⟩, ⟨0, 0⟩, ⟨0, 0⟩⟩) && decide (s.port = ⟨.none, 0, false⟩)
    && !s.cdb.valid && allRegisters (fun r => decide (s.rat.lookup r = .arf))

theorem State.quiet_of_check {s : State} (h : s.checkQuiet = true) : s.Quiet := by
  simp only [checkQuiet, Bool.and_eq_true, decide_eq_true_eq, Option.isNone_iff_eq_none, Bool.not_eq_true'] at h
  obtain ⟨⟨⟨⟨⟨⟨⟨⟨⟨⟨hs, hf⟩, hc⟩, hh⟩, ht⟩, he⟩, hb⟩, hp⟩, ho⟩, hv⟩, hr⟩ := h
  refine ⟨sized_of_check hs, hf, hc, hh, ht, ?_, ?_, hp, ho, hv, fun r => of_decide_eq_true (of_allRegisters hr r)⟩
  · intro t
    by_contra hne
    have hb : (s.robAt t).busy = true := by simpa using hne
    have hm : s.robAt t ∈ s.rob.entries := by
      unfold State.robAt
      rw [List.getElem?_eq_getElem (lt_length_of_busy hb)]
      exact List.getElem_mem _
    have := List.all_eq_true.mp he _ hm
    simp [hb] at this
  · intro k i
    by_contra hne
    exact absurd (of_allBusy hb k i (by simpa using hne)) (by simp)

/-! ## The whole invariant -/

def State.checkEntry (s : State) (n : Nat) : Bool :=
  decide ((s.nthEntry n).kind = (s.nthEntry n).op.kind) && decide ((s.nthEntry n).done = (s.nthEntry n).complete)
    && decide ((s.nthEntry n).kind = .nop → (s.nthEntry n).complete = true)
    && before (s.nthEntry n).timing.issue s.cycle

def State.checkEntries (s : State) : Bool := decide (∀ n < s.rob.count, s.checkEntry n = true)

theorem State.entriesOk_of_check {s : State} (h : s.checkEntries = true) : s.EntriesOk := by
  have h1 : ∀ n < s.rob.count, s.checkEntry n = true := of_decide_eq_true h
  simp only [checkEntry, Bool.and_eq_true, decide_eq_true_eq] at h1
  exact ⟨fun n hn => (h1 n hn).1.1.1, fun n hn => (h1 n hn).1.1.2, fun n hn => (h1 n hn).1.2,
    fun n hn => (h1 n hn).2⟩

def State.checkRenaming (s : State) : Bool :=
  allRegisters (fun r => decide (s.rat.lookup r = s.youngestWriter r s.rob.count))
    && decide (∀ n < s.rob.count, (s.nthEntry n).kind = .branch →
      allRegisters (fun r => decide ((s.nthEntry n).ckpt.lookup r = s.youngestWriter r n)) = true)

theorem State.renamingOk_of_check {s : State} (h : s.checkRenaming = true) : s.RenamingOk := by
  simp only [checkRenaming, Bool.and_eq_true, decide_eq_true_eq] at h
  exact ⟨fun r => of_decide_eq_true (of_allRegisters h.1 r),
    fun n hn hk r => of_decide_eq_true (of_allRegisters (h.2 n hn hk) r)⟩

def State.checkSlot (s : State) (user : Nat) : Slot → Bool
  | .resolved _ => true
  | .pending u =>
    (s.robAt u).busy && decide ((s.robAt u).kind = .reg) && !(s.robAt u).complete
      && decide ((s.robAt u).seq < (s.robAt user).seq)

theorem State.slotOk_of_check {s : State} {user : Nat} {v : Slot} (h : s.checkSlot user v = true) :
    s.SlotOk user v := by
  cases v with
  | resolved _ => trivial
  | pending u =>
    simp only [checkSlot, Bool.and_eq_true, decide_eq_true_eq, Bool.not_eq_true'] at h
    exact ⟨h.1.1.1, h.1.1.2, h.1.2, h.2⟩

def State.checkPhase (s : State) (k : FuClass) (i : Nat) : Bool :=
  let e := s.station k i
  match e.phase with
  | .waiting => !e.addrValid
  | .executing => e.j.ready && e.k.ready && !e.addrValid && decide (0 < e.remaining)
      && decide (e.remaining < Config.latency s.cfg k)
  | .memWait => e.j.ready && e.k.ready && decide (e.op = .ld) && e.addrValid
  | .memAccess => e.j.ready && e.k.ready && decide (e.op = .ld) && e.addrValid && decide (s.port.owner = .load i)
      && decide (0 < e.remaining) && decide (e.remaining < s.cfg.memLat)
  | .resultReady => e.j.ready && e.k.ready && decide (e.op.kind = .reg) && (decide (e.op ≠ .ld) || e.addrValid)
      && before (readyCycle e (s.robAt e.dest).timing) s.cycle
  | .storeDone => e.j.ready && e.k.ready && decide (e.op = .sd) && e.addrValid
      && decide ((s.robAt e.dest).stAddr = e.addr) && before (s.robAt e.dest).timing.exEnd s.cycle

theorem State.phaseOk_of_check {s : State} {k : FuClass} {i : Nat} (h : s.checkPhase k i = true) :
    s.PhaseOk k i := by
  unfold checkPhase at h
  unfold PhaseOk
  cases hp : (s.station k i).phase <;>
    simp only [hp, Bool.and_eq_true, Bool.or_eq_true, decide_eq_true_eq, Bool.not_eq_true'] at h ⊢ <;> tauto

def State.checkStation (s : State) (k : FuClass) (i : Nat) : Bool :=
  let e := s.station k i
  (s.robAt e.dest).busy && decide ((s.robAt e.dest).op = e.op) && decide (e.op.fuClass = some k)
    && ((s.robAt e.dest).complete == decide (e.phase = .storeDone))
    && s.checkSlot e.dest e.j && s.checkSlot e.dest e.k && s.checkPhase k i
    && s.allBusy (fun c m => decide (e.dest = (s.station c m).dest → k = c ∧ i = m))

def State.checkPresent (s : State) : Bool :=
  decide (∀ n < s.rob.count, (s.nthEntry n).complete = false ∨ (s.nthEntry n).kind = .store →
    tableOrder.any (fun k => (List.range (s.table k).length).any
      (fun i => (s.station k i).busy && decide ((s.station k i).dest = s.tagAt n))) = true)

theorem State.stationsOk_of_check {s : State} (h : s.allBusy s.checkStation = true) (hp : s.checkPresent = true) :
    s.StationsOk := by
  have h1 := of_allBusy h
  simp only [checkStation, Bool.and_eq_true, decide_eq_true_eq, beq_iff_eq] at h1
  refine ⟨fun k i hb => (h1 k i hb).1.1.1.1.1.1.1, fun k i hb => ⟨(h1 k i hb).1.1.1.1.1.1.2, (h1 k i hb).1.1.1.1.1.2⟩,
    fun k i hb => (h1 k i hb).1.1.1.1.2, ?_,
    fun k i hb => ⟨slotOk_of_check (h1 k i hb).1.1.1.2, slotOk_of_check (h1 k i hb).1.1.2⟩,
    fun k i hb => phaseOk_of_check (h1 k i hb).1.2, ?_⟩
  · intro k i k' i' hb hb' hd
    exact of_decide_eq_true (of_allBusy (h1 k i hb).2 k' i' hb') hd
  · intro n hn hc
    have h2 := of_decide_eq_true hp n hn hc
    obtain ⟨k, _, h3⟩ := List.any_eq_true.mp h2
    obtain ⟨i, _, h4⟩ := List.any_eq_true.mp h3
    rw [Bool.and_eq_true, decide_eq_true_eq] at h4
    exact ⟨k, i, h4⟩

def State.checkPool (s : State) (k : FuClass) : Bool :=
  match s.pools.get? k, s.cfg.fuCount.get? k with
  | some p, some n => decide (p.release = 0) && decide (p.busy = s.executingCount k) && decide (p.busy ≤ n)
  | _, _ => true

theorem State.poolsOk_of_check {s : State} (h : tableOrder.all s.checkPool = true) : s.PoolsOk := by
  intro k p n hp hn
  have h1 := List.all_eq_true.mp h k (by cases k <;> decide)
  simp only [checkPool, hp, hn, Bool.and_eq_true, decide_eq_true_eq] at h1
  exact ⟨h1.1.1, h1.1.2, h1.2⟩

def State.checkPort (s : State) : Bool :=
  !s.port.release && !s.cdb.valid &&
    match s.port.owner with
    | .none => decide (s.port.remaining = 0)
    | .load i => decide (s.port.remaining = 0) && (s.station .ls i).busy
        && decide ((s.station .ls i).phase = .memAccess)
    | .commit => decide (0 < s.rob.count) && decide ((s.nthEntry 0).kind = .store) && (s.nthEntry 0).done
        && decide (0 < s.port.remaining) && decide (s.port.remaining < s.cfg.memLat)

theorem State.portOk_of_check {s : State} (h : s.checkPort = true) : s.PortOk := by
  unfold checkPort at h
  simp only [Bool.and_eq_true, Bool.not_eq_true'] at h
  obtain ⟨⟨hr, hv⟩, ho⟩ := h
  cases hown : s.port.owner <;> simp only [hown, Bool.and_eq_true, decide_eq_true_eq] at ho
  · exact ⟨hr, fun _ => ho, fun i hi => by simp [hown] at hi, fun hc => by simp [hown] at hc, hv⟩
  · refine ⟨hr, fun _ => ho.1.1, fun i hi => ?_, fun hc => by simp [hown] at hc, hv⟩
    rw [hown, PortOwner.load.injEq] at hi
    subst hi
    exact ⟨ho.1.2, ho.2⟩
  · exact ⟨hr, fun hc => absurd hown hc, fun i hi => by simp [hown] at hi,
      fun _ => ⟨ho.1.1.1.1, ho.1.1.1.2, ho.1.1.2, ho.1.2, ho.2⟩, hv⟩

/-- All of the invariant but the memory's form, for a state without a fault. -/
def State.check (s : State) : Bool :=
  s.fault.isNone && s.checkSized && s.checkRing && s.checkEntries && s.checkRenaming
    && s.allBusy s.checkStation && s.checkPresent && tableOrder.all s.checkPool && s.checkPort

theorem State.inv_of_check {s : State} (h : s.check = true) (hm : s.mem.wf = true) : s.Inv := by
  simp only [check, Bool.and_eq_true, Option.isNone_iff_eq_none] at h
  obtain ⟨⟨⟨⟨⟨⟨⟨⟨hf, hs⟩, hr⟩, he⟩, hn⟩, hst⟩, hpr⟩, hpo⟩, hpt⟩ := h
  exact ⟨sized_of_check hs, ringOk_of_check hr, entriesOk_of_check he, renamingOk_of_check hn,
    stationsOk_of_check hst hpr, poolsOk_of_check hpo, portOk_of_check hpt, fun f hf' => by simp [hf] at hf', hm⟩

/-! ## Tags -/

theorem State.stationsInFlight_of_check {s : State}
    (h : s.allBusy (fun k i => (s.robAt (s.station k i).dest).busy) = true) : s.StationsInFlight :=
  of_allBusy h

def State.checkWait (s : State) : Slot → Bool
  | .resolved _ => true
  | .pending u => (s.robAt u).busy

theorem State.waitsInFlight_of_check {s : State}
    (h : s.allBusy (fun k i => s.checkWait (s.station k i).j && s.checkWait (s.station k i).k) = true) :
    s.WaitsInFlight := by
  intro k i u hb hu
  have h1 := Bool.and_eq_true_iff.mp (of_allBusy h k i hb)
  rcases hu with hu | hu
  · simpa [hu, checkWait] using h1.1
  · simpa [hu, checkWait] using h1.2

/-- A property of the older stores of a load is shown by a check of the load/store table. -/
theorem State.olderStores_of_check {s : State} {i : Nat} {p : Nat → Prop}
    (h : ∀ q < (s.table .ls).length, s.OlderStore i q → p q) (q : Nat) (hq : s.OlderStore i q) : p q :=
  h q (lt_length_of_station_busy hq.1) hq

end Sys2Proof.Machine
end

