-- ==== Sys2Proof/Laws/Memory.lean ====
section
/-! SUPPORT. Laws of the data memory: what a read gives after a write, and that every operation keeps the canonical
form. -/

namespace Sys2Proof.Machine

theorem read_cons (b : Nat) (v : Word) (m : Memory) (a : Word) :
    Memory.read ((b, v) :: m) a = if b = a.toNat then v else Memory.read m a := by
  simp [Memory.read]

theorem wfFrom_cons (lo b : Nat) (v : Word) (m : Memory) :
    Memory.wfFrom lo ((b, v) :: m) = true ↔
      lo ≤ b ∧ b < 2 ^ 64 ∧ v ≠ Config.memUnset (BitVec.ofNat 64 b) ∧ Memory.wfFrom (b + 1) m = true := by
  simp [Memory.wfFrom, and_assoc]

theorem wfFrom_mono {lo lo' : Nat} {m : Memory} (h : Memory.wfFrom lo' m = true) (hle : lo ≤ lo') :
    Memory.wfFrom lo m = true := by
  cases m with
  | nil => rfl
  | cons p rest =>
    obtain ⟨b, v⟩ := p
    rw [wfFrom_cons] at h ⊢
    exact ⟨hle.trans h.1, h.2⟩

/-- Below its least address a canonical memory lists nothing. -/
theorem read_below {lo : Nat} {m : Memory} (h : Memory.wfFrom lo m = true) {a : Word} (ha : a.toNat < lo) :
    Memory.read m a = Config.memUnset a := by
  induction m generalizing lo with
  | nil => rfl
  | cons p rest ih =>
    obtain ⟨b, v⟩ := p
    rw [wfFrom_cons] at h
    rw [read_cons, if_neg (by omega)]
    exact ih h.2.2.2 (by omega)

theorem erase_wfFrom {lo : Nat} {m : Memory} (h : Memory.wfFrom lo m = true) (a : Nat) :
    Memory.wfFrom lo (Memory.erase m a) = true := by
  induction m generalizing lo with
  | nil => rfl
  | cons p rest ih =>
    obtain ⟨b, v⟩ := p
    rw [wfFrom_cons] at h
    by_cases hb : b = a
    · simpa [Memory.erase, hb] using wfFrom_mono h.2.2.2 (by omega)
    · simp only [Memory.erase, hb, if_false]
      exact (wfFrom_cons ..).2 ⟨h.1, h.2.1, h.2.2.1, ih h.2.2.2⟩

theorem insert_wfFrom {lo a : Nat} {v : Word} {m : Memory} (h : Memory.wfFrom lo m = true) (hlo : lo ≤ a)
    (ha : a < 2 ^ 64) (hv : v ≠ Config.memUnset (BitVec.ofNat 64 a)) :
    Memory.wfFrom lo (Memory.insert m a v) = true := by
  induction m generalizing lo with
  | nil => exact (wfFrom_cons ..).2 ⟨hlo, ha, hv, rfl⟩
  | cons p rest ih =>
    obtain ⟨b, w⟩ := p
    rw [wfFrom_cons] at h
    unfold Memory.insert
    split
    · exact (wfFrom_cons ..).2 ⟨hlo, ha, hv, (wfFrom_cons ..).2 ⟨by omega, h.2⟩⟩
    · split
      · rename_i hab
        subst hab
        exact (wfFrom_cons ..).2 ⟨hlo, ha, hv, h.2.2.2⟩
      · exact (wfFrom_cons ..).2 ⟨h.1, h.2.1, h.2.2.1, ih h.2.2.2 (by omega)⟩

/-- A write keeps the canonical form. -/
theorem write_wf {m : Memory} (h : m.wf = true) (a v : Word) : (m.write a v).wf = true := by
  unfold Memory.write
  split
  · exact erase_wfFrom h _
  · rename_i hv
    exact insert_wfFrom h (by omega) a.isLt (by simpa using hv)

/-- A run of writes keeps the canonical form: the memory a launch leaves has it. -/
theorem writes_wf (ps : List (Word × Word)) {m : Memory} (h : m.wf = true) :
    (ps.foldl (fun m p => Memory.write m p.1 p.2) m).wf = true := by
  induction ps generalizing m with
  | nil => exact h
  | cons p ps ih => exact ih (write_wf h p.1 p.2)

theorem launch_mem_wf (cfg : Config) (prog : List InstrWord) (arf : List (Reg × Word)) (mem : List (Word × Word)) :
    (State.launch cfg prog arf mem).mem.wf = true := writes_wf mem rfl

theorem reset_mem_wf : State.reset.mem.wf = true := rfl

theorem read_insert (m : Memory) (a : Nat) (v : Word) (b : Word) :
    Memory.read (Memory.insert m a v) b = if a = b.toNat then v else Memory.read m b := by
  induction m with
  | nil => simp [Memory.insert, Memory.read]
  | cons p rest ih =>
    obtain ⟨c, w⟩ := p
    unfold Memory.insert
    split
    · simp [read_cons]
    · split
      · rename_i hac
        subst hac
        simp only [read_cons]
        split <;> rfl
      · simp only [read_cons, ih]
        split <;> split <;> first | rfl | omega

theorem read_erase_other (m : Memory) {a : Nat} {b : Word} (h : a ≠ b.toNat) :
    Memory.read (Memory.erase m a) b = Memory.read m b := by
  induction m with
  | nil => rfl
  | cons p rest ih =>
    obtain ⟨c, w⟩ := p
    unfold Memory.erase
    split
    · rename_i hca
      simp [read_cons, hca, h]
    · simp [read_cons, ih]

theorem read_erase_same {lo : Nat} {m : Memory} (h : Memory.wfFrom lo m = true) (a : Word) :
    Memory.read (Memory.erase m a.toNat) a = Config.memUnset a := by
  induction m generalizing lo with
  | nil => rfl
  | cons p rest ih =>
    obtain ⟨c, w⟩ := p
    rw [wfFrom_cons] at h
    unfold Memory.erase
    split
    · exact read_below h.2.2.2 (by omega)
    · rename_i hca
      rw [read_cons, if_neg hca]
      exact ih h.2.2.2

end Sys2Proof.Machine
end

