-- ==== Sys2Proof/Laws/PerInstr.lean ====
section
/-! SUPPORT. Laws stated per instruction. `OpcodeField`: the opcode field of an instruction's word is its opcode number
(spec/30_encoding.md R152, R153, R173). -/

namespace Sys2Proof

theorem opField_encodeR (op : Op) (ra rb rc : Reg) : opField (encodeR op ra rb rc) = op.code := by
  unfold opField encodeR
  ext i hi
  simp only [BitVec.getElem_extractLsb', BitVec.getLsbD_append]
  rw [if_neg (by omega), if_neg (by omega), if_neg (by omega), if_neg (by omega), ← BitVec.getLsbD_eq_getElem]
  congr 1
  omega

theorem opField_encodeI (op : Op) (ra rb : Reg) (imm : BitVec 16) : opField (encodeI op ra rb imm) = op.code := by
  unfold opField encodeI
  ext i hi
  simp only [BitVec.getElem_extractLsb', BitVec.getLsbD_append]
  rw [if_neg (by omega), if_neg (by omega), if_neg (by omega), ← BitVec.getLsbD_eq_getElem]
  congr 1
  omega

end Sys2Proof

namespace Sys2Proof.Laws.OpcodeField

/-- The opcode field of the instruction's word is the instruction's opcode number. -/
def Statement (i : Instr) : Prop := opField (encode i) = i.op.code

theorem nop : Statement .nop := by unfold Statement; decide
theorem add (rd rs rt : Reg) : Statement (.add rd rs rt) := opField_encodeR ..
theorem sub (rd rs rt : Reg) : Statement (.sub rd rs rt) := opField_encodeR ..
theorem addi (rd rs : Reg) (imm : BitVec 16) : Statement (.addi rd rs imm) := opField_encodeI ..
theorem addD (fd fs ft : Reg) : Statement (.addD fd fs ft) := opField_encodeR ..
theorem subD (fd fs ft : Reg) : Statement (.subD fd fs ft) := opField_encodeR ..
theorem multD (fd fs ft : Reg) : Statement (.multD fd fs ft) := opField_encodeR ..
theorem ld (rt rb : Reg) (off : BitVec 16) : Statement (.ld rt rb off) := opField_encodeI ..
theorem sd (rt rb : Reg) (off : BitVec 16) : Statement (.sd rt rb off) := opField_encodeI ..
theorem beq (rs rt : Reg) (off : BitVec 16) : Statement (.beq rs rt off) := opField_encodeI ..
theorem bne (rs rt : Reg) (off : BitVec 16) : Statement (.bne rs rt off) := opField_encodeI ..

end Sys2Proof.Laws.OpcodeField
end

