-- ==== Sys2Proof/Laws/Stages.lean ====
section
/-! SUPPORT. What each stage of a cycle can do, said once: one inversion lemma per shared operation. Later proofs cite
these and do not unfold the operations. -/

namespace Sys2Proof.Machine

/-! ## Issue -/

/-- The form `exec` issues an instruction in. -/
def issueForm : Instr → IssueForm
  | .nop => ⟨.nop, none, .value 0, .value 0, 0⟩
  | .add rd rs rt => ⟨.add, some rd, .reg rs, .reg rt, 0⟩
  | .sub rd rs rt => ⟨.sub, some rd, .reg rs, .reg rt, 0⟩
  | .addi rd rs imm => ⟨.addi, some rd, .reg rs, .value (sext64 imm), sext64 imm⟩
  | .addD fd fs ft => ⟨.addD, some fd, .reg fs, .reg ft, 0⟩
  | .subD fd fs ft => ⟨.subD, some fd, .reg fs, .reg ft, 0⟩
  | .multD fd fs ft => ⟨.multD, some fd, .reg fs, .reg ft, 0⟩
  | .ld rt rb off => ⟨.ld, some rt, .reg rb, .value 0, sext64 off⟩
  | .sd rt rb off => ⟨.sd, none, .reg rb, .reg rt, sext64 off⟩
  | .beq rs rt off => ⟨.beq, none, .reg rs, .reg rt, sext64 off⟩
  | .bne rs rt off => ⟨.bne, none, .reg rs, .reg rt, sext64 off⟩

/-- Every arm of `exec` issues its form and answers a next state. -/
theorem exec_eq_issue (i : Instr) (s : State) : exec i s = .next (issue (issueForm i) s) := by
  cases i <;> rfl

/-- The form's opcode is the instruction's. -/
@[simp] theorem issueForm_op (i : Instr) : (issueForm i).op = i.op := by
  cases i <;> rfl

/-- The form renames a register exactly when the instruction's kind is `REG` (40_engine_cycle.md R217). -/
theorem issueForm_dest_isSome (i : Instr) : (issueForm i).dest.isSome = decide (i.op.kind = .reg) := by
  cases i <;> rfl

/-- What issue can do: stall, complete a nop, or go to a station (40_engine_cycle.md R206, R210, R218). -/
theorem issue_cases (f : IssueForm) (s : State) :
    (s.canIssue f.op = false ∧ issue f s = s) ∨
    (s.canIssue f.op = true ∧ f.op.fuClass = none ∧
      issue f s = chooseNextPc f.op s.rob.tail (completeAtIssue s.rob.tail (allocateRob f s))) ∨
    (∃ c, s.canIssue f.op = true ∧ f.op.fuClass = some c ∧
      issue f s = issueToStation f c s.rob.tail (allocateRob f s)) := by
  unfold issue
  cases h : s.canIssue f.op
  · simp
  · cases hc : f.op.fuClass <;> simp

/-- What issuing to a station can do: a fault for a dead tag, or the filled station with snapshot, rename and next pc
(40_engine_cycle.md R206, R213 to R219). -/
theorem issueToStation_cases (f : IssueForm) (c : FuClass) (t : Nat) (s : State) :
    (∃ u, issueToStation f c t s = raiseFault (.invariantViolation .issue u) s) ∨
    (∃ j k, resolveOperand s f.j = .slot j ∧ resolveOperand s f.k = .slot k ∧
      issueToStation f c t s =
        chooseNextPc f.op t (renameDest f.dest t (snapshotBranch f.op t (fillStation f c t j k s)))) := by
  unfold issueToStation
  split
  · exact .inl ⟨_, rfl⟩
  · split
    · exact .inl ⟨_, rfl⟩
    · exact .inr ⟨_, _, ‹_›, ‹_›, rfl⟩

/-- What resolving a register can give (40_engine_cycle.md R213, 60_exceptions.md R404). -/
theorem resolveReg_cases (s : State) (r : Reg) :
    (s.rat.lookup r = .arf ∧ resolveReg s r = .slot (.resolved (s.readReg r))) ∨
    (∃ u, s.rat.lookup r = .rob u ∧
      (((s.robAt u).busy = false ∧ resolveReg s r = .dangling u) ∨
       ((s.robAt u).busy = true ∧ (s.robAt u).complete = true ∧
          resolveReg s r = .slot (.resolved (s.robAt u).value)) ∨
       ((s.robAt u).busy = true ∧ (s.robAt u).complete = false ∧ resolveReg s r = .slot (.pending u)))) := by
  unfold resolveReg
  cases h : s.rat.lookup r with
  | arf => simp
  | rob u => cases hb : (s.robAt u).busy <;> cases hc : (s.robAt u).complete <;> simp [hb, hc]

/-- A free station index is the lowest one whose entry is free (40_engine_cycle.md R215). -/
theorem freeStation_eq_some (s : State) (k : FuClass) (n : Nat) :
    s.freeStation k = some n ↔
      n < (s.table k).length ∧ (s.station k n).busy = false ∧ ∀ m < n, (s.station k m).busy = true := by
  unfold State.freeStation State.station
  rw [List.findIdx?_eq_some_iff_getElem]
  constructor
  · rintro ⟨h, hn, hm⟩
    refine ⟨h, by simpa [h] using hn, fun m hmn => ?_⟩
    have hml : m < (s.table k).length := by omega
    simpa [hml] using hm m hmn
  · rintro ⟨h, hn, hm⟩
    refine ⟨h, by simpa [h] using hn, fun m hmn => ?_⟩
    have hml : m < (s.table k).length := by omega
    simpa [hml] using hm m hmn

/-! ## Execute -/

/-- What one visit can do (40_engine_cycle.md R222). -/
theorem visit_cases (k : FuClass) (i : Nat) (s : State) :
    visit k i s = s ∨
    visit k i s = raiseFault (.invariantViolation .execute (s.station k i).dest) s ∨
    ((s.station k i).busy = true ∧ (s.robAt (s.station k i).dest).busy = true ∧
      (((s.station k i).phase = .waiting ∧ s.canStart k i = true ∧ visit k i s = start k i s) ∨
       ((s.station k i).phase = .executing ∧ visit k i s = executingStep k i s) ∨
       ((s.station k i).phase = .memWait ∧ visit k i s = memWaitStep i s) ∨
       ((s.station k i).phase = .memAccess ∧ visit k i s = memAccessStep i s))) := by
  unfold visit
  cases hb : (s.station k i).busy
  · simp [hb]
  · cases hr : (s.robAt (s.station k i).dest).busy
    · simp [hb, hr]
    · cases hp : (s.station k i).phase
      · cases s.canStart k i <;> simp [hb, hr, hp]
      all_goals simp [hb, hr, hp]

/-- What a waiting load's visit can do: wait, forward from the youngest matching older store, or start its memory access
(43_load_store.md R324 to R327). -/
theorem memWaitStep_cases (i : Nat) (s : State) :
    memWaitStep i s = s ∨
    (∃ q, s.youngest (s.matchingStores i) = some q ∧
      before (s.robAt (s.station .ls q).dest).timing.exEnd s.cycle = true ∧ memWaitStep i s = forward i q s) ∨
    (s.youngest (s.matchingStores i) = none ∧ s.port.owner = .none ∧ memWaitStep i s = loadStart i s) := by
  unfold memWaitStep
  split
  · exact .inl rfl
  · split
    · rename_i q hq
      split
      · exact .inr (.inl ⟨q, hq, ‹_›, rfl⟩)
      · exact .inl rfl
    · split
      · exact .inr (.inr ⟨‹_›, ‹_›, rfl⟩)
      · exact .inl rfl

/-- What starting can do (40_engine_cycle.md R225). -/
theorem start_cases (k : FuClass) (i : Nat) (s : State) :
    ∃ s1, s1 = ((s.takeUnit k).modifyTiming (s.station k i).dest (fun t => { t with exStart := some s.cycle })).modifyStation
        k i (fun e => { e with phase := .executing, remaining := Config.latency s.cfg k - 1 }) ∧
      (start k i s = s1 ∨ start k i s = finish k i s1) := by
  refine ⟨_, rfl, ?_⟩
  unfold start
  dsimp only
  split
  · exact .inr rfl
  · exact .inl rfl

/-- What an executing entry's visit can do (40_engine_cycle.md R222). -/
theorem executingStep_cases (k : FuClass) (i : Nat) (s : State) :
    ∃ s1, s1 = s.modifyStation k i (fun e => { e with remaining := e.remaining - 1 }) ∧
      ((executingStep k i s = s1 ∧ (s1.station k i).remaining ≠ 0) ∨
       (executingStep k i s = finish k i s1 ∧ (s1.station k i).remaining = 0)) := by
  refine ⟨_, rfl, ?_⟩
  unfold executingStep
  dsimp only
  split
  · exact .inr ⟨rfl, ‹_›⟩
  · exact .inl ⟨rfl, ‹_›⟩

/-! ## Write-back -/

/-- What arbitration can find (40_engine_cycle.md R231). -/
theorem arbitrate_winner {s : State} {ks : List FuClass} {k : FuClass} {i : Nat}
    (h : s.arbitrate ks = .winner k i) :
    ∃ before after, ks = before ++ k :: after ∧ i ∈ s.ageOrder k ∧ s.isCandidate k i = true ∧
      ∀ c ∈ before, ∀ n ∈ s.ageOrder c, s.isCandidate c n = false := by
  induction ks with
  | nil => simp [State.arbitrate] at h
  | cons c cs ih =>
    unfold State.arbitrate at h
    split at h
    · simp at h
    · split at h
      · rename_i n hn
        obtain ⟨rfl, rfl⟩ : c = k ∧ n = i := by simpa using h
        exact ⟨[], cs, rfl, List.mem_of_find?_eq_some hn, by simpa using List.find?_some hn, by simp⟩
      · rename_i hn
        obtain ⟨b, a, rfl, hm, hc, hall⟩ := ih h
        refine ⟨c :: b, a, rfl, hm, hc, fun x hx n hnm => ?_⟩
        rcases List.mem_cons.1 hx with rfl | hx
        · simpa using List.find?_eq_none.1 hn n hnm
        · exact hall x hx n hnm

/-- What write-back can do (40_engine_cycle.md R230 to R236). -/
theorem writeBack_cases (s : State) :
    writeBack s = s ∨
    (∃ f, writeBack s = raiseFault f s) ∨
    (∃ k i v, s.arbitrate tableOrder = .winner k i ∧ resultOf (s.station k i) = some v ∧
      writeBack s = broadcast k i v s) := by
  unfold writeBack
  split
  · exact .inl rfl
  · exact .inr (.inl ⟨_, rfl⟩)
  · split
    · exact .inr (.inl ⟨_, rfl⟩)
    · exact .inr (.inr ⟨_, _, _, ‹_›, ‹_›, rfl⟩)

/-! ## Commit -/

/-- What commit can do (40_engine_cycle.md R245). -/
theorem commit_cases (s : State) :
    commit s = s ∨
    (∃ f, commit s = raiseFault f s) ∨
    (s.port.owner = .commit ∧ commit s = storeCommitStep s) ∨
    (s.port.owner ≠ .commit ∧ s.rob.count ≠ 0 ∧ (s.robAt s.rob.head).busy = true ∧
      (s.robAt s.rob.head).done = true ∧
      (((s.robAt s.rob.head).kind = .reg ∧ commit s = commitReg s) ∨
       ((s.robAt s.rob.head).kind = .store ∧ s.port.owner = .none ∧ commit s = storeCommitStart s) ∨
       (((s.robAt s.rob.head).kind = .branch ∨ (s.robAt s.rob.head).kind = .nop) ∧ commit s = retire s))) := by
  unfold commit
  by_cases ho : s.port.owner = .commit
  · simp [ho]
  by_cases hc : s.rob.count = 0
  · simp [ho, hc]
  cases hb : (s.robAt s.rob.head).busy
  · exact .inr (.inl ⟨_, by simp [ho, hc]; rfl⟩)
  cases hd : (s.robAt s.rob.head).done
  · exact .inl (by simp [ho, hc, commitHead, hd])
  cases hk : (s.robAt s.rob.head).kind
  · exact .inr (.inr (.inr ⟨ho, hc, rfl, rfl, .inl ⟨rfl, by simp [ho, hc, commitHead, hd, hk]⟩⟩))
  · by_cases hn : s.port.owner = .none
    · exact .inr (.inr (.inr ⟨ho, hc, rfl, rfl, .inr (.inl ⟨rfl, hn, by simp [hc, commitHead, hd, hk, hn]⟩)⟩))
    · exact .inl (by simp [ho, hc, commitHead, hd, hk, hn])
  · exact .inr (.inr (.inr ⟨ho, hc, rfl, rfl, .inr (.inr ⟨.inl rfl, by simp [ho, hc, commitHead, hd, hk]⟩)⟩))
  · exact .inr (.inr (.inr ⟨ho, hc, rfl, rfl, .inr (.inr ⟨.inr rfl, by simp [ho, hc, commitHead, hd, hk]⟩)⟩))

/-- What the store transaction's last cycle can do (43_load_store.md R338). -/
theorem storeFinish_cases (s : State) :
    ((s.robAt s.rob.head).busy = false ∧ storeFinish s = raiseFault (.invariantViolation .commit s.rob.head) s) ∨
    ((s.robAt s.rob.head).busy = true ∧ ∃ s1,
      s1 = (({ s with mem := s.mem.write (s.robAt s.rob.head).stAddr (s.robAt s.rob.head).stData }.modifyTiming
        s.rob.head (fun t => { t with memEnd := some s.cycle }))) ∧
      storeFinish s = retire ({ s1 with port := { s1.port with release := true } }.modifyTable .ls
        (List.map (leaveTable s.rob.head)))) := by
  unfold storeFinish
  cases hb : (s.robAt s.rob.head).busy
  · exact .inl ⟨rfl, by simp [hb]⟩
  · exact .inr ⟨rfl, _, rfl, by simp [hb]⟩

/-! ## The cycle -/

/-- The stages after issue keep what each of them keeps. -/
theorem restOfCycle_keeps (P : State → Prop) (he : ∀ s, s.fault = none → P s → P (execute s))
    (hw : ∀ s, s.fault = none → P s → P (writeBack s)) (hc : ∀ s, s.fault = none → P s → P (commit s))
    (hend : ∀ s, P s → P (endOfCycle s)) {s : State} (h : P s) : P (restOfCycle s) :=
  hend _ (unlessFaulted_keeps P commit hc (unlessFaulted_keeps P writeBack hw (unlessFaulted_keeps P execute he h)))

/-- What a step can do: it answers a next state exactly on a legal launch, and issue has then stalled on a fault, been
idle, met an invalid word or issued the decoded instruction (40_engine_cycle.md R200, R202, R206, R207). -/
theorem step_cases {s t : State} (h : step s = .next t) :
    s.launchLegal = true ∧ ∃ u, t = restOfCycle u ∧
      ((s.faulted = true ∧ u = s) ∨
       (s.faulted = false ∧ s.fetch = .idle ∧ u = s) ∨
       (∃ w r, s.faulted = false ∧ s.fetch = .illegal w r ∧ u = raiseIllegal w r s) ∨
       (∃ i, s.faulted = false ∧ s.fetch = .instr i ∧ u = issue (issueForm i) s)) := by
  unfold step at h
  split at h
  · rename_i hl
    refine ⟨hl, ?_⟩
    unfold issueStage at h
    cases hf : s.faulted
    · simp only [hf] at h
      cases hfe : s.fetch with
      | idle => simp only [hfe] at h; exact ⟨s, by simpa [completeCycle] using h.symm, by simp⟩
      | illegal w r =>
        simp only [hfe] at h
        exact ⟨raiseIllegal w r s, by simpa [completeCycle] using h.symm, by simp⟩
      | instr i =>
        simp only [hfe, exec_eq_issue] at h
        exact ⟨issue (issueForm i) s, by simpa [completeCycle] using h.symm, by simp⟩
    · simp only [hf] at h
      exact ⟨s, by simpa [completeCycle] using h.symm, by simp⟩
  · simp at h

/-- On a legal launch every step answers a next state; on any other it is refused. -/
theorem step_next_or_refused (s : State) :
    (s.launchLegal = true ∧ ∃ t, step s = .next t) ∨
    (s.launchLegal = false ∧ step s = .refused .illegalLaunch) := by
  unfold step
  cases hl : s.launchLegal
  · exact .inr ⟨rfl, by simp⟩
  · refine .inl ⟨rfl, ?_⟩
    rw [if_pos rfl]
    unfold issueStage
    cases s.faulted
    · cases s.fetch with
      | idle => exact ⟨_, rfl⟩
      | illegal w r => exact ⟨_, rfl⟩
      | instr i => simp only [exec_eq_issue]; exact ⟨_, rfl⟩
    · exact ⟨_, rfl⟩

end Sys2Proof.Machine
end

