-- ==== Sys2Proof/Tests/Slice0.lean ====
section
/-! SUPPORT. The model's own tests: ill-formed terms refused, every constructor's word, small single steps, and for every
obligation with hypotheses a witness that meets them. Expected values come from spec/95_test_vectors.md and the examples
of the rules named. -/

namespace Sys2Proof.Machine

-- One theorem at a time: the checker's memory limit leaves no room for a thread per kernel evaluation.
set_option Elab.async false

/-! ## Well-formedness (30_encoding.md R154): one ill-formed term for each check -/

theorem test_wf_add_rd : Instr.wf (.add (.F 1) (.R 2) (.R 3)) = false := by decide
theorem test_wf_add_rs : Instr.wf (.add (.R 1) (.F 2) (.R 3)) = false := by decide
theorem test_wf_add_rt : Instr.wf (.add (.R 1) (.R 2) (.F 3)) = false := by decide
theorem test_wf_sub : Instr.wf (.sub (.F 1) (.R 2) (.R 3)) = false ∧ Instr.wf (.sub (.R 1) (.F 2) (.R 3)) = false ∧
    Instr.wf (.sub (.R 1) (.R 2) (.F 3)) = false := by decide
theorem test_wf_addi : Instr.wf (.addi (.F 1) (.R 2) 0) = false ∧ Instr.wf (.addi (.R 1) (.F 2) 0) = false := by decide
theorem test_wf_addD : Instr.wf (.addD (.R 1) (.F 2) (.F 3)) = false ∧
    Instr.wf (.addD (.F 1) (.R 2) (.F 3)) = false ∧ Instr.wf (.addD (.F 1) (.F 2) (.R 3)) = false := by decide
theorem test_wf_subD : Instr.wf (.subD (.R 1) (.F 2) (.F 3)) = false ∧
    Instr.wf (.subD (.F 1) (.R 2) (.F 3)) = false ∧ Instr.wf (.subD (.F 1) (.F 2) (.R 3)) = false := by decide
theorem test_wf_multD : Instr.wf (.multD (.R 1) (.F 2) (.F 3)) = false ∧
    Instr.wf (.multD (.F 1) (.R 2) (.F 3)) = false ∧ Instr.wf (.multD (.F 1) (.F 2) (.R 3)) = false := by decide
theorem test_wf_ld : Instr.wf (.ld (.R 1) (.F 2) 0) = false ∧ Instr.wf (.ld (.F 1) (.R 2) 0) = true := by decide
theorem test_wf_sd : Instr.wf (.sd (.R 1) (.F 2) 0) = false ∧ Instr.wf (.sd (.F 1) (.R 2) 0) = true := by decide
theorem test_wf_beq : Instr.wf (.beq (.F 1) (.R 2) 0) = false ∧ Instr.wf (.beq (.R 1) (.F 2) 0) = false := by decide
theorem test_wf_bne : Instr.wf (.bne (.F 1) (.R 2) 0) = false ∧ Instr.wf (.bne (.R 1) (.F 2) 0) = false := by decide

/-! ## Every constructor's word, field by field from 30_encoding.md R152 to R154 (95_test_vectors.md 2.1) -/

theorem test_decode_nop : decode (0b0000#4 ++ 0#28) = .valid .nop := by decide
theorem test_decode_add : decode (0b0001#4 ++ 0b000001#6 ++ 0b000010#6 ++ 0b000011#6 ++ 0#10) =
    .valid (.add (.R 1) (.R 2) (.R 3)) := by decide
theorem test_decode_sub : decode (0b0010#4 ++ 0b000100#6 ++ 0b000101#6 ++ 0b000110#6 ++ 0#10) =
    .valid (.sub (.R 4) (.R 5) (.R 6)) := by decide
theorem test_decode_addi : decode (0b0011#4 ++ 0b000111#6 ++ 0b001000#6 ++ 0b1000000000000000#16) =
    .valid (.addi (.R 7) (.R 8) 0x8000) := by decide
theorem test_decode_addD : decode (0b0100#4 ++ 0b100001#6 ++ 0b100010#6 ++ 0b100011#6 ++ 0#10) =
    .valid (.addD (.F 1) (.F 2) (.F 3)) := by decide
theorem test_decode_subD : decode (0b0101#4 ++ 0b111111#6 ++ 0b111110#6 ++ 0b111101#6 ++ 0#10) =
    .valid (.subD (.F 31) (.F 30) (.F 29)) := by decide
theorem test_decode_multD : decode (0b0110#4 ++ 0b100000#6 ++ 0b100001#6 ++ 0b100010#6 ++ 0#10) =
    .valid (.multD (.F 0) (.F 1) (.F 2)) := by decide
theorem test_decode_ld : decode (0b0111#4 ++ 0b000011#6 ++ 0b011111#6 ++ 0b1111111111111000#16) =
    .valid (.ld (.R 3) (.R 31) 0xFFF8) := by decide
theorem test_decode_sd : decode (0b1000#4 ++ 0b100001#6 ++ 0b000001#6 ++ 0b0000000000001000#16) =
    .valid (.sd (.F 1) (.R 1) 8) := by decide
theorem test_decode_beq : decode (0b1001#4 ++ 0b000001#6 ++ 0b000010#6 ++ 0b1111111111111110#16) =
    .valid (.beq (.R 1) (.R 2) 0xFFFE) := by decide
theorem test_decode_bne : decode (0b1010#4 ++ 0b000000#6 ++ 0b011111#6 ++ 0b0000000001100100#16) =
    .valid (.bne (.R 0) (.R 31) 100) := by decide

/-- The words of 95_test_vectors.md 2.1, encoded. -/
theorem test_encode_words :
    [Instr.nop, .add (.R 1) (.R 2) (.R 3), .sub (.R 4) (.R 5) (.R 6), .addi (.R 7) (.R 8) 0x8000,
      .addD (.F 1) (.F 2) (.F 3), .subD (.F 31) (.F 30) (.F 29), .multD (.F 0) (.F 1) (.F 2),
      .ld (.R 3) (.R 31) 0xFFF8, .sd (.F 1) (.R 1) 8, .beq (.R 1) (.R 2) 0xFFFE, .bne (.R 0) (.R 31) 100].map encode =
    [0x00000000, 0x10420C00, 0x21051800, 0x31C88000, 0x48628C00, 0x5FFEF400, 0x68218800, 0x70DFFFF8, 0x88410008,
      0x9042FFFE, 0xA01F0064] := by decide

/-- The invalid words of 95_test_vectors.md 2.2. -/
theorem test_invalid_opcode : [0xB0000000, 0xF0000000, 0xB0000001].map decode =
    List.replicate 3 (.invalid .reservedOpcode) := by decide
theorem test_invalid_bits : [0x00000001, 0x0FFFFFFF, 0x10420C01].map decode =
    List.replicate 3 (.invalid .reservedBits) := by decide
theorem test_invalid_file : [0x10620C00, 0x48428C00, 0x70620000, 0x88620000, 0x98420000, 0x38420001].map decode =
    List.replicate 6 (.invalid .registerFile) := by decide

theorem test_decodeTableWord : decodeTableWord 32 0x10420C00 = some (.add (.R 1) (.R 2) (.R 3)) ∧
    decodeTableWord 32 0xB0000000 = none := by decide

/-! ## Assembly (30_encoding.md R170 to R174, 95_test_vectors.md 2.3) -/

theorem test_assemble : assemble ("Add.d f1 , F2,F3\n\nbeq R1, r2, -0x2\nNOP".toList) =
    some [0x48628C00, 0x9042FFFE, 0x00000000] := by decide +kernel
theorem test_assemble_refuses : ["addi R1, R0, 32768", "add R32, R0, R0", "mul R1, R2, R3", "add.d F1, F2",
    "add F1, R2, R3"].map (fun t => assemble t.toList) = List.replicate 5 none := by decide +kernel
/-- White space at the ends of a line, and a line of nothing else (the model's choice, log entry 18). -/
theorem test_assemble_white_space : assemble "  nop \n \t\nnop".toList = some [0, 0] := by decide +kernel
theorem test_disassemble : disassemble (.sd (.F 1) (.R 1) 0xFFF8) = "sd F1, -8(R1)".toList := by decide +kernel

/-! ## Values (41_integer.md, 42_fp.md, 44_branch_recovery.md; 95_test_vectors.md 3 and 4) -/

theorem test_add_wraps : addValue 0x7FFFFFFFFFFFFFFF 1 = 0x8000000000000000 ∧
    addValue 0xFFFFFFFFFFFFFFFF 1 = 0 := by decide
theorem test_sub_borrows : subValue 0 1 = 0xFFFFFFFFFFFFFFFF := by decide
theorem test_addi_sign_extends : addiValue 0 (sext64 0x8000) = 0xFFFFFFFFFFFF8000 ∧
    addiValue 0xFFFFFFFFFFFFFFFF (sext64 0x7FFF) = 0x7FFE := by decide
theorem test_addD_rounds : addDValue 0x3FB999999999999A 0x3FC999999999999A = 0x3FD3333333333334 := by decide +kernel
theorem test_addD_zeros : addDValue 0 0x8000000000000000 = 0 ∧
    addDValue 0x8000000000000000 0x8000000000000000 = 0x8000000000000000 := by decide +kernel
theorem test_subD_value : subDValue 0x400E000000000000 0x3FF8000000000000 = 0x4002000000000000 ∧
    subDValue 0x4004000000000000 0x4004000000000000 = 0 := by decide +kernel
theorem test_subD_inf : subDValue 0x7FF0000000000000 0x7FF0000000000000 = Config.fpNan := by rfl
theorem test_multD_overflow : multDValue 0x7FE1CCF385EBC8A0 0x4024000000000000 = 0x7FF0000000000000 := by decide +kernel
theorem test_multD_underflow : multDValue 0x0000000000000001 0x3FE0000000000000 = 0 ∧
    multDValue 0x8000000000000000 0x4014000000000000 = 0x8000000000000000 := by decide +kernel
theorem test_address_wraps : effectiveAddress 0xFFFFFFFFFFFFFFF8 (sext64 16) = 8 := by decide
theorem test_branch_target : branchTarget 5 (sext64 0xFFFE) = 4 ∧ branchTarget 0 (sext64 0xFFFE) = 0xFFFFFFFF ∧
    branchTarget 0 (sext64 100) = 101 := by decide
theorem test_outcomes : branchOutcome .beq 7 7 = true ∧ branchOutcome .beq 7 0x8000000000000007 = false ∧
    branchOutcome .bne 7 7 = false ∧ branchOutcome .bne 7 0x8000000000000007 = true := by decide

/-! ## Small machines -/

/-- The launch of a list of instructions. -/
def launchOf (cfg : Config) (prog : List Instr) (arf : List (Reg × Word)) : State :=
  State.launch cfg (prog.map encode) arf []

/-- The state `n` cycles later. -/
def after (n : Nat) (s : State) : State :=
  match Host.Core.run Sys2Proof.core n s with
  | .next t => t
  | .fault _ => s
  | .refused _ => s

/-- The state an outcome carries. -/
def outcomeState (o : Host.Outcome State Fault Refusal) (s : State) : State :=
  match o with
  | .next t => t
  | .fault _ => s
  | .refused _ => s

/-- A configuration with one-cycle memory. -/
def fastMemory : Config := { Config.default with memLat := 1 }

/-- A configuration with three-cycle branches. -/
def slowBranches : Config := { Config.default with exLat := ⟨3, 1, 20, 1, 3⟩ }

theorem test_issue_add : ((outcomeState (exec (.add (.R 1) (.R 2) (.R 3)) (launchOf Config.default [] [(.R 2, 5), (.R 3, 7)]))
    State.reset).station .int 0).j = .resolved 5 := by decide +kernel
theorem test_issue_sub : ((outcomeState (exec (.sub (.R 1) (.R 2) (.R 3)) (launchOf Config.default [] [(.R 2, 5), (.R 3, 7)]))
    State.reset).station .int 0).k = .resolved 7 := by decide +kernel
theorem test_issue_addi : ((outcomeState (exec (.addi (.R 1) (.R 2) 0xFFFF) State.reset) State.reset).station .int 0).k =
    .resolved 0xFFFFFFFFFFFFFFFF := by decide +kernel
theorem test_issue_addD : (outcomeState (exec (.addD (.F 1) (.F 2) (.F 3)) State.reset) State.reset).rat.lookup (.F 1) =
    .rob 0 := by decide +kernel
theorem test_issue_subD : ((outcomeState (exec (.subD (.F 1) (.F 2) (.F 3)) State.reset) State.reset).station .fpadd 0).op =
    .subD := by decide +kernel
theorem test_issue_multD : ((outcomeState (exec (.multD (.F 1) (.F 2) (.F 3)) State.reset) State.reset).station .mult 0).busy =
    true := by decide +kernel
theorem test_issue_ld : ((outcomeState (exec (.ld (.F 2) (.R 1) 8) (launchOf Config.default [] [(.R 1, 100)]))
    State.reset).station .ls 0).j = .resolved 100 := by decide +kernel
theorem test_issue_sd : ((outcomeState (exec (.sd (.F 1) (.R 1) 8) (launchOf Config.default [] [(.R 1, 100), (.F 1, 5)]))
    State.reset).station .ls 0).k = .resolved 5 := by decide +kernel
theorem test_issue_beq : (outcomeState (exec (.beq (.R 1) (.R 2) 2) State.reset) State.reset).rat.lookup (.R 1) = .arf := by
  decide +kernel
theorem test_issue_bne : ((outcomeState (exec (.bne (.R 1) (.R 2) 2) State.reset) State.reset).robAt 0).predTarget = 1 := by
  decide +kernel
theorem test_issue_nop : ((outcomeState (exec .nop State.reset) State.reset).robAt 0).complete = true := by decide +kernel

/-- One step from reset with a word placed for the next fetch runs that word. -/
theorem test_withFetchWord : ((outcomeState (step (State.reset.withFetchWord 32 0x10420C00)) State.reset).robAt 0).op = .add :=
  by decide +kernel
/-- An invalid word placed there faults (60_exceptions.md R402). -/
theorem test_withFetchWord_invalid : (outcomeState (step (State.reset.withFetchWord 32 0xB0000000)) State.reset).fault =
    some (.illegalInstruction 0 0xB0000000 .reservedOpcode) := by decide +kernel

/-- A store, then a load of the same cell: a taken write is read back, and the rest is not touched (20_memory.md
R101). -/
theorem test_memory : Memory.read (Memory.insert (Memory.insert [] 8 5) 3 7) 8 = 5 ∧
    Memory.insert (Memory.insert [] 8 5) 3 7 = [(3, 7), (8, 5)] := by decide

/-! ## Witnesses: for each obligation with hypotheses, a case that meets them -/

theorem test_witness_DecodeOfEncode : ∃ i, WellFormed i := ⟨.ld (.F 31) (.R 31) 0x8000, by decide⟩

theorem test_witness_EncodeOfDecode : ∃ w i, decode w = .valid i := ⟨0x88410008, .sd (.F 1) (.R 1) 8, by decide⟩

theorem test_witness_AssemblerReadsCanonicalSpelling : ∃ w i, decode w = .valid i :=
  ⟨0x9042FFFE, .beq (.R 1) (.R 2) 0xFFFE, by decide⟩

/-- Each kind of invalid word has a member. -/
theorem test_witness_InvalidWordsExactly : hasReservedOpcode 0xB0000000 ∧ hasReservedBits 0x00000001 ∧
    hasReservedBits 0x10420C01 ∧ hasWrongFile 0x10620C00 ∧ hasWrongFile 0x48428C00 ∧ hasWrongFile 0x98420000 ∧
    hasWrongFile 0x70620000 := by
  unfold hasReservedOpcode hasReservedBits hasWrongFile
  exact ⟨by decide, by decide, by decide, by decide, by decide, by decide, by decide⟩

theorem test_witness_StepRunsDecodedInstruction : ∃ (s : State) (w : InstrWord) (i : Instr),
    s.launchLegal = true ∧ s.fault = none ∧ s.prog[s.pc.toNat]? = some w ∧ decode w = .valid i :=
  ⟨launchOf Config.default [.add (.R 1) (.R 2) (.R 3)] [], 0x10420C00, .add (.R 1) (.R 2) (.R 3), by decide +kernel⟩

theorem test_witness_FetchPastTheEndIsIdle : ∃ s : State,
    s.launchLegal = true ∧ s.fault = none ∧ s.prog.length ≤ s.pc.toNat :=
  ⟨State.reset, by decide +kernel⟩

theorem test_witness_IllegalWordStopsTheEngine : ∃ (s : State) (w : InstrWord) (r : DecodeReason),
    s.launchLegal = true ∧ s.fault = none ∧ s.prog[s.pc.toNat]? = some w ∧ decode w = .invalid r :=
  ⟨State.launch Config.default [0xB0000000] [] [], 0xB0000000, .reservedOpcode, by decide +kernel⟩

theorem test_witness_FaultedEngineOnlyCounts : ∃ s : State, s.launchLegal = true ∧ s.fault ≠ none :=
  ⟨after 1 (State.launch Config.default [0xB0000000] [] []), by decide +kernel⟩

/-- The reset state meets the invariant and is halted. -/
theorem test_witness_HaltedEngineOnlyCounts : ∃ s : State, s.Inv ∧ s.halted = true :=
  ⟨State.reset, State.inv_of_check (by decide +kernel) (by decide), by decide +kernel⟩

theorem test_witness_EveryStepCountsOneCycle : ∃ s : State, s.launchLegal = true := ⟨State.reset, by decide +kernel⟩

/-- A legal launch whose issue stage answers a next state, and one with an empty program. -/
theorem test_witness_FirstCycleOnlyIssues :
    (∃ (cfg : Config) (prog : List InstrWord) (u : State), (State.launch cfg prog [] []).launchLegal = true ∧
      issueStage (State.launch cfg prog [] []) = .next u) ∧
    (State.launch Config.default [] [] []).launchLegal = true :=
  ⟨⟨Config.default, [0x00000000], _, by decide +kernel, rfl⟩, by decide +kernel⟩

/-! ### Issue -/

/-- The engine one cycle after `addi R1, R2, 1` has issued: `R1` is renamed to an entry that is not complete. -/
def pendingR1 : State := after 1 (launchOf Config.default [.addi (.R 1) (.R 2) 1] [(.R 2, 5)])

/-- The engine three cycles after it: the entry is complete and has not committed. -/
def completeR1 : State := after 3 (launchOf Config.default [.addi (.R 1) (.R 2) 1] [(.R 2, 5)])

theorem pendingR1_sized : pendingR1.Sized := State.sized_of_check (by decide +kernel)
theorem pendingR1_ring : pendingR1.RingOk := State.ringOk_of_check (by decide +kernel)
theorem completeR1_ring : completeR1.RingOk := State.ringOk_of_check (by decide +kernel)
theorem completeR1_sized : completeR1.Sized := State.sized_of_check (by decide +kernel)

/-- The three ways a register resolves: from the ARF, to a complete entry's value, to a waiting tag. -/
theorem pendingR1_resolves : pendingR1.ResolvesTo (.R 2) (.resolved 5) ∧ pendingR1.ResolvesTo (.R 1) (.pending 0) ∧
    completeR1.ResolvesTo (.R 1) (.resolved 6) :=
  ⟨.inl (by decide +kernel), .inr ⟨0, by decide +kernel⟩, .inr ⟨0, by decide +kernel⟩⟩

theorem test_witness_NopIssues : ∃ s : State, s.Sized ∧ s.RingOk ∧ s.rob.count < s.cfg.robSize :=
  ⟨pendingR1, pendingR1_sized, pendingR1_ring, by decide +kernel⟩

theorem test_witness_ThreeRegisterInstructionsIssue : ∃ (s : State) (rd rs rt : Reg) (i : Instr) (c : FuClass) (j k : Slot),
    (i, c) ∈ [(Instr.add rd rs rt, FuClass.int), (.sub rd rs rt, .int), (.addD rd rs rt, .fpadd),
      (.subD rd rs rt, .fpadd), (.multD rd rs rt, .mult)] ∧
    s.Sized ∧ s.RingOk ∧ s.GatesOpen c ∧ s.ResolvesTo rs j ∧ s.ResolvesTo rt k :=
  ⟨pendingR1, .R 1, .R 1, .R 2, _, .int, _, _, .head _, pendingR1_sized, pendingR1_ring,
    ⟨by decide +kernel, 1, by decide +kernel⟩, pendingR1_resolves.2.1, pendingR1_resolves.1⟩

theorem test_witness_AddiIssues : ∃ (s : State) (rs : Reg) (j : Slot),
    s.Sized ∧ s.RingOk ∧ s.GatesOpen .int ∧ s.ResolvesTo rs j :=
  ⟨completeR1, .R 1, _, completeR1_sized, completeR1_ring, ⟨by decide +kernel, 0, by decide +kernel⟩,
    pendingR1_resolves.2.2⟩

theorem test_witness_LoadIssues : ∃ (s : State) (rb : Reg) (j : Slot),
    s.Sized ∧ s.RingOk ∧ s.GatesOpen .ls ∧ s.ResolvesTo rb j :=
  ⟨pendingR1, .R 1, _, pendingR1_sized, pendingR1_ring, ⟨by decide +kernel, 0, by decide +kernel⟩,
    pendingR1_resolves.2.1⟩

theorem test_witness_StoreIssues : ∃ (s : State) (rb rt : Reg) (j k : Slot),
    s.Sized ∧ s.RingOk ∧ s.GatesOpen .ls ∧ s.ResolvesTo rb j ∧ s.ResolvesTo rt k :=
  ⟨pendingR1, .R 2, .R 1, _, _, pendingR1_sized, pendingR1_ring, ⟨by decide +kernel, 0, by decide +kernel⟩,
    pendingR1_resolves.1, pendingR1_resolves.2.1⟩

theorem test_witness_BranchesIssue : ∃ (s : State) (rs rt : Reg) (off : BitVec 16) (i : Instr) (j k : Slot),
    i ∈ [Instr.beq rs rt off, .bne rs rt off] ∧
    s.Sized ∧ s.RingOk ∧ s.GatesOpen .br ∧ s.ResolvesTo rs j ∧ s.ResolvesTo rt k :=
  ⟨pendingR1, .R 2, .R 1, 0, _, _, _, .head _, pendingR1_sized, pendingR1_ring,
    ⟨by decide +kernel, 0, by decide +kernel⟩, pendingR1_resolves.1, pendingR1_resolves.2.1⟩

/-- A full ROB, and a full table with the ROB not full. -/
theorem test_witness_ClosedGateStalls :
    (∃ s : State, s.rob.count = s.cfg.robSize) ∧
    (∃ (s : State) (i : Instr) (c : FuClass), i.op.fuClass = some c ∧
      ∀ n < (s.table c).length, (s.station c n).busy = true) :=
  ⟨⟨after 1 (launchOf { Config.default with robSize := 1 } [.nop] []), by decide +kernel⟩,
    ⟨after 1 (launchOf { Config.default with rsCount := ⟨3, 1, 2, 3, 2⟩ } [.addi (.R 1) (.R 2) 1] []),
      .add (.R 3) (.R 4) (.R 5), .int, by decide +kernel⟩⟩

/-- A RAT that names a free entry for `R1`. -/
def deadR1 : State := { State.reset with rat := AliasTable.allArf.assign (.R 1) (.rob 3) }

/-- A dead first source, with a destination of its own, and a dead second source behind a live first. -/
theorem test_witness_DeadOperandTagFaults : ∃ (s : State) (rd r q : Reg) (imm : BitVec 16) (c : FuClass) (u : Nat),
    (.add rd r q, c) ∈ [(Instr.add rd r q, FuClass.int), (.sub rd r q, .int), (.addi rd r imm, .int),
      (.addD rd r q, .fpadd), (.subD rd r q, .fpadd), (.multD rd r q, .mult), (.ld rd r imm, .ls), (.sd q r imm, .ls),
      (.beq r q imm, .br), (.bne r q imm, .br)] ∧
    (.add rd q r, c) ∈ [(Instr.add rd q r, FuClass.int), (.sub rd q r, .int), (.addD rd q r, .fpadd),
      (.subD rd q r, .fpadd), (.multD rd q r, .mult), (.sd r q imm, .ls), (.beq q r imm, .br), (.bne q r imm, .br)] ∧
    (∃ j, s.ResolvesTo q j) ∧
    s.GatesOpen c ∧ s.rat.lookup r = .rob u ∧ u ≠ s.rob.tail ∧ (s.robAt u).busy = false :=
  ⟨deadR1, .R 4, .R 1, .R 2, 0, .int, 3, .head _, .head _, ⟨_, .inl ⟨by decide +kernel, rfl⟩⟩,
    ⟨by decide +kernel, 0, by decide +kernel⟩, by decide +kernel⟩

/-! ### An instruction alone -/

/-- The engine right after the launch of a one-instruction program. -/
def alone (i : Instr) : State := launchOf Config.default [i] [(.R 1, 7), (.R 2, 7)]

/-- A quiet engine in mid-run: the second of two instructions is the last of the program. -/
def secondAlone (i : Instr) : State := after 4 { alone .nop with prog := [encode (.addi (.R 3) (.R 1) 1)] }
  |> fun s => { s with prog := [encode (.addi (.R 3) (.R 1) 1), encode i] }

theorem test_witness_LoneIntegerInstruction : ∃ (s : State) (rd rs rt : Reg) (imm : BitVec 16) (i : Instr) (v : Word),
    (i, v) ∈ [(Instr.add rd rs rt, s.readReg rs + s.readReg rt), (.sub rd rs rt, s.readReg rs - s.readReg rt),
      (.addi rd rs imm, s.readReg rs + imm.signExtend 64)] ∧ WellFormed i ∧ s.Quiet ∧ s.NextIsLast i :=
  ⟨secondAlone (.add (.R 1) (.R 1) (.R 2)), .R 1, .R 1, .R 2, 0, _, _, .head _, by decide,
    State.quiet_of_check (by decide +kernel), by unfold State.NextIsLast; decide +kernel⟩

theorem test_witness_LoneFpAdderInstruction : ∃ (s : State) (fd fs ft : Reg) (i : Instr) (v : Word),
    (i, v) ∈ [(Instr.addD fd fs ft, fadd64 (s.readReg fs) (s.readReg ft)),
      (.subD fd fs ft, fsub64 (s.readReg fs) (s.readReg ft))] ∧ WellFormed i ∧ s.Quiet ∧ s.NextIsLast i :=
  ⟨alone (.addD (.F 1) (.F 1) (.F 2)), .F 1, .F 1, .F 2, _, _, .head _, by decide,
    State.quiet_of_check (by decide +kernel), by unfold State.NextIsLast; decide +kernel⟩

theorem test_witness_LoneMultiply : ∃ (s : State) (fd fs ft : Reg),
    WellFormed (.multD fd fs ft) ∧ s.Quiet ∧ s.NextIsLast (.multD fd fs ft) :=
  ⟨alone (.multD (.F 1) (.F 1) (.F 2)), .F 1, .F 1, .F 2, by decide, State.quiet_of_check (by decide +kernel),
    by unfold State.NextIsLast; decide +kernel⟩

theorem test_witness_LoneLoad : ∃ (s : State) (rt rb : Reg) (off : BitVec 16),
    WellFormed (.ld rt rb off) ∧ s.Quiet ∧ s.NextIsLast (.ld rt rb off) :=
  ⟨alone (.ld (.F 1) (.R 1) 0xFFF8), .F 1, .R 1, 0xFFF8, by decide, State.quiet_of_check (by decide +kernel),
    by unfold State.NextIsLast; decide +kernel⟩

theorem test_witness_LoneStore : ∃ (s : State) (rt rb : Reg) (off : BitVec 16),
    WellFormed (.sd rt rb off) ∧ s.Quiet ∧ s.mem.wf = true ∧ s.NextIsLast (.sd rt rb off) :=
  ⟨alone (.sd (.F 1) (.R 1) 8), .F 1, .R 1, 8, by decide, State.quiet_of_check (by decide +kernel), by decide +kernel,
    by unfold State.NextIsLast; decide +kernel⟩

theorem test_witness_LoneNop : ∃ s : State, s.Quiet ∧ s.NextIsLast .nop :=
  ⟨alone .nop, State.quiet_of_check (by decide +kernel), by unfold State.NextIsLast; decide +kernel⟩

/-- A taken and a not taken branch, both predicted not taken. -/
theorem test_witness_LoneBranchResolves : ∃ (s : State) (rs rt : Reg) (off : BitVec 16) (i : Instr) (taken : Bool),
    (i, taken) ∈ [(Instr.beq rs rt off, decide (s.readReg rs = s.readReg rt)),
      (.bne rs rt off, decide (s.readReg rs ≠ s.readReg rt))] ∧
    WellFormed i ∧ s.Quiet ∧ s.NextIsLast i ∧ ((s.btbAt s.pc).valid && (s.btbAt s.pc).taken) = false :=
  ⟨alone (.beq (.R 1) (.R 2) 0xFFFE), .R 1, .R 2, 0xFFFE, _, _, .head _, by decide,
    State.quiet_of_check (by decide +kernel), by unfold State.NextIsLast; decide +kernel, by decide +kernel⟩

/-! ### Execute -/

/-- A waiting entry that may start, one still in its issue cycle, and one that waits for an operand. -/
theorem test_witness_WaitingEntryStartsExactlyWhen :
    (∃ s : State, (s.station .int 0).busy = true ∧ (s.robAt (s.station .int 0).dest).busy = true ∧
      (s.station .int 0).phase = .waiting ∧ s.canStart .int 0 = true) ∧
    (∃ s : State, (s.station .int 0).busy = true ∧ (s.robAt (s.station .int 0).dest).busy = true ∧
      (s.station .int 0).phase = .waiting ∧ (s.robAt (s.station .int 0).dest).timing.issue = some s.cycle) ∧
    (∃ s : State, (s.station .int 1).busy = true ∧ (s.robAt (s.station .int 1).dest).busy = true ∧
      (s.station .int 1).phase = .waiting ∧ (s.station .int 1).j = .pending 0) :=
  ⟨⟨pendingR1, by decide +kernel⟩,
    ⟨outcomeState (exec (.add (.R 1) (.R 2) (.R 3)) State.reset) State.reset, by decide +kernel⟩,
    ⟨after 2 (launchOf Config.default [.addi (.R 1) (.R 2) 1, .add (.R 3) (.R 1) (.R 1)] []), by decide +kernel⟩⟩

/-- A store whose data comes late, and a younger load of the same cell. -/
def storeThenLoad (n : Nat) : State :=
  after n (launchOf Config.default [.addD (.F 1) (.F 2) (.F 3), .sd (.F 1) (.R 1) 0, .ld (.F 4) (.R 2) 0]
    [(.R 1, 7), (.R 2, 7)])

theorem test_witness_LoadWaitsForOlderStoreAddress : ∃ (s : State) (i q : Nat),
    s.LoadWaiting i ∧ s.OlderStore i q ∧ (s.station .ls q).addrValid = false :=
  ⟨storeThenLoad 4, 1, 0, by unfold State.LoadWaiting State.OlderStore; decide +kernel⟩

/-- The store's address phase ended in an earlier cycle, and (the clock set back by one) in this cycle. -/
theorem test_witness_LoadForwardsFromYoungestStore :
    ∀ s ∈ [storeThenLoad 6, { storeThenLoad 6 with cycle := 5 }],
    s.LoadWaiting 1 ∧ (∀ p, s.OlderStore 1 p → (s.station .ls p).addrValid = true) ∧ s.OlderStore 1 0 ∧
      (s.station .ls 0).addr = (s.station .ls 1).addr ∧
      (∀ p, p ≠ 0 → s.OlderStore 1 p → (s.station .ls p).addr = (s.station .ls 1).addr →
        s.stationSeq .ls p < s.stationSeq .ls 0) ∧
      (s.robAt (s.station .ls 0).dest).timing.exEnd = some 5 ∧ (s.cycle = 6 ∨ s.cycle = 5) := by
  intro s hs
  have hs : s = storeThenLoad 6 ∨ s = { storeThenLoad 6 with cycle := 5 } := by simpa using hs
  rcases hs with rfl | rfl <;>
  exact ⟨by unfold State.LoadWaiting; decide +kernel,
    State.olderStores_of_check (by unfold State.OlderStore; decide +kernel),
    by unfold State.OlderStore; decide +kernel, by decide +kernel,
    fun p hp ho ha => by
      have h0 := State.olderStores_of_check (s := _) (i := 1) (p := fun p => p = 0)
        (by unfold State.OlderStore; decide +kernel) p ho
      exact absurd h0 hp,
    by decide +kernel, by decide +kernel⟩

/-- The port held by an older load, the port free with the default memory, and with a one-cycle memory. -/
theorem test_witness_LoadWithoutMatchTakesPort :
    (∃ s : State, s.LoadWaiting 1 ∧ (∀ p, s.OlderStore 1 p → (s.station .ls p).addrValid = true ∧
      (s.station .ls p).addr ≠ (s.station .ls 1).addr) ∧ s.port.owner ≠ .none) ∧
    (∀ cfg ∈ [Config.default, fastMemory], ∃ s : State, s.cfg = cfg ∧ s.LoadWaiting 0 ∧
      (∀ p, s.OlderStore 0 p → (s.station .ls p).addrValid = true ∧
        (s.station .ls p).addr ≠ (s.station .ls 0).addr) ∧ s.port.owner = .none) := by
  refine ⟨⟨after 3 (launchOf Config.default [.ld (.F 1) (.R 1) 0, .ld (.F 2) (.R 1) 1] [(.R 1, 7)]), ?_, ?_, ?_⟩, ?_⟩
  · unfold State.LoadWaiting; decide +kernel
  · exact State.olderStores_of_check (by unfold State.OlderStore; decide +kernel)
  · decide +kernel
  · intro cfg hc
    have hc : cfg = Config.default ∨ cfg = fastMemory := by simpa using hc
    rcases hc with rfl | rfl
    · exact ⟨after 2 (launchOf Config.default [.ld (.F 1) (.R 1) 0] [(.R 1, 7)]), by decide +kernel,
        by unfold State.LoadWaiting; decide +kernel,
        State.olderStores_of_check (by unfold State.OlderStore; decide +kernel), by decide +kernel⟩
    · exact ⟨after 2 (launchOf fastMemory [.ld (.F 1) (.R 1) 0] [(.R 1, 7)]), by decide +kernel,
        by unfold State.LoadWaiting; decide +kernel,
        State.olderStores_of_check (by unfold State.OlderStore; decide +kernel), by decide +kernel⟩

/-- A branch with one older and one younger instruction in flight, its operands resolved. -/
def branchInFlight (i : Instr) : State :=
  after 3 (launchOf slowBranches [.multD (.F 1) (.F 2) (.F 3), i, .addi (.R 3) (.R 1) 1] [(.R 1, 7), (.R 2, 7)])

theorem branchInFlight_at : ∀ i ∈ [Instr.beq (.R 1) (.R 2) 5, .bne (.R 1) (.R 2) 5],
    (branchInFlight i).BranchAt 0 1 7 7 := by
  intro i hi
  have hi : i = Instr.beq (.R 1) (.R 2) 5 ∨ i = Instr.bne (.R 1) (.R 2) 5 := by simpa using hi
  rcases hi with rfl | rfl <;>
  exact ⟨State.sized_of_check (by decide +kernel), State.ringOk_of_check (by decide +kernel), by decide +kernel,
    State.stationsInFlight_of_check (by decide +kernel), by decide +kernel, by decide +kernel, by decide +kernel,
    by decide +kernel, by decide +kernel, by decide +kernel⟩

/-- A taken branch predicted not taken; and the same entry predicted taken to another target. -/
theorem test_witness_MispredictedBranchRecovers :
    (∃ (s : State) (i n : Nat) (a b : Word), s.BranchAt i n a b ∧
      (s.nthEntry n).PredictedWrong (s.outcomeAt i a b) (s.targetAt i n)) ∧
    RobEntry.PredictedWrong { RobEntry.free with predTaken := true, predTarget := 3 } true 7 :=
  ⟨⟨branchInFlight (.beq (.R 1) (.R 2) 5), 0, 1, 7, 7, branchInFlight_at _ (by decide),
    .inl (by unfold State.outcomeAt; decide +kernel)⟩, .inr (by decide)⟩

theorem test_witness_PredictedBranchKeepsGoing : ∃ (s : State) (i n : Nat) (a b : Word), s.BranchAt i n a b ∧
    ¬ (s.nthEntry n).PredictedWrong (s.outcomeAt i a b) (s.targetAt i n) :=
  ⟨branchInFlight (.bne (.R 1) (.R 2) 5), 0, 1, 7, 7, branchInFlight_at _ (by decide),
    by unfold RobEntry.PredictedWrong State.outcomeAt; decide +kernel⟩

theorem test_witness_SquashGivesBackUnitsAndPort : ∃ s : State, s.fault = none ∧ s.StationsInFlight :=
  ⟨branchInFlight (.beq (.R 1) (.R 2) 5), by decide +kernel, State.stationsInFlight_of_check (by decide +kernel)⟩

/-! ### Write-back and commit -/

/-- `add R3, R1, R2` right before its broadcast, and right before its commit. -/
def addInFlight (n : Nat) : State := after n (alone (.add (.R 3) (.R 1) (.R 2)))

/-- A state with a candidate, and one without. -/
theorem test_witness_ArbitrationPicksFirst :
    (∃ s : State, s.StationsInFlight ∧ ∃ c i, s.Candidate c i ∧ s.arbitrate tableOrder = .winner c i) ∧
    (∃ s : State, s.StationsInFlight ∧ ∀ c i, ¬ s.Candidate c i) := by
  refine ⟨⟨addInFlight 2, State.stationsInFlight_of_check (by decide +kernel), .int, 0, ⟨?_, ?_, 1, ?_⟩, ?_⟩,
    ⟨State.reset, State.stationsInFlight_of_check (by decide +kernel), ?_⟩⟩
  · decide +kernel
  · decide +kernel
  · decide +kernel
  · decide +kernel
  · rintro c i ⟨hb, -⟩
    exact absurd (State.of_allBusy (s := State.reset) (p := fun _ _ => false) (by decide +kernel) c i hb) (by simp)

theorem test_witness_BroadcastReachesEveryWaiter : ∃ (s : State) (c : FuClass) (i : Nat) (a b v : Word),
    s.StationsInFlight ∧ s.WaitsInFlight ∧ s.arbitrate tableOrder = .winner c i ∧
    (s.station c i).j = .resolved a ∧ (s.station c i).k = .resolved b ∧
    ((s.station c i).op, v) ∈ [(Op.add, a + b), (.sub, a - b), (.addi, a + b), (.addD, fadd64 a b),
      (.subD, fsub64 a b), (.multD, fmul64 a b), (.ld, (s.station c i).result)] :=
  ⟨addInFlight 2, .int, 0, 7, 7, 14, State.stationsInFlight_of_check (by decide +kernel),
    State.waitsInFlight_of_check (by decide +kernel), by decide +kernel, by decide +kernel, by decide +kernel,
    by rw [show ((addInFlight 2).station .int 0).op = .add by decide +kernel]; exact .head _⟩

theorem test_witness_CommitWritesRegister : ∃ s : State, s.port.owner ≠ .commit ∧ s.rob.count ≠ 0 ∧
    (s.robAt s.rob.head).busy = true ∧ (s.robAt s.rob.head).done = true ∧ (s.robAt s.rob.head).kind = .reg :=
  ⟨addInFlight 3, by decide +kernel⟩

/-- A store alone, `n` cycles after the launch. -/
def storeInFlight (cfg : Config) (n : Nat) : State := after n (launchOf cfg [.sd (.R 2) (.R 1) 8] [(.R 1, 7), (.R 2, 7)])

/-- The last cycle of a transaction, and the only cycle of one with a one-cycle memory. -/
theorem test_witness_StoreCommitWritesOneCell :
    ∀ s ∈ [storeInFlight Config.default 5, storeInFlight fastMemory 2],
    s.mem.wf = true ∧ (s.robAt s.rob.head).busy = true ∧ (s.robAt s.rob.head).kind = .store ∧ s.rob.count ≠ 0 ∧
    ((s.port.owner = .commit ∧ s.port.remaining = 1) ∨
      (s.port.owner = .none ∧ s.cfg.memLat = 1 ∧ (s.robAt s.rob.head).done = true)) := by
  intro s hs
  have hs : s = storeInFlight Config.default 5 ∨ s = storeInFlight fastMemory 2 := by simpa using hs
  rcases hs with rfl | rfl <;> decide +kernel

/-- A store that waits for a load's access, one that may take the port, and one in the middle of its transaction. -/
theorem test_witness_StoreTransactionHoldsThePort :
    (∃ (s : State) (i : Nat), s.rob.count ≠ 0 ∧ (s.robAt s.rob.head).busy = true ∧ (s.robAt s.rob.head).done = true ∧
      (s.robAt s.rob.head).kind = .store ∧ s.port.owner = .load i) ∧
    (∃ s : State, s.rob.count ≠ 0 ∧ (s.robAt s.rob.head).busy = true ∧ (s.robAt s.rob.head).done = true ∧
      (s.robAt s.rob.head).kind = .store ∧ s.port.owner = .none ∧ 2 ≤ s.cfg.memLat) ∧
    (∃ s : State, s.port.owner = .commit ∧ 2 ≤ s.port.remaining) :=
  ⟨⟨after 6 (launchOf Config.default [.addD (.F 1) (.F 2) (.F 3), .sd (.R 2) (.R 1) 0, .ld (.R 4) (.R 1) 1]
      [(.R 1, 7), (.R 2, 7)]), 1, by decide +kernel⟩,
    ⟨storeInFlight Config.default 2, by decide +kernel⟩, ⟨storeInFlight Config.default 4, by decide +kernel⟩⟩

/-- A nop and a branch at the head, both done. -/
theorem test_witness_BranchAndNopRetire :
    ∀ s ∈ [after 1 (alone .nop), after 2 (alone (.beq (.R 1) (.R 2) 5))],
    s.port.owner ≠ .commit ∧ s.rob.count ≠ 0 ∧ (s.robAt s.rob.head).busy = true ∧
    (s.robAt s.rob.head).done = true ∧ ((s.robAt s.rob.head).kind = .branch ∨ (s.robAt s.rob.head).kind = .nop) := by
  intro s hs
  have hs : s = after 1 (alone .nop) ∨ s = after 2 (alone (.beq (.R 1) (.R 2) 5)) := by simpa using hs
  rcases hs with rfl | rfl <;> decide +kernel

theorem test_witness_EndOfCycleSettles : (∃ s : State, s.fault ≠ none) ∧ ∃ s : State, s.fault = none :=
  ⟨⟨after 1 (State.launch Config.default [0xB0000000] [] []), by decide +kernel⟩, ⟨State.reset, by decide⟩⟩

/-! ### Launches, invariants, runs -/

theorem test_witness_LaunchLeavesListedValues : ∃ (arfInit : List (Reg × Word)) (memInit : List (Word × Word)),
    (arfInit.map Prod.fst).Nodup ∧ (memInit.map Prod.fst).Nodup ∧ arfInit ≠ [] ∧ memInit ≠ [] :=
  ⟨[(.R 0, 5), (.F 31, 6)], [(0, 3), (0xFFFFFFFFFFFFFFFF, 4)], by decide⟩

theorem test_witness_LaunchMeetsInvariant : ∃ (cfg : Config) (prog : List InstrWord),
    cfg.legal = true ∧ prog.length < 2 ^ 32 := ⟨Config.default, [0x00000000], by decide +kernel⟩

/-- Every step on a legal launch answers some next state. -/
theorem exists_step {s : State} (h : s.launchLegal = true) : ∃ t, step s = .next t := by
  rcases step_next_or_refused s with ⟨-, ht⟩ | ⟨hl, -⟩
  · exact ht
  · simp [h] at hl

theorem test_witness_RingAndSequenceKept : ∃ s t : State, s.Sized ∧ s.RingOk ∧ s.EventsOk ∧ step s = .next t := by
  obtain ⟨t, ht⟩ := exists_step (s := addInFlight 3) (by decide +kernel)
  exact ⟨addInFlight 3, t, State.sized_of_check (by decide +kernel), State.ringOk_of_check (by decide +kernel),
    ⟨by decide +kernel, by decide +kernel⟩, ht⟩

theorem test_witness_MemoryStaysCanonical : ∃ s t : State, s.mem.wf = true ∧ step s = .next t := by
  obtain ⟨t, ht⟩ := exists_step (s := storeInFlight Config.default 5) (by decide +kernel)
  exact ⟨_, t, by decide +kernel, ht⟩

/-- The invariant holds in mid-run, with a younger instruction behind an unresolved branch. -/
theorem branchInFlight_inv : (branchInFlight (.beq (.R 1) (.R 2) 5)).Inv :=
  State.inv_of_check (by decide +kernel) (by decide +kernel)

theorem test_witness_EngineInvariantKept : ∃ s t : State, s.Inv ∧ step s = .next t := by
  obtain ⟨t, ht⟩ := exists_step branchInFlight_inv.sized.legal
  exact ⟨_, t, branchInFlight_inv, ht⟩

/-- The state a step from a legal launch answers. -/
theorem step_eq_outcomeState {s : State} (h : s.launchLegal = true) : step s = .next (outcomeState (step s) s) := by
  obtain ⟨t, ht⟩ := exists_step h
  rw [ht, outcomeState]

/-- Steps from the invariant into a load's memory phase, into a store's transaction, and to a free port. -/
theorem test_witness_PortHeldByOne :
    (∃ s t : State, s.Inv ∧ step s = .next t ∧ (t.station .ls 0).busy = true ∧
      (t.station .ls 0).phase = .memAccess) ∧
    (∃ s t : State, s.Inv ∧ step s = .next t ∧ t.port.owner = .commit) ∧
    (∃ s t : State, s.Inv ∧ step s = .next t ∧ t.port.owner = .none) :=
  ⟨⟨after 2 (alone (.ld (.F 1) (.R 1) 0)), _, State.inv_of_check (by decide +kernel) (by decide +kernel),
      step_eq_outcomeState (by decide +kernel), by decide +kernel, by decide +kernel⟩,
    ⟨storeInFlight Config.default 2, _, State.inv_of_check (by decide +kernel) (by decide +kernel),
      step_eq_outcomeState (by decide +kernel), by decide +kernel⟩,
    ⟨_, _, branchInFlight_inv, step_eq_outcomeState branchInFlight_inv.sized.legal, by decide +kernel⟩⟩

/-- A step that retires, from a state with the invariant. -/
theorem test_witness_StepEffectsFollowCommitEvents : ∃ s t : State, s.Inv ∧ step s = .next t := by
  have h : (addInFlight 3).Inv := State.inv_of_check (by decide +kernel) (by decide +kernel)
  obtain ⟨t, ht⟩ := exists_step h.sized.legal
  exact ⟨_, t, h, ht⟩

theorem test_witness_LaunchedRunsNeverFault : ∃ (cfg : Config) (prog : List InstrWord),
    cfg.legal = true ∧ prog.length < 2 ^ 32 ∧ progDecodes prog := by
  refine ⟨Config.default, [0x00000000, 0x10420C00], by decide +kernel, by decide, ?_⟩
  intro w hw
  have hw : w = 0x00000000 ∨ w = 0x10420C00 := by simpa using hw
  rcases hw with rfl | rfl
  · exact ⟨.nop, by decide⟩
  · exact ⟨.add (.R 1) (.R 2) (.R 3), by decide⟩

/-- What a run from a launch answers when it passes a check. -/
theorem run_of_check {n : Nat} {s : State} (h : (Host.Core.run Sys2Proof.core n s matches .next _) = true) :
    ∃ t, Host.Core.run Sys2Proof.core n s = .next t ∧ after n s = t := by
  unfold after
  split at h
  · rename_i t ht
    exact ⟨t, ht, by rw [ht]⟩
  · simp at h

/-- A run with a retired instruction. -/
theorem test_witness_RetiredTimingRecords : ∃ (n : Nat) (t : State),
    Host.Core.run Sys2Proof.core n (State.launch Config.default [0x00000000] [] []) = .next t ∧ t.events ≠ [] := by
  obtain ⟨t, ht, rfl⟩ := run_of_check (n := 2) (s := State.launch Config.default [0x00000000] [] []) (by decide +kernel)
  exact ⟨2, _, ht, by decide +kernel⟩

/-- A run that halts after it retired an instruction. -/
theorem test_witness_SequentialEquivalence : ∃ (n : Nat) (t : State),
    progDecodes [0x00000000] ∧
    Host.Core.run Sys2Proof.core n (State.launch Config.default [0x00000000] [] []) = .next t ∧ t.halted = true := by
  obtain ⟨t, ht, rfl⟩ := run_of_check (n := 2) (s := State.launch Config.default [0x00000000] [] []) (by decide +kernel)
  exact ⟨2, _, fun w hw => ⟨.nop, by rw [List.mem_singleton.mp hw]; decide⟩, ht, by decide +kernel⟩

/-! ### Memory and floating point -/

theorem test_witness_ReadAfterWrite : ∃ m : Memory, m.wf = true ∧ m.read 3 = 7 :=
  ⟨Memory.write [] 3 7, write_wf rfl 3 7, by
    unfold Memory.write
    split
    · rename_i h
      simpa [Memory.erase, Memory.read] using h.symm
    · rfl⟩

theorem test_witness_EqualMemoriesAreEqualData : ∃ m n : Memory, m.wf = true ∧ n.wf = true ∧ ∀ a, m.read a = n.read a :=
  ⟨Memory.write [] 3 7, Memory.write [] 3 7, write_wf rfl 3 7, write_wf rfl 3 7, fun _ => rfl⟩

/-- 1.5 and 2.25 in range; 1.0 and -1.0 for an exact zero; 1.0 and 1.0 for a zero difference. -/
theorem test_witness_FpSumIsNearest :
    (fpIsFinite 0x3FF8000000000000 = true ∧ fpIsFinite 0x4002000000000000 = true ∧
      (fpUnits 0x3FF8000000000000 + fpUnits 0x4002000000000000).natAbs < fpOverflowUnits ∧
      (fpUnits 0x3FF8000000000000 - fpUnits 0x4002000000000000).natAbs < fpOverflowUnits) ∧
    fpUnits 0x3FF0000000000000 + fpUnits 0xBFF0000000000000 = 0 ∧
    fpUnits 0x3FF0000000000000 - fpUnits 0x3FF0000000000000 = 0 := by decide +kernel

theorem test_witness_FpProductIsNearest : fpIsFinite 0x3FF8000000000000 = true ∧ fpIsFinite 0x4002000000000000 = true ∧
    (fpUnits 0x3FF8000000000000 * fpUnits 0x4002000000000000).natAbs < fpOverflowUnits * 2 ^ 1074 := by decide +kernel

/-- The largest finite value with itself, with its negative, and squared. -/
theorem test_witness_FpOverflowGoesToInfinity : fpIsFinite 0x7FEFFFFFFFFFFFFF = true ∧ fpIsFinite 0xFFEFFFFFFFFFFFFF = true ∧
    fpOverflowUnits ≤ (fpUnits 0x7FEFFFFFFFFFFFFF + fpUnits 0x7FEFFFFFFFFFFFFF).natAbs ∧
    fpOverflowUnits ≤ (fpUnits 0x7FEFFFFFFFFFFFFF - fpUnits 0xFFEFFFFFFFFFFFFF).natAbs ∧
    fpOverflowUnits * 2 ^ 1074 ≤ (fpUnits 0x7FEFFFFFFFFFFFFF * fpUnits 0xFFEFFFFFFFFFFFFF).natAbs := by decide +kernel

/-- A NaN, a finite value, a zero and an infinity. -/
theorem test_witness_FpSpecialOperands : fpIsNaN 0x7FF0000000000001 = true ∧ fpIsFinite 0x3FF0000000000000 = true ∧
    (fpIsNaN 0 = false ∧ fpUnits 0 = 0) ∧ (fpIsNaN 0x7FF0000000000000 = false ∧ fpUnits 0x7FF0000000000000 ≠ 0) := by
  decide +kernel

end Sys2Proof.Machine
end

/-! ## What a stage keeps of the instructions in flight

`CoreKept` is what execute and write-back keep in every state; `RobKept` adds what they keep unless a branch
recovers. -/

namespace Sys2Proof.Machine

/-- `f` is the ROB entry of the same instruction as `e`: only its progress differs. -/
structure RobEntry.SameInstr (e f : RobEntry) : Prop where
  kind : f.kind = e.kind
  op : f.op = e.op
  dest : f.dest = e.dest
  seq : f.seq = e.seq
  done : f.done = e.done
  ckpt : f.ckpt = e.ckpt
  issue : f.timing.issue = e.timing.issue

theorem RobEntry.SameInstr.refl (e : RobEntry) : e.SameInstr e := ⟨rfl, rfl, rfl, rfl, rfl, rfl, rfl⟩

theorem RobEntry.SameInstr.trans {e f g : RobEntry} (h : e.SameInstr f) (h' : f.SameInstr g) : e.SameInstr g :=
  ⟨h'.kind.trans h.kind, h'.op.trans h.op, h'.dest.trans h.dest, h'.seq.trans h.seq, h'.done.trans h.done,
    h'.ckpt.trans h.ckpt, h'.issue.trans h.issue⟩

/-- The launch and the clock are those of `s`. -/
structure State.LaunchKept (s t : State) : Prop where
  cfg : t.cfg = s.cfg
  prog : t.prog = s.prog
  cycle : t.cycle = s.cycle

theorem State.LaunchKept.refl (s : State) : s.LaunchKept s := ⟨rfl, rfl, rfl⟩

theorem State.LaunchKept.trans {s t u : State} (h : s.LaunchKept t) (h' : t.LaunchKept u) : s.LaunchKept u :=
  ⟨h'.cfg.trans h.cfg, h'.prog.trans h.prog, h'.cycle.trans h.cycle⟩

/-- The launch, the clock and the sizes of the structures are those of `s`. -/
structure State.ShapeKept (s t : State) : Prop extends s.LaunchKept t where
  robLength : t.rob.entries.length = s.rob.entries.length
  tables : ∀ k, (t.table k).length = (s.table k).length
  btb : t.btb.length = s.btb.length

theorem State.ShapeKept.trans {s t u : State} (h : s.ShapeKept t) (h' : t.ShapeKept u) : s.ShapeKept u where
  toLaunchKept := h.toLaunchKept.trans h'.toLaunchKept
  robLength := h'.robLength.trans h.robLength
  tables k := (h'.tables k).trans (h.tables k)
  btb := h'.btb.trans h.btb

/-- Shape, registers, memory and events are those of `s`, and the ROB starts at the same head and holds the same
instructions but for freed ones. -/
structure State.CoreKept (s t : State) : Prop extends s.ShapeKept t where
  intRegs : t.intRegs = s.intRegs
  fpRegs : t.fpRegs = s.fpRegs
  mem : t.mem = s.mem
  events : t.events = s.events
  head : t.rob.head = s.rob.head
  entry : ∀ u, (s.robAt u).SameInstr (t.robAt u)
  freed : ∀ u, (t.robAt u).busy = true → (s.robAt u).busy = true

/-- Besides, no instruction has left the ROB and nothing has been renamed. -/
structure State.RobKept (s t : State) : Prop extends s.CoreKept t where
  tail : t.rob.tail = s.rob.tail
  count : t.rob.count = s.rob.count
  nextSeq : t.nextSeq = s.nextSeq
  rat : t.rat = s.rat
  busy : ∀ u, (t.robAt u).busy = (s.robAt u).busy

theorem State.CoreKept.trans {s t u : State} (h : s.CoreKept t) (h' : t.CoreKept u) : s.CoreKept u where
  toShapeKept := h.toShapeKept.trans h'.toShapeKept
  intRegs := h'.intRegs.trans h.intRegs
  fpRegs := h'.fpRegs.trans h.fpRegs
  mem := h'.mem.trans h.mem
  events := h'.events.trans h.events
  head := h'.head.trans h.head
  entry v := (h.entry v).trans (h'.entry v)
  freed v hv := h.freed v (h'.freed v hv)

theorem State.RobKept.trans {s t u : State} (h : s.RobKept t) (h' : t.RobKept u) : s.RobKept u where
  toCoreKept := h.toCoreKept.trans h'.toCoreKept
  tail := h'.tail.trans h.tail
  count := h'.count.trans h.count
  nextSeq := h'.nextSeq.trans h.nextSeq
  rat := h'.rat.trans h.rat
  busy v := (h'.busy v).trans (h.busy v)

theorem State.CoreKept.readReg {s t : State} (h : s.CoreKept t) (r : Reg) : t.readReg r = s.readReg r := by
  cases r <;> simp [State.readReg, h.intRegs, h.fpRegs]

/-! ### The updates -/

/-- Units, port, BTB, CDB, fault register and pc are none of the kept fields. -/
theorem robKept_update (s : State) (pools : PoolMap Pool) (port : Port) (btb : List BtbEntry) (cdb : Cdb)
    (fault : Option EngineFault) (pc : Pc) (hb : btb.length = s.btb.length) :
    s.RobKept { s with pools := pools, port := port, btb := btb, cdb := cdb, fault := fault, pc := pc } where
  cfg := rfl
  prog := rfl
  cycle := rfl
  intRegs := rfl
  fpRegs := rfl
  mem := rfl
  events := rfl
  robLength := rfl
  tables _ := rfl
  btb := hb
  head := rfl
  entry _ := .refl _
  freed _ h := h
  tail := rfl
  count := rfl
  nextSeq := rfl
  rat := rfl
  busy _ := rfl

theorem State.RobKept.refl (s : State) : s.RobKept s := robKept_update s s.pools s.port s.btb s.cdb s.fault s.pc rfl

theorem robKept_takeUnit (s : State) (k : FuClass) : s.RobKept (s.takeUnit k) :=
  robKept_update s _ s.port s.btb s.cdb s.fault s.pc rfl

theorem robKept_releaseUnits (s : State) (k : FuClass) (n : Nat) : s.RobKept (s.releaseUnits k n) :=
  robKept_update s _ s.port s.btb s.cdb s.fault s.pc rfl

theorem robKept_raiseFault (f : EngineFault) (s : State) : s.RobKept (raiseFault f s) :=
  robKept_update s s.pools s.port s.btb s.cdb _ s.pc rfl

theorem robKept_trainBtb (pc : Pc) (taken : Bool) (target : Pc) (s : State) :
    s.RobKept (trainBtb pc taken target s) :=
  robKept_update s s.pools s.port _ s.cdb s.fault s.pc (by simp)

theorem robKept_port (s : State) (port : Port) : s.RobKept { s with port := port } :=
  robKept_update s s.pools port s.btb s.cdb s.fault s.pc rfl

theorem robKept_cdb (s : State) (cdb : Cdb) : s.RobKept { s with cdb := cdb } :=
  robKept_update s s.pools s.port s.btb cdb s.fault s.pc rfl

/-- Tables of the same lengths keep the ROB's side of the state. -/
theorem robKept_rs (s : State) (rs : ClassMap (List RsEntry)) (h : ∀ k, (rs.get k).length = (s.table k).length) :
    s.RobKept { s with rs := rs } :=
  { State.RobKept.refl s with tables := h }

theorem robKept_modifyTable (s : State) (k : FuClass) (f : List RsEntry → List RsEntry)
    (h : ∀ l, (f l).length = l.length) : s.RobKept (s.modifyTable k f) := by
  refine robKept_rs s _ fun c => ?_
  by_cases hc : c = k
  · subst hc; simp [State.table, h]
  · simp [State.table, get_modify_other _ _ hc]

theorem robKept_modifyStation (s : State) (k : FuClass) (i : Nat) (f : RsEntry → RsEntry) :
    s.RobKept (s.modifyStation k i f) :=
  robKept_modifyTable s k _ (by simp)

theorem robKept_modifyRob (s : State) (t : Nat) (f : RobEntry → RobEntry)
    (h : (s.robAt t).SameInstr (f (s.robAt t))) (hb : (f (s.robAt t)).busy = (s.robAt t).busy) :
    s.RobKept (s.modifyRob t f) := by
  have hentry : ∀ u, (s.robAt u).SameInstr ((s.modifyRob t f).robAt u) ∧
      ((s.modifyRob t f).robAt u).busy = (s.robAt u).busy := by
    intro u
    rw [robAt_modifyRob]
    split
    · next hu => rw [hu.1]; exact ⟨h, hb⟩
    · exact ⟨.refl _, rfl⟩
  exact { State.RobKept.refl s with
    robLength := by simp
    entry := fun u => (hentry u).1
    freed := fun u hu => (hentry u).2 ▸ hu
    busy := fun u => (hentry u).2 }

theorem robKept_modifyTiming (s : State) (t : Nat) (f : Timing → Timing)
    (h : (f (s.robAt t).timing).issue = (s.robAt t).timing.issue) : s.RobKept (s.modifyTiming t f) :=
  robKept_modifyRob s t _ ⟨rfl, rfl, rfl, rfl, rfl, rfl, h⟩ rfl

/-! ### Execute -/

theorem robKept_lsFinish (i : Nat) (s : State) : s.RobKept (lsFinish i s) := by
  unfold lsFinish
  dsimp only
  split
  · exact robKept_modifyStation ..
  · exact (robKept_modifyStation ..).trans (robKept_modifyRob _ _ _ ⟨rfl, rfl, rfl, rfl, rfl, rfl, rfl⟩ rfl)

theorem robKept_forward (i q : Nat) (s : State) : s.RobKept (forward i q s) := by
  unfold forward
  exact (robKept_modifyStation ..).trans (robKept_modifyTiming _ _ _ rfl)

theorem robKept_loadFinish (i : Nat) (s : State) : s.RobKept (loadFinish i s) :=
  ((robKept_modifyStation ..).trans (robKept_modifyTiming _ _ _ rfl)).trans (robKept_port ..)

/-- What starting a memory access can do: take the port, and finish at once when `MEM_LAT` is 1
(43_load_store.md R327). -/
theorem loadStart_cases (i : Nat) (s : State) :
    ∃ s1, s1 = (({ s with port := { s.port with owner := .load i } }.modifyTiming (s.station .ls i).dest
        (fun t => { t with memStart := some s.cycle })).modifyStation .ls i
          (fun e => { e with phase := .memAccess, remaining := s.cfg.memLat - 1 })) ∧
      ((loadStart i s = s1 ∧ s.cfg.memLat - 1 ≠ 0) ∨ loadStart i s = loadFinish i s1) := by
  refine ⟨_, rfl, ?_⟩
  unfold loadStart
  dsimp only
  split
  · exact .inr rfl
  · exact .inl ⟨rfl, ‹_›⟩

/-- What a memory access's visit can do (43_load_store.md R324). -/
theorem memAccessStep_cases (i : Nat) (s : State) :
    ∃ s1, s1 = s.modifyStation .ls i (fun e => { e with remaining := e.remaining - 1 }) ∧
      ((memAccessStep i s = s1 ∧ (s1.station .ls i).remaining ≠ 0) ∨ memAccessStep i s = loadFinish i s1) := by
  refine ⟨_, rfl, ?_⟩
  unfold memAccessStep
  dsimp only
  split
  · exact .inr rfl
  · exact .inl ⟨rfl, ‹_›⟩

theorem robKept_loadStart (i : Nat) (s : State) : s.RobKept (loadStart i s) := by
  obtain ⟨s1, hs1, h⟩ := loadStart_cases i s
  have h1 : s.RobKept s1 := hs1 ▸
    ((robKept_port ..).trans (robKept_modifyTiming _ _ _ rfl)).trans (robKept_modifyStation ..)
  obtain ⟨h, -⟩ | h := h
  · exact h ▸ h1
  · exact h ▸ h1.trans (robKept_loadFinish i s1)

theorem robKept_memWaitStep (i : Nat) (s : State) : s.RobKept (memWaitStep i s) := by
  obtain h | ⟨q, -, -, h⟩ | ⟨-, -, h⟩ := memWaitStep_cases i s <;> rw [h]
  · exact .refl s
  · exact robKept_forward i q s
  · exact robKept_loadStart i s

theorem robKept_memAccessStep (i : Nat) (s : State) : s.RobKept (memAccessStep i s) := by
  obtain ⟨s1, rfl, h⟩ := memAccessStep_cases i s
  obtain ⟨h, -⟩ | h := h <;> rw [h]
  · exact robKept_modifyStation ..
  · exact (robKept_modifyStation ..).trans (robKept_loadFinish i _)

/-- Finishing records the cycle and gives the unit back, then acts by class (40_engine_cycle.md R226). -/
theorem finish_eq (k : FuClass) (i : Nat) (s : State) :
    finish k i s =
      (match k with
        | .ls => lsFinish i
        | .br => resolveBranch i
        | k => fun s => s.modifyStation k i (fun e => { e with phase := .resultReady }))
      ((s.modifyTiming (s.station k i).dest (fun t => { t with exEnd := some s.cycle })).releaseUnits k 1) := by
  cases k <;> rfl

theorem robKept_finishing (k : FuClass) (i : Nat) (s : State) : s.RobKept
    ((s.modifyTiming (s.station k i).dest (fun t => { t with exEnd := some s.cycle })).releaseUnits k 1) :=
  (robKept_modifyTiming _ _ _ rfl).trans (robKept_releaseUnits ..)

theorem robKept_finish {k : FuClass} (hk : k ≠ .br) (i : Nat) (s : State) : s.RobKept (finish k i s) := by
  rw [finish_eq]
  refine (robKept_finishing k i s).trans ?_
  cases k with
  | br => exact absurd rfl hk
  | ls => exact robKept_lsFinish i _
  | fpadd => exact robKept_modifyStation ..
  | int => exact robKept_modifyStation ..
  | mult => exact robKept_modifyStation ..

/-! ### Squash and recovery -/

theorem robKept_squashTable (n : Nat) (k : FuClass) (s : State) : s.RobKept (squashTable n k s) := by
  unfold squashTable
  split
  · exact robKept_raiseFault ..
  · refine State.RobKept.trans ((robKept_releaseUnits s k _).trans (robKept_port ..))
      (robKept_modifyTable _ k _ fun l => List.length_map _)

theorem robKept_squashTables (n : Nat) (ks : List FuClass) (s : State) :
    s.RobKept (foldUnlessFaulted (squashTable n) ks s) :=
  foldUnlessFaulted_keeps s.RobKept _ ks (fun k _ t _ h => h.trans (robKept_squashTable n k t)) (.refl s)

theorem coreKept_freeRobFrom (t n : Nat) (s : State) : s.CoreKept (freeRobFrom t n s) := by
  induction n generalizing t s with
  | zero => exact (State.RobKept.refl s).toCoreKept
  | succ n ih =>
    refine State.CoreKept.trans ?_ (ih _ _)
    have hentry : ∀ u, (s.robAt u).SameInstr ((s.modifyRob t (fun e => { e with busy := false })).robAt u) ∧
        (((s.modifyRob t (fun e => { e with busy := false })).robAt u).busy = true → (s.robAt u).busy = true) := by
      intro u
      rw [robAt_modifyRob]
      split
      · exact ⟨⟨rfl, rfl, rfl, rfl, rfl, rfl, rfl⟩, by simp⟩
      · exact ⟨.refl _, id⟩
    exact { (State.RobKept.refl s).toCoreKept with
      robLength := by simp
      entry := fun u => (hentry u).1
      freed := fun u => (hentry u).2 }

theorem coreKept_truncateRob (b : Nat) (s : State) : s.CoreKept (truncateRob b s) :=
  (coreKept_freeRobFrom ..).trans { (State.RobKept.refl _).toCoreKept with }

theorem robKept_purgeCdb (n : Nat) (s : State) : s.RobKept (purgeCdb n s) := by
  unfold purgeCdb
  split
  · exact robKept_cdb ..
  · exact .refl s

theorem coreKept_recover (b : Nat) (taken : Bool) (target : Pc) (s : State) :
    s.CoreKept (recover b taken target s) :=
  { (State.RobKept.refl s).toCoreKept with }

theorem coreKept_squash (b : Nat) (s : State) : s.CoreKept (squash b s) :=
  unlessFaulted_keeps s.CoreKept _
    (fun _ _ h => (h.trans (coreKept_truncateRob b _)).trans (robKept_purgeCdb _ _).toCoreKept)
    (robKept_squashTables _ _ s).toCoreKept

/-- A branch trains the BTB, leaves its station and is complete (44_branch_recovery.md R367 to R371). -/
def resolved (i : Nat) (s : State) : State :=
  let e := s.station .br i
  let r := s.robAt e.dest
  ((trainBtb r.pc (branchOutcome e.op e.j.val e.k.val) (branchTarget r.pc e.imm) s).modifyStation .br i
    (fun e => { e with busy := false })).modifyRob e.dest (fun r => { r with complete := true })

/-- What resolving a branch can do: go on as predicted, or squash and recover (44_branch_recovery.md R370 to R378). -/
theorem resolveBranch_cases (i : Nat) (s : State) :
    resolveBranch i s = resolved i s ∨
    ∃ taken target, resolveBranch i s = unlessFaulted (recover (s.station .br i).dest taken target)
      (squash (s.station .br i).dest (resolved i s)) := by
  unfold resolveBranch
  dsimp only
  split
  · exact .inr ⟨_, _, rfl⟩
  · exact .inl rfl

theorem robKept_resolved (i : Nat) (s : State) : s.RobKept (resolved i s) :=
  ((robKept_trainBtb ..).trans (robKept_modifyStation ..)).trans
    (robKept_modifyRob _ _ _ ⟨rfl, rfl, rfl, rfl, rfl, rfl, rfl⟩ rfl)

theorem coreKept_resolveBranch (i : Nat) (s : State) : s.CoreKept (resolveBranch i s) := by
  obtain h | ⟨taken, target, h⟩ := resolveBranch_cases i s <;> rw [h]
  · exact (robKept_resolved i s).toCoreKept
  · exact unlessFaulted_keeps s.CoreKept _ (fun _ _ h => h.trans (coreKept_recover ..))
      ((robKept_resolved i s).toCoreKept.trans (coreKept_squash ..))

theorem coreKept_finish (k : FuClass) (i : Nat) (s : State) : s.CoreKept (finish k i s) := by
  by_cases hk : k = .br
  · subst hk
    exact (robKept_finishing .br i s).toCoreKept.trans (coreKept_resolveBranch i _)
  · exact (robKept_finish hk i s).toCoreKept

/-! ### Whole stages -/

/-- A visit is a run of updates that keep the ROB, after which the entry may finish. -/
theorem visit_keeps_or_finishes (k : FuClass) (i : Nat) (s : State) :
    s.RobKept (visit k i s) ∨
    ∃ s1, s.RobKept s1 ∧ (s1.station k i).dest = (s.station k i).dest ∧
      (s.robAt (s.station k i).dest).busy = true ∧ visit k i s = finish k i s1 := by
  obtain h | h | ⟨-, hr, ⟨-, -, h⟩ | ⟨-, h⟩ | ⟨-, h⟩ | ⟨-, h⟩⟩ := visit_cases k i s <;> rw [h]
  · exact .inl (.refl s)
  · exact .inl (robKept_raiseFault _ s)
  · obtain ⟨s1, hs1, h⟩ := start_cases k i s
    have h1 : s.RobKept s1 := hs1 ▸ ((robKept_takeUnit s k).trans (robKept_modifyTiming _ _ _ rfl)).trans
      (robKept_modifyStation ..)
    have hd : (s1.station k i).dest = (s.station k i).dest := by
      rw [hs1, station_modifyStation]; split <;> rfl
    obtain h | h := h
    · exact .inl (h ▸ h1)
    · exact .inr ⟨s1, h1, hd, hr, h⟩
  · obtain ⟨s1, hs1, h⟩ := executingStep_cases k i s
    have h1 : s.RobKept s1 := hs1 ▸ robKept_modifyStation ..
    have hd : (s1.station k i).dest = (s.station k i).dest := by
      rw [hs1, station_modifyStation]; split <;> rfl
    obtain ⟨h, -⟩ | ⟨h, -⟩ := h
    · exact .inl (h ▸ h1)
    · exact .inr ⟨s1, h1, hd, hr, h⟩
  · exact .inl (robKept_memWaitStep i s)
  · exact .inl (robKept_memAccessStep i s)

theorem coreKept_visit (k : FuClass) (i : Nat) (s : State) : s.CoreKept (visit k i s) := by
  obtain h | ⟨s1, h1, -, -, h⟩ := visit_keeps_or_finishes k i s
  · exact h.toCoreKept
  · exact h ▸ h1.toCoreKept.trans (coreKept_finish k i s1)

/-- What every fault and every visit keeps, the execute stage keeps (40_engine_cycle.md R220, R221). -/
theorem execute_keeps (P : State → Prop) (hfault : ∀ s f, P s → P (raiseFault f s))
    (hvisit : ∀ s k i, s.fault = none → P s → P (visit k i s)) {s : State} (h : P s) : P (execute s) := by
  refine foldUnlessFaulted_keeps P _ _ (fun k _ t _ ht => ?_) h
  unfold scanTable
  split
  · exact hfault _ _ ht
  · exact foldUnlessFaulted_keeps P _ _ (fun i _ u hu hPu => hvisit u k i hu hPu) ht

theorem coreKept_execute (s : State) : s.CoreKept (execute s) :=
  execute_keeps s.CoreKept (fun t f h => h.trans (robKept_raiseFault f t).toCoreKept)
    (fun t k i _ h => h.trans (coreKept_visit k i t)) (State.RobKept.refl s).toCoreKept

theorem robKept_drainCdb (s : State) : s.RobKept (drainCdb s) := by
  unfold drainCdb
  split
  · exact robKept_raiseFault ..
  · exact (robKept_rs s _ (by simp [State.table])).trans
      (robKept_modifyRob _ _ _ ⟨rfl, rfl, rfl, rfl, rfl, rfl, rfl⟩ rfl)

theorem robKept_broadcast (k : FuClass) (i : Nat) (v : Word) (s : State) : s.RobKept (broadcast k i v s) :=
  ((robKept_cdb ..).trans (robKept_modifyStation ..)).trans (robKept_drainCdb _)

theorem robKept_writeBack (s : State) : s.RobKept (writeBack s) := by
  obtain h | ⟨f, h⟩ | ⟨k, i, v, -, -, h⟩ := writeBack_cases s <;> rw [h]
  · exact .refl s
  · exact robKept_raiseFault f s
  · exact robKept_broadcast k i v s

/-- The stages between issue and commit. -/
def executeAndWriteBack (s : State) : State := unlessFaulted writeBack (unlessFaulted execute s)

theorem restOfCycle_eq (s : State) :
    restOfCycle s = endOfCycle (unlessFaulted commit (executeAndWriteBack s)) := rfl

theorem coreKept_executeAndWriteBack (s : State) : s.CoreKept (executeAndWriteBack s) :=
  unlessFaulted_keeps s.CoreKept _ (fun t _ h => h.trans (robKept_writeBack t).toCoreKept)
    (unlessFaulted_keeps s.CoreKept _ (fun t _ h => h.trans (coreKept_execute t)) (State.RobKept.refl s).toCoreKept)

end Sys2Proof.Machine

/-! ## The ring of the ROB (10_state.md R46) -/

namespace Sys2Proof.Machine

theorem add_mod_ring {h p n : Nat} (hh : h < n) (hp : p ≤ n) :
    (h + p) % n = if h + p < n then h + p else h + p - n := by
  split
  · exact Nat.mod_eq_of_lt ‹_›
  · rw [Nat.mod_eq_sub_mod (by omega)]
    exact Nat.mod_eq_of_lt (by omega)

theorem State.Sized.robSize_pos {s : State} (hs : s.Sized) : 0 < s.cfg.robSize := by
  have h := hs.legal
  simp [State.launchLegal, Config.legal, inRange] at h
  omega

theorem State.RingOk.tagAt_lt {s : State} (hr : s.RingOk) (n : Nat) : s.tagAt n < s.cfg.robSize :=
  Nat.mod_lt _ (by have := hr.head; omega)

theorem State.RingOk.tagAt_zero {s : State} (hr : s.RingOk) : s.tagAt 0 = s.rob.head :=
  Nat.mod_eq_of_lt hr.head

theorem State.RingOk.tail_eq_tagAt {s : State} (hr : s.RingOk) : s.rob.tail = s.tagAt s.rob.count := hr.tail

theorem State.RingOk.tagAt_inj {s : State} (hr : s.RingOk) {p q : Nat} (hp : p < s.cfg.robSize)
    (hq : q < s.cfg.robSize) (h : s.tagAt p = s.tagAt q) : p = q := by
  unfold State.tagAt at h
  rw [add_mod_ring hr.head hp.le, add_mod_ring hr.head hq.le] at h
  split at h <;> split at h <;> omega

/-- Every index of the buffer is a place of the ring. -/
theorem State.RingOk.exists_tagAt {s : State} (hr : s.RingOk) {t : Nat} (ht : t < s.cfg.robSize) :
    ∃ p < s.cfg.robSize, t = s.tagAt p := by
  have hh := hr.head
  by_cases hle : s.rob.head ≤ t
  · refine ⟨t - s.rob.head, by omega, ?_⟩
    rw [State.tagAt, add_mod_ring hh (by omega), if_pos (by omega)]
    omega
  · refine ⟨t + s.cfg.robSize - s.rob.head, by omega, ?_⟩
    rw [State.tagAt, add_mod_ring hh (by omega), if_neg (by omega)]
    omega

theorem State.RingOk.robOffset_tagAt {s : State} (hr : s.RingOk) {p : Nat} (hp : p < s.cfg.robSize) :
    s.robOffset (s.tagAt p) = p := by
  have hh := hr.head
  unfold State.robOffset State.tagAt
  rw [add_mod_ring hh hp.le]
  split
  · rw [Nat.mod_eq_sub_mod (by omega)]
    exact (Nat.mod_eq_of_lt (by omega)).trans (by omega)
  · exact (Nat.mod_eq_of_lt (by omega)).trans (by omega)

theorem State.Sized.lt_of_busy {s : State} (hs : s.Sized) {t : Nat} (h : (s.robAt t).busy = true) :
    t < s.cfg.robSize := hs.rob ▸ lt_length_of_busy h

/-- The instructions in flight are those of the first `count` places of the ring. -/
theorem State.RingOk.busy_iff {s : State} (hr : s.RingOk) (hs : s.Sized) (t : Nat) :
    (s.robAt t).busy = true ↔ ∃ n < s.rob.count, t = s.tagAt n := by
  constructor
  · intro h
    obtain ⟨p, hp, rfl⟩ := hr.exists_tagAt (hs.lt_of_busy h)
    exact ⟨p, by simpa [State.nthEntry, h] using (hr.busy p hp).symm, rfl⟩
  · rintro ⟨n, hn, rfl⟩
    exact (hr.busy n (hn.trans_le hr.count)).trans (by simpa using hn)

/-- Age in the ring is age by sequence id. -/
theorem State.RingOk.seq_le_iff {s : State} (hr : s.RingOk) {p q : Nat} (hp : p < s.rob.count)
    (hq : q < s.rob.count) : (s.nthEntry p).seq ≤ (s.nthEntry q).seq ↔ p ≤ q := by
  have h1 := hr.seq p hp
  have h2 := hr.seq q hq
  omega

/-! ### Ring, ids and events kept -/

theorem State.Sized.of_shapeKept {s t : State} (h : s.ShapeKept t) (hs : s.Sized) : t.Sized where
  legal := by
    have := hs.legal
    simpa [State.launchLegal, h.cfg, h.prog] using this
  rob := by rw [h.robLength, h.cfg, hs.rob]
  tables k := by rw [h.tables, h.cfg, hs.tables]
  btb := by rw [h.btb, h.cfg, hs.btb]

/-- Ring, sequence ids and events are those of `s`. -/
structure State.OrderSame (s t : State) : Prop where
  robSize : t.cfg.robSize = s.cfg.robSize
  head : t.rob.head = s.rob.head
  tail : t.rob.tail = s.rob.tail
  count : t.rob.count = s.rob.count
  nextSeq : t.nextSeq = s.nextSeq
  events : t.events = s.events
  busy : ∀ u, (t.robAt u).busy = (s.robAt u).busy
  seq : ∀ u, (t.robAt u).seq = (s.robAt u).seq

theorem State.RobKept.orderSame {s t : State} (h : s.RobKept t) : s.OrderSame t where
  robSize := by rw [h.cfg]
  head := h.head
  tail := h.tail
  count := h.count
  nextSeq := h.nextSeq
  events := h.events
  busy := h.busy
  seq u := (h.entry u).seq

theorem State.OrderSame.trans {s t u : State} (h : s.OrderSame t) (h' : t.OrderSame u) : s.OrderSame u where
  robSize := h'.robSize.trans h.robSize
  head := h'.head.trans h.head
  tail := h'.tail.trans h.tail
  count := h'.count.trans h.count
  nextSeq := h'.nextSeq.trans h.nextSeq
  events := h'.events.trans h.events
  busy v := (h'.busy v).trans (h.busy v)
  seq v := (h'.seq v).trans (h.seq v)

theorem State.OrderSame.tagAt {s t : State} (h : s.OrderSame t) (n : Nat) : t.tagAt n = s.tagAt n := by
  simp [State.tagAt, h.head, h.robSize]

theorem State.RingOk.of_orderSame {s t : State} (h : s.OrderSame t) (hr : s.RingOk) : t.RingOk where
  head := by rw [h.head, h.robSize]; exact hr.head
  count := by rw [h.count, h.robSize]; exact hr.count
  tail := by rw [h.tail, h.head, h.count, h.robSize]; exact hr.tail
  busy n hn := by
    rw [State.nthEntry, h.tagAt, h.busy, h.count]
    exact hr.busy n (h.robSize ▸ hn)
  seq n hn := by
    rw [State.nthEntry, h.tagAt, h.seq, h.count, h.nextSeq]
    exact hr.seq n (h.count ▸ hn)

/-- The ring is in order, its oldest id has not moved, and no event has been emitted. -/
structure State.Dense (s t : State) : Prop where
  ring : t.RingOk
  gap : t.nextSeq + s.rob.count = s.nextSeq + t.rob.count
  events : t.events = s.events

theorem State.OrderSame.dense {s t : State} (h : s.OrderSame t) (hr : s.RingOk) : s.Dense t :=
  ⟨hr.of_orderSame h, by rw [h.nextSeq, h.count], h.events⟩

theorem State.Dense.trans {s t u : State} (h : s.Dense t) (h' : t.Dense u) : s.Dense u :=
  ⟨h'.ring, by have := h.gap; have := h'.gap; omega, h'.events.trans h.events⟩

theorem State.EventsOk.of_dense {s t : State} (h : s.Dense t) (he : s.EventsOk) : t.EventsOk where
  inOrder := by rw [h.events]; exact he.inOrder
  dense := by
    rw [h.events]
    have := h.gap
    have := he.dense
    omega

/-! ### Squash and recovery -/

/-- Freeing runs round the ring from place `a` on. -/
theorem robAt_freeRobFrom {s : State} (hr : s.RingOk) (hs : s.Sized) (a m : Nat) (u : Nat) :
    (freeRobFrom (s.tagAt a) m s).robAt u =
      if ∃ j < m, u = s.tagAt (a + j) then { s.robAt u with busy := false } else s.robAt u := by
  have key : ∀ (m a : Nat) (t : State), t.cfg = s.cfg → t.rob.entries.length = s.rob.entries.length →
      (freeRobFrom (s.tagAt a) m t).robAt u =
        if ∃ j < m, u = s.tagAt (a + j) then { t.robAt u with busy := false } else t.robAt u := by
    intro m
    induction m with
    | zero => intro a t _ _; simp [freeRobFrom]
    | succ m ih =>
      intro a t hcfg hlen
      have hnext : (s.tagAt a + 1) % t.cfg.robSize = s.tagAt (a + 1) := by
        rw [hcfg, State.tagAt, State.tagAt, Nat.mod_add_mod, Nat.add_assoc]
      have hlt : s.tagAt a < t.rob.entries.length := by rw [hlen, hs.rob]; exact hr.tagAt_lt a
      have hsplit : (∃ j < m + 1, u = s.tagAt (a + j)) ↔ u = s.tagAt a ∨ ∃ j < m, u = s.tagAt (a + 1 + j) := by
        constructor
        · rintro ⟨j, hj, rfl⟩
          cases j with
          | zero => exact .inl rfl
          | succ j => exact .inr ⟨j, by omega, by rw [Nat.add_assoc, Nat.add_comm 1]⟩
        · rintro (rfl | ⟨j, hj, rfl⟩)
          · exact ⟨0, by omega, rfl⟩
          · exact ⟨j + 1, by omega, by rw [Nat.add_assoc, Nat.add_comm 1]⟩
      rw [freeRobFrom, hnext, ih (a + 1)]
      simp only [hsplit]
      by_cases hu : u = s.tagAt a
      · subst hu
        rw [robAt_modifyRob_same _ _ hlt]
        split <;> simp
      · rw [robAt_modifyRob_other _ _ hu]
        simp [hu]
      · exact hcfg
      · simpa using hlen
  exact key m a s rfl rfl

section Truncation

variable {s : State} {p : Nat} (hr : s.RingOk) (hs : s.Sized) (hp : p < s.rob.count)
include hr hp

theorem truncateRob_count : (truncateRob (s.tagAt p) s).rob.count = p + 1 := by
  simp [truncateRob, hr.robOffset_tagAt (hp.trans_le hr.count)]

include hs

/-- Truncation after place `p` frees the instructions in flight at the later places, and nothing else
(44_branch_recovery.md R375). -/
theorem robAt_truncateRob {n : Nat} (hn : n < s.cfg.robSize) :
    (truncateRob (s.tagAt p) s).robAt (s.tagAt n) =
      if p < n ∧ n < s.rob.count then { s.nthEntry n with busy := false } else s.nthEntry n := by
  have hnext : (s.tagAt p + 1) % s.cfg.robSize = s.tagAt (p + 1) := by
    rw [State.tagAt, State.tagAt, Nat.mod_add_mod, Nat.add_assoc]
  have h : (truncateRob (s.tagAt p) s).robAt (s.tagAt n) =
      (freeRobFrom (s.tagAt (p + 1)) (s.rob.count - (p + 1)) s).robAt (s.tagAt n) := by
    unfold truncateRob
    rw [hr.robOffset_tagAt (hp.trans_le hr.count), hnext]
    rfl
  have hplace : (∃ j < s.rob.count - (p + 1), s.tagAt n = s.tagAt (p + 1 + j)) ↔ p < n ∧ n < s.rob.count := by
    constructor
    · rintro ⟨j, hj, htag⟩
      have := hr.tagAt_inj hn (by have := hr.count; omega) htag
      omega
    · rintro ⟨h1, h2⟩
      exact ⟨n - (p + 1), by omega, by congr 1; omega⟩
  rw [h, robAt_freeRobFrom hr hs]
  simp only [hplace]
  rfl

/-- Truncation after a branch and the restored sequence counter leave a ring in order (44_branch_recovery.md R375,
R378). -/
theorem truncateRob_dense {b : Nat} (hb : b = s.tagAt p) {t : State} (ht : (truncateRob b s).RobKept t)
    (taken : Bool) (target : Pc) : s.Dense (recover b taken target t) := by
  subst hb
  have hk := coreKept_truncateRob (s.tagAt p) s
  have hcount : (recover (s.tagAt p) taken target t).rob.count = p + 1 :=
    ht.count.trans (truncateRob_count hr hp)
  have hseq : (recover (s.tagAt p) taken target t).nextSeq = (s.nthEntry p).seq + 1 := by
    change (t.robAt (s.tagAt p)).seq + 1 = _
    rw [(ht.entry _).seq, (hk.entry _).seq]
    rfl
  have htag : ∀ n, (recover (s.tagAt p) taken target t).tagAt n = s.tagAt n := by
    intro n
    change (t.rob.head + n) % t.cfg.robSize = _
    rw [ht.head, ht.cfg, hk.head, hk.cfg]
    rfl
  have hentry : ∀ n, (recover (s.tagAt p) taken target t).nthEntry n = t.robAt (s.tagAt n) := by
    intro n
    rw [State.nthEntry, htag]
    rfl
  have hpseq := hr.seq p hp
  refine ⟨⟨?_, ?_, ?_, ?_, ?_⟩, ?_, ?_⟩
  · change t.rob.head < t.cfg.robSize
    rw [ht.head, ht.cfg, hk.head, hk.cfg]
    exact hr.head
  · rw [hcount]
    change p + 1 ≤ t.cfg.robSize
    rw [ht.cfg, hk.cfg]
    have := hr.count
    omega
  · rw [hcount]
    change t.rob.tail = (t.rob.head + (p + 1)) % t.cfg.robSize
    rw [ht.tail, ht.head, ht.cfg, hk.head, hk.cfg]
    change (s.tagAt p + 1) % s.cfg.robSize = _
    rw [State.tagAt, Nat.mod_add_mod, Nat.add_assoc]
  · intro n hn
    have hn' : n < s.cfg.robSize := by
      change n < t.cfg.robSize at hn
      rwa [ht.cfg, hk.cfg] at hn
    rw [hentry, hcount, ht.busy, robAt_truncateRob hr hs hp hn']
    have hb := hr.busy n hn'
    split
    · simp; omega
    · rw [hb]
      exact decide_eq_decide.2 (by omega)
  · intro n hn
    rw [hcount] at hn ⊢
    rw [hentry, hseq, (ht.entry _).seq, (hk.entry _).seq]
    have := hr.seq n (by omega)
    change (s.nthEntry n).seq + (p + 1) = _
    omega
  · rw [hcount, hseq]
    omega
  · exact (ht.events.trans hk.events)

end Truncation

/-- The state after truncation, purge, and the restored RAT, pc and sequence counter (44_branch_recovery.md R375 to
R378). -/
def recovered (b n : Nat) (taken : Bool) (target : Pc) (s : State) : State :=
  recover b taken target (purgeCdb n (truncateRob b s))

section SquashAndRecover

variable (b : Nat) (taken : Bool) (target : Pc) {s : State}

/-- A dead tag stops the squash at its table (60_exceptions.md R404). -/
theorem squash_recover_of_fault {f : EngineFault}
    (h : (foldUnlessFaulted (squashTable (s.robAt b).seq) tableOrder s).fault = some f) :
    unlessFaulted (recover b taken target) (squash b s) =
      foldUnlessFaulted (squashTable (s.robAt b).seq) tableOrder s := by
  unfold squash
  rw [unlessFaulted_of_some _ h, unlessFaulted_of_some _ h]

/-- Without a dead tag squash and recovery run to their end (44_branch_recovery.md R375 to R378). -/
theorem squash_recover_of_noFault
    (h : (foldUnlessFaulted (squashTable (s.robAt b).seq) tableOrder s).fault = none) :
    unlessFaulted (recover b taken target) (squash b s) =
      recovered b (s.robAt b).seq taken target (foldUnlessFaulted (squashTable (s.robAt b).seq) tableOrder s) := by
  have hfree : ∀ m t (s : State), (freeRobFrom t m s).fault = s.fault := by
    intro m
    induction m with
    | zero => intro t s; rfl
    | succ m ih => intro t s; exact (ih _ _).trans rfl
  have hpurge : ∀ n (s : State), (purgeCdb n s).fault = s.fault := by
    intro n s
    unfold purgeCdb
    split <;> rfl
  unfold squash
  rw [unlessFaulted_of_none _ h, unlessFaulted_of_none]
  · rfl
  · rw [hpurge]
    exact (hfree _ _ _).trans h

end SquashAndRecover

/-- Resolving a branch in flight keeps the ring in order. -/
theorem resolveBranch_dense {s : State} (hr : s.RingOk) (hs : s.Sized) (i : Nat)
    (hb : (s.robAt (s.station .br i).dest).busy = true) : s.Dense (resolveBranch i s) := by
  have hres := robKept_resolved i s
  obtain h | ⟨taken, target, h⟩ := resolveBranch_cases i s <;> rw [h]
  · exact hres.orderSame.dense hr
  · refine (hres.orderSame.dense hr).trans ?_
    have hrr := hr.of_orderSame hres.orderSame
    have hsq := robKept_squashTables ((resolved i s).robAt (s.station .br i).dest).seq tableOrder (resolved i s)
    have hdense := hsq.orderSame.dense hrr
    cases hf : (foldUnlessFaulted (squashTable ((resolved i s).robAt (s.station .br i).dest).seq) tableOrder
        (resolved i s)).fault with
    | some f => rw [squash_recover_of_fault _ _ _ hf]; exact hdense
    | none =>
      have hsz := (hs.of_shapeKept hres.toShapeKept).of_shapeKept hsq.toShapeKept
      have hbusy := (hsq.busy _).trans ((hres.busy _).trans hb)
      obtain ⟨p, hp, htag⟩ := (hdense.ring.busy_iff hsz _).1 hbusy
      rw [squash_recover_of_noFault _ _ _ hf]
      exact hdense.trans (truncateRob_dense hdense.ring hsz hp htag (robKept_purgeCdb _ _) taken target)

/-! ### Execute and write-back -/

theorem visit_dense {s : State} (hr : s.RingOk) (hs : s.Sized) (k : FuClass) (i : Nat) :
    s.Dense (visit k i s) := by
  obtain h | ⟨s1, h1, hd, hb, h⟩ := visit_keeps_or_finishes k i s
  · exact h.orderSame.dense hr
  rw [h]
  refine (h1.orderSame.dense hr).trans ?_
  have hr1 := hr.of_orderSame h1.orderSame
  by_cases hk : k = .br
  · subst hk
    rw [finish_eq]
    have h2 := robKept_finishing .br i s1
    refine (h2.orderSame.dense hr1).trans (resolveBranch_dense (hr1.of_orderSame h2.orderSame)
      ((hs.of_shapeKept h1.toShapeKept).of_shapeKept h2.toShapeKept) i ?_)
    change (State.robAt _ (s1.station .br i).dest).busy = true
    rw [h2.busy, h1.busy, hd, hb]
  · exact (robKept_finish hk i s1).orderSame.dense hr1

/-- The stages between issue and commit keep the ring in order. -/
theorem executeAndWriteBack_dense {s : State} (hr : s.RingOk) (hs : s.Sized) : s.Dense (executeAndWriteBack s) := by
  have hexec : ∀ t : State, s.Dense t ∧ t.Sized → s.Dense (execute t) ∧ (execute t).Sized := fun t ht =>
    execute_keeps (fun t => s.Dense t ∧ t.Sized)
      (fun t f h => ⟨h.1.trans ((robKept_raiseFault f t).orderSame.dense h.1.ring),
        h.2.of_shapeKept (robKept_raiseFault f t).toShapeKept⟩)
      (fun t k i _ h => ⟨h.1.trans (visit_dense h.1.ring h.2 k i), h.2.of_shapeKept (coreKept_visit k i t).toShapeKept⟩)
      ht
  have hstart : s.Dense s ∧ s.Sized := ⟨(State.RobKept.refl s).orderSame.dense hr, hs⟩
  exact (unlessFaulted_keeps (fun t => s.Dense t ∧ t.Sized) _
    (fun t _ h => ⟨h.1.trans ((robKept_writeBack t).orderSame.dense h.1.ring),
      h.2.of_shapeKept (robKept_writeBack t).toShapeKept⟩)
    (unlessFaulted_keeps (fun t => s.Dense t ∧ t.Sized) _ (fun t _ => hexec t) hstart)).1

end Sys2Proof.Machine

/-! ## Issue and commit: shape and order -/

namespace Sys2Proof.Machine

/-- Sizes, ring, sequence ids and events are those of `s`. -/
structure State.PlaceKept (s t : State) : Prop extends s.ShapeKept t, s.OrderSame t

theorem State.PlaceKept.trans {s t u : State} (h : s.PlaceKept t) (h' : t.PlaceKept u) : s.PlaceKept u :=
  ⟨h.toShapeKept.trans h'.toShapeKept, h.toOrderSame.trans h'.toOrderSame⟩

theorem State.RobKept.placeKept {s t : State} (h : s.RobKept t) : s.PlaceKept t := ⟨h.toShapeKept, h.orderSame⟩

theorem State.PlaceKept.refl (s : State) : s.PlaceKept s := (State.RobKept.refl s).placeKept

/-- Registers, memory and RAT have no part in sizes and order. -/
theorem placeKept_update (s : State) (intRegs fpRegs : Vector Word 32) (mem : Memory) (rat : AliasTable) :
    s.PlaceKept { s with intRegs := intRegs, fpRegs := fpRegs, mem := mem, rat := rat } :=
  { State.PlaceKept.refl s with }

/-- A change of the ROB's entries that leaves `busy` and `seq` alone keeps sizes and order. -/
theorem placeKept_entries (s : State) (entries : List RobEntry) (hl : entries.length = s.rob.entries.length)
    (h : ∀ u, ((entries[u]?).getD RobEntry.free).busy = (s.robAt u).busy ∧
      ((entries[u]?).getD RobEntry.free).seq = (s.robAt u).seq) :
    s.PlaceKept { s with rob := { s.rob with entries := entries } } :=
  { State.PlaceKept.refl s with robLength := hl, busy := fun u => (h u).1, seq := fun u => (h u).2 }

theorem placeKept_modifyRob (s : State) (t : Nat) (f : RobEntry → RobEntry) (hb : ∀ e, (f e).busy = e.busy)
    (hs : ∀ e, (f e).seq = e.seq) : s.PlaceKept (s.modifyRob t f) := by
  refine placeKept_entries s _ (by simp) fun u => ?_
  change ((s.modifyRob t f).robAt u).busy = _ ∧ ((s.modifyRob t f).robAt u).seq = _
  rw [robAt_modifyRob]
  split
  · exact ⟨hb _, hs _⟩
  · exact ⟨rfl, rfl⟩

/-! ### Issue -/

theorem robAt_allocateRob (f : IssueForm) (s : State) (u : Nat) :
    (allocateRob f s).robAt u =
      if u = s.rob.tail ∧ u < s.rob.entries.length then newRobEntry f s (s.robAt u) else s.robAt u :=
  robAt_modifyRob s s.rob.tail u (newRobEntry f s)

theorem shapeKept_allocateRob (f : IssueForm) (s : State) : s.ShapeKept (allocateRob f s) :=
  { State.PlaceKept.refl s with robLength := by simp [allocateRob] }

/-- Allocation extends the ring by one place and takes the next sequence id (40_engine_cycle.md R211, R212). -/
theorem allocateRob_dense {s : State} (hr : s.RingOk) (hs : s.Sized) (hc : s.rob.count < s.cfg.robSize)
    (f : IssueForm) : s.Dense (allocateRob f s) := by
  have hentry : ∀ n < s.cfg.robSize, (allocateRob f s).nthEntry n =
      if n = s.rob.count then newRobEntry f s (s.nthEntry n) else s.nthEntry n := by
    intro n hn
    change (allocateRob f s).robAt (s.tagAt n) = _
    rw [robAt_allocateRob, hr.tail_eq_tagAt, hs.rob]
    by_cases h : n = s.rob.count
    · subst h
      rw [if_pos ⟨rfl, hr.tagAt_lt _⟩, if_pos rfl]
      rfl
    · rw [if_neg (fun hcon => h (hr.tagAt_inj hn hc hcon.1)), if_neg h]
      rfl
  refine ⟨⟨hr.head, hc, ?_, ?_, ?_⟩, ?_, rfl⟩
  · change (s.rob.tail + 1) % s.cfg.robSize = (s.rob.head + (s.rob.count + 1)) % s.cfg.robSize
    rw [hr.tail, Nat.mod_add_mod, Nat.add_assoc]
  · intro n hn
    rw [hentry n hn]
    change _ = decide (n < s.rob.count + 1)
    split
    · next h => simp [h, newRobEntry]
    · rw [hr.busy n hn]
      exact decide_eq_decide.2 (by omega)
  · intro n hn
    change n < s.rob.count + 1 at hn
    change _ + (s.rob.count + 1) = s.nextSeq + 1 + n
    rw [hentry n (by omega)]
    split
    · next h => simp only [h, newRobEntry]; omega
    · have := hr.seq n (by omega)
      omega
  · change s.nextSeq + 1 + s.rob.count = s.nextSeq + (s.rob.count + 1)
    omega

theorem robKept_fillStation (f : IssueForm) (c : FuClass) (t : Nat) (j k : Slot) (s : State) :
    s.RobKept (fillStation f c t j k s) := by
  unfold fillStation
  split
  · exact .refl s
  · exact robKept_modifyStation ..

theorem placeKept_snapshotBranch (op : Op) (t : Nat) (s : State) : s.PlaceKept (snapshotBranch op t s) := by
  unfold snapshotBranch
  split
  · exact placeKept_modifyRob _ _ _ (fun _ => rfl) (fun _ => rfl)
  · exact .refl s

theorem placeKept_renameDest (dest : Option Reg) (t : Nat) (s : State) : s.PlaceKept (renameDest dest t s) := by
  cases dest
  · exact .refl s
  · exact placeKept_update ..

theorem robKept_chooseNextPc (op : Op) (t : Nat) (s : State) : s.RobKept (chooseNextPc op t s) := by
  unfold chooseNextPc
  split <;> exact robKept_update s s.pools s.port s.btb s.cdb s.fault _ rfl

theorem robKept_completeAtIssue (t : Nat) (s : State) : s.RobKept (completeAtIssue t s) :=
  robKept_modifyRob _ _ _ ⟨rfl, rfl, rfl, rfl, rfl, rfl, rfl⟩ rfl

theorem placeKept_issueToStation (f : IssueForm) (c : FuClass) (t : Nat) (s : State) :
    s.PlaceKept (issueToStation f c t s) := by
  obtain ⟨u, h⟩ | ⟨j, k, -, -, h⟩ := issueToStation_cases f c t s <;> rw [h]
  · exact (robKept_raiseFault _ s).placeKept
  · exact (((robKept_fillStation ..).placeKept.trans (placeKept_snapshotBranch ..)).trans
      (placeKept_renameDest ..)).trans (robKept_chooseNextPc ..).placeKept

/-- Issue stalls, or allocates a ROB entry and then keeps sizes and order (40_engine_cycle.md R206, R210). -/
theorem issue_stalls_or_allocates (f : IssueForm) (s : State) :
    issue f s = s ∨ (s.rob.count < s.cfg.robSize ∧ (allocateRob f s).PlaceKept (issue f s)) := by
  have hcount : s.canIssue f.op = true → s.rob.count < s.cfg.robSize := by
    intro h
    simp only [State.canIssue, Bool.and_eq_true, decide_eq_true_eq] at h
    exact h.1
  obtain ⟨-, h⟩ | ⟨hc, -, h⟩ | ⟨c, hc, -, h⟩ := issue_cases f s
  · exact .inl h
  · exact .inr ⟨hcount hc, h ▸ ((robKept_completeAtIssue ..).trans (robKept_chooseNextPc ..)).placeKept⟩
  · exact .inr ⟨hcount hc, h ▸ placeKept_issueToStation ..⟩

theorem shapeKept_issue (f : IssueForm) (s : State) : s.ShapeKept (issue f s) := by
  obtain h | ⟨-, h⟩ := issue_stalls_or_allocates f s
  · rw [h]; exact (State.PlaceKept.refl s).toShapeKept
  · exact (shapeKept_allocateRob f s).trans h.toShapeKept

theorem issue_dense {s : State} (hr : s.RingOk) (hs : s.Sized) (f : IssueForm) : s.Dense (issue f s) := by
  obtain h | ⟨hc, h⟩ := issue_stalls_or_allocates f s
  · rw [h]; exact (State.PlaceKept.refl s).toOrderSame.dense hr
  · have ha := allocateRob_dense hr hs hc f
    exact ha.trans (h.toOrderSame.dense ha.ring)

/-! ### Commit -/

theorem shapeKept_retire (s : State) : s.ShapeKept (retire s) :=
  { State.PlaceKept.refl s with robLength := by simp [retire, State.modifyRob, State.modifyTiming] }

@[simp] theorem retire_intRegs (s : State) : (retire s).intRegs = s.intRegs := rfl
@[simp] theorem retire_fpRegs (s : State) : (retire s).fpRegs = s.fpRegs := rfl
@[simp] theorem retire_mem (s : State) : (retire s).mem = s.mem := rfl
@[simp] theorem retire_rat (s : State) : (retire s).rat = s.rat := rfl
@[simp] theorem retire_rs (s : State) : (retire s).rs = s.rs := rfl
@[simp] theorem retire_pools (s : State) : (retire s).pools = s.pools := rfl
@[simp] theorem retire_port (s : State) : (retire s).port = s.port := rfl
@[simp] theorem retire_fault (s : State) : (retire s).fault = s.fault := rfl
@[simp] theorem retire_count (s : State) : (retire s).rob.count = s.rob.count - 1 := rfl

/-- The entry a retirement leaves at the head (40_engine_cycle.md R248). -/
def RobEntry.retired (c : Nat) (e : RobEntry) : RobEntry :=
  { e with timing := { e.timing with commit := some c }, busy := false }

theorem robAt_retire {s : State} (hb : (s.robAt s.rob.head).busy = true) (u : Nat) :
    (retire s).robAt u = if u = s.rob.head then (s.robAt u).retired s.cycle else s.robAt u := by
  have hlt := lt_length_of_busy hb
  have h : (retire s).robAt u = (((s.modifyTiming s.rob.head (fun t => { t with commit := some s.cycle })).modifyRob
      s.rob.head (fun e => { e with busy := false })).robAt u) := rfl
  rw [h]
  by_cases hu : u = s.rob.head
  · subst hu
    rw [robAt_modifyRob_same _ _ (by simpa [modifyTiming_eq] using hlt), modifyTiming_eq, robAt_modifyRob_same _ _ hlt,
      if_pos rfl]
    rfl
  · rw [robAt_modifyRob_other _ _ hu, modifyTiming_eq, robAt_modifyRob_other _ _ hu, if_neg hu]

theorem retire_events {s : State} (hb : (s.robAt s.rob.head).busy = true) :
    (retire s).events = s.events ++ [commitEvent { s.robAt s.rob.head with
      timing := { (s.robAt s.rob.head).timing with commit := some s.cycle } }] := by
  have h : (retire s).events = s.events ++ [commitEvent
      ((s.modifyTiming s.rob.head (fun t => { t with commit := some s.cycle })).robAt s.rob.head)] := rfl
  rw [h, modifyTiming_eq, robAt_modifyRob_same _ _ (lt_length_of_busy hb)]

theorem tagAt_retire (s : State) (n : Nat) : (retire s).tagAt n = s.tagAt (n + 1) := by
  change ((s.rob.head + 1) % s.cfg.robSize + n) % s.cfg.robSize = _
  rw [Nat.mod_add_mod, State.tagAt, Nat.add_assoc, Nat.add_comm 1]

section Retirement

variable {s : State} (hr : s.RingOk) (hs : s.Sized) (hb : (s.robAt s.rob.head).busy = true)
include hr hs hb

theorem count_pos_of_busy_head : 0 < s.rob.count := by
  obtain ⟨n, hn, -⟩ := (hr.busy_iff hs _).1 hb
  omega

omit hs in
/-- Behind the head retirement changes nothing; the head's own place becomes the last of the ring. -/
theorem nthEntry_retire {n : Nat} (hn : n < s.cfg.robSize) : (retire s).nthEntry n =
    if n + 1 = s.cfg.robSize then (s.nthEntry 0).retired s.cycle else s.nthEntry (n + 1) := by
  rw [State.nthEntry, tagAt_retire, robAt_retire hb]
  by_cases h : n + 1 = s.cfg.robSize
  · have hwrap : s.tagAt (n + 1) = s.rob.head := by
      rw [State.tagAt, h, Nat.add_mod_right]
      exact Nat.mod_eq_of_lt hr.head
    rw [if_pos hwrap, if_pos h, hwrap, State.nthEntry, hr.tagAt_zero]
  · have hne : s.tagAt (n + 1) ≠ s.rob.head := by
      rw [← hr.tagAt_zero]
      intro hcon
      have := hr.tagAt_inj (by omega) (by omega) hcon
      omega
    rw [if_neg hne, if_neg h]
    rfl

/-- Retirement takes the oldest place off the ring (40_engine_cycle.md R248). -/
theorem retire_ringOk : (retire s).RingOk := by
  have hpos := count_pos_of_busy_head hr hs hb
  have hcount : (retire s).rob.count = s.rob.count - 1 := rfl
  have hc := hr.count
  refine ⟨Nat.mod_lt _ hs.robSize_pos, ?_, ?_, ?_, ?_⟩
  · rw [hcount]
    change s.rob.count - 1 ≤ s.cfg.robSize
    omega
  · change s.rob.tail = ((s.rob.head + 1) % s.cfg.robSize + (s.rob.count - 1)) % s.cfg.robSize
    rw [hr.tail, Nat.mod_add_mod]
    congr 1
    omega
  · intro n hn
    change n < s.cfg.robSize at hn
    rw [nthEntry_retire hr hb hn, hcount]
    split
    · simp [RobEntry.retired]; omega
    · rw [hr.busy _ (by omega)]
      exact decide_eq_decide.2 (by omega)
  · intro n hn
    rw [hcount] at hn ⊢
    rw [nthEntry_retire hr hb (by omega), if_neg (by omega)]
    have := hr.seq (n + 1) (by omega)
    change _ = s.nextSeq + n
    omega

/-- The event of the head has the next sequence id (40_engine_cycle.md R249, R265). -/
theorem retire_eventsOk (he : s.EventsOk) : (retire s).EventsOk := by
  have hpos := count_pos_of_busy_head hr hs hb
  have hseq : (s.robAt s.rob.head).seq = s.events.length := by
    have h := hr.seq 0 hpos
    have hd := he.dense
    rw [State.nthEntry, hr.tagAt_zero] at h
    omega
  constructor
  · rw [retire_events hb]
    simp [he.inOrder, List.range_succ, commitEvent, hseq]
  · rw [retire_events hb]
    change s.nextSeq = (s.events ++ _).length + (s.rob.count - 1)
    have := he.dense
    simp
    omega

end Retirement

/-- What committing a register does before the head retires (40_engine_cycle.md R246, R247). -/
def written (s : State) : State :=
  let h := s.rob.head
  let e := s.robAt h
  let s1 := s.writeReg e.dest e.value
  { s1 with rat := s1.rat.settle e.dest h
            rob := { s1.rob with entries := s1.rob.entries.map (settleCheckpoint e.dest h) } }

theorem commitReg_eq (s : State) : commitReg s = retire (written s) := rfl

@[simp] theorem written_mem (s : State) : (written s).mem = s.mem := by simp [written]
@[simp] theorem written_rat (s : State) :
    (written s).rat = s.rat.settle (s.robAt s.rob.head).dest s.rob.head := by simp [written]
@[simp] theorem written_rs (s : State) : (written s).rs = s.rs := by simp [written]
@[simp] theorem written_pools (s : State) : (written s).pools = s.pools := by simp [written]
@[simp] theorem written_port (s : State) : (written s).port = s.port := by simp [written]
@[simp] theorem written_fault (s : State) : (written s).fault = s.fault := by simp [written]

theorem robAt_written (s : State) (u : Nat) : (written s).robAt u =
    settleCheckpoint (s.robAt s.rob.head).dest s.rob.head (s.robAt u) := by
  simp only [written, State.robAt, writeReg_rob, List.getElem?_map]
  cases h : s.rob.entries[u]? <;> simp [settleCheckpoint, RobEntry.free]

theorem placeKept_written (s : State) : s.PlaceKept (written s) where
  cfg := by simp [written]
  prog := by simp [written]
  cycle := by simp [written]
  robLength := by simp [written]
  tables k := by simp [written, State.table]
  btb := by simp [written]
  robSize := by simp [written]
  head := by simp [written]
  tail := by simp [written]
  count := by simp [written]
  nextSeq := by simp [written]
  events := by simp [written]
  busy u := by rw [robAt_written]; unfold settleCheckpoint; split <;> rfl
  seq u := by rw [robAt_written]; unfold settleCheckpoint; split <;> rfl

/-- What the last cycle of a store transaction does before the head retires (43_load_store.md R338). -/
def stored (s : State) : State :=
  let h := s.rob.head
  let e := s.robAt h
  let s2 := { s with mem := s.mem.write e.stAddr e.stData }.modifyTiming h (fun t => { t with memEnd := some s.cycle })
  { s2 with port := { s2.port with release := true } }.modifyTable .ls (List.map (leaveTable h))

theorem storeFinish_eq (s : State) : storeFinish s =
    if (s.robAt s.rob.head).busy then retire (stored s)
    else raiseFault (.invariantViolation .commit s.rob.head) s := by
  obtain ⟨hb, h⟩ | ⟨hb, s1, rfl, h⟩ := storeFinish_cases s
  · rw [h, if_neg (by simp [hb])]
  · rw [h, if_pos hb]
    rfl

@[simp] theorem stored_mem (s : State) :
    (stored s).mem = s.mem.write (s.robAt s.rob.head).stAddr (s.robAt s.rob.head).stData := rfl
@[simp] theorem stored_intRegs (s : State) : (stored s).intRegs = s.intRegs := rfl
@[simp] theorem stored_fpRegs (s : State) : (stored s).fpRegs = s.fpRegs := rfl
@[simp] theorem stored_rat (s : State) : (stored s).rat = s.rat := rfl
@[simp] theorem stored_pools (s : State) : (stored s).pools = s.pools := rfl
@[simp] theorem stored_fault (s : State) : (stored s).fault = s.fault := rfl
@[simp] theorem stored_port (s : State) : (stored s).port = { s.port with release := true } := rfl

theorem robAt_stored (s : State) (u : Nat) : (stored s).robAt u =
    (s.modifyTiming s.rob.head (fun t => { t with memEnd := some s.cycle })).robAt u := rfl

theorem station_stored (s : State) (k : FuClass) (i : Nat) : (stored s).station k i =
    if k = .ls then leaveTable s.rob.head (s.station k i) else s.station k i := by
  unfold State.station
  by_cases hk : k = .ls
  · subst hk
    have htable : (stored s).table .ls = (s.table .ls).map (leaveTable s.rob.head) := table_modifyTable_same _ _ _
    rw [htable, List.getElem?_map, if_pos rfl]
    cases (s.table .ls)[i]? with
    | some e => rfl
    | none =>
      change RsEntry.free = leaveTable s.rob.head RsEntry.free
      unfold leaveTable
      split <;> rfl
  · have htable : (stored s).table k = s.table k := table_modifyTable_other _ _ hk
    rw [htable, if_neg hk]

theorem placeKept_stored (s : State) : s.PlaceKept (stored s) :=
  (((placeKept_update s s.intRegs s.fpRegs _ s.rat).trans (robKept_modifyTiming _ _ _ rfl).placeKept).trans
    (robKept_port ..).placeKept).trans (robKept_modifyTable _ _ _ fun _ => List.length_map _).placeKept

/-- The first cycle of a store transaction takes the port (43_load_store.md R336). -/
def storeBegun (s : State) : State :=
  { s with port := { s.port with owner := .commit, remaining := s.cfg.memLat - 1 } }.modifyTiming s.rob.head
    (fun t => { t with memStart := some s.cycle })

/-- A later cycle of a store transaction counts down (43_load_store.md R337). -/
def storeCounted (s : State) : State := { s with port := { s.port with remaining := s.port.remaining - 1 } }

theorem storeCommitStart_eq (s : State) : storeCommitStart s =
    if (storeBegun s).port.remaining = 0 then storeFinish (storeBegun s) else storeBegun s := rfl

theorem storeCommitStep_eq (s : State) : storeCommitStep s =
    if (storeCounted s).port.remaining = 0 then storeFinish (storeCounted s) else storeCounted s := rfl

theorem robKept_storeBegun (s : State) : s.RobKept (storeBegun s) :=
  (robKept_port ..).trans (robKept_modifyTiming _ _ _ rfl)

theorem robKept_storeCounted (s : State) : s.RobKept (storeCounted s) := robKept_port ..

/-- Commit keeps sizes and order, or retires the head after something that does. -/
theorem commit_keeps_or_retires (s : State) :
    s.PlaceKept (commit s) ∨
    ∃ s1, s.PlaceKept s1 ∧ (s.robAt s.rob.head).busy = true ∧ commit s = retire s1 := by
  have hfinish : ∀ s1 : State, s.RobKept s1 → s.PlaceKept (storeFinish s1) ∨
      ∃ s2, s.PlaceKept s2 ∧ (s.robAt s.rob.head).busy = true ∧ storeFinish s1 = retire s2 := by
    intro s1 h1
    rw [storeFinish_eq]
    split
    · next hb => exact .inr ⟨_, h1.placeKept.trans (placeKept_stored s1), by rwa [h1.busy, h1.head] at hb, rfl⟩
    · exact .inl (h1.trans (robKept_raiseFault _ s1)).placeKept
  obtain h | ⟨f, h⟩ | ⟨-, h⟩ | ⟨-, -, hb, -, ⟨-, h⟩ | ⟨-, -, h⟩ | ⟨-, h⟩⟩ := commit_cases s <;> rw [h]
  · exact .inl (.refl s)
  · exact .inl (robKept_raiseFault f s).placeKept
  · rw [storeCommitStep_eq]
    split
    · exact hfinish _ (robKept_storeCounted s)
    · exact .inl (robKept_storeCounted s).placeKept
  · exact .inr ⟨_, placeKept_written s, hb, commitReg_eq s⟩
  · rw [storeCommitStart_eq]
    split
    · exact hfinish _ (robKept_storeBegun s)
    · exact .inl (robKept_storeBegun s).placeKept
  · exact .inr ⟨_, .refl s, hb, rfl⟩

theorem shapeKept_commit (s : State) : s.ShapeKept (commit s) := by
  obtain h | ⟨s1, h1, -, h⟩ := commit_keeps_or_retires s
  · exact h.toShapeKept
  · exact h ▸ h1.toShapeKept.trans (shapeKept_retire s1)

theorem commit_ringOk {s : State} (hr : s.RingOk) (hs : s.Sized) : (commit s).RingOk := by
  obtain h | ⟨s1, h1, hb, h⟩ := commit_keeps_or_retires s
  · exact hr.of_orderSame h.toOrderSame
  · rw [h]
    exact retire_ringOk (hr.of_orderSame h1.toOrderSame) (hs.of_shapeKept h1.toShapeKept)
      (by rw [h1.head, h1.busy, hb])

theorem commit_eventsOk {s : State} (hr : s.RingOk) (hs : s.Sized) (he : s.EventsOk) : (commit s).EventsOk := by
  obtain h | ⟨s1, h1, hb, h⟩ := commit_keeps_or_retires s
  · exact he.of_dense (h.toOrderSame.dense hr)
  · rw [h]
    exact retire_eventsOk (hr.of_orderSame h1.toOrderSame) (hs.of_shapeKept h1.toShapeKept)
      (by rw [h1.head, h1.busy, hb])
      (he.of_dense (h1.toOrderSame.dense hr))

/-! ### The end of the cycle and the step -/

theorem markDone_busy (e : RobEntry) : (markDone e).busy = e.busy := by unfold markDone; split <;> rfl

theorem markDone_seq (e : RobEntry) : (markDone e).seq = e.seq := by unfold markDone; split <;> rfl

theorem robAt_settleCycle (s : State) (u : Nat) : (settleCycle s).robAt u = markDone (s.robAt u) := by
  simp only [settleCycle, State.robAt, List.getElem?_map]
  cases h : s.rob.entries[u]? <;> simp [markDone, RobEntry.free]

theorem placeKept_settleCycle (s : State) : s.PlaceKept (settleCycle s) :=
  { State.PlaceKept.refl s with
    robLength := by simp [settleCycle]
    busy := fun u => by rw [robAt_settleCycle, markDone_busy]
    seq := fun u => by rw [robAt_settleCycle, markDone_seq] }

/-- The end of a cycle advances the clock after something that keeps sizes and order (40_engine_cycle.md R260). -/
theorem endOfCycle_eq (s : State) : endOfCycle s =
    { unlessFaulted settleCycle s with cycle := (unlessFaulted settleCycle s).cycle + 1 } := rfl

theorem placeKept_unlessFaulted_settleCycle (s : State) : s.PlaceKept (unlessFaulted settleCycle s) :=
  unlessFaulted_keeps s.PlaceKept _ (fun t _ h => h.trans (placeKept_settleCycle t)) (.refl s)

/-- The state at which issue leaves the cycle is `s`, `s` with `ILLEGAL_INSTRUCTION` raised, or `s` after an issue. -/
theorem step_from_issue {s t : State} (h : step s = .next t) :
    s.launchLegal = true ∧ ∃ u, t = restOfCycle u ∧
      (u = s ∨ (∃ w r, u = raiseIllegal w r s) ∨ (s.fault = none ∧ ∃ i, u = issue (issueForm i) s)) := by
  obtain ⟨hl, u, ht, ⟨-, hu⟩ | ⟨-, -, hu⟩ | ⟨w, r, -, -, hu⟩ | ⟨i, hf, -, hu⟩⟩ := step_cases h
  · exact ⟨hl, u, ht, .inl hu⟩
  · exact ⟨hl, u, ht, .inl hu⟩
  · exact ⟨hl, u, ht, .inr (.inl ⟨w, r, hu⟩)⟩
  · exact ⟨hl, u, ht, .inr (.inr ⟨by simpa [State.faulted] using hf, i, hu⟩)⟩

theorem shapeKept_issued {s u : State} (hu : u = s ∨ (∃ w r, u = raiseIllegal w r s) ∨
    (s.fault = none ∧ ∃ i, u = issue (issueForm i) s)) : s.ShapeKept u := by
  obtain rfl | ⟨w, r, rfl⟩ | ⟨-, i, rfl⟩ := hu
  · exact (State.PlaceKept.refl u).toShapeKept
  · exact (robKept_raiseFault _ s).toShapeKept
  · exact shapeKept_issue _ s

theorem issued_dense {s u : State} (hr : s.RingOk) (hs : s.Sized) (hu : u = s ∨ (∃ w r, u = raiseIllegal w r s) ∨
    (s.fault = none ∧ ∃ i, u = issue (issueForm i) s)) : s.Dense u := by
  obtain rfl | ⟨w, r, rfl⟩ | ⟨-, i, rfl⟩ := hu
  · exact (State.PlaceKept.refl u).toOrderSame.dense hr
  · exact (robKept_raiseFault _ s).orderSame.dense hr
  · exact issue_dense hr hs _

/-- The state of a cycle just before its end. -/
def beforeEnd (u : State) : State := unlessFaulted commit (executeAndWriteBack u)

theorem shapeKept_beforeEnd (u : State) : u.ShapeKept (beforeEnd u) :=
  unlessFaulted_keeps u.ShapeKept _ (fun t _ h => h.trans (shapeKept_commit t))
    (coreKept_executeAndWriteBack u).toShapeKept

/-- Settles O12: the shape, and with it the launch and the clock, is kept by every stage, and the end of the cycle
counts. -/
theorem everyStepCountsOneCycle : Obligations.EveryStepCountsOneCycle := by
  intro s hl
  obtain ⟨-, t, ht⟩ | ⟨hn, -⟩ := step_next_or_refused s
  · obtain ⟨-, u, htu, hu⟩ := step_from_issue ht
    have hkept := ((shapeKept_issued hu).trans (shapeKept_beforeEnd u)).trans
      (placeKept_unlessFaulted_settleCycle _).toShapeKept
    subst htu
    refine ⟨_, ht, ?_, hkept.cfg, hkept.prog⟩
    rw [restOfCycle_eq, endOfCycle_eq]
    exact congrArg (· + 1) hkept.cycle
  · rw [hl] at hn
    cases hn

/-- Settles O47: every stage keeps the ring in order and leaves no gap in the sequence ids, and a retirement emits the
event with the next id. -/
theorem ringAndSequenceKept : Obligations.RingAndSequenceKept := by
  intro s t hs hr he ht
  obtain ⟨-, u, rfl, hu⟩ := step_from_issue ht
  have hsu := hs.of_shapeKept (shapeKept_issued hu)
  have hdu := issued_dense hr hs hu
  have hsw := hsu.of_shapeKept (coreKept_executeAndWriteBack u).toShapeKept
  have hdw := hdu.trans (executeAndWriteBack_dense hdu.ring hsu)
  have hcommit : ∀ v : State, (v.Sized ∧ v.RingOk ∧ v.EventsOk) →
      (commit v).Sized ∧ (commit v).RingOk ∧ (commit v).EventsOk := fun v hv =>
    ⟨hv.1.of_shapeKept (shapeKept_commit v), commit_ringOk hv.2.1 hv.1, commit_eventsOk hv.2.1 hv.1 hv.2.2⟩
  obtain ⟨hsc, hrc, hec⟩ := unlessFaulted_keeps (fun v : State => v.Sized ∧ v.RingOk ∧ v.EventsOk) commit
    (fun v _ => hcommit v) ⟨hsw, hdw.ring, he.of_dense hdw⟩
  have hend := placeKept_unlessFaulted_settleCycle (beforeEnd u)
  have hs' := hsc.of_shapeKept hend.toShapeKept
  have hd' := hend.toOrderSame.dense hrc
  have he' := hec.of_dense hd'
  rw [restOfCycle_eq, endOfCycle_eq]
  exact ⟨⟨hs'.legal, hs'.rob, hs'.tables, hs'.btb⟩,
    ⟨hd'.ring.head, hd'.ring.count, hd'.ring.tail, hd'.ring.busy, hd'.ring.seq⟩, ⟨he'.inOrder, he'.dense⟩⟩

end Sys2Proof.Machine

/-! ## What a launch leaves (10_state.md R60) -/

namespace Sys2Proof.Machine

/-- A cell reads as what was last written to it (20_memory.md R101). -/
theorem read_write {m : Memory} (h : m.wf = true) (a v b : Word) :
    (m.write a v).read b = if b = a then v else m.read b := by
  unfold Memory.write
  split
  · next hv =>
    split
    · next hb => rw [hb, read_erase_same h, hv]
    · next hb => exact read_erase_other m fun hn => hb (BitVec.eq_of_toNat_eq hn.symm)
  · rw [read_insert]
    by_cases hb : b = a
    · simp [hb]
    · rw [if_neg hb, if_neg fun hn => hb (BitVec.eq_of_toNat_eq hn.symm)]

/-- The register writes of a launch (10_state.md R35). -/
def writeRegs (ps : List (Reg × Word)) (s : State) : State := ps.foldl (fun s p => s.writeReg p.1 p.2) s

/-- The memory writes of a launch (20_memory.md R102). -/
def writeCells (ps : List (Word × Word)) (m : Memory) : Memory := ps.foldl (fun m p => Memory.write m p.1 p.2) m

theorem writeRegs_eq (ps : List (Reg × Word)) (s : State) :
    ∃ ints fps, writeRegs ps s = { s with intRegs := ints, fpRegs := fps } := by
  induction ps generalizing s with
  | nil => exact ⟨_, _, rfl⟩
  | cons p ps ih =>
    obtain ⟨ints, fps, h⟩ := ih (s.writeReg p.1 p.2)
    refine ⟨ints, fps, h.trans ?_⟩
    cases p.1 <;> rfl

theorem readReg_writeRegs_of_notMem {ps : List (Reg × Word)} {r : Reg} (h : r ∉ ps.map Prod.fst) (s : State) :
    (writeRegs ps s).readReg r = s.readReg r := by
  induction ps generalizing s with
  | nil => rfl
  | cons p ps ih =>
    simp only [List.map_cons, List.mem_cons, not_or] at h
    exact (ih h.2 _).trans (by rw [readReg_writeReg, if_neg h.1])

theorem readReg_writeRegs_of_mem {ps : List (Reg × Word)} (hn : (ps.map Prod.fst).Nodup) {r : Reg} {v : Word}
    (h : (r, v) ∈ ps) (s : State) : (writeRegs ps s).readReg r = v := by
  induction ps generalizing s with
  | nil => cases h
  | cons p ps ih =>
    obtain ⟨hp, hn⟩ := List.nodup_cons.1 hn
    rcases List.mem_cons.1 h with rfl | h
    · exact (readReg_writeRegs_of_notMem hp _).trans (by rw [readReg_writeReg, if_pos rfl])
    · exact ih hn h _

theorem read_writeCells_of_notMem {ps : List (Word × Word)} {a : Word} (h : a ∉ ps.map Prod.fst) {m : Memory}
    (hm : m.wf = true) : (writeCells ps m).read a = m.read a := by
  induction ps generalizing m with
  | nil => rfl
  | cons p ps ih =>
    simp only [List.map_cons, List.mem_cons, not_or] at h
    exact (ih h.2 (write_wf hm _ _)).trans (by rw [read_write hm, if_neg h.1])

theorem read_writeCells_of_mem {ps : List (Word × Word)} (hn : (ps.map Prod.fst).Nodup) {a v : Word}
    (h : (a, v) ∈ ps) {m : Memory} (hm : m.wf = true) : (writeCells ps m).read a = v := by
  induction ps generalizing m with
  | nil => cases h
  | cons p ps ih =>
    obtain ⟨hp, hn⟩ := List.nodup_cons.1 hn
    rcases List.mem_cons.1 h with rfl | h
    · exact (read_writeCells_of_notMem hp (write_wf hm _ _)).trans (by rw [read_write hm, if_pos rfl])
    · exact ih hn h (write_wf hm _ _)

/-- A launch is the reset state of its configuration and program with the registers and cells of its maps. -/
theorem launch_eq (cfg : Config) (prog : List InstrWord) (arfInit : List (Reg × Word)) (memInit : List (Word × Word)) :
    State.launch cfg prog arfInit memInit =
      { writeRegs arfInit (State.blank cfg prog) with mem := writeCells memInit [] } := rfl

theorem blank_station (cfg : Config) (prog : List InstrWord) (c : FuClass) (i : Nat) :
    ((State.blank cfg prog).station c i).busy = false := by
  by_contra h
  have hlt := lt_length_of_station_busy (by simpa using h)
  have htable : (State.blank cfg prog).table c = List.replicate (cfg.rsCount.get c) RsEntry.free := by
    simp [State.table, State.blank]
  simp [State.station, htable, List.getElem?_replicate] at h
  split at h <;> simp [RsEntry.free] at h

theorem blank_robAt (cfg : Config) (prog : List InstrWord) (u : Nat) :
    ((State.blank cfg prog).robAt u).busy = false := by
  simp only [State.robAt, State.blank, List.getElem?_replicate]
  split <;> rfl

theorem blank_readReg (cfg : Config) (prog : List InstrWord) (r : Reg) :
    (State.blank cfg prog).readReg r = Config.arfUnset r := by
  cases r <;> simp [State.readReg, State.blank]

/-- Settles O44: the launch's maps leave everything but registers and memory as reset leaves it, and a map without
duplicates gives each register and cell it names its value. -/
theorem launchLeavesListedValues : Obligations.LaunchLeavesListedValues := by
  intro cfg prog arfInit memInit s hs harf hmem
  have hregs : ∀ r, s.readReg r = (writeRegs arfInit (State.blank cfg prog)).readReg r := by
    intro r; subst hs; cases r <;> rfl
  have hcells : s.mem = writeCells memInit [] := by subst hs; rfl
  obtain ⟨ints, fps, hw⟩ := writeRegs_eq arfInit (State.blank cfg prog)
  rw [launch_eq, hw] at hs
  refine ⟨?_, ?_, ?_, ?_, ?_, ?_, ?_, ?_, ?_, ?_, ?_, ?_, ?_, ?_, ?_, ?_, ?_, ?_⟩
  case refine_15 => exact fun r v h => (hregs r).trans (readReg_writeRegs_of_mem harf h _)
  case refine_16 =>
    exact fun r h => (hregs r).trans ((readReg_writeRegs_of_notMem h _).trans (blank_readReg cfg prog r))
  case refine_17 => exact fun a v h => hcells ▸ read_writeCells_of_mem hmem h rfl
  case refine_18 => exact fun a h => hcells ▸ (read_writeCells_of_notMem h rfl).trans rfl
  all_goals subst hs
  case refine_4 => exact lookup_allArf
  case refine_5 => exact blank_station cfg prog
  case refine_6 => exact blank_robAt cfg prog
  case refine_11 =>
    intro c p hp
    cases c <;> first | exact (Option.some.inj hp).symm | cases hp
  case refine_13 =>
    intro b hb
    rw [List.eq_of_mem_replicate hb]
    rfl
  all_goals rfl

end Sys2Proof.Machine

/-! ## The invariant in the middle of a cycle

`State.Running` is what `State.Inv` becomes between two stages of a cycle without a fault: units and port may be marked
for release, an entry may be complete and not yet done, and what happened in this cycle lies before the next one. It
speaks of busy entries by their tags, so that no stage but retirement has to follow the ring. -/

namespace Sys2Proof.Machine

/-- A ROB entry of an instruction in flight, in cycle `c`. -/
structure RobEntry.Good (c : Nat) (r : RobEntry) : Prop where
  kind : r.kind = r.op.kind
  done : r.done = true → r.complete = true
  nop : r.kind = .nop → r.complete = true
  issued : before r.timing.issue (c + 1) = true

/-- What the phase of a busy station says of its fields and of its ROB entry, in cycle `c` (10_state.md R43, R45). -/
def PhaseFits (c : Nat) (e : RsEntry) (r : RobEntry) : Prop :=
  match e.phase with
  | .waiting => e.addrValid = false
  | .executing => e.j.ready = true ∧ e.k.ready = true ∧ e.addrValid = false
  | .memWait => e.j.ready = true ∧ e.k.ready = true ∧ e.op = .ld ∧ e.addrValid = true
  | .memAccess => e.j.ready = true ∧ e.k.ready = true ∧ e.op = .ld ∧ e.addrValid = true
  | .resultReady => e.j.ready = true ∧ e.k.ready = true ∧ e.op.kind = .reg ∧ (e.op = .ld → e.addrValid = true) ∧
      before (readyCycle e r.timing) (c + 1) = true
  | .storeDone => e.j.ready = true ∧ e.k.ready = true ∧ e.op = .sd ∧ e.addrValid = true ∧ r.stAddr = e.addr ∧
      before r.timing.exEnd (c + 1) = true

/-- Station entry `e` of table `k` holds an instruction in flight. -/
structure State.Holds (s : State) (k : FuClass) (e : RsEntry) : Prop where
  inFlight : (s.robAt e.dest).busy = true
  op : (s.robAt e.dest).op = e.op
  table : e.op.fuClass = some k
  completes : (s.robAt e.dest).complete = decide (e.phase = .storeDone)
  slotJ : s.SlotOk e.dest e.j
  slotK : s.SlotOk e.dest e.k
  phase : PhaseFits s.cycle e (s.robAt e.dest)

/-- The entry holds a unit of its class. -/
def RsEntry.holdsUnit (e : RsEntry) : Bool := e.busy && decide (e.phase = .executing)

/-- The entry is a load in its memory phase. -/
def RsEntry.accessing (e : RsEntry) : Bool := e.busy && decide (e.phase = .memAccess)

/-- A pool counts the executing entries and the units to be given back. -/
def State.UnitsFit (s : State) : Prop :=
  ∀ k p n, s.pools.get? k = some p → s.cfg.fuCount.get? k = some n →
    p.busy = s.executingCount k + p.release ∧ p.busy ≤ n

/-- The port is held by the one load in its memory phase or by the store at the head, until it is marked for release. -/
structure State.PortFits (s : State) : Prop where
  access : ∀ i, (s.station .ls i).accessing = true → s.port.owner = .load i ∧ s.port.release = false
  load : ∀ i, s.port.owner = .load i → s.port.release = false → (s.station .ls i).accessing = true
  marked : s.port.release = true → ∃ i, s.port.owner = .load i
  idle : s.port.owner ≠ .commit → s.port.remaining = 0
  commit : s.port.owner = .commit → 0 < s.rob.count ∧
    (s.robAt s.rob.head).kind = .store ∧ (s.robAt s.rob.head).done = true ∧
    0 < s.port.remaining ∧ s.port.remaining < s.cfg.memLat

/-- The invariant between two stages, without the countdowns and without what must sit in a station. -/
structure State.Mid (s : State) : Prop where
  sized : s.Sized
  ring : s.RingOk
  rat : s.RenamingOk
  noFault : s.fault = none
  mem : s.mem.wf = true
  entries : ∀ t, (s.robAt t).busy = true → (s.robAt t).Good s.cycle
  stations : ∀ k i, (s.station k i).busy = true → s.Holds k (s.station k i)
  unique : ∀ k i k' i', (s.station k i).busy = true → (s.station k' i').busy = true →
    (s.station k i).dest = (s.station k' i').dest → k = k' ∧ i = i'
  units : s.UnitsFit
  port : s.PortFits

/-- Every instruction with a sequence id in `ids` that is not complete, and every store, is in a station. -/
def State.Stationed (s : State) (ids : Nat → Prop) : Prop :=
  ∀ t, (s.robAt t).busy = true → ids (s.robAt t).seq →
    (s.robAt t).complete = false ∨ (s.robAt t).kind = .store →
    ∃ k i, (s.station k i).busy = true ∧ (s.station k i).dest = t

/-- The countdown of an entry that executes or accesses memory runs. -/
def RsEntry.Counts (c : Config) (k : FuClass) (e : RsEntry) : Prop :=
  e.busy = true →
    (e.phase = .executing → 0 < e.remaining ∧ e.remaining < Config.latency c k) ∧
    (e.phase = .memAccess → 0 < e.remaining ∧ e.remaining < c.memLat)

/-- Every countdown runs, but perhaps that of an exempted station. -/
def State.CountingBut (s : State) (exempt : FuClass → Nat → Prop) : Prop :=
  ∀ k i, ¬ exempt k i → (s.station k i).Counts s.cfg k

/-- The whole invariant between two stages of a cycle without a fault. -/
structure State.Running (s : State) : Prop extends s.Mid where
  stationed : s.Stationed (fun _ => True)
  counting : s.CountingBut (fun _ _ => False)

/-! ### The beginning of a cycle -/

theorem before_succ {x : Option Nat} {c : Nat} (h : before x c = true) : before x (c + 1) = true := by
  cases x with
  | none => cases h
  | some n => simp only [before, decide_eq_true_eq] at h ⊢; omega

theorem before_now (c : Nat) : before (some c) (c + 1) = true := by simp [before]

theorem State.PhaseOk.fits {s : State} {k : FuClass} {i : Nat} (h : s.PhaseOk k i) :
    PhaseFits s.cycle (s.station k i) (s.robAt (s.station k i).dest) := by
  unfold State.PhaseOk at h
  unfold PhaseFits
  cases hp : (s.station k i).phase <;> simp only [hp] at h ⊢
  case waiting => exact h
  case executing => exact ⟨h.1, h.2.1, h.2.2.1⟩
  case memWait => exact h
  case memAccess => exact ⟨h.1, h.2.1, h.2.2.1, h.2.2.2.1⟩
  case resultReady =>
    obtain ⟨hj, hk, hop, ha, hr⟩ := h
    exact ⟨hj, hk, hop, ha, before_succ hr⟩
  case storeDone =>
    obtain ⟨hj, hk, hop, ha, hst, hx⟩ := h
    exact ⟨hj, hk, hop, ha, hst, before_succ hx⟩

theorem State.PhaseOk.counts {s : State} {k : FuClass} {i : Nat} (h : s.PhaseOk k i) :
    (s.station k i).Counts s.cfg k := by
  intro _
  unfold State.PhaseOk at h
  refine ⟨fun hp => ?_, fun hp => ?_⟩ <;> simp only [hp] at h
  · exact h.2.2.2
  · exact h.2.2.2.2.2

/-- At a cycle boundary without a fault the invariant holds in the form it has between stages. -/
theorem State.Inv.running {s : State} (h : s.Inv) (hf : s.fault = none) : s.Running where
  sized := h.sized
  ring := h.ring
  rat := h.rat
  noFault := hf
  mem := h.mem
  entries t ht := by
    obtain ⟨n, hn, rfl⟩ := (h.ring.busy_iff h.sized t).1 ht
    exact ⟨h.entries.kind n hn, fun hd => (h.entries.done n hn).symm.trans hd, h.entries.nop n hn,
      before_succ (h.entries.issued n hn)⟩
  stations k i hb := by
    obtain ⟨hop, htab⟩ := h.stations.sameOp k i hb
    obtain ⟨hj, hk⟩ := h.stations.slots k i hb
    exact ⟨h.stations.inFlight k i hb, hop, htab, h.stations.completes k i hb, hj, hk, (h.stations.phase k i hb).fits⟩
  unique := h.stations.unique
  units k p n hp hn := by
    obtain ⟨hrel, hbusy, hle⟩ := h.pools k p n hp hn
    exact ⟨by omega, hle⟩
  port :=
    { access := fun i hi => by
        simp only [RsEntry.accessing, Bool.and_eq_true, decide_eq_true_eq] at hi
        have hphase := h.stations.phase .ls i hi.1
        simp only [State.PhaseOk, hi.2] at hphase
        exact ⟨hphase.2.2.2.2.1, h.port.release⟩
      load := fun i hi _ => by
        obtain ⟨hb, hp⟩ := h.port.load i hi
        simp [RsEntry.accessing, hb, hp]
      marked := fun hm => absurd (h.port.release.symm.trans hm) (by simp)
      idle := h.port.idle
      commit := fun hc => by
        obtain ⟨hpos, hk, hd, hrem⟩ := h.port.commit hc
        rw [State.nthEntry, h.ring.tagAt_zero] at hk hd
        exact ⟨hpos, hk, hd, hrem⟩ }
  stationed t ht _ hc := by
    obtain ⟨n, hn, rfl⟩ := (h.ring.busy_iff h.sized t).1 ht
    exact h.stations.present n hn hc
  counting k i _ hb := (h.stations.phase k i hb).counts hb

/-! ### The end of a cycle -/

theorem phaseOk_of_fits {s t : State} {k : FuClass} {i : Nat} (hst : t.station k i = s.station k i)
    (hcfg : t.cfg = s.cfg) (hcycle : t.cycle = s.cycle + 1) (hb : (s.station k i).busy = true)
    (hfits : PhaseFits s.cycle (s.station k i) (s.robAt (s.station k i).dest))
    (htiming : (t.robAt (s.station k i).dest).timing = (s.robAt (s.station k i).dest).timing)
    (hstAddr : (t.robAt (s.station k i).dest).stAddr = (s.robAt (s.station k i).dest).stAddr)
    (hcounts : (s.station k i).Counts s.cfg k)
    (howner : (s.station k i).phase = .memAccess → t.port.owner = .load i) : t.PhaseOk k i := by
  unfold PhaseFits at hfits
  obtain ⟨hexec, hacc⟩ := hcounts hb
  unfold State.PhaseOk
  rw [hst]
  cases hp : (s.station k i).phase <;> simp only [hp] at hfits ⊢
  case waiting => exact hfits
  case executing => exact ⟨hfits.1, hfits.2.1, hfits.2.2, hcfg ▸ hexec hp⟩
  case memWait => exact hfits
  case memAccess => exact ⟨hfits.1, hfits.2.1, hfits.2.2.1, hfits.2.2.2, howner hp, hcfg ▸ hacc hp⟩
  case resultReady => rw [htiming, hcycle]; exact hfits
  case storeDone => rw [htiming, hstAddr, hcycle]; exact hfits

@[simp] theorem markDone_kind (e : RobEntry) : (markDone e).kind = e.kind := by unfold markDone; split <;> rfl
@[simp] theorem markDone_op (e : RobEntry) : (markDone e).op = e.op := by unfold markDone; split <;> rfl
@[simp] theorem markDone_dest (e : RobEntry) : (markDone e).dest = e.dest := by unfold markDone; split <;> rfl
@[simp] theorem markDone_complete (e : RobEntry) : (markDone e).complete = e.complete := by
  unfold markDone; split <;> rfl
@[simp] theorem markDone_ckpt (e : RobEntry) : (markDone e).ckpt = e.ckpt := by unfold markDone; split <;> rfl
@[simp] theorem markDone_timing (e : RobEntry) : (markDone e).timing = e.timing := by unfold markDone; split <;> rfl
@[simp] theorem markDone_stAddr (e : RobEntry) : (markDone e).stAddr = e.stAddr := by unfold markDone; split <;> rfl

/-- At the end of the cycle a busy entry is done exactly when it is complete (40_engine_cycle.md R260). -/
theorem RobEntry.Good.markDone_done {c : Nat} {e : RobEntry} (h : e.Good c) (hb : e.busy = true) :
    (markDone e).done = e.complete := by
  unfold markDone
  cases hc : e.complete
  · cases hd : e.done
    · simp [hd]
    · exact absurd (h.done hd) (by simp [hc])
  · simp [hb]

theorem youngestWriter_succ (s : State) (r : Reg) (n : Nat) : s.youngestWriter r (n + 1) =
    if (s.nthEntry n).kind = .reg ∧ (s.nthEntry n).dest = r then .rob (s.tagAt n) else s.youngestWriter r n := rfl

/-- The youngest writer depends on the kinds and destinations of the places before it alone. -/
theorem youngestWriter_congr {s t : State} (r : Reg) (n : Nat) (htag : ∀ m < n, t.tagAt m = s.tagAt m)
    (hkind : ∀ m < n, (t.nthEntry m).kind = (s.nthEntry m).kind)
    (hdest : ∀ m < n, (t.nthEntry m).dest = (s.nthEntry m).dest) :
    t.youngestWriter r n = s.youngestWriter r n := by
  induction n with
  | zero => rfl
  | succ n ih =>
    have hrec := ih (fun m hm => htag m (by omega)) (fun m hm => hkind m (by omega)) (fun m hm => hdest m (by omega))
    simp only [State.youngestWriter, htag n (by omega), hkind n (by omega), hdest n (by omega), hrec]

/-- Entries of the same instructions under the same ring are renamed alike. -/
theorem State.RenamingOk.of_same {s t : State} (h : s.RenamingOk) (horder : s.OrderSame t) (hrat : t.rat = s.rat)
    (hkind : ∀ u, (t.robAt u).kind = (s.robAt u).kind) (hdest : ∀ u, (t.robAt u).dest = (s.robAt u).dest)
    (hckpt : ∀ u, (t.robAt u).ckpt = (s.robAt u).ckpt) : t.RenamingOk := by
  have hnth : ∀ n, t.nthEntry n = t.robAt (s.tagAt n) := fun n => by rw [State.nthEntry, horder.tagAt]
  have hyw : ∀ r n, t.youngestWriter r n = s.youngestWriter r n := fun r n =>
    youngestWriter_congr r n (fun m _ => horder.tagAt m) (fun m _ => by rw [hnth, hkind]; rfl)
      (fun m _ => by rw [hnth, hdest]; rfl)
  refine ⟨fun r => ?_, fun n hn hk r => ?_⟩
  · rw [hrat, horder.count, hyw]
    exact h.rat r
  · rw [hnth, hckpt, hyw]
    rw [hnth, hkind] at hk
    exact h.ckpt n (horder.count ▸ hn) hk r

/-- What every fault-free cycle ends with (40_engine_cycle.md R260): the port, if it was marked, is free before the rest
of the end of the cycle. -/
theorem endOfCycle_of_noFault {s : State} (hf : s.fault = none) : endOfCycle s =
    { settleCycle { s with port := s.port.settle } with cycle := s.cycle + 1 } := by
  have hidem : s.port.settle.settle = s.port.settle := by
    unfold Port.settle
    split
    · rfl
    · simp
  rw [endOfCycle_eq, unlessFaulted_of_none _ hf]
  simp [settleCycle, hidem]

theorem get?_map_pools {α β : Type} (f : α → β) (m : PoolMap α) (k : FuClass) :
    (m.map f).get? k = (m.get? k).map f := by
  cases k <;> rfl

/-- A stage that leaves pools and units alone keeps the account of them. -/
theorem State.UnitsFit.of_same {s t : State} (h : s.UnitsFit) (hcfg : t.cfg = s.cfg) (hpools : t.pools = s.pools)
    (hcount : ∀ k, t.executingCount k = s.executingCount k) : t.UnitsFit := by
  intro k p n hp hn
  rw [hpools] at hp
  rw [hcfg] at hn
  rw [hcount]
  exact h k p n hp hn

/-- A stage that leaves the port and the loads in their memory phase alone has to account for the head only. -/
theorem State.PortFits.of_same {s t : State} (h : s.PortFits) (hport : t.port = s.port)
    (hacc : ∀ i, (t.station .ls i).accessing = (s.station .ls i).accessing)
    (hcommit : s.port.owner = .commit → 0 < t.rob.count ∧ (t.robAt t.rob.head).kind = .store ∧
      (t.robAt t.rob.head).done = true ∧ 0 < s.port.remaining ∧ s.port.remaining < t.cfg.memLat) : t.PortFits where
  access i hi := by rw [hport]; exact h.access i (hacc i ▸ hi)
  load i hi hr := by rw [hport] at hi hr; rw [hacc]; exact h.load i hi hr
  marked := hport ▸ h.marked
  idle := hport ▸ h.idle
  commit hc := by rw [hport] at hc ⊢; exact hcommit hc

theorem State.PortFits.of_robKept {s t : State} (h : s.PortFits) (hk : s.RobKept t) (hport : t.port = s.port)
    (hacc : ∀ i, (t.station .ls i).accessing = (s.station .ls i).accessing) : t.PortFits :=
  h.of_same hport hacc fun hc => by
    rw [hk.count, hk.head, (hk.entry _).kind, (hk.entry _).done, hk.cfg]
    exact h.commit hc

/-- Releasing the port takes nothing from the invariant between stages. -/
theorem State.PortFits.settle {s : State} (h : s.PortFits) : State.PortFits { s with port := s.port.settle } := by
  cases hrel : s.port.release
  · have : s.port.settle = s.port := by simp [Port.settle, hrel]
    rw [this]
    exact h
  · have hfree : s.port.settle = ⟨.none, 0, false⟩ := by simp [Port.settle, hrel]
    rw [hfree]
    refine ⟨fun i hi => ?_, fun i hi => (by cases hi), fun hm => (by cases hm), fun _ => rfl, fun hc => (by cases hc)⟩
    exact absurd (h.access i hi).2 (by simp [hrel])

/-- Stages that leave the instructions in flight where they are keep sizes, ring, renaming and memory. -/
theorem State.Mid.of_kept {s t : State} (h : s.Mid) (kept : s.RobKept t) (hf : t.fault = s.fault)
    (entries : ∀ u, (t.robAt u).busy = true → (t.robAt u).Good t.cycle)
    (stations : ∀ k i, (t.station k i).busy = true → t.Holds k (t.station k i))
    (unique : ∀ k i k' i', (t.station k i).busy = true → (t.station k' i').busy = true →
      (t.station k i).dest = (t.station k' i').dest → k = k' ∧ i = i')
    (units : t.UnitsFit) (port : t.PortFits) : t.Mid where
  sized := h.sized.of_shapeKept kept.toShapeKept
  ring := h.ring.of_orderSame kept.orderSame
  rat := h.rat.of_same kept.orderSame kept.rat (fun u => (kept.entry u).kind) (fun u => (kept.entry u).dest)
    (fun u => (kept.entry u).ckpt)
  noFault := hf.trans h.noFault
  mem := kept.mem ▸ h.mem
  entries := entries
  stations := stations
  unique := unique
  units := units
  port := port

/-- The port alone has no part in the invariant but `PortFits`. -/
theorem State.Running.withPort {s : State} (h : s.Running) {p : Port} (hp : State.PortFits { s with port := p }) :
    State.Running { s with port := p } where
  toMid := h.toMid.of_kept (robKept_port s _) rfl h.entries
    (fun k i hb => let hs := h.stations k i hb
      ⟨hs.inFlight, hs.op, hs.table, hs.completes, hs.slotJ, hs.slotK, hs.phase⟩) h.unique h.units hp
  stationed := h.stationed
  counting := h.counting

section Boundary

variable {s : State} (h : s.Running) (hrel : s.port.release = false)
include h

/-- The state after the registered effects of the end of the cycle. -/
def boundary (s : State) : State := { settleCycle s with cycle := s.cycle + 1 }

omit h in
theorem robAt_boundary (s : State) (u : Nat) : (boundary s).robAt u = markDone (s.robAt u) := robAt_settleCycle s u

omit h in
theorem nthEntry_boundary (s : State) (n : Nat) : (boundary s).nthEntry n = markDone (s.nthEntry n) :=
  robAt_settleCycle s _

omit h in
theorem slotOk_boundary {u : Nat} {v : Slot} (hv : s.SlotOk u v) : (boundary s).SlotOk u v := by
  cases v with
  | resolved _ => trivial
  | pending t =>
    obtain ⟨hb, hk, hc, hs⟩ := hv
    simp only [State.SlotOk, robAt_boundary, markDone_busy, markDone_kind, markDone_complete, markDone_seq]
    exact ⟨hb, hk, hc, hs⟩

theorem nthEntry_good {n : Nat} (hn : n < s.rob.count) :
    (s.nthEntry n).Good s.cycle ∧ (s.nthEntry n).busy = true := by
  have hb := (h.ring.busy_iff h.sized _).2 ⟨n, hn, rfl⟩
  exact ⟨h.entries _ hb, hb⟩

theorem boundary_entriesOk : (boundary s).EntriesOk where
  kind n hn := by simpa [nthEntry_boundary] using (nthEntry_good h hn).1.kind
  done n hn := by
    obtain ⟨hg, hb⟩ := nthEntry_good h hn
    rw [nthEntry_boundary, hg.markDone_done hb, markDone_complete]
  nop n hn := by simpa [nthEntry_boundary] using (nthEntry_good h hn).1.nop
  issued n hn := by rw [nthEntry_boundary, markDone_timing]; exact (nthEntry_good h hn).1.issued

theorem boundary_stationsOk : (boundary s).StationsOk where
  inFlight k i hb := by rw [robAt_boundary, markDone_busy]; exact (h.stations k i hb).inFlight
  sameOp k i hb := by
    rw [robAt_boundary, markDone_op]
    exact ⟨(h.stations k i hb).op, (h.stations k i hb).table⟩
  completes k i hb := by rw [robAt_boundary, markDone_complete]; exact (h.stations k i hb).completes
  unique := h.unique
  slots k i hb := ⟨slotOk_boundary (h.stations k i hb).slotJ, slotOk_boundary (h.stations k i hb).slotK⟩
  phase k i hb := by
    refine phaseOk_of_fits (s := s) rfl rfl rfl hb (h.stations k i hb).phase (by simp [robAt_boundary])
      (by simp [robAt_boundary]) (h.counting k i id) fun hp => ?_
    have hk : k = .ls := by
      have hfits := (h.stations k i hb).phase
      have htab := (h.stations k i hb).table
      simp only [PhaseFits, hp] at hfits
      rw [hfits.2.2.1] at htab
      exact (Option.some.inj htab).symm
    subst hk
    obtain ⟨howner, hrel⟩ := h.port.access i (by
      change (s.station .ls i).busy = true at hb
      simp [RsEntry.accessing, hb, hp])
    change s.port.settle.owner = _
    simpa [Port.settle, hrel] using howner
  present n hn hc := by
    simp only [nthEntry_boundary, markDone_complete, markDone_kind] at hc
    exact h.stationed _ (nthEntry_good h hn).2 trivial hc

theorem boundary_poolsOk : (boundary s).PoolsOk := by
  intro k p n hp hn
  have hsettle : (s.pools.get? k).map Pool.settle = some p := by
    rw [← get?_map_pools]
    exact hp
  obtain ⟨q, hq, rfl⟩ := Option.map_eq_some_iff.1 hsettle
  obtain ⟨hbusy, hle⟩ := h.units k q n hq hn
  refine ⟨rfl, ?_, (Nat.sub_le _ _).trans hle⟩
  change q.busy - q.release = s.executingCount k
  omega

include hrel

theorem boundary_portOk : (boundary s).PortOk := by
  have hport : (boundary s).port = s.port := by simp [boundary, settleCycle, Port.settle, hrel]
  refine ⟨hport ▸ hrel, hport ▸ h.port.idle, ?_, ?_, rfl⟩
  · intro i hi
    rw [hport] at hi
    have hacc := h.port.load i hi hrel
    simp only [RsEntry.accessing, Bool.and_eq_true, decide_eq_true_eq] at hacc
    exact hacc
  · intro hc
    rw [hport] at hc ⊢
    obtain ⟨hpos, hk, hd, hrem⟩ := h.port.commit hc
    obtain ⟨hg, hb⟩ := nthEntry_good h hpos
    rw [nthEntry_boundary, markDone_kind, hg.markDone_done hb, State.nthEntry, h.ring.tagAt_zero]
    rw [State.nthEntry, h.ring.tagAt_zero] at hg
    exact ⟨hpos, hk, hg.done hd, hrem⟩

/-- The registered effects of the end of the cycle, and the advanced clock, turn the invariant between stages into the
invariant of the boundary. -/
theorem boundary_inv : (boundary s).Inv := by
  have hkept := placeKept_settleCycle s
  have hs := h.sized.of_shapeKept hkept.toShapeKept
  have hr := h.ring.of_orderSame hkept.toOrderSame
  have hrat : (boundary s).RenamingOk := h.rat.of_same ⟨rfl, rfl, rfl, rfl, rfl, rfl, hkept.busy, hkept.seq⟩ rfl
    (fun u => by rw [robAt_boundary, markDone_kind]) (fun u => by rw [robAt_boundary, markDone_dest])
    (fun u => by rw [robAt_boundary, markDone_ckpt])
  exact ⟨⟨hs.legal, hs.rob, hs.tables, hs.btb⟩, ⟨hr.head, hr.count, hr.tail, hr.busy, hr.seq⟩,
    boundary_entriesOk h, hrat, boundary_stationsOk h, boundary_poolsOk h, boundary_portOk h hrel,
    fun f hf => absurd (h.noFault.symm.trans hf) (by simp), h.mem⟩

end Boundary

/-- The end of the cycle turns the invariant between stages, with the port settled, into the invariant of the
boundary. -/
theorem endOfCycle_inv {s : State} (h : State.Running { s with port := s.port.settle }) : (endOfCycle s).Inv := by
  rw [endOfCycle_of_noFault (s := s) h.noFault]
  refine boundary_inv h ?_
  cases hrel : s.port.release <;> simp [Port.settle, hrel]

/-- A cycle in which nothing happens but the clock, perhaps with `ILLEGAL_INSTRUCTION` raised, keeps the invariant. -/
theorem State.Inv.counted {s : State} (h : s.Inv) (f : Option EngineFault)
    (hf : ∀ e, f = some e → ∃ pc w r, e = .illegalInstruction pc w r) :
    State.Inv { s with cycle := s.cycle + 1, fault := f } where
  sized := ⟨h.sized.legal, h.sized.rob, h.sized.tables, h.sized.btb⟩
  ring := ⟨h.ring.head, h.ring.count, h.ring.tail, h.ring.busy, h.ring.seq⟩
  entries := ⟨h.entries.kind, h.entries.done, h.entries.nop, fun n hn => before_succ (h.entries.issued n hn)⟩
  rat := h.rat.of_same ⟨rfl, rfl, rfl, rfl, rfl, rfl, fun _ => rfl, fun _ => rfl⟩ rfl (fun _ => rfl) (fun _ => rfl)
    (fun _ => rfl)
  stations :=
    { h.stations with
      phase := fun k i hb => phaseOk_of_fits (s := s) rfl rfl rfl hb (h.stations.phase k i hb).fits rfl rfl
        (h.stations.phase k i hb).counts fun hp => by
          have hphase := h.stations.phase k i hb
          simp only [State.PhaseOk, hp] at hphase
          exact hphase.2.2.2.2.1 }
  pools := h.pools
  port := ⟨h.port.release, h.port.idle, h.port.load, h.port.commit, h.port.cdb⟩
  fault := hf
  mem := h.mem

end Sys2Proof.Machine

/-! ## Execute keeps the invariant between stages: visits without a squash -/

namespace Sys2Proof.Machine

/-! ### Counting units -/

theorem executingCount_eq (s : State) (k : FuClass) : s.executingCount k = (s.table k).countP RsEntry.holdsUnit := rfl

theorem getElem?_table (s : State) (k : FuClass) {i : Nat} (h : i < (s.table k).length) :
    (s.table k)[i]? = some (s.station k i) := by
  simp [State.station, h]

/-- Tables that agree entry by entry on who holds a unit count alike. -/
theorem executingCount_congr {s t : State} {k : FuClass} (hl : (t.table k).length = (s.table k).length)
    (h : ∀ i, (t.station k i).holdsUnit = (s.station k i).holdsUnit) : t.executingCount k = s.executingCount k := by
  have hmap : (t.table k).map RsEntry.holdsUnit = (s.table k).map RsEntry.holdsUnit := by
    refine List.ext_getElem? fun i => ?_
    rw [List.getElem?_map, List.getElem?_map]
    by_cases hi : i < (s.table k).length
    · rw [getElem?_table s k hi, getElem?_table t k (hl ▸ hi), Option.map_some, Option.map_some, h]
    · rw [List.getElem?_eq_none (by omega), List.getElem?_eq_none (by omega)]
  have hcount : ∀ l : List RsEntry, l.countP RsEntry.holdsUnit = (l.map RsEntry.holdsUnit).countP id := by
    intro l
    rw [List.countP_map]
    rfl
  rw [executingCount_eq, executingCount_eq, hcount, hcount, hmap]

/-- Changing one station changes the count by what it held before and holds now. -/
theorem executingCount_set {s t : State} {k : FuClass} {i : Nat} {e : RsEntry} (hi : i < (s.table k).length)
    (hl : (t.table k).length = (s.table k).length)
    (h : ∀ m, t.station k m = if m = i then e else s.station k m) :
    t.executingCount k + (s.station k i).holdsUnit.toNat = s.executingCount k + e.holdsUnit.toNat := by
  have htable : t.table k = (s.table k).set i e := by
    refine List.ext_getElem? fun m => ?_
    rw [List.getElem?_set]
    by_cases hm : m < (s.table k).length
    · rw [getElem?_table t k (hl ▸ hm), h]
      by_cases hmi : m = i
      · subst hmi; simp [hm]
      · simp [hmi, Ne.symm hmi, getElem?_table s k hm]
    · rw [List.getElem?_eq_none (by omega), if_neg (by omega), List.getElem?_eq_none (by omega)]
  have hget : (s.table k)[i] = s.station k i :=
    Option.some.inj ((List.getElem?_eq_getElem hi).symm.trans (getElem?_table s k hi))
  have hpos : (s.station k i).holdsUnit = true → 0 < (s.table k).countP RsEntry.holdsUnit := fun hh =>
    List.countP_pos_iff.2 ⟨_, hget ▸ List.getElem_mem hi, hh⟩
  rw [executingCount_eq, executingCount_eq, htable, List.countP_set hi, hget]
  cases hold : (s.station k i).holdsUnit <;> cases hnew : e.holdsUnit <;> simp
  · have := hpos hold
    omega
  · have := hpos hold
    omega

theorem get?_modify_pools {α : Type} (m : PoolMap α) (k c : FuClass) (f : α → α) :
    (m.modify k f).get? c = if c = k then (m.get? c).map f else m.get? c := by
  cases k <;> cases c <;> rfl

/-! ### One visit -/

/-- `t` is `s` after some part of a visit to station `(k, i)`: only that entry, now `e`, the ROB entry of its
instruction,
now `r`, units, port and BTB may differ. -/
structure State.Visited (s t : State) (k : FuClass) (i : Nat) (e : RsEntry) (r : RobEntry) : Prop where
  kept : s.RobKept t
  fault : t.fault = s.fault
  stations : ∀ c m, t.station c m = if c = k ∧ m = i then e else s.station c m
  entries : ∀ u, t.robAt u = if u = (s.station k i).dest then r else s.robAt u
  dest : e.dest = (s.station k i).dest
  op : e.op = (s.station k i).op
  slotJ : e.j = (s.station k i).j
  slotK : e.k = (s.station k i).k

theorem State.Visited.station {s t : State} {k : FuClass} {i : Nat} {e : RsEntry} {r : RobEntry}
    (h : s.Visited t k i e r) : t.station k i = e := by rw [h.stations, if_pos ⟨rfl, rfl⟩]

theorem State.Visited.entry {s t : State} {k : FuClass} {i : Nat} {e : RsEntry} {r : RobEntry}
    (h : s.Visited t k i e r) : t.robAt (s.station k i).dest = r := by rw [h.entries, if_pos rfl]

theorem State.Visited.trans {s t v : State} {k : FuClass} {i : Nat} {e e' : RsEntry} {r r' : RobEntry}
    (h : s.Visited t k i e r) (h' : t.Visited v k i e' r') : s.Visited v k i e' r' where
  kept := h.kept.trans h'.kept
  fault := h'.fault.trans h.fault
  stations c m := by
    rw [h'.stations, h.stations]
    split <;> rfl
  entries u := by
    rw [h'.entries, h.entries, h.station, h.dest]
    split <;> rfl
  dest := by rw [h'.dest, h.station, h.dest]
  op := by rw [h'.op, h.station, h.op]
  slotJ := by rw [h'.slotJ, h.station, h.slotJ]
  slotK := by rw [h'.slotK, h.station, h.slotK]

theorem visited_update (s : State) (k : FuClass) (i : Nat) (pools : PoolMap Pool) (port : Port) (btb : List BtbEntry)
    (hb : btb.length = s.btb.length) :
    s.Visited { s with pools := pools, port := port, btb := btb } k i (s.station k i)
      (s.robAt (s.station k i).dest) where
  kept := robKept_update s pools port btb s.cdb s.fault s.pc hb
  fault := rfl
  stations c m := by
    change s.station c m = _
    split
    · next h => rw [h.1, h.2]
    · rfl
  entries u := by
    change s.robAt u = _
    split
    · next h => rw [h]
    · rfl
  dest := rfl
  op := rfl
  slotJ := rfl
  slotK := rfl

theorem State.Visited.refl (s : State) (k : FuClass) (i : Nat) :
    s.Visited s k i (s.station k i) (s.robAt (s.station k i).dest) := visited_update s k i s.pools s.port s.btb rfl

section Parts

variable {s t : State} {k : FuClass} {i : Nat} {e : RsEntry} {r : RobEntry} (hv : s.Visited t k i e r)
include hv

theorem State.Visited.entry_eq : t.robAt (t.station k i).dest = r := by rw [hv.station, hv.dest, hv.entry]

theorem State.Visited.update (pools : PoolMap Pool) (port : Port) (btb : List BtbEntry)
    (hb : btb.length = t.btb.length) :
    s.Visited { t with pools := pools, port := port, btb := btb } k i e r := by
  have h := hv.trans (visited_update t k i pools port btb hb)
  rwa [hv.entry_eq, hv.station] at h

theorem State.Visited.modifyStation (hb : e.busy = true) (f : RsEntry → RsEntry) (hd : (f e).dest = e.dest)
    (ho : (f e).op = e.op) (hj : (f e).j = e.j) (hk : (f e).k = e.k) :
    s.Visited (t.modifyStation k i f) k i (f e) r := by
  have hstep : t.Visited (t.modifyStation k i f) k i (f e) r :=
    { kept := robKept_modifyStation ..
      fault := rfl
      stations := fun c m => by
        rw [station_modifyStation]
        by_cases h : c = k ∧ m = i
        · obtain ⟨rfl, rfl⟩ := h
          have hlt : m < (t.table c).length := lt_length_of_station_busy (by rw [hv.station, hb])
          simp [hlt, hv.station]
        · rw [if_neg fun hc => h ⟨hc.1, hc.2.1⟩, if_neg h]
      entries := fun u => by
        change t.robAt u = _
        split
        · next h => rw [h, hv.entry_eq]
        · rfl
      dest := by rw [hd, hv.station]
      op := by rw [ho, hv.station]
      slotJ := by rw [hj, hv.station]
      slotK := by rw [hk, hv.station] }
  exact hv.trans hstep

theorem State.Visited.modifyRob (hb : r.busy = true) (g : RobEntry → RobEntry) (hg : r.SameInstr (g r))
    (hgb : (g r).busy = r.busy) : s.Visited (t.modifyRob (s.station k i).dest g) k i e (g r) := by
  have hentry := hv.entry
  have hstep : t.Visited (t.modifyRob (s.station k i).dest g) k i (t.station k i) (g r) :=
    { visited_update t k i t.pools t.port t.btb rfl with
      kept := robKept_modifyRob _ _ _ (hentry ▸ hg) (hentry ▸ hgb)
      entries := fun u => by
        rw [robAt_modifyRob, hv.station, hv.dest]
        have hlt : (s.station k i).dest < t.rob.entries.length := lt_length_of_busy (hentry ▸ hb)
        by_cases h : u = (s.station k i).dest
        · subst h
          simp [hlt, hentry]
        · simp [h] }
  have h := hv.trans hstep
  rwa [hv.station] at h

theorem State.Visited.modifyTiming (hb : r.busy = true) (g : Timing → Timing)
    (hg : (g r.timing).issue = r.timing.issue) :
    s.Visited (t.modifyTiming (s.station k i).dest g) k i e { r with timing := g r.timing } :=
  hv.modifyRob hb (fun e => { e with timing := g e.timing }) ⟨rfl, rfl, rfl, rfl, rfl, rfl, hg⟩ rfl

end Parts

section Visit

variable {s t : State} {k : FuClass} {i : Nat} {e : RsEntry} {r : RobEntry}

/-- A slot that waits for an instruction still does after a visit that does not complete that instruction. -/
theorem State.Visited.slotOk (hv : s.Visited t k i e r)
    (hwait : (s.robAt (s.station k i).dest).kind = .reg → r.complete = (s.robAt (s.station k i).dest).complete)
    {u : Nat} {v : Slot} (h : s.SlotOk u v) : t.SlotOk u v := by
  cases v with
  | resolved _ => trivial
  | pending w =>
    obtain ⟨hb, hk, hc, hs⟩ := h
    refine ⟨(hv.kept.busy w).trans hb, ((hv.kept.entry w).kind).trans hk, ?_, ?_⟩
    · rw [hv.entries]
      split
      · next hw => subst hw; exact (hwait hk).trans hc
      · exact hc
    · rw [(hv.kept.entry w).seq, (hv.kept.entry u).seq]
      exact hs

/-- The one proof for every part of a visit: it keeps the invariant when the visited entry and its ROB entry fit again,
and units and port are accounted for. -/
theorem State.Mid.visited (hm : s.Mid) (hb : (s.station k i).busy = true) (hv : s.Visited t k i e r)
    (hwait : (s.robAt (s.station k i).dest).kind = .reg → r.complete = (s.robAt (s.station k i).dest).complete)
    (hmono : (s.robAt (s.station k i).dest).complete = true → r.complete = true)
    (hown : e.busy = true → r.complete = decide (e.phase = .storeDone) ∧ PhaseFits s.cycle e r)
    (units : t.UnitsFit) (port : t.PortFits) : t.Mid := by
  have hold := hm.stations k i hb
  have hsame := hv.kept.entry (s.station k i).dest
  rw [hv.entry] at hsame
  have hbusy : ∀ c m, (t.station c m).busy = true →
      (c = k ∧ m = i ∧ t.station c m = e ∧ e.busy = true) ∨
      (¬(c = k ∧ m = i) ∧ t.station c m = s.station c m ∧ (s.station c m).busy = true) := by
    intro c m h
    rw [hv.stations] at h ⊢
    split at h
    · next hcm => exact .inl ⟨hcm.1, hcm.2, if_pos hcm, h⟩
    · next hcm => exact .inr ⟨hcm, if_neg hcm, h⟩
  refine hm.of_kept hv.kept hv.fault ?_ ?_ ?_ units port
  · intro u hu
    rw [hv.kept.busy] at hu
    have hgood := hm.entries u hu
    rw [hv.kept.cycle, hv.entries]
    split
    · next hd =>
      subst hd
      exact ⟨by rw [hsame.kind, hsame.op, hgood.kind], fun hd => hmono (hgood.done (hsame.done ▸ hd)),
        fun hn => hmono (hgood.nop (hsame.kind ▸ hn)), hsame.issue ▸ hgood.issued⟩
    · exact hgood
  · intro c m h
    obtain ⟨rfl, rfl, heq, heb⟩ | ⟨hne, heq, hsb⟩ := hbusy c m h
    · obtain ⟨hcomp, hfits⟩ := hown heb
      rw [heq]
      refine ⟨?_, ?_, ?_, ?_, ?_, ?_, ?_⟩
      · rw [hv.dest, hv.kept.busy]; exact hold.inFlight
      · rw [hv.dest, hv.entry, hsame.op, hv.op]; exact hold.op
      · rw [hv.op]; exact hold.table
      · rw [hv.dest, hv.entry]; exact hcomp
      · rw [hv.dest, hv.slotJ]; exact hv.slotOk hwait hold.slotJ
      · rw [hv.dest, hv.slotK]; exact hv.slotOk hwait hold.slotK
      · rw [hv.dest, hv.entry, hv.kept.cycle]; exact hfits
    · have hother := hm.stations c m hsb
      have hdest : (s.station c m).dest ≠ (s.station k i).dest := fun hd => hne (hm.unique c m k i hsb hb hd)
      have hentry : t.robAt (s.station c m).dest = s.robAt (s.station c m).dest := by rw [hv.entries, if_neg hdest]
      rw [heq]
      refine ⟨hentry ▸ hother.inFlight, hentry ▸ hother.op, hother.table, hentry ▸ hother.completes,
        hv.slotOk hwait hother.slotJ, hv.slotOk hwait hother.slotK, ?_⟩
      rw [hentry, hv.kept.cycle]
      exact hother.phase
  · have hdest : ∀ c m, (t.station c m).busy = true →
        (s.station c m).busy = true ∧ (t.station c m).dest = (s.station c m).dest := by
      intro c m h
      obtain ⟨rfl, rfl, heq, -⟩ | ⟨-, heq, hsb⟩ := hbusy c m h
      · exact ⟨hb, by rw [heq, hv.dest]⟩
      · exact ⟨hsb, by rw [heq]⟩
    intro c m c' m' h h' hd
    obtain ⟨hs, hsd⟩ := hdest c m h
    obtain ⟨hs', hsd'⟩ := hdest c' m' h'
    exact hm.unique c m c' m' hs hs' (by rw [← hsd, ← hsd', hd])

theorem State.Stationed.visited {ids : Nat → Prop} (h : s.Stationed ids)
    (hv : s.Visited t k i e r) (hmono : (s.robAt (s.station k i).dest).complete = true → r.complete = true)
    (hleft : e.busy = false → r.complete = true ∧ r.kind ≠ .store) : t.Stationed ids := by
  intro u hu hid hc
  rw [hv.kept.busy] at hu
  rw [(hv.kept.entry u).seq] at hid
  rw [(hv.kept.entry u).kind] at hc
  have hcs : (s.robAt u).complete = false ∨ (s.robAt u).kind = .store := by
    refine hc.imp_left fun hf => ?_
    rw [hv.entries] at hf
    split at hf
    · next hd => subst hd; cases hsc : (s.robAt (s.station k i).dest).complete <;> simp_all
    · exact hf
  obtain ⟨c, m, hcm, hd⟩ := h u hu hid hcs
  refine ⟨c, m, ?_⟩
  rw [hv.stations]
  split
  · next hki =>
    rw [hki.1, hki.2] at hd
    refine ⟨?_, hv.dest.trans hd⟩
    by_contra hne
    obtain ⟨hcomp, hkind⟩ := hleft (by simpa using hne)
    rw [hv.entries, if_pos hd.symm] at hc
    obtain hc | hc := hc
    · simp [hcomp] at hc
    · rw [← (hv.kept.entry u).kind, hv.entries, if_pos hd.symm] at hc
      exact hkind hc
  · exact ⟨hcm, hd⟩

theorem State.CountingBut.visited {exempt : FuClass → Nat → Prop} (h : s.CountingBut exempt)
    (hex : ∀ c m, exempt c m → c = k ∧ m = i) (hv : s.Visited t k i e r) (hown : e.Counts s.cfg k) :
    t.CountingBut (fun _ _ => False) := by
  intro c m _
  rw [hv.stations, hv.kept.cfg]
  split
  · next hcm => rw [hcm.1]; exact hown
  · next hcm => exact h c m fun hx => hcm (hex c m hx)

/-! ### Units and port over a visit -/

theorem State.Visited.executingCount_other (hv : s.Visited t k i e r) {c : FuClass} (hc : c ≠ k) :
    t.executingCount c = s.executingCount c :=
  executingCount_congr (hv.kept.tables c) fun m => by rw [hv.stations, if_neg fun h => hc h.1]

theorem State.Visited.executingCount_own (hv : s.Visited t k i e r) (hb : (s.station k i).busy = true) :
    t.executingCount k + (s.station k i).holdsUnit.toNat = s.executingCount k + e.holdsUnit.toNat :=
  executingCount_set (lt_length_of_station_busy hb) (hv.kept.tables k) fun m => by
    rw [hv.stations]
    simp

/-- A visit that changes pool `k` by `f` accounts for its units when `f` matches what the entry holds. -/
theorem State.UnitsFit.visited (h : s.UnitsFit) (hv : s.Visited t k i e r) (hb : (s.station k i).busy = true)
    (f : Pool → Pool) (hp : t.pools = s.pools.modify k f)
    (hf : ∀ p n, s.pools.get? k = some p → s.cfg.fuCount.get? k = some n → p.busy ≤ n →
      (f p).busy + (s.station k i).holdsUnit.toNat + p.release = p.busy + e.holdsUnit.toNat + (f p).release ∧
      (f p).busy ≤ n) : t.UnitsFit := by
  intro c p n hcp hcn
  rw [hp, get?_modify_pools] at hcp
  rw [hv.kept.cfg] at hcn
  split at hcp
  · next hc =>
    subst hc
    obtain ⟨q, hq, rfl⟩ := Option.map_eq_some_iff.1 hcp
    obtain ⟨hbusy, hle⟩ := h c q n hq hcn
    obtain ⟨hsum, hle'⟩ := hf q n hq hcn hle
    have := hv.executingCount_own hb
    exact ⟨by omega, hle'⟩
  · next hc =>
    rw [hv.executingCount_other hc]
    exact h c p n hcp hcn

theorem PoolMap.modify_self {α : Type} (m : PoolMap α) (k : FuClass) : m.modify k (fun p => p) = m := by
  cases k <;> rfl

theorem State.UnitsFit.visited_same (h : s.UnitsFit) (hv : s.Visited t k i e r) (hb : (s.station k i).busy = true)
    (hp : t.pools = s.pools) (hu : e.holdsUnit = (s.station k i).holdsUnit) : t.UnitsFit :=
  h.visited hv hb (fun p => p) (hp.trans (PoolMap.modify_self _ _).symm) fun p n _ _ hle => ⟨by rw [hu], hle⟩

theorem State.PortFits.visited_same (h : s.PortFits) (hv : s.Visited t k i e r) (hp : t.port = s.port)
    (ha : e.accessing = (s.station k i).accessing) : t.PortFits := by
  refine h.of_robKept hv.kept hp fun m => ?_
  rw [hv.stations]
  split
  · next hm => rw [ha, ← hm.1, hm.2]
  · rfl

end Visit

end Sys2Proof.Machine

/-! ### The parts of a visit, one by one -/

namespace Sys2Proof.Machine

/-- The invariant between two parts of a visit, when the countdown of the visited station may have run out. -/
structure State.RunningBut (s : State) (k : FuClass) (i : Nat) : Prop extends s.Mid where
  stationed : s.Stationed (fun _ => True)
  counting : s.CountingBut (fun c m => c = k ∧ m = i)

theorem State.Running.but {s : State} (h : s.Running) (k : FuClass) (i : Nat) : s.RunningBut k i :=
  { h with counting := fun c m _ => h.counting c m id }

section Visit

variable {s t : State} {k : FuClass} {i : Nat} {e : RsEntry} {r : RobEntry}

/-- A part of a visit that leaves the entry in its station keeps the invariant but for the entry's countdown. -/
theorem State.RunningBut.visited (h : s.RunningBut k i) (hb : (s.station k i).busy = true)
    (hv : s.Visited t k i e r)
    (hwait : (s.robAt (s.station k i).dest).kind = .reg → r.complete = (s.robAt (s.station k i).dest).complete)
    (hmono : (s.robAt (s.station k i).dest).complete = true → r.complete = true)
    (hown : e.busy = true → r.complete = decide (e.phase = .storeDone) ∧ PhaseFits s.cycle e r)
    (hleft : e.busy = false → r.complete = true ∧ r.kind ≠ .store)
    (units : t.UnitsFit) (port : t.PortFits) : t.RunningBut k i where
  toMid := h.toMid.visited hb hv hwait hmono hown units port
  stationed := h.stationed.visited hv hmono hleft
  counting c m hcm := by
    rw [hv.stations, hv.kept.cfg, if_neg hcm]
    exact h.counting c m hcm

/-- The exempted station counts again. -/
theorem State.RunningBut.running (h : s.RunningBut k i) (hown : (s.station k i).Counts s.cfg k) : s.Running :=
  { h with
    counting := fun c m _ => by
      by_cases hcm : c = k ∧ m = i
      · rw [hcm.1, hcm.2]; exact hown
      · exact h.counting c m hcm }

/-- A visit that only advances the phase of its station, and does not complete the instruction. -/
theorem State.RunningBut.advanced (h : s.RunningBut k i) (hb : (s.station k i).busy = true)
    (hv : s.Visited t k i e r) (heb : e.busy = true) (hphase : e.phase ≠ .storeDone)
    (hold : (s.station k i).phase ≠ .storeDone)
    (hcomp : r.complete = (s.robAt (s.station k i).dest).complete) (hfits : PhaseFits s.cycle e r)
    (units : t.UnitsFit) (port : t.PortFits) : t.RunningBut k i := by
  refine h.visited hb hv (fun _ => hcomp) (fun hc => hcomp.trans hc) (fun _ => ⟨?_, hfits⟩)
    (fun hf => absurd (heb.symm.trans hf) (by simp)) units port
  rw [hcomp, (h.stations k i hb).completes]
  simp [hold, hphase]

theorem RsEntry.counts_of_phase {c : Config} (h1 : e.phase ≠ .executing) (h2 : e.phase ≠ .memAccess) :
    e.Counts c k := fun _ => ⟨fun h => absurd h h1, fun h => absurd h h2⟩

/-! #### Starting -/

/-- The state in which an entry has started and not yet finished (40_engine_cycle.md R225). -/
def started (k : FuClass) (i : Nat) (s : State) : State :=
  ((s.takeUnit k).modifyTiming (s.station k i).dest (fun t => { t with exStart := some s.cycle })).modifyStation k i
    (fun e => { e with phase := .executing, remaining := Config.latency s.cfg k - 1 })

theorem start_eq (k : FuClass) (i : Nat) (s : State) :
    start k i s = if Config.latency s.cfg k - 1 = 0 then finish k i (started k i s) else started k i s := rfl

theorem visited_started (hb : (s.station k i).busy = true) (hr : (s.robAt (s.station k i).dest).busy = true) :
    s.Visited (started k i s) k i
      { s.station k i with phase := .executing, remaining := Config.latency s.cfg k - 1 }
      { s.robAt (s.station k i).dest with
        timing := { (s.robAt (s.station k i).dest).timing with exStart := some s.cycle } } :=
  ((((State.Visited.refl s k i).update (s.takeUnit k).pools s.port s.btb rfl).modifyTiming hr
    (fun t => { t with exStart := some s.cycle }) rfl).modifyStation hb
    (fun e => { e with phase := .executing, remaining := Config.latency s.cfg k - 1 }) rfl rfl rfl rfl :)

theorem State.Running.started (h : s.Running) (hb : (s.station k i).busy = true)
    (hp : (s.station k i).phase = .waiting) (hc : s.canStart k i = true) : (started k i s).RunningBut k i := by
  have hold := h.stations k i hb
  have hfits := hold.phase
  simp only [PhaseFits, hp] at hfits
  simp only [State.canStart, Bool.and_eq_true] at hc
  obtain ⟨⟨⟨hj, hk⟩, -⟩, hu⟩ := hc
  have hv := visited_started hb hold.inFlight
  refine (h.but k i).advanced hb hv hb (by simp) (by simp [hp]) rfl ⟨hj, hk, hfits⟩ ?_
    (h.port.visited_same hv rfl (by simp [RsEntry.accessing, hp]))
  refine h.units.visited hv hb (fun p => { p with busy := p.busy + 1 }) rfl fun p n hpool hn hle => ?_
  have hlt : p.busy < n := by simpa [State.unitFree, hpool, hn] using hu
  simp only [RsEntry.holdsUnit, hp, hb]
  simp
  omega

/-! #### Finishing -/

/-- The first updates of `finish` (40_engine_cycle.md R226). -/
def finishing (k : FuClass) (i : Nat) (s : State) : State :=
  (s.modifyTiming (s.station k i).dest (fun t => { t with exEnd := some s.cycle })).releaseUnits k 1

theorem visited_finishing (hr : (s.robAt (s.station k i).dest).busy = true) :
    s.Visited (finishing k i s) k i (s.station k i)
      { s.robAt (s.station k i).dest with
        timing := { (s.robAt (s.station k i).dest).timing with exEnd := some s.cycle } } :=
  (((State.Visited.refl s k i).modifyTiming hr (fun t => { t with exEnd := some s.cycle }) rfl).update
    (s.releaseUnits k 1).pools s.port s.btb rfl :)

/-- The end of execution gives the unit back. -/
theorem State.UnitsFit.finished (h : s.UnitsFit) (hb : (s.station k i).busy = true)
    (hp : (s.station k i).phase = .executing) (hv : s.Visited t k i e r)
    (hpools : t.pools = (finishing k i s).pools) (he : e.holdsUnit = false) : t.UnitsFit := by
  refine h.visited hv hb (fun p => { p with release := p.release + 1 }) hpools fun p n _ _ hle => ?_
  simp only [RsEntry.holdsUnit] at he
  simp only [RsEntry.holdsUnit, hp, hb, he]
  simp
  omega

theorem kind_of_fuClass {o : Op} (h : o.fuClass = some k) (hls : k ≠ .ls) (hbr : k ≠ .br) :
    o.kind = .reg ∧ o ≠ .ld := by
  cases o <;> simp_all [Op.fuClass, Op.kind]

/-- An arithmetic entry's result is ready (40_engine_cycle.md R226). -/
theorem State.RunningBut.finish_arith (h : s.RunningBut k i) (hb : (s.station k i).busy = true)
    (hp : (s.station k i).phase = .executing) (hls : k ≠ .ls) (hbr : k ≠ .br) : (finish k i s).Running := by
  have hold := h.stations k i hb
  have hfits := hold.phase
  simp only [PhaseFits, hp] at hfits
  obtain ⟨hj, hk, -⟩ := hfits
  obtain ⟨hkind, hld⟩ := kind_of_fuClass hold.table hls hbr
  have heq : finish k i s = (finishing k i s).modifyStation k i (fun e => { e with phase := .resultReady }) := by
    cases k <;> first | rfl | exact absurd rfl hls | exact absurd rfl hbr
  have hv := (visited_finishing hold.inFlight).modifyStation hb (fun e => { e with phase := .resultReady })
    rfl rfl rfl rfl
  rw [heq]
  refine ((h.advanced hb hv hb (by simp) (by simp [hp]) rfl
    ⟨hj, hk, hkind, fun hop => absurd hop hld, by simp [readyCycle, hld, before_now]⟩
    (h.units.finished hb hp hv rfl (by simp [RsEntry.holdsUnit]))
    (h.port.visited_same hv rfl (by simp [RsEntry.accessing, hp])))).running ?_
  rw [hv.station]
  exact RsEntry.counts_of_phase (by simp) (by simp)

/-- A load's or store's address phase ends (43_load_store.md R322, R323). -/
theorem State.RunningBut.finish_ls (h : s.RunningBut .ls i) (hb : (s.station .ls i).busy = true)
    (hp : (s.station .ls i).phase = .executing) : (finish .ls i s).Running := by
  have hold := h.stations .ls i hb
  have hfits := hold.phase
  simp only [PhaseFits, hp] at hfits
  obtain ⟨hj, hk, -⟩ := hfits
  have hf := visited_finishing hold.inFlight
  have heq : finish .ls i s = lsFinish i (finishing .ls i s) := rfl
  rw [heq, lsFinish]
  rw [hf.station]
  generalize ha : effectiveAddress (s.station .ls i).j.val (s.station .ls i).imm = a
  split
  · next hop =>
    have hv := hf.modifyStation hb (loadAddressed a) rfl rfl rfl rfl
    refine (h.advanced hb hv hb (by simp [loadAddressed]) (by simp [hp]) rfl ⟨hj, hk, hop, rfl⟩
      (h.units.finished hb hp hv rfl (by simp [RsEntry.holdsUnit, loadAddressed]))
      (h.port.visited_same hv rfl (by simp [RsEntry.accessing, hp, loadAddressed]))).running ?_
    rw [hv.station]
    exact RsEntry.counts_of_phase (by simp [loadAddressed]) (by simp [loadAddressed])
  · next hop =>
    have hsd : (s.station .ls i).op = .sd := by
      have htab := hold.table
      cases ho : (s.station .ls i).op <;> simp_all [Op.fuClass]
    have hkind : (s.robAt (s.station .ls i).dest).kind = .store := by
      rw [(h.entries _ hold.inFlight).kind, hold.op, hsd]
      rfl
    have hv := (hf.modifyStation hb (storeAddressed a) rfl rfl rfl rfl).modifyRob hold.inFlight
      (fun r => { r with stAddr := a, stData := (s.station .ls i).k.val, complete := true })
      ⟨rfl, rfl, rfl, rfl, rfl, rfl, rfl⟩ rfl
    refine (h.visited hb hv (fun hreg => absurd (hkind.symm.trans hreg) (by simp)) (fun _ => rfl)
      (fun _ => ⟨rfl, hj, hk, hsd, rfl, rfl, before_now _⟩) (fun hn => absurd (hb.symm.trans hn) (by simp))
      (h.units.finished hb hp hv rfl (by simp [RsEntry.holdsUnit, storeAddressed]))
      (h.port.visited_same hv rfl (by simp [RsEntry.accessing, hp, storeAddressed]))).running ?_
    rw [hv.station]
    exact RsEntry.counts_of_phase (by simp [storeAddressed]) (by simp [storeAddressed])

theorem State.RunningBut.branch_kind (h : s.RunningBut .br i) (hb : (s.station .br i).busy = true) :
    (s.robAt (s.station .br i).dest).kind = .branch := by
  have hold := h.stations .br i hb
  rw [(h.entries _ hold.inFlight).kind, hold.op]
  have htab := hold.table
  cases ho : (s.station .br i).op <;> simp_all [Op.fuClass, Op.kind]

theorem resolved_eq (i : Nat) (s : State) : resolved i s =
    (State.modifyStation { s with btb := (resolved i s).btb } .br i (fun e => { e with busy := false })).modifyRob
      (s.station .br i).dest (fun r => { r with complete := true }) := rfl

theorem resolved_pools (i : Nat) (s : State) : (resolved i s).pools = s.pools := rfl

theorem resolved_port (i : Nat) (s : State) : (resolved i s).port = s.port := rfl

theorem State.Visited.resolved (hv : s.Visited t .br i e r) (hb : e.busy = true) (hr : r.busy = true) :
    s.Visited (resolved i t) .br i { e with busy := false } { r with complete := true } := by
  have hd : (t.station .br i).dest = (s.station .br i).dest := by rw [hv.station, hv.dest]
  rw [resolved_eq, hd]
  exact ((hv.update t.pools t.port (Machine.resolved i t).btb (robKept_resolved i t).btb).modifyStation hb
    (fun e => { e with busy := false }) rfl rfl rfl rfl).modifyRob hr (fun r => { r with complete := true })
    ⟨rfl, rfl, rfl, rfl, rfl, rfl, rfl⟩ rfl

/-- A resolved branch is complete and out of its station. -/
theorem State.RunningBut.resolved (h : s.RunningBut .br i) (hb : (s.station .br i).busy = true)
    (hp : (s.station .br i).phase = .executing) : (Machine.resolved i (finishing .br i s)).Running := by
  have hold := h.stations .br i hb
  have hkind := h.branch_kind hb
  have hv := (visited_finishing hold.inFlight).resolved hb hold.inFlight
  refine (h.visited hb hv (fun hreg => absurd (hkind.symm.trans hreg) (by simp)) (fun _ => rfl)
    (fun hn => absurd hn (by simp)) (fun _ => ⟨rfl, by simp [hkind]⟩)
    (h.units.finished hb hp hv (resolved_pools i _) (by simp [RsEntry.holdsUnit]))
    (h.port.visited_same hv (resolved_port i _) (by simp [RsEntry.accessing, hp]))).running ?_
  rw [hv.station]
  exact fun hn => absurd hn (by simp)

/-! #### Loads -/

/-- A load takes the value of an older store (43_load_store.md R326). -/
theorem State.Running.forward (h : s.Running) (hb : (s.station .ls i).busy = true)
    (hp : (s.station .ls i).phase = .memWait) (q : Nat) : (forward i q s).Running := by
  have hold := h.stations .ls i hb
  have hfits := hold.phase
  simp only [PhaseFits, hp] at hfits
  obtain ⟨hj, hk, hop, haddr⟩ := hfits
  have hv := ((State.Visited.refl s .ls i).modifyStation hb
    (fun e => { e with result := (s.robAt (s.station .ls q).dest).stData, phase := .resultReady }) rfl rfl rfl
    rfl).modifyTiming hold.inFlight (fun t => { t with memStart := some s.cycle, memEnd := some s.cycle }) rfl
  refine ((h.but .ls i).advanced hb hv hb (by simp) (by simp [hp]) rfl
    ⟨hj, hk, by simp [hop, Op.kind], fun _ => haddr, by simp [readyCycle, hop, before_now]⟩
    (h.units.visited_same hv hb rfl (by simp [RsEntry.holdsUnit, hp]))
    (h.port.visited_same hv rfl (by simp [RsEntry.accessing, hp]))).running ?_
  rw [hv.station]
  exact RsEntry.counts_of_phase (by simp) (by simp)

/-- A load's memory phase ends and the port is marked for release (43_load_store.md R328). -/
theorem State.RunningBut.loadFinish (h : s.RunningBut .ls i) (hb : (s.station .ls i).busy = true)
    (hp : (s.station .ls i).phase = .memAccess) : (loadFinish i s).Running := by
  have hold := h.stations .ls i hb
  have hfits := hold.phase
  simp only [PhaseFits, hp] at hfits
  obtain ⟨hj, hk, hop, haddr⟩ := hfits
  have hv : s.Visited (Machine.loadFinish i s) .ls i _ _ := (((State.Visited.refl s .ls i).modifyStation hb
    (fun e => { e with result := s.mem.read e.addr, phase := .resultReady }) rfl rfl rfl rfl).modifyTiming
    hold.inFlight (fun t => { t with memEnd := some s.cycle }) rfl).update s.pools { s.port with release := true }
    s.btb rfl
  have hown := (h.port.access i (by simp [RsEntry.accessing, hb, hp])).1
  have hport : (Machine.loadFinish i s).PortFits := by
    refine ⟨fun m hm => ?_, fun m _ hrel => (by cases hrel), fun _ => ⟨i, hown⟩, h.port.idle, fun hc => ?_⟩
    · rw [hv.stations] at hm
      split at hm
      · simp [RsEntry.accessing] at hm
      · next hne =>
        have := (h.port.access m hm).1
        rw [hown, PortOwner.load.injEq] at this
        exact absurd ⟨rfl, this.symm⟩ hne
    · exact absurd (hown.symm.trans hc) (by simp)
  refine (h.advanced hb hv hb (by simp) (by simp [hp]) rfl
    ⟨hj, hk, by simp [hop, Op.kind], fun _ => haddr, by simp [readyCycle, hop, before_now]⟩
    (h.units.visited_same hv hb rfl (by simp [RsEntry.holdsUnit, hp])) hport).running ?_
  rw [hv.station]
  exact RsEntry.counts_of_phase (by simp) (by simp)

/-- The first updates of a load's memory phase (43_load_store.md R327). -/
def loadStarted (i : Nat) (s : State) : State :=
  ({ s with port := { s.port with owner := .load i } }.modifyTiming (s.station .ls i).dest
    (fun t => { t with memStart := some s.cycle })).modifyStation .ls i
      (fun e => { e with phase := .memAccess, remaining := s.cfg.memLat - 1 })

theorem visited_loadStarted (hb : (s.station .ls i).busy = true)
    (hr : (s.robAt (s.station .ls i).dest).busy = true) :
    s.Visited (loadStarted i s) .ls i { s.station .ls i with phase := .memAccess, remaining := s.cfg.memLat - 1 }
      { s.robAt (s.station .ls i).dest with
        timing := { (s.robAt (s.station .ls i).dest).timing with memStart := some s.cycle } } :=
  ((((State.Visited.refl s .ls i).update s.pools { s.port with owner := .load i } s.btb rfl).modifyTiming hr
    (fun t => { t with memStart := some s.cycle }) rfl).modifyStation hb
    (fun e => { e with phase := .memAccess, remaining := s.cfg.memLat - 1 }) rfl rfl rfl rfl :)

theorem State.Running.loadStarted (h : s.Running) (hb : (s.station .ls i).busy = true)
    (hp : (s.station .ls i).phase = .memWait) (ho : s.port.owner = .none) :
    (Machine.loadStarted i s).RunningBut .ls i := by
  have hold := h.stations .ls i hb
  have hfits := hold.phase
  simp only [PhaseFits, hp] at hfits
  have hv := visited_loadStarted hb hold.inFlight
  have hnone : ∀ m, (s.station .ls m).accessing = false := by
    intro m
    by_contra hm
    have := (h.port.access m (by simpa using hm)).1
    rw [ho] at this
    cases this
  have hrel : s.port.release = false := by
    by_contra hm
    obtain ⟨m, hload⟩ := h.port.marked (by simpa using hm)
    rw [ho] at hload
    cases hload
  have hport : (Machine.loadStarted i s).PortFits := by
    refine ⟨fun m hm => ?_, fun m hm _ => ?_, fun hm => absurd (hrel.symm.trans hm) (by simp),
      fun _ => h.port.idle (by simp [ho]), fun hc => (by cases hc)⟩
    · rw [hv.stations] at hm
      split at hm
      · next hmi => exact ⟨by rw [hmi.2]; rfl, hrel⟩
      · exact absurd ((hnone m).symm.trans hm) (by simp)
    · obtain rfl := PortOwner.load.inj hm
      rw [hv.station]
      simp [RsEntry.accessing, hb]
  exact (h.but .ls i).advanced hb hv hb (by simp) (by simp [hp]) rfl hfits
    (h.units.visited_same hv hb rfl (by simp [RsEntry.holdsUnit, hp])) hport

/-! #### Counting down -/

theorem visited_countdown (hb : (s.station k i).busy = true) :
    s.Visited (s.modifyStation k i (fun e => { e with remaining := e.remaining - 1 })) k i
      { s.station k i with remaining := (s.station k i).remaining - 1 } (s.robAt (s.station k i).dest) :=
  (State.Visited.refl s k i).modifyStation hb (fun e => { e with remaining := e.remaining - 1 }) rfl rfl rfl rfl

/-- A countdown leaves everything in order but perhaps the counter itself. -/
theorem State.Running.countdown (h : s.Running) (hb : (s.station k i).busy = true)
    (hp : (s.station k i).phase ≠ .storeDone) :
    (s.modifyStation k i (fun e => { e with remaining := e.remaining - 1 })).RunningBut k i :=
  have hv := visited_countdown hb
  (h.but k i).advanced hb hv hb hp hp rfl (h.stations k i hb).phase (h.units.visited_same hv hb rfl rfl)
    (h.port.visited_same hv rfl rfl)

end Visit

end Sys2Proof.Machine

/-! ### Squash and recovery keep the invariant between stages -/

namespace Sys2Proof.Machine

theorem mem_table {s : State} {k : FuClass} {e : RsEntry} :
    e ∈ s.table k ↔ ∃ i < (s.table k).length, s.station k i = e := by
  rw [List.mem_iff_getElem?]
  constructor
  · rintro ⟨i, hi⟩
    have hlt := (List.getElem?_eq_some_iff.1 hi).1
    rw [getElem?_table s k hlt] at hi
    exact ⟨i, hlt, Option.some.inj hi⟩
  · rintro ⟨i, hlt, rfl⟩
    exact ⟨i, getElem?_table s k hlt⟩

/-- Only a load accesses memory, and loads sit in the load/store table. -/
theorem State.Mid.table_of_accessing {s : State} (h : s.Mid) {k : FuClass} {i : Nat}
    (ha : (s.station k i).accessing = true) : k = .ls := by
  simp only [RsEntry.accessing, Bool.and_eq_true, decide_eq_true_eq] at ha
  have hold := h.stations k i ha.1
  have hfits := hold.phase
  have htab := hold.table
  simp only [PhaseFits, ha.2] at hfits
  rw [hfits.2.2.1] at htab
  exact (Option.some.inj htab).symm

/-- No tag dangles under the invariant (60_exceptions.md R404). -/
theorem State.Mid.danglingStation {s : State} (h : s.Mid) (k : FuClass) : s.danglingStation k = none :=
  (danglingStation_eq_none s k).2 fun i hb => (h.stations k i hb).inFlight

/-- A station after a squash: free when its instruction is younger. -/
def State.dropYounger (s : State) (n : Nat) (e : RsEntry) : RsEntry :=
  { e with busy := e.busy && !s.younger n e }

theorem dropYounger_of_busy {s : State} {n : Nat} {e : RsEntry} (h : (s.dropYounger n e).busy = true) :
    s.dropYounger n e = e ∧ e.busy = true ∧ (s.robAt e.dest).seq ≤ n := by
  have hsame : (s.dropYounger n e).busy = e.busy := by
    rw [h]
    exact (Bool.and_eq_true_iff.1 h).1.symm
  refine ⟨?_, hsame ▸ h, ?_⟩
  · change { e with busy := (s.dropYounger n e).busy } = e
    rw [hsame]
  · have hold := (Bool.and_eq_true_iff.1 h).2
    simp only [State.younger, hsame ▸ h, Bool.true_and, Bool.not_eq_true', decide_eq_false_iff_not] at hold
    omega

/-- What squashing one table does when no tag dangles (44_branch_recovery.md R375). -/
def squashedTable (n : Nat) (k : FuClass) (s : State) : State :=
  let dropped := (s.table k).filter (s.younger n)
  let s1 := s.releaseUnits k (dropped.countP (fun e : RsEntry => decide (e.phase = Phase.executing)))
  let s2 := { s1 with port := { s1.port with
    release := s1.port.release || dropped.any (fun e => decide (e.phase = Phase.memAccess)) } }
  s2.modifyTable k (List.map (s.dropYounger n))

theorem squashTable_eq {s : State} (n : Nat) {k : FuClass} (h : s.danglingStation k = none) :
    squashTable n k s = squashedTable n k s := by
  unfold squashTable
  rw [h]
  rfl

theorem station_squashedTable (n : Nat) (k c : FuClass) (i : Nat) (s : State) :
    (squashedTable n k s).station c i = if c = k then s.dropYounger n (s.station c i) else s.station c i := by
  unfold State.station
  by_cases hc : c = k
  · subst hc
    have htable : (squashedTable n c s).table c = (s.table c).map (s.dropYounger n) := table_modifyTable_same _ _ _
    rw [htable, List.getElem?_map, if_pos rfl]
    cases (s.table c)[i]? <;> rfl
  · have htable : (squashedTable n k s).table c = s.table c := table_modifyTable_other _ _ hc
    rw [htable, if_neg hc]

section Squash

variable {s : State} {n : Nat} {k : FuClass}

/-- A station that is busy after the squash of a table is as it was, and not younger if it is of that table. -/
theorem station_of_busy_squashedTable {c : FuClass} {i : Nat} (hb : ((squashedTable n k s).station c i).busy = true) :
    (squashedTable n k s).station c i = s.station c i ∧ (s.station c i).busy = true ∧
      (c = k → (s.robAt (s.station c i).dest).seq ≤ n) := by
  rw [station_squashedTable] at hb ⊢
  by_cases hc : c = k
  · rw [if_pos hc] at hb ⊢
    obtain ⟨heq, hsb, hle⟩ := dropYounger_of_busy hb
    exact ⟨heq, hsb, fun _ => hle⟩
  · rw [if_neg hc] at hb ⊢
    exact ⟨rfl, hb, fun h => absurd h hc⟩

/-- A station whose instruction is not younger stays. -/
theorem station_squashedTable_of_le {c : FuClass} {i : Nat} (h : (s.robAt (s.station c i).dest).seq ≤ n) :
    (squashedTable n k s).station c i = s.station c i := by
  rw [station_squashedTable]
  split
  · have hy : s.younger n (s.station c i) = false := by simp [State.younger]; omega
    simp [State.dropYounger, hy]
  · rfl

/-- Of the entries that hold a unit, the younger ones are counted as dropped and the others stay. -/
theorem countP_dropYounger (s : State) (n : Nat) (l : List RsEntry) :
    (l.map (s.dropYounger n)).countP RsEntry.holdsUnit +
      (l.filter (s.younger n)).countP (fun e => decide (e.phase = Phase.executing)) = l.countP RsEntry.holdsUnit := by
  induction l with
  | nil => rfl
  | cons e l ih =>
    simp only [List.map_cons, List.countP_cons, List.filter_cons]
    have hdrop : (s.dropYounger n e).busy = (e.busy && !s.younger n e) := rfl
    have hphase : (s.dropYounger n e).phase = e.phase := rfl
    have hyounger : s.younger n e = true → e.busy = true := fun h => (Bool.and_eq_true_iff.1 h).1
    rw [RsEntry.holdsUnit, RsEntry.holdsUnit, hdrop, hphase]
    cases hy : s.younger n e
    · simp only [Bool.not_false, Bool.and_true, Bool.false_eq_true, if_false]
      omega
    · simp only [hyounger hy, Bool.not_true, Bool.and_false, Bool.false_and, Bool.true_and, Bool.false_eq_true,
        if_false, if_true, List.countP_cons]
      omega

theorem State.UnitsFit.squashedTable (h : s.UnitsFit) : (squashedTable n k s).UnitsFit := by
  intro c p m hp hm
  have hpools : (Machine.squashedTable n k s).pools = s.pools.modify k (fun p => { p with
      release := p.release + ((s.table k).filter (s.younger n)).countP fun e => decide (e.phase = Phase.executing) }) :=
    rfl
  rw [hpools, get?_modify_pools] at hp
  by_cases hc : c = k
  · subst hc
    rw [if_pos rfl] at hp
    obtain ⟨q, hq, rfl⟩ := Option.map_eq_some_iff.1 hp
    obtain ⟨hbusy, hle⟩ := h c q m hq hm
    refine ⟨?_, hle⟩
    have htable : (Machine.squashedTable n c s).table c = (s.table c).map (s.dropYounger n) :=
      table_modifyTable_same _ _ _
    have hcount := countP_dropYounger s n (s.table c)
    rw [executingCount_eq] at hbusy ⊢
    rw [htable]
    simp only
    omega
  · rw [if_neg hc] at hp
    have hexec : (Machine.squashedTable n k s).executingCount c = s.executingCount c :=
      executingCount_congr ((congrArg List.length (table_modifyTable_other _ _ hc)).trans rfl) fun i => by
        rw [station_squashedTable, if_neg hc]
    rw [hexec]
    exact h c p m hp hm

/-- The port is marked exactly when it was or the load that holds it is dropped. -/
theorem squashedTable_release (hm : s.Mid) : (squashedTable n k s).port.release = true ↔
    s.port.release = true ∨ (k = .ls ∧ ∃ i, (s.station .ls i).accessing = true ∧
      n < (s.robAt (s.station .ls i).dest).seq) := by
  have hrel : (squashedTable n k s).port.release = (s.port.release ||
      ((s.table k).filter (s.younger n)).any (fun e => decide (e.phase = Phase.memAccess))) := rfl
  rw [hrel, Bool.or_eq_true, List.any_eq_true]
  refine or_congr Iff.rfl ⟨?_, ?_⟩
  · rintro ⟨e, he, hp⟩
    obtain ⟨hmem, hy⟩ := List.mem_filter.1 he
    obtain ⟨i, -, rfl⟩ := mem_table.1 hmem
    simp only [State.younger, Bool.and_eq_true, decide_eq_true_eq] at hy hp
    have hacc : (s.station k i).accessing = true := by simp [RsEntry.accessing, hy.1, hp]
    obtain rfl := hm.table_of_accessing hacc
    exact ⟨rfl, i, hacc, hy.2⟩
  · rintro ⟨rfl, i, hacc, hlt⟩
    simp only [RsEntry.accessing, Bool.and_eq_true, decide_eq_true_eq] at hacc
    exact ⟨_, List.mem_filter.2 ⟨mem_table.2 ⟨i, lt_length_of_station_busy hacc.1, rfl⟩,
      by simp [State.younger, hacc.1, hlt]⟩, by simp [hacc.2]⟩

theorem State.Mid.portFits_squashedTable (h : s.Mid) : (squashedTable n k s).PortFits := by
  have hmark := squashedTable_release (n := n) (k := k) h
  have hacc : ∀ i, ((Machine.squashedTable n k s).station .ls i).accessing = true →
      (s.station .ls i).accessing = true ∧ (k = .ls → (s.robAt (s.station .ls i).dest).seq ≤ n) := by
    intro i hi
    have hb : ((Machine.squashedTable n k s).station .ls i).busy = true := by
      simp only [RsEntry.accessing, Bool.and_eq_true] at hi
      exact hi.1
    obtain ⟨heq, -, hle⟩ := station_of_busy_squashedTable hb
    rw [heq] at hi
    exact ⟨hi, fun hk => hle hk.symm⟩
  have hown : (Machine.squashedTable n k s).port.owner = s.port.owner := rfl
  refine ⟨fun i hi => ?_, fun i hi hr => ?_, fun hr => ?_, h.port.idle, h.port.commit⟩
  · obtain ⟨hs, hle⟩ := hacc i hi
    obtain ⟨ho, hr⟩ := h.port.access i hs
    refine ⟨ho, ?_⟩
    by_contra hne
    obtain hrel | ⟨hk, j, hj, hlt⟩ := hmark.1 (by simpa using hne)
    · exact absurd (hr.symm.trans hrel) (by simp)
    · have hji := (h.port.access j hj).1.symm.trans ho
      rw [PortOwner.load.injEq] at hji
      subst hji
      have := hle hk
      omega
  · have hnot := mt hmark.2 (by simp [hr])
    rw [not_or] at hnot
    have hs := h.port.load i (hown ▸ hi) (by simpa using hnot.1)
    rw [station_squashedTable]
    split
    · next hk =>
      have hle : (s.robAt (s.station .ls i).dest).seq ≤ n := by
        by_contra hlt
        exact hnot.2 ⟨hk.symm, i, hs, by omega⟩
      have hstay := station_squashedTable_of_le (k := k) hle
      rw [station_squashedTable, if_pos hk] at hstay
      rw [hstay]
      exact hs
    · exact hs
  · obtain hrel | ⟨-, i, hi, -⟩ := hmark.1 hr
    · exact h.port.marked hrel
    · exact ⟨i, (h.port.access i hi).1⟩

theorem State.SlotOk.of_robAt {s t : State} (h : ∀ u, t.robAt u = s.robAt u) {u : Nat} {v : Slot} (hv : s.SlotOk u v) :
    t.SlotOk u v := by
  cases v with
  | resolved _ => trivial
  | pending w => simpa only [State.SlotOk, h] using hv

/-- The invariant between stages while a branch with sequence id `n` is being recovered from: younger instructions may
have lost their stations. -/
structure State.Squashing (s : State) (n : Nat) : Prop extends s.Mid where
  stationed : s.Stationed (· ≤ n)
  counting : s.CountingBut (fun _ _ => False)

theorem State.Squashing.squashTable (h : s.Squashing n) (k : FuClass) : (squashTable n k s).Squashing n := by
  have hkept := robKept_squashTable n k s
  rw [squashTable_eq n (h.danglingStation k)] at hkept ⊢
  have hrob : ∀ u, (squashedTable n k s).robAt u = s.robAt u := fun _ => rfl
  refine ⟨h.toMid.of_kept hkept rfl h.entries (fun c i hb => ?_) (fun c i c' i' hb hb' hd => ?_) h.units.squashedTable
    h.portFits_squashedTable, fun t ht hle hc => ?_, fun c i _ hb => ?_⟩
  · obtain ⟨heq, hsb, -⟩ := station_of_busy_squashedTable hb
    have hold := h.stations c i hsb
    rw [heq]
    exact ⟨hold.inFlight, hold.op, hold.table, hold.completes, hold.slotJ.of_robAt hrob, hold.slotK.of_robAt hrob,
      hold.phase⟩
  · obtain ⟨heq, hsb, -⟩ := station_of_busy_squashedTable hb
    obtain ⟨heq', hsb', -⟩ := station_of_busy_squashedTable hb'
    rw [heq, heq'] at hd
    exact h.unique c i c' i' hsb hsb' hd
  · obtain ⟨c, i, hb, rfl⟩ := h.stationed t ht hle hc
    exact ⟨c, i, by rw [station_squashedTable_of_le hle]; exact ⟨hb, rfl⟩⟩
  · obtain ⟨heq, hsb, -⟩ := station_of_busy_squashedTable hb
    rw [heq] at hb ⊢
    exact h.counting c i id hb

/-- Table `k` holds no instruction younger than sequence id `n`. -/
def State.NoYounger (s : State) (n : Nat) (k : FuClass) : Prop :=
  ∀ i, (s.station k i).busy = true → (s.robAt (s.station k i).dest).seq ≤ n

theorem State.Squashing.noYounger_squashTable (h : s.Squashing n) (k : FuClass) :
    (Machine.squashTable n k s).NoYounger n k ∧ ∀ c, s.NoYounger n c → (Machine.squashTable n k s).NoYounger n c := by
  rw [squashTable_eq n (h.danglingStation k)]
  refine ⟨fun i hb => ?_, fun c hc i hb => ?_⟩
  · obtain ⟨heq, -, hle⟩ := station_of_busy_squashedTable hb
    rw [heq]
    exact hle rfl
  · obtain ⟨heq, hsb, -⟩ := station_of_busy_squashedTable hb
    rw [heq]
    exact hc i hsb

/-- Squashing tables one after another frees the younger entries of each, and raises no fault. -/
theorem State.Squashing.squashTables (h : s.Squashing n) (ks : List FuClass) :
    (foldUnlessFaulted (Machine.squashTable n) ks s).Squashing n ∧
    (∀ k ∈ ks, (foldUnlessFaulted (Machine.squashTable n) ks s).NoYounger n k) ∧
    ∀ c, s.NoYounger n c → (foldUnlessFaulted (Machine.squashTable n) ks s).NoYounger n c := by
  induction ks generalizing s with
  | nil => exact ⟨h, by simp, fun _ hc => hc⟩
  | cons k ks ih =>
    rw [foldUnlessFaulted_cons, unlessFaulted_of_none _ h.noFault]
    obtain ⟨hsq, hall, hkeep⟩ := ih (h.squashTable k)
    obtain ⟨hown, hothers⟩ := h.noYounger_squashTable k
    refine ⟨hsq, fun c hc => ?_, fun c hc => hkeep c (hothers c hc)⟩
    rcases List.mem_cons.1 hc with rfl | hc
    · exact hkeep c hown
    · exact hall c hc

end Squash

/-! #### Recovery -/

section Recovery

variable {s : State} {p : Nat}

/-- Truncation frees the younger instructions and leaves the others as they were. -/
theorem robAt_truncateRob_of_busy (hr : s.RingOk) (hs : s.Sized) (hp : p < s.rob.count) {u : Nat}
    (hu : (s.robAt u).busy = true) : (truncateRob (s.tagAt p) s).robAt u =
      if (s.robAt u).seq ≤ (s.nthEntry p).seq then s.robAt u else { s.robAt u with busy := false } := by
  obtain ⟨n, hn, rfl⟩ := (hr.busy_iff hs u).1 hu
  rw [robAt_truncateRob hr hs hp (hn.trans_le hr.count)]
  have hiff : (s.robAt (s.tagAt n)).seq ≤ (s.nthEntry p).seq ↔ n ≤ p := hr.seq_le_iff hn hp
  by_cases hle : n ≤ p
  · rw [if_neg (by omega), if_pos (hiff.2 hle)]
    rfl
  · rw [if_pos ⟨by omega, hn⟩, if_neg (fun h => hle (hiff.1 h))]
    rfl

theorem coreKept_recovered (b n : Nat) (taken : Bool) (target : Pc) (s : State) :
    s.CoreKept (recovered b n taken target s) :=
  ((coreKept_truncateRob b s).trans (robKept_purgeCdb _ _).toCoreKept).trans (coreKept_recover ..)

/-- Recovery touches the ROB, the RAT, pc, sequence counter and CDB. -/
theorem recovered_eq (b n : Nat) (taken : Bool) (target : Pc) (s : State) :
    ∃ pc nextSeq rat cdb, recovered b n taken target s =
      { s with rob := (truncateRob b s).rob, pc := pc, nextSeq := nextSeq, rat := rat, cdb := cdb } := by
  have hfree : ∀ m t (s : State), freeRobFrom t m s = { s with rob := (freeRobFrom t m s).rob } := by
    intro m
    induction m with
    | zero => intro t s; rfl
    | succ m ih => intro t s; exact (ih _ _).trans rfl
  have htrunc : truncateRob b s = { s with rob := (truncateRob b s).rob } := by
    unfold truncateRob
    dsimp only
    rw [hfree]
  unfold recovered recover purgeCdb
  split <;> (rw [htrunc]; exact ⟨_, _, _, _, rfl⟩)

theorem robAt_recovered (b n : Nat) (taken : Bool) (target : Pc) (s : State) (u : Nat) :
    (recovered b n taken target s).robAt u = (truncateRob b s).robAt u := by
  obtain ⟨pc, nextSeq, rat, cdb, h⟩ := recovered_eq b n taken target s
  rw [h]
  rfl

/-- The restored RAT is the one the branch saw (10_state.md R49, 44_branch_recovery.md R376). -/
theorem recovered_renamingOk {b n : Nat} (h : s.RenamingOk) (hr : s.RingOk) (hp : p < s.rob.count) (hb : b = s.tagAt p)
    (hkind : (s.nthEntry p).kind = .branch) (taken : Bool) (target : Pc) :
    (recovered b n taken target s).RenamingOk := by
  have hk := coreKept_recovered b n taken target s
  have hcount : (recovered b n taken target s).rob.count = p + 1 := by
    obtain ⟨pc, nextSeq, rat, cdb, heq⟩ := recovered_eq b n taken target s
    rw [heq, hb]
    exact truncateRob_count hr hp
  have htag : ∀ m, (recovered b n taken target s).tagAt m = s.tagAt m := fun m => by
    rw [State.tagAt, hk.head, hk.cfg, State.tagAt]
  have hsame : ∀ m, (s.nthEntry m).SameInstr ((recovered b n taken target s).nthEntry m) := fun m => by
    rw [State.nthEntry, State.nthEntry, htag]
    exact hk.entry _
  have hyw : ∀ r m, (recovered b n taken target s).youngestWriter r m = s.youngestWriter r m := fun r m =>
    youngestWriter_congr r m (fun q _ => htag q) (fun q _ => (hsame q).kind) (fun q _ => (hsame q).dest)
  have hrat : (recovered b n taken target s).rat = (s.nthEntry p).ckpt := by
    have hpre := (coreKept_truncateRob b s).trans (robKept_purgeCdb n _).toCoreKept
    exact (hpre.entry b).ckpt.trans (by rw [hb]; rfl)
  refine ⟨fun r => ?_, fun m hm hbr r => ?_⟩
  · rw [hrat, hcount, hyw, h.ckpt p hp hkind r, State.youngestWriter, if_neg (by simp [hkind])]
  · rw [(hsame m).ckpt, hyw]
    rw [(hsame m).kind] at hbr
    exact h.ckpt m (by omega) hbr r

/-- Recovery leaves the instructions that are not younger than the branch as they are. -/
theorem State.Mid.robAt_recovered_of_le (h : s.Mid) {b n : Nat} (hn : (s.robAt b).seq = n)
    (hb : (s.robAt b).busy = true) {taken : Bool} {target : Pc} {u : Nat} (hu : (s.robAt u).busy = true)
    (hle : (s.robAt u).seq ≤ n) : (recovered b n taken target s).robAt u = s.robAt u := by
  obtain ⟨p, hp, rfl⟩ := (h.ring.busy_iff h.sized b).1 hb
  rw [robAt_recovered, robAt_truncateRob_of_busy h.ring h.sized hp hu, State.nthEntry, hn, if_pos hle]

/-- After recovery no instruction younger than the branch is in flight. -/
theorem State.Mid.busy_of_recovered (h : s.Mid) {b n : Nat} (hn : (s.robAt b).seq = n)
    (hb : (s.robAt b).busy = true) {taken : Bool} {target : Pc} {u : Nat}
    (hu : ((recovered b n taken target s).robAt u).busy = true) :
    (s.robAt u).busy = true ∧ (s.robAt u).seq ≤ n := by
  have hsu := (coreKept_recovered b n taken target s).freed u hu
  obtain ⟨p, hp, rfl⟩ := (h.ring.busy_iff h.sized b).1 hb
  refine ⟨hsu, ?_⟩
  by_contra hlt
  rw [robAt_recovered, robAt_truncateRob_of_busy h.ring h.sized hp hsu,
    State.nthEntry, hn, if_neg hlt] at hu
  cases hu

/-- After the younger instructions have left their tables, recovery restores the whole invariant. -/
theorem State.Squashing.recovered {b n : Nat} (hn : (s.robAt b).seq = n) (h : s.Squashing n)
    (hb : (s.robAt b).busy = true) (hkind : (s.robAt b).kind = .branch) (hno : ∀ k, s.NoYounger n k) (taken : Bool)
    (target : Pc) : (recovered b n taken target s).Running := by
  obtain ⟨p, hp, htag⟩ := (h.ring.busy_iff h.sized b).1 hb
  have hk := coreKept_recovered b n taken target s
  have hentry := fun u => h.robAt_recovered_of_le hn hb (taken := taken) (target := target) (u := u)
  have hbusy := fun u => h.busy_of_recovered hn hb (taken := taken) (target := target) (u := u)
  have hslot : ∀ {u : Nat} {v : Slot}, (s.robAt u).busy = true → (s.robAt u).seq ≤ n → s.SlotOk u v →
      (Machine.recovered b n taken target s).SlotOk u v := by
    intro u v hu hle hv
    cases v with
    | resolved _ => trivial
    | pending w =>
      obtain ⟨hwb, hwk, hwc, hws⟩ := hv
      simp only [State.SlotOk, hentry u hu hle, hentry w hwb (by omega)]
      exact ⟨hwb, hwk, hwc, hws⟩
  have hring := truncateRob_dense h.ring h.sized hp htag (robKept_purgeCdb n _) taken target
  have hrat := recovered_renamingOk (n := n) h.rat h.ring hp htag (by rw [State.nthEntry, ← htag, hkind]) taken target
  obtain ⟨pc, nextSeq, rat, cdb, heq⟩ := recovered_eq b n taken target s
  have hstation : ∀ k i, (Machine.recovered b n taken target s).station k i = s.station k i := by
    intro k i; rw [heq]; rfl
  have hcount : (Machine.recovered b n taken target s).rob.count = p + 1 := by
    rw [heq, htag]; exact truncateRob_count h.ring hp
  have hport : (Machine.recovered b n taken target s).port = s.port := by rw [heq]
  have hpools : (Machine.recovered b n taken target s).pools = s.pools := by rw [heq]
  refine ⟨⟨h.sized.of_shapeKept hk.toShapeKept, hring.ring, hrat, ?_, hk.mem ▸ h.mem, ?_, ?_, ?_, ?_, ?_⟩, ?_, ?_⟩
  · rw [heq]; exact h.noFault
  · intro u hu
    obtain ⟨hsu, hle⟩ := hbusy u hu
    rw [hentry u hsu hle, hk.cycle]
    exact h.entries u hsu
  · intro k i hki
    rw [hstation] at hki ⊢
    have hold := h.stations k i hki
    have hsame := hentry _ hold.inFlight (hno k i hki)
    refine ⟨hsame ▸ hold.inFlight, hsame ▸ hold.op, hold.table, hsame ▸ hold.completes,
      hslot hold.inFlight (hno k i hki) hold.slotJ, hslot hold.inFlight (hno k i hki) hold.slotK, ?_⟩
    rw [hsame, hk.cycle]
    exact hold.phase
  · intro k i k' i' hki hki' hd
    rw [hstation] at hki hki'
    rw [hstation, hstation] at hd
    exact h.unique k i k' i' hki hki' hd
  · exact h.units.of_same hk.cfg hpools fun k => executingCount_congr (hk.tables k) fun i => by rw [hstation]
  · refine h.port.of_same hport (fun i => by rw [hstation]) fun hc => ?_
    obtain ⟨-, hst, hd, hrem⟩ := h.port.commit hc
    rw [hk.head, (hk.entry _).kind, (hk.entry _).done, hcount, hk.cfg]
    exact ⟨by omega, hst, hd, hrem⟩
  · intro u hu _ hc
    obtain ⟨hsu, hle⟩ := hbusy u hu
    rw [hentry u hsu hle] at hc
    obtain ⟨k, i, hki⟩ := h.stationed u hsu hle hc
    exact ⟨k, i, by rw [hstation]; exact hki⟩
  · intro k i _
    rw [hstation, hk.cfg]
    exact h.counting k i id

end Recovery

/-- Squash and recovery of a branch in flight keep the invariant and raise no fault. -/
theorem State.Running.squash {s : State} (h : s.Running) {b : Nat} (hb : (s.robAt b).busy = true)
    (hkind : (s.robAt b).kind = .branch) (taken : Bool) (target : Pc) :
    (unlessFaulted (recover b taken target) (squash b s)).Running := by
  have hsq : s.Squashing (s.robAt b).seq :=
    ⟨h.toMid, fun t ht _ hc => h.stationed t ht trivial hc, h.counting⟩
  obtain ⟨hend, hall, -⟩ := hsq.squashTables tableOrder
  have hk := robKept_squashTables (s.robAt b).seq tableOrder s
  have hseq := (hk.entry b).seq
  rw [squash_recover_of_noFault b taken target hend.noFault]
  exact hend.recovered hseq (by rw [hk.busy, hb]) ((hk.entry b).kind.trans hkind)
    (fun k => hall k (by cases k <;> decide)) taken target

end Sys2Proof.Machine

/-! ### The execute stage keeps the invariant between stages -/

namespace Sys2Proof.Machine

/-- What a visit to an entry whose instruction is in flight can do: no fault is among it (40_engine_cycle.md R222). -/
theorem visit_cases_of_inFlight {k : FuClass} {i : Nat} {s : State} (hb : (s.station k i).busy = true)
    (hr : (s.robAt (s.station k i).dest).busy = true) :
    visit k i s = s ∨
    ((s.station k i).phase = .waiting ∧ s.canStart k i = true ∧ visit k i s = start k i s) ∨
    ((s.station k i).phase = .executing ∧ visit k i s = executingStep k i s) ∨
    ((s.station k i).phase = .memWait ∧ visit k i s = memWaitStep i s) ∨
    ((s.station k i).phase = .memAccess ∧ visit k i s = memAccessStep i s) := by
  unfold visit
  cases hp : (s.station k i).phase
  case waiting => cases hc : s.canStart k i <;> simp [hb, hr, hp]
  all_goals simp [hb, hr, hp]

section Visit

variable {s : State} {k : FuClass} {i : Nat}

/-- A branch resolves: the engine goes on, or squashes and recovers (44_branch_recovery.md R364 to R378). -/
theorem State.RunningBut.finish_br (h : s.RunningBut .br i) (hb : (s.station .br i).busy = true)
    (hp : (s.station .br i).phase = .executing) : (finish .br i s).Running := by
  have hold := h.stations .br i hb
  have hres := h.resolved hb hp
  have hf := visited_finishing hold.inFlight
  have hdest : ((finishing .br i s).station .br i).dest = (s.station .br i).dest := by rw [hf.station]
  have hkept := (hf.resolved hb hold.inFlight).kept
  have heq : finish .br i s = resolveBranch i (finishing .br i s) := rfl
  rw [heq]
  obtain hr | ⟨taken, target, hr⟩ := resolveBranch_cases i (finishing .br i s) <;> rw [hr]
  · exact hres
  · rw [hdest]
    exact hres.squash ((hkept.busy _).trans hold.inFlight) ((hkept.entry _).kind.trans (h.branch_kind hb)) taken target

theorem State.RunningBut.finish (h : s.RunningBut k i) (hb : (s.station k i).busy = true)
    (hp : (s.station k i).phase = .executing) : (finish k i s).Running := by
  by_cases hls : k = .ls
  · subst hls; exact h.finish_ls hb hp
  · by_cases hbr : k = .br
    · subst hbr; exact h.finish_br hb hp
    · exact h.finish_arith hb hp hls hbr

theorem latency_pos {c : Config} (h : c.legal = true) (k : FuClass) : 0 < Config.latency c k := by
  simp only [Config.legal, Config.latenciesLegal, inRange, List.all_cons, List.all_nil, Bool.and_true, id,
    Bool.and_eq_true, decide_eq_true_eq] at h
  obtain ⟨-, -, -, ⟨⟨⟨hfp, -⟩, ⟨hint, -⟩, ⟨hmult, -⟩, hls, -⟩, -⟩, -⟩ := h
  cases k <;> simp only [Config.latency, ClassMap.get] <;> omega

theorem State.Sized.latency_pos {s : State} (h : s.Sized) (k : FuClass) : 0 < Config.latency s.cfg k :=
  Machine.latency_pos (Bool.and_eq_true_iff.1 h.legal).1 k

/-- An entry starts, and finishes at once when its latency is 1 (40_engine_cycle.md R225). -/
theorem State.Running.start (h : s.Running) (hb : (s.station k i).busy = true)
    (hp : (s.station k i).phase = .waiting) (hc : s.canStart k i = true) : (start k i s).Running := by
  have hbut := h.started hb hp hc
  have hv := visited_started hb (h.stations k i hb).inFlight
  rw [start_eq]
  split
  · exact hbut.finish (by rw [hv.station]; exact hb) (by rw [hv.station])
  · refine hbut.running ?_
    rw [hv.station, hv.kept.cfg]
    have := h.sized.latency_pos k
    exact fun _ => ⟨fun _ => ⟨by dsimp only; omega, by dsimp only; omega⟩, fun hn => (by cases hn)⟩

/-- The countdown of a unit: it goes on or the entry finishes (40_engine_cycle.md R222). -/
theorem State.Running.executingStep (h : s.Running) (hb : (s.station k i).busy = true)
    (hp : (s.station k i).phase = .executing) : (executingStep k i s).Running := by
  have hbut := h.countdown hb (by simp [hp])
  have hv := visited_countdown hb
  obtain ⟨s1, rfl, ⟨heq, hne⟩ | ⟨heq, -⟩⟩ := executingStep_cases k i s <;> rw [heq]
  · refine hbut.running ?_
    rw [hv.station] at hne ⊢
    rw [hv.kept.cfg]
    have hcount := (h.counting k i id hb).1 hp
    simp only at hne
    exact fun _ => ⟨fun _ => ⟨by dsimp only; omega, by dsimp only; omega⟩,
      fun hn => absurd (hp.symm.trans hn) (by simp)⟩
  · exact hbut.finish (by rw [hv.station]; exact hb) (by rw [hv.station]; exact hp)

/-- The countdown of a memory access: it goes on or the load finishes (43_load_store.md R324). -/
theorem State.Running.memAccessStep (h : s.Running) (hb : (s.station .ls i).busy = true)
    (hp : (s.station .ls i).phase = .memAccess) : (memAccessStep i s).Running := by
  have hbut := h.countdown hb (by simp [hp])
  have hv := visited_countdown hb
  obtain ⟨s1, rfl, ⟨heq, hne⟩ | heq⟩ := memAccessStep_cases i s <;> rw [heq]
  · refine hbut.running ?_
    rw [hv.station] at hne ⊢
    rw [hv.kept.cfg]
    have hcount := (h.counting .ls i id hb).2 hp
    simp only at hne
    exact fun _ => ⟨fun hn => absurd (hp.symm.trans hn) (by simp),
      fun _ => ⟨by dsimp only; omega, by dsimp only; omega⟩⟩
  · exact hbut.loadFinish (by rw [hv.station]; exact hb) (by rw [hv.station]; exact hp)

/-- A waiting load waits, forwards, or starts its memory access (43_load_store.md R324 to R327). -/
theorem State.Running.memWaitStep (h : s.Running) (hb : (s.station .ls i).busy = true)
    (hp : (s.station .ls i).phase = .memWait) : (memWaitStep i s).Running := by
  obtain heq | ⟨q, -, -, heq⟩ | ⟨-, ho, heq⟩ := memWaitStep_cases i s <;> rw [heq]
  · exact h
  · exact h.forward hb hp q
  · have hbut := h.loadStarted hb hp ho
    have hv := visited_loadStarted hb (h.stations .ls i hb).inFlight
    obtain ⟨s1, rfl, ⟨heq, hne⟩ | heq⟩ := loadStart_cases i s <;> rw [heq]
    · refine hbut.running ?_
      rw [hv.station, hv.kept.cfg]
      exact fun _ => ⟨fun hn => (by cases hn), fun _ => ⟨by dsimp only; omega, by dsimp only; omega⟩⟩
    · exact hbut.loadFinish (by rw [hv.station]; exact hb) (by rw [hv.station])

/-- Every visit of the execute stage keeps the invariant. -/
theorem State.Running.visit (h : s.Running) (k : FuClass) (i : Nat) : (visit k i s).Running := by
  cases hb : (s.station k i).busy
  · have heq : Machine.visit k i s = s := by simp [Machine.visit, hb]
    rw [heq]
    exact h
  · have hold := h.stations k i hb
    have hls : (s.station k i).op = .ld → k = .ls := fun hop =>
      (Option.some.inj ((congrArg Op.fuClass hop).symm.trans hold.table)).symm
    have hfits := hold.phase
    obtain heq | ⟨hp, hc, heq⟩ | ⟨hp, heq⟩ | ⟨hp, heq⟩ | ⟨hp, heq⟩ := visit_cases_of_inFlight hb hold.inFlight <;>
      rw [heq]
    · exact h
    · exact h.start hb hp hc
    · exact h.executingStep hb hp
    · simp only [PhaseFits, hp] at hfits
      obtain rfl := hls hfits.2.2.1
      exact h.memWaitStep hb hp
    · simp only [PhaseFits, hp] at hfits
      obtain rfl := hls hfits.2.2.1
      exact h.memAccessStep hb hp

/-- The execute stage keeps the invariant and raises no fault. -/
theorem State.Running.execute (h : s.Running) : (execute s).Running := by
  refine foldUnlessFaulted_keeps State.Running _ _ (fun k _ t _ ht => ?_) h
  unfold scanTable
  rw [ht.danglingStation k]
  exact foldUnlessFaulted_keeps State.Running _ _ (fun i _ u _ hu => hu.visit k i) ht

end Visit

end Sys2Proof.Machine

/-! ## Write-back keeps the invariant between stages -/

namespace Sys2Proof.Machine

section Capture

variable (tag : Nat) (v : Word) (e : RsEntry)

@[simp] theorem captureBroadcast_busy : (captureBroadcast tag v e).busy = e.busy := by
  unfold captureBroadcast; split <;> rfl
@[simp] theorem captureBroadcast_op : (captureBroadcast tag v e).op = e.op := by
  unfold captureBroadcast; split <;> rfl
@[simp] theorem captureBroadcast_dest : (captureBroadcast tag v e).dest = e.dest := by
  unfold captureBroadcast; split <;> rfl
@[simp] theorem captureBroadcast_phase : (captureBroadcast tag v e).phase = e.phase := by
  unfold captureBroadcast; split <;> rfl
@[simp] theorem captureBroadcast_remaining : (captureBroadcast tag v e).remaining = e.remaining := by
  unfold captureBroadcast; split <;> rfl
@[simp] theorem captureBroadcast_addr : (captureBroadcast tag v e).addr = e.addr := by
  unfold captureBroadcast; split <;> rfl
@[simp] theorem captureBroadcast_addrValid : (captureBroadcast tag v e).addrValid = e.addrValid := by
  unfold captureBroadcast; split <;> rfl

variable {e}

theorem captureBroadcast_j (hb : e.busy = true) : (captureBroadcast tag v e).j = e.j.capture tag v := by
  simp [captureBroadcast, hb]

theorem captureBroadcast_k (hb : e.busy = true) : (captureBroadcast tag v e).k = e.k.capture tag v := by
  simp [captureBroadcast, hb]

variable {tag v}

theorem Slot.ready_capture {x : Slot} (h : x.ready = true) : (x.capture tag v).ready = true := by
  cases x with
  | resolved _ => rfl
  | pending _ => cases h

/-- Resolving waiting operands disturbs no phase. -/
theorem PhaseFits.capture {c : Nat} {r : RobEntry} (hb : e.busy = true) (h : PhaseFits c e r) :
    PhaseFits c (captureBroadcast tag v e) r := by
  have hj : e.j.ready = true → (captureBroadcast tag v e).j.ready = true := fun hr => by
    rw [captureBroadcast_j tag v hb]; exact Slot.ready_capture hr
  have hk : e.k.ready = true → (captureBroadcast tag v e).k.ready = true := fun hr => by
    rw [captureBroadcast_k tag v hb]; exact Slot.ready_capture hr
  have hcycle : readyCycle (captureBroadcast tag v e) r.timing = readyCycle e r.timing := by simp [readyCycle]
  unfold PhaseFits at h ⊢
  rw [hcycle]
  simp only [captureBroadcast_phase, captureBroadcast_op, captureBroadcast_addr, captureBroadcast_addrValid]
  cases hp : e.phase <;> simp only [hp] at h ⊢
  case waiting => exact h
  all_goals exact ⟨hj h.1, hk h.2.1, h.2.2⟩

end Capture

/-- No arbitration meets a dead tag where no station has one. -/
theorem arbitrate_ne_dangling {s : State} (h : ∀ k, s.danglingStation k = none) (ks : List FuClass) (u : Nat) :
    s.arbitrate ks ≠ .dangling u := by
  induction ks with
  | nil => simp [State.arbitrate]
  | cons k ks ih =>
    unfold State.arbitrate
    rw [h k]
    simp only
    split
    · simp
    · exact ih

/-- Every opcode that writes a register has a row in the result table (40_engine_cycle.md R232). -/
theorem resultOf_ne_none {e : RsEntry} (h : e.op.kind = .reg) : resultOf e ≠ none := by
  unfold resultOf
  cases ho : e.op <;> simp_all [Op.kind]

theorem danglingSlot_eq_none {s : State} {u : Nat} {v : Slot} (h : s.SlotOk u v) : s.danglingSlot v = none := by
  cases v with
  | resolved _ => rfl
  | pending w =>
    have hb : (s.robAt w).busy = true := h.1
    simp [State.danglingSlot, hb]

/-- The drain meets no dead tag where all stations and their operands are in flight. -/
theorem danglingOperand_eq_none {s : State} {k : FuClass}
    (hst : ∀ i, (s.station k i).busy = true → (s.robAt (s.station k i).dest).busy = true)
    (hslot : ∀ i, (s.station k i).busy = true →
      s.SlotOk (s.station k i).dest (s.station k i).j ∧ s.SlotOk (s.station k i).dest (s.station k i).k) :
    s.danglingOperand k = none := by
  unfold State.danglingOperand
  rw [(danglingStation_eq_none s k).2 hst]
  refine List.findSome?_eq_none_iff.2 fun i hi => ?_
  obtain ⟨hj, hk⟩ := hslot i ((mem_ageOrder s k i).1 hi)
  rw [danglingSlot_eq_none hj, danglingSlot_eq_none hk]

/-- What the drain does when no tag dangles (40_engine_cycle.md R235, R236). -/
def drained (s : State) : State :=
  { s with rs := s.rs.map (List.map (captureBroadcast s.cdb.tag s.cdb.value)) }.modifyRob s.cdb.tag (fun r =>
    { r with value := s.cdb.value, complete := true, timing := { r.timing with wb := some s.cycle } })

theorem drainCdb_eq {s : State} (h : ∀ k, s.danglingOperand k = none) : drainCdb s = drained s := by
  unfold drainCdb
  rw [List.findSome?_eq_none_iff.2 fun k _ => h k]
  rfl

theorem station_drained (s : State) (c : FuClass) (m : Nat) :
    (drained s).station c m = captureBroadcast s.cdb.tag s.cdb.value (s.station c m) := by
  have htable : (drained s).table c = (s.table c).map (captureBroadcast s.cdb.tag s.cdb.value) := get_map _ _ _
  rw [State.station, htable, List.getElem?_map, State.station]
  cases (s.table c)[m]? <;> rfl

section Broadcast

variable {s : State} {k : FuClass} {i : Nat} {v : Word}

/-- The CDB is written and the winner has left its table (40_engine_cycle.md R233, R234). -/
def onBus (k : FuClass) (i : Nat) (v : Word) (s : State) : State :=
  { s with cdb := ⟨true, (s.station k i).dest, (s.robAt (s.station k i).dest).dest, v,
      (s.robAt (s.station k i).dest).seq⟩ }.modifyStation k i (fun e => { e with busy := false })

theorem broadcast_eq_drainCdb (k : FuClass) (i : Nat) (v : Word) (s : State) :
    broadcast k i v s = drainCdb (onBus k i v s) := rfl

theorem station_onBus_of_busy {c : FuClass} {m : Nat} (hb : ((onBus k i v s).station c m).busy = true) :
    (onBus k i v s).station c m = s.station c m ∧ ¬(c = k ∧ m = i) := by
  have hst : (onBus k i v s).station c m =
      if c = k ∧ m = i ∧ m < (s.table k).length then { s.station c m with busy := false } else s.station c m :=
    station_modifyStation _ k c i m _
  rw [hst] at hb ⊢
  split at hb
  · cases hb
  · next hne =>
    refine ⟨if_neg hne, fun hcm => hne ⟨hcm.1, hcm.2, ?_⟩⟩
    rw [← hcm.1]
    exact lt_length_of_station_busy hb

/-- Under the invariant the broadcast drains without a fault. -/
theorem State.Mid.broadcast_eq (h : s.Mid) (k : FuClass) (i : Nat) (v : Word) :
    broadcast k i v s = drained (onBus k i v s) := by
  rw [broadcast_eq_drainCdb]
  have hrob : ∀ u, (onBus k i v s).robAt u = s.robAt u := fun _ => rfl
  refine drainCdb_eq fun c => danglingOperand_eq_none (fun m hm => ?_) fun m hm => ?_
  · have heq := (station_onBus_of_busy hm).1
    rw [heq] at hm ⊢
    exact (h.stations c m hm).inFlight
  · have heq := (station_onBus_of_busy hm).1
    rw [heq] at hm ⊢
    exact ⟨(h.stations c m hm).slotJ.of_robAt hrob, (h.stations c m hm).slotK.of_robAt hrob⟩

/-- A station that is busy after the broadcast is another than the winner's, with its operands captured. -/
theorem station_drained_onBus_of_busy {c : FuClass} {m : Nat}
    (hb : ((drained (onBus k i v s)).station c m).busy = true) :
    (drained (onBus k i v s)).station c m = captureBroadcast (s.station k i).dest v (s.station c m) ∧
      (s.station c m).busy = true ∧ ¬(c = k ∧ m = i) := by
  rw [station_drained] at hb ⊢
  rw [captureBroadcast_busy] at hb
  obtain ⟨heq, hne⟩ := station_onBus_of_busy hb
  rw [heq] at hb ⊢
  exact ⟨rfl, hb, hne⟩

theorem station_drained_onBus_other {c : FuClass} {m : Nat} (hne : ¬(c = k ∧ m = i)) :
    (drained (onBus k i v s)).station c m = captureBroadcast (s.station k i).dest v (s.station c m) := by
  have hst : (onBus k i v s).station c m =
      if c = k ∧ m = i ∧ m < (s.table k).length then { s.station c m with busy := false } else s.station c m :=
    station_modifyStation _ k c i m _
  rw [station_drained, hst, if_neg fun h => hne ⟨h.1, h.2.1⟩]
  rfl

theorem robAt_drained_onBus (hr : (s.robAt (s.station k i).dest).busy = true) (u : Nat) :
    (drained (onBus k i v s)).robAt u = if u = (s.station k i).dest then
      { s.robAt u with value := v, complete := true, timing := { (s.robAt u).timing with wb := some s.cycle } }
    else s.robAt u := by
  have hlt := lt_length_of_busy hr
  have hrob : (drained (onBus k i v s)).robAt u = (s.modifyRob (s.station k i).dest (fun r =>
      { r with value := v, complete := true, timing := { r.timing with wb := some s.cycle } })).robAt u := rfl
  rw [hrob, robAt_modifyRob]
  by_cases h : u = (s.station k i).dest
  · rw [if_pos ⟨h, h ▸ hlt⟩, if_pos h]
  · rw [if_neg fun hc => h hc.1, if_neg h]

/-- An operand that was good is good after its capture. -/
theorem slotOk_drained_onBus (hr : (s.robAt (s.station k i).dest).busy = true) {u : Nat} {x : Slot}
    (hx : s.SlotOk u x) : (drained (onBus k i v s)).SlotOk u (x.capture (s.station k i).dest v) := by
  have hrob := robAt_drained_onBus (v := v) hr
  have hseq : ((drained (onBus k i v s)).robAt u).seq = (s.robAt u).seq := by
    rw [hrob]
    split <;> rfl
  cases x with
  | resolved _ => trivial
  | pending w =>
    by_cases hw : w = (s.station k i).dest
    · rw [Slot.capture, if_pos hw]
      trivial
    · rw [Slot.capture, if_neg hw, State.SlotOk, hseq, hrob, if_neg hw]
      exact hx

/-- The winner has neither a unit nor the port, so its leaving changes neither account. -/
theorem holds_drained_onBus (hp : (s.station k i).phase = .resultReady) (c : FuClass) (m : Nat) :
    ((drained (onBus k i v s)).station c m).holdsUnit = (s.station c m).holdsUnit ∧
      ((drained (onBus k i v s)).station c m).accessing = (s.station c m).accessing := by
  by_cases hcm : c = k ∧ m = i
  · obtain ⟨rfl, rfl⟩ := hcm
    have hfree : ((drained (onBus c m v s)).station c m).busy = false := by
      by_contra hne
      exact (station_drained_onBus_of_busy (by simpa using hne)).2.2 ⟨rfl, rfl⟩
    simp [RsEntry.holdsUnit, RsEntry.accessing, hfree, hp]
  · rw [station_drained_onBus_other hcm]
    simp [RsEntry.holdsUnit, RsEntry.accessing]

/-- A station that is busy after the broadcast is as it was but for the capture, and so is its instruction. -/
theorem State.Mid.station_of_busy_drained (h : s.Mid) (hb : (s.station k i).busy = true) {c : FuClass} {m : Nat}
    (hcm : ((drained (onBus k i v s)).station c m).busy = true) :
    (drained (onBus k i v s)).station c m = captureBroadcast (s.station k i).dest v (s.station c m) ∧
      (s.station c m).busy = true ∧
      (drained (onBus k i v s)).robAt (s.station c m).dest = s.robAt (s.station c m).dest := by
  obtain ⟨heq, hsb, hne⟩ := station_drained_onBus_of_busy hcm
  refine ⟨heq, hsb, ?_⟩
  rw [robAt_drained_onBus (h.stations k i hb).inFlight, if_neg fun hd => hne (h.unique c m k i hsb hb hd)]

/-- What the remaining stations hold, they hold after the capture. -/
theorem State.Mid.holds_of_busy_drained (h : s.Mid) (hb : (s.station k i).busy = true) {c : FuClass} {m : Nat}
    (hcm : ((drained (onBus k i v s)).station c m).busy = true) :
    (drained (onBus k i v s)).Holds c ((drained (onBus k i v s)).station c m) := by
  obtain ⟨heq, hsb, hent⟩ := h.station_of_busy_drained hb hcm
  have hold := h.stations c m hsb
  have hslot := fun {u : Nat} {x : Slot} (hx : s.SlotOk u x) =>
    slotOk_drained_onBus (v := v) (h.stations k i hb).inFlight hx
  rw [heq]
  refine ⟨?_, ?_, ?_, ?_, ?_, ?_, ?_⟩
  · rw [captureBroadcast_dest, hent]; exact hold.inFlight
  · rw [captureBroadcast_dest, captureBroadcast_op, hent]; exact hold.op
  · rw [captureBroadcast_op]; exact hold.table
  · rw [captureBroadcast_dest, captureBroadcast_phase, hent]; exact hold.completes
  · rw [captureBroadcast_dest, captureBroadcast_j _ _ hsb]; exact hslot hold.slotJ
  · rw [captureBroadcast_dest, captureBroadcast_k _ _ hsb]; exact hslot hold.slotK
  · rw [captureBroadcast_dest, hent]; exact hold.phase.capture hsb

/-- Only the winner's instruction, no store and now complete, is in no station any more. -/
theorem State.Running.stationed_drained (h : s.Running) (hb : (s.station k i).busy = true)
    (hp : (s.station k i).phase = .resultReady) : (drained (onBus k i v s)).Stationed (fun _ => True) := by
  have hwin := h.stations k i hb
  have hreg : (s.robAt (s.station k i).dest).kind = .reg := by
    have hfits := hwin.phase
    simp only [PhaseFits, hp] at hfits
    rw [(h.entries _ hwin.inFlight).kind, hwin.op, hfits.2.2.1]
  intro u hu _ hc
  rw [robAt_drained_onBus hwin.inFlight] at hu hc
  have hne : u ≠ (s.station k i).dest := by
    rintro rfl
    rw [if_pos rfl] at hc
    simp [hreg] at hc
  rw [if_neg hne] at hu hc
  obtain ⟨c, m, hcm, hd⟩ := h.stationed u hu trivial hc
  have hcmne : ¬(c = k ∧ m = i) := by
    rintro ⟨rfl, rfl⟩
    exact hne hd.symm
  refine ⟨c, m, ?_⟩
  rw [station_drained_onBus_other hcmne, captureBroadcast_busy, captureBroadcast_dest]
  exact ⟨hcm, hd⟩

/-- A broadcast completes its instruction, wakes those that waited for it, and keeps the invariant
(40_engine_cycle.md R233 to R236). -/
theorem State.Running.broadcast (h : s.Running) (hb : (s.station k i).busy = true)
    (hp : (s.station k i).phase = .resultReady) (v : Word) : (broadcast k i v s).Running := by
  have hkept := robKept_broadcast k i v s
  rw [h.broadcast_eq] at hkept ⊢
  refine ⟨h.toMid.of_kept hkept rfl (fun u hu => ?_) (fun c m hcm => h.holds_of_busy_drained hb hcm)
    (fun c m c' m' hcm hcm' hd => ?_)
    (h.units.of_same hkept.cfg rfl fun c =>
      executingCount_congr (hkept.tables c) fun m => (holds_drained_onBus hp c m).1)
    (h.port.of_robKept hkept rfl fun m => (holds_drained_onBus hp .ls m).2), h.stationed_drained hb hp,
    fun c m _ hcm => ?_⟩
  · have hgood := h.entries u ((hkept.busy u).symm.trans hu)
    rw [hkept.cycle, robAt_drained_onBus (h.stations k i hb).inFlight]
    split
    · exact ⟨hgood.kind, fun _ => rfl, fun _ => rfl, hgood.issued⟩
    · exact hgood
  · obtain ⟨heq, hsb, -⟩ := h.station_of_busy_drained hb hcm
    obtain ⟨heq', hsb', -⟩ := h.station_of_busy_drained hb hcm'
    rw [heq, heq', captureBroadcast_dest, captureBroadcast_dest] at hd
    exact h.unique c m c' m' hsb hsb' hd
  · obtain ⟨heq, hsb, -⟩ := h.station_of_busy_drained hb hcm
    rw [heq, captureBroadcast_phase, captureBroadcast_remaining, hkept.cfg]
    exact h.counting c m id hsb

end Broadcast

/-- The write-back stage keeps the invariant and raises no fault (40_engine_cycle.md R230 to R237). -/
theorem State.Running.writeBack {s : State} (h : s.Running) : (writeBack s).Running := by
  unfold Machine.writeBack
  split
  · exact h
  · next u hd => exact absurd hd (arbitrate_ne_dangling h.danglingStation _ u)
  · next k i hw =>
    obtain ⟨-, -, -, -, hcand, -⟩ := arbitrate_winner hw
    simp only [State.isCandidate, Bool.and_eq_true, decide_eq_true_eq] at hcand
    obtain ⟨⟨hb, hp⟩, -⟩ := hcand
    have hfits := (h.stations k i hb).phase
    simp only [PhaseFits, hp] at hfits
    split
    · next hnone => exact absurd hnone (resultOf_ne_none hfits.2.2.1)
    · next v _ => exact h.broadcast hb hp v

/-- Execute and write-back keep the invariant and raise no fault. -/
theorem State.Running.executeAndWriteBack {s : State} (h : s.Running) : (executeAndWriteBack s).Running :=
  unlessFaulted_keeps State.Running _ (fun _ _ ht => ht.writeBack)
    (unlessFaulted_keeps State.Running _ (fun _ _ ht => ht.execute) h)

end Sys2Proof.Machine

/-! ## Issue keeps the invariant between stages -/

namespace Sys2Proof.Machine

/-- A RAT entry that names a tag names the place of an older writer of the register (10_state.md R40). -/
theorem youngestWriter_eq_rob {s : State} {r : Reg} {n u : Nat} (h : s.youngestWriter r n = .rob u) :
    ∃ m < n, u = s.tagAt m ∧ (s.nthEntry m).kind = .reg ∧ (s.nthEntry m).dest = r := by
  induction n with
  | zero => cases h
  | succ n ih =>
    unfold State.youngestWriter at h
    split at h
    · next hk => exact ⟨n, by omega, (RatEntry.rob.inj h).symm, hk.1, hk.2⟩
    · obtain ⟨m, hm, hrest⟩ := ih h
      exact ⟨m, by omega, hrest⟩

/-- `t` is `s` with one more instruction, in ROB entry `r` at the old tail and, unless it is complete at once, in
station `(c₀, i₀)`. -/
structure State.Entered (s t : State) (r : RobEntry) (c₀ : FuClass) (i₀ : Nat) : Prop where
  shape : s.ShapeKept t
  dense : s.Dense t
  intRegs : t.intRegs = s.intRegs
  fpRegs : t.fpRegs = s.fpRegs
  mem : t.mem = s.mem
  port : t.port = s.port
  pools : t.pools = s.pools
  fault : t.fault = s.fault
  head : t.rob.head = s.rob.head
  count : t.rob.count = s.rob.count + 1
  entries : ∀ u, t.robAt u = if u = s.rob.tail then r else s.robAt u
  rat : ∀ q, t.rat.lookup q = if r.kind = .reg ∧ r.dest = q then .rob s.rob.tail else s.rat.lookup q
  good : r.Good s.cycle
  notDone : r.done = false
  ckpt : r.kind = .branch → r.ckpt = s.rat
  stations : ∀ c m, ¬(c = c₀ ∧ m = i₀) → t.station c m = s.station c m
  station : (t.station c₀ i₀ = s.station c₀ i₀ ∧ r.complete = true ∧ r.kind ≠ .store) ∨
    ((s.station c₀ i₀).busy = false ∧ (t.station c₀ i₀).busy = true ∧ t.Holds c₀ (t.station c₀ i₀) ∧
      (t.station c₀ i₀).dest = s.rob.tail ∧ (t.station c₀ i₀).phase = .waiting)

section Entered

variable {s t : State} {r : RobEntry} {c₀ : FuClass} {i₀ : Nat}

/-- The tail names no instruction in flight while the ROB is not full. -/
theorem State.RingOk.tail_free (hr : s.RingOk) (hc : s.rob.count < s.cfg.robSize) :
    (s.robAt s.rob.tail).busy = false := by
  rw [hr.tail_eq_tagAt]
  exact (hr.busy _ hc).trans (by simp)

theorem ne_tail_of_busy (hr : s.RingOk) (hc : s.rob.count < s.cfg.robSize) {u : Nat}
    (hu : (s.robAt u).busy = true) : u ≠ s.rob.tail := by
  rintro rfl
  exact absurd ((hr.tail_free hc).symm.trans hu) (by simp)

theorem State.Entered.nthEntry (he : s.Entered t r c₀ i₀) (hr : s.RingOk) (hc : s.rob.count < s.cfg.robSize) {n : Nat}
    (hn : n < s.cfg.robSize) : t.nthEntry n = if n = s.rob.count then r else s.nthEntry n := by
  have htag : t.tagAt n = s.tagAt n := by rw [State.tagAt, he.head, he.shape.cfg, State.tagAt]
  rw [State.nthEntry, htag, he.entries, hr.tail_eq_tagAt]
  by_cases h : n = s.rob.count
  · rw [h, if_pos rfl, if_pos rfl]
  · rw [if_neg fun hcon => h (hr.tagAt_inj hn hc hcon), if_neg h]
    rfl

/-- The RAT and the new branch's checkpoint name the youngest writers (10_state.md R40, R49). -/
theorem State.Entered.renamingOk (he : s.Entered t r c₀ i₀) (h : s.RenamingOk) (hr : s.RingOk)
    (hc : s.rob.count < s.cfg.robSize) : t.RenamingOk := by
  have htag : ∀ n, t.tagAt n = s.tagAt n := fun n => by rw [State.tagAt, he.head, he.shape.cfg, State.tagAt]
  have hold : ∀ n < s.rob.count, t.nthEntry n = s.nthEntry n := fun n hn => by
    rw [he.nthEntry hr hc (by omega), if_neg (by omega)]
  have hyw : ∀ q, ∀ n ≤ s.rob.count, t.youngestWriter q n = s.youngestWriter q n := fun q n hn =>
    youngestWriter_congr q n (fun m _ => htag m) (fun m hm => by rw [hold m (by omega)])
      (fun m hm => by rw [hold m (by omega)])
  have hnew : t.nthEntry s.rob.count = r := by rw [he.nthEntry hr hc hc, if_pos rfl]
  refine ⟨fun q => ?_, fun n hn hk q => ?_⟩
  · rw [he.rat, he.count, State.youngestWriter, hnew, htag, hyw q _ le_rfl, ← h.rat q, hr.tail_eq_tagAt]
  · rw [he.count] at hn
    by_cases hnc : n = s.rob.count
    · subst hnc
      rw [hnew] at hk ⊢
      rw [he.ckpt hk, hyw q _ le_rfl]
      exact h.rat q
    · rw [hold n (by omega)] at hk ⊢
      rw [hyw q n (by omega)]
      exact h.ckpt n (by omega) hk q

theorem State.Entered.accessing (he : s.Entered t r c₀ i₀) (c : FuClass) (m : Nat) :
    (t.station c m).holdsUnit = (s.station c m).holdsUnit ∧
      (t.station c m).accessing = (s.station c m).accessing := by
  by_cases hcm : c = c₀ ∧ m = i₀
  · obtain ⟨rfl, rfl⟩ := hcm
    obtain ⟨heq, -⟩ | ⟨hfree, -, -, -, hp⟩ := he.station
    · rw [heq]; exact ⟨rfl, rfl⟩
    · simp [RsEntry.holdsUnit, RsEntry.accessing, hfree, hp]
  · rw [he.stations c m hcm]; exact ⟨rfl, rfl⟩

/-- A station that is busy after an issue is as it was, or holds the new instruction. -/
theorem State.Entered.busy_station (he : s.Entered t r c₀ i₀) {c : FuClass} {m : Nat}
    (hb : (t.station c m).busy = true) :
    (t.station c m = s.station c m ∧ (s.station c m).busy = true) ∨
    (c = c₀ ∧ m = i₀ ∧ t.Holds c (t.station c m) ∧ (t.station c m).dest = s.rob.tail ∧
      (t.station c m).phase = .waiting) := by
  by_cases hcm : c = c₀ ∧ m = i₀
  · obtain ⟨rfl, rfl⟩ := hcm
    obtain ⟨heq, -⟩ | ⟨-, -, hh, hd, hp⟩ := he.station
    · exact .inl ⟨heq, heq ▸ hb⟩
    · exact .inr ⟨rfl, rfl, hh, hd, hp⟩
  · have heq := he.stations c m hcm
    exact .inl ⟨heq, heq ▸ hb⟩

/-- A new instruction that fits its entry and station joins the invariant. -/
theorem State.Running.entered (h : s.Running) (hc : s.rob.count < s.cfg.robSize) (he : s.Entered t r c₀ i₀) :
    t.Running := by
  have hkeep : ∀ u, (s.robAt u).busy = true → t.robAt u = s.robAt u := fun u hu => by
    rw [he.entries, if_neg (ne_tail_of_busy h.ring hc hu)]
  have hslot : ∀ {u : Nat} {v : Slot}, (s.robAt u).busy = true → s.SlotOk u v → t.SlotOk u v := by
    intro u v hu hv
    cases v with
    | resolved _ => trivial
    | pending w => simpa only [State.SlotOk, hkeep u hu, hkeep w hv.1] using hv
  have hdest : ∀ {c : FuClass} {m : Nat}, (s.station c m).busy = true → (s.station c m).dest ≠ s.rob.tail :=
    fun hb => ne_tail_of_busy h.ring hc (h.stations _ _ hb).inFlight
  refine ⟨⟨h.sized.of_shapeKept he.shape, he.dense.ring, he.renamingOk h.rat h.ring hc, he.fault.trans h.noFault,
    he.mem ▸ h.mem, fun u hu => ?_, fun c m hcm => ?_, fun c m c' m' hcm hcm' hd => ?_, 
    h.units.of_same he.shape.cfg he.pools fun c =>
      executingCount_congr (he.shape.tables c) fun m => (he.accessing c m).1,
    h.port.of_same he.port (fun m => (he.accessing .ls m).2) fun ho => ?_⟩,
    fun u hu _ hcomp => ?_, fun c m _ hcm => ?_⟩
  · rw [he.shape.cycle]
    rw [he.entries] at hu ⊢
    split at hu
    · next heq => rw [if_pos heq]; exact he.good
    · next hne => rw [if_neg hne]; exact h.entries u hu
  · obtain ⟨heq, hsb⟩ | ⟨-, -, hh, -⟩ := he.busy_station hcm
    · have hold := h.stations c m hsb
      have hent := hkeep _ hold.inFlight
      rw [heq]
      refine ⟨hent ▸ hold.inFlight, hent ▸ hold.op, hold.table, hent ▸ hold.completes, hslot hold.inFlight hold.slotJ,
        hslot hold.inFlight hold.slotK, ?_⟩
      rw [hent, he.shape.cycle]
      exact hold.phase
    · exact hh
  · obtain ⟨heq, hsb⟩ | ⟨hk, hi, -, hnew, -⟩ := he.busy_station hcm <;>
      obtain ⟨heq', hsb'⟩ | ⟨hk', hi', -, hnew', -⟩ := he.busy_station hcm'
    · exact h.unique c m c' m' hsb hsb' (by rw [← heq, ← heq', hd])
    · exact absurd (by rw [← heq, hd, hnew']) (hdest hsb)
    · exact absurd (by rw [← heq', ← hd, hnew]) (hdest hsb')
    · exact ⟨hk.trans hk'.symm, hi.trans hi'.symm⟩
  · obtain ⟨hpos, hrest⟩ := h.port.commit ho
    have hhead : (s.robAt s.rob.head).busy = true :=
      (h.ring.busy_iff h.sized _).2 ⟨0, hpos, h.ring.tagAt_zero.symm⟩
    rw [he.count, he.head, hkeep _ hhead, he.shape.cfg]
    exact ⟨by omega, hrest⟩
  · by_cases htail : u = s.rob.tail
    · rw [he.entries, if_pos htail] at hcomp
      obtain ⟨-, hdone, hkind⟩ | ⟨-, hb, -, hd, -⟩ := he.station
      · rcases hcomp with hcomp | hcomp
        · exact absurd (hdone.symm.trans hcomp) (by simp)
        · exact absurd hcomp hkind
      · exact ⟨c₀, i₀, hb, hd.trans htail.symm⟩
    · rw [he.entries, if_neg htail] at hu hcomp
      obtain ⟨c, m, hb, hd⟩ := h.stationed u hu trivial hcomp
      refine ⟨c, m, ?_⟩
      by_cases hcm : c = c₀ ∧ m = i₀
      · obtain ⟨rfl, rfl⟩ := hcm
        obtain ⟨heq, -⟩ | ⟨hfree, -⟩ := he.station
        · rw [heq]; exact ⟨hb, hd⟩
        · exact absurd (hfree.symm.trans hb) (by simp)
      · rw [he.stations c m hcm]; exact ⟨hb, hd⟩
  · rw [he.shape.cfg]
    obtain ⟨heq, hsb⟩ | ⟨-, -, -, -, hp⟩ := he.busy_station hcm
    · rw [heq]; exact h.counting c m id hsb
    · exact RsEntry.counts_of_phase (by simp [hp]) (by simp [hp]) hcm

end Entered

/-! ### The parts of an issue -/

theorem chooseNextPc_eq (op : Op) (t : Nat) (s : State) : ∃ pc, chooseNextPc op t s = { s with pc := pc } := by
  unfold chooseNextPc
  split
  · exact ⟨_, rfl⟩
  · exact ⟨_, rfl⟩

theorem snapshotBranch_eq (op : Op) (t : Nat) (s : State) :
    ∃ entries, snapshotBranch op t s = { s with rob := { s.rob with entries := entries } } := by
  unfold snapshotBranch
  split
  · exact ⟨_, rfl⟩
  · exact ⟨_, rfl⟩

/-- The entry of a branch holds the prediction and the RAT; any other is as allocated (44_branch_recovery.md R362,
R363). -/
theorem robAt_snapshotBranch (op : Op) (t : Nat) (s : State) (u : Nat) : (snapshotBranch op t s).robAt u =
    if op.kind = .branch ∧ u = t ∧ u < s.rob.entries.length then
      { s.robAt u with predTaken := (predict s s.pc).1, predTarget := (predict s s.pc).2, ckpt := s.rat }
    else s.robAt u := by
  unfold snapshotBranch
  split
  · next h => rw [robAt_modifyRob]; simp [h]
  · next h => simp [h]

theorem fillStation_eq {s : State} {c : FuClass} {n : Nat} (hn : s.freeStation c = some n) (f : IssueForm) (t : Nat)
    (j k : Slot) : fillStation f c t j k s = s.modifyStation c n (newStation f t j k) := by
  unfold fillStation
  rw [hn]

section Issue

variable {s : State} {f : IssueForm}

theorem State.RingOk.tail_lt (hr : s.RingOk) (hs : s.Sized) : s.rob.tail < s.rob.entries.length := by
  rw [hs.rob, hr.tail_eq_tagAt]
  exact hr.tagAt_lt _

/-- Operands resolve to values or to tags of older instructions that will write them: under the invariant issue raises
no fault (40_engine_cycle.md R213, 60_exceptions.md R404). -/
theorem State.Running.resolveOperand (h : s.Running) (hc : s.rob.count < s.cfg.robSize) (f : IssueForm) (o : Operand) :
    ∃ v, resolveOperand (allocateRob f s) o = .slot v ∧ (allocateRob f s).SlotOk s.rob.tail v := by
  cases o with
  | value v => exact ⟨_, rfl, trivial⟩
  | reg r =>
    obtain ⟨hrat, hres⟩ | ⟨u, hrat, hres⟩ := resolveReg_cases (allocateRob f s) r
    · exact ⟨_, hres, trivial⟩
    · obtain ⟨n, hn, hu, hkind, -⟩ := youngestWriter_eq_rob ((h.rat.rat r).symm.trans hrat)
      have hbusy : (s.robAt u).busy = true := (h.ring.busy_iff h.sized u).2 ⟨n, hn, hu⟩
      have hkeep : (allocateRob f s).robAt u = s.robAt u := by
        rw [robAt_allocateRob, if_neg fun hcon => ne_tail_of_busy h.ring hc hbusy hcon.1]
      have htail : (allocateRob f s).robAt s.rob.tail = newRobEntry f s (s.robAt s.rob.tail) := by
        rw [robAt_allocateRob, if_pos ⟨rfl, h.ring.tail_lt h.sized⟩]
      rw [hkeep] at hres
      obtain ⟨hb, -⟩ | ⟨-, -, hres⟩ | ⟨-, hcomp, hres⟩ := hres
      · exact absurd (hbusy.symm.trans hb) (by simp)
      · exact ⟨_, hres, trivial⟩
      · refine ⟨_, hres, ?_⟩
        simp only [State.SlotOk, hkeep, htail, newRobEntry]
        refine ⟨hbusy, by rw [hu]; exact hkind, hcomp, ?_⟩
        have hseq := h.ring.seq n hn
        rw [State.nthEntry, ← hu] at hseq
        omega

theorem issueToStation_eq {c : FuClass} {t : Nat} {j k : Slot} (hj : resolveOperand s f.j = .slot j)
    (hk : resolveOperand s f.k = .slot k) : issueToStation f c t s =
      chooseNextPc f.op t (renameDest f.dest t (snapshotBranch f.op t (fillStation f c t j k s))) := by
  unfold issueToStation
  rw [hj]
  simp only
  rw [hk]

/-- What holds of every issue that allocates. -/
theorem issue_frame (hcan : s.canIssue f.op = true) :
    s.rob.count < s.cfg.robSize ∧ (issue f s).rob.head = s.rob.head ∧
      (issue f s).rob.count = s.rob.count + 1 := by
  have hlt : s.rob.count < s.cfg.robSize := by
    simp only [State.canIssue, Bool.and_eq_true, decide_eq_true_eq] at hcan
    exact hcan.1
  have hplace : (allocateRob f s).PlaceKept (issue f s) := by
    obtain ⟨hno, -⟩ | ⟨-, -, h⟩ | ⟨c, -, -, h⟩ := issue_cases f s
    · exact absurd (hcan.symm.trans hno) (by simp)
    · exact h ▸ ((robKept_completeAtIssue ..).trans (robKept_chooseNextPc ..)).placeKept
    · exact h ▸ placeKept_issueToStation ..
  exact ⟨hlt, hplace.head, hplace.count⟩

/-- A nop enters the ROB alone, complete at once (40_engine_cycle.md R218). -/
theorem issue_nop_entered (h : s.Running) (hcan : s.canIssue f.op = true) (hcls : f.op.fuClass = none) :
    ∃ r, s.Entered (issue f s) r .br 0 := by
  have hnop : f.op.kind = .nop := by cases ho : f.op <;> simp_all [Op.fuClass, Op.kind]
  obtain ⟨hc, hhead, hcount⟩ := issue_frame hcan
  have hdense := issue_dense h.ring h.sized f
  have hshape := shapeKept_issue f s
  obtain ⟨hno, -⟩ | ⟨-, -, heq⟩ | ⟨c, -, hsome, -⟩ := issue_cases f s
  · exact absurd (hcan.symm.trans hno) (by simp)
  · obtain ⟨pc, hpc⟩ := chooseNextPc_eq f.op s.rob.tail (completeAtIssue s.rob.tail (allocateRob f s))
    rw [hpc] at heq
    refine ⟨{ newRobEntry f s (s.robAt s.rob.tail) with complete := true }, hshape, hdense, by rw [heq]; rfl,
      by rw [heq]; rfl, by rw [heq]; rfl, by rw [heq]; rfl, by rw [heq]; rfl, by rw [heq]; rfl, hhead, hcount,
      fun u => ?_, fun q => ?_,
      ⟨rfl, fun _ => rfl, fun _ => rfl, before_now _⟩, rfl, fun hb => ?_, fun c m _ => by rw [heq]; rfl,
      .inl ⟨by rw [heq]; rfl, rfl, ?_⟩⟩
    · have hrob : (issue f s).robAt u = (completeAtIssue s.rob.tail (allocateRob f s)).robAt u := by rw [heq]; rfl
      have htail : s.rob.tail < (allocateRob f s).rob.entries.length :=
        (shapeKept_allocateRob f s).robLength ▸ h.ring.tail_lt h.sized
      rw [hrob, completeAtIssue]
      by_cases hu : u = s.rob.tail
      · rw [hu, robAt_modifyRob_same _ _ htail, robAt_allocateRob, if_pos ⟨rfl, h.ring.tail_lt h.sized⟩, if_pos rfl]
      · rw [robAt_modifyRob_other _ _ hu, robAt_allocateRob, if_neg fun hcon => hu hcon.1, if_neg hu]
    · have hrat : (issue f s).rat = s.rat := by rw [heq]; rfl
      have hkind : (newRobEntry f s (s.robAt s.rob.tail)).kind = .nop := hnop
      rw [hrat, if_neg (by simp [hkind])]
    · exact absurd (hnop.symm.trans hb) (by simp)
    · exact fun hst => absurd (hnop.symm.trans hst) (by simp)
  · exact absurd (hcls.symm.trans hsome) (by simp)

/-- The new entry, as allocated but for a branch's prediction and checkpoint. -/
theorem robAt_allocated_snapshot (htail : s.rob.tail < s.rob.entries.length) {a : State}
    (hrob : a.rob = (allocateRob f s).rob) (hrat : a.rat = s.rat) : ∃ taken target ckpt,
    (∀ u, (snapshotBranch f.op s.rob.tail a).robAt u = if u = s.rob.tail then
      { newRobEntry f s (s.robAt u) with predTaken := taken, predTarget := target, ckpt := ckpt } else s.robAt u) ∧
    (f.op.kind = .branch → ckpt = s.rat) := by
  have hlen : a.rob.entries.length = s.rob.entries.length := by
    rw [hrob]; exact (shapeKept_allocateRob f s).robLength
  have hent : ∀ u, a.robAt u = if u = s.rob.tail then newRobEntry f s (s.robAt u) else s.robAt u := by
    intro u
    have hau : a.robAt u = (allocateRob f s).robAt u := by rw [State.robAt, hrob, State.robAt]
    rw [hau, robAt_allocateRob]
    by_cases hu : u = s.rob.tail
    · rw [if_pos ⟨hu, hu ▸ htail⟩, if_pos hu]
    · rw [if_neg fun hcon => hu hcon.1, if_neg hu]
  by_cases hb : f.op.kind = .branch
  · refine ⟨(predict a a.pc).1, (predict a a.pc).2, s.rat, fun u => ?_, fun _ => rfl⟩
    rw [robAt_snapshotBranch, hent, hrat, hlen]
    by_cases hu : u = s.rob.tail
    · rw [if_pos ⟨hb, hu, hu ▸ htail⟩, if_pos hu, if_pos hu]
    · rw [if_neg fun hcon => hu hcon.2.1, if_neg hu, if_neg hu]
  · refine ⟨(s.robAt s.rob.tail).predTaken, (s.robAt s.rob.tail).predTarget, (s.robAt s.rob.tail).ckpt, fun u => ?_,
      fun hcon => absurd hcon hb⟩
    rw [robAt_snapshotBranch, if_neg fun hcon => hb hcon.1, hent]
    by_cases hu : u = s.rob.tail
    · subst hu; rw [if_pos rfl, if_pos rfl]; rfl
    · rw [if_neg hu, if_neg hu]

theorem lookup_renameDest (dest : Option Reg) (t : Nat) (s : State) (q : Reg) :
    (renameDest dest t s).rat.lookup q = if dest = some q then .rob t else s.rat.lookup q := by
  cases dest with
  | none => simp [renameDest]
  | some r => simp [renameDest, lookup_assign, eq_comm]

/-- An issue to a station, update by update: only ROB, sequence counter, stations, RAT and pc change
(40_engine_cycle.md R206). -/
theorem issue_station_eq (h : s.Running) (hcan : s.canIssue f.op = true) {c : FuClass}
    (hcls : f.op.fuClass = some c) : ∃ j k n entries pc, s.freeStation c = some n ∧
      (allocateRob f s).SlotOk s.rob.tail j ∧ (allocateRob f s).SlotOk s.rob.tail k ∧
      entries = (snapshotBranch f.op s.rob.tail ((allocateRob f s).modifyStation c n
        (newStation f s.rob.tail j k))).rob.entries ∧
      issue f s = { s with
        rs := s.rs.modify c (fun tbl => tbl.modify n (newStation f s.rob.tail j k))
        rob := { (allocateRob f s).rob with entries := entries }
        rat := (renameDest f.dest s.rob.tail s).rat
        nextSeq := s.nextSeq + 1
        pc := pc } := by
  have hc := (issue_frame hcan).1
  obtain ⟨j, hj, hjok⟩ := h.resolveOperand hc f f.j
  obtain ⟨k, hk, hkok⟩ := h.resolveOperand hc f f.k
  obtain ⟨n, hn⟩ : ∃ n, s.freeStation c = some n := by
    simp only [State.canIssue, hcls, Bool.and_eq_true] at hcan
    exact Option.isSome_iff_exists.1 hcan.2
  obtain ⟨entries, hsnap⟩ := snapshotBranch_eq f.op s.rob.tail ((allocateRob f s).modifyStation c n
    (newStation f s.rob.tail j k))
  obtain ⟨pc, hpc⟩ := chooseNextPc_eq f.op s.rob.tail (renameDest f.dest s.rob.tail (snapshotBranch f.op s.rob.tail
    ((allocateRob f s).modifyStation c n (newStation f s.rob.tail j k))))
  refine ⟨j, k, n, entries, pc, hn, hjok, hkok, by rw [hsnap], ?_⟩
  obtain ⟨hno, -⟩ | ⟨-, hnone, -⟩ | ⟨c', -, hsome, heq⟩ := issue_cases f s
  · exact absurd (hcan.symm.trans hno) (by simp)
  · exact absurd (hcls.symm.trans hnone) (by simp)
  · obtain rfl : c = c' := Option.some.inj (hcls.symm.trans hsome)
    rw [heq, issueToStation_eq hj hk, fillStation_eq (s := allocateRob f s) hn, hpc, hsnap]
    cases f.dest <;> rfl

/-- Any other instruction enters the ROB and the free station of its class (40_engine_cycle.md R211 to R219). -/
theorem issue_station_entered (h : s.Running) (hdest : f.dest.isSome = decide (f.op.kind = .reg))
    (hcan : s.canIssue f.op = true) {c : FuClass} (hcls : f.op.fuClass = some c) :
    ∃ r n, s.Entered (issue f s) r c n := by
  have hnop : f.op.kind ≠ .nop := by cases ho : f.op <;> simp_all [Op.fuClass, Op.kind]
  obtain ⟨hc, hhead, hcount⟩ := issue_frame hcan
  have hdense := issue_dense h.ring h.sized f
  have hshape := shapeKept_issue f s
  have htail := h.ring.tail_lt h.sized
  obtain ⟨j, k, n, entries, pc, hn, hjok, hkok, hent, heq⟩ := issue_station_eq h hcan hcls
  obtain ⟨hnlt, hnfree, -⟩ := (freeStation_eq_some s c n).1 hn
  obtain ⟨taken, target, ckpt, hsnap, hckpt⟩ := robAt_allocated_snapshot (f := f) htail
    (a := (allocateRob f s).modifyStation c n (newStation f s.rob.tail j k)) rfl rfl
  generalize hr : ({ newRobEntry f s (s.robAt s.rob.tail) with
    predTaken := taken, predTarget := target, ckpt := ckpt } : RobEntry) = r
  have hrob : ∀ u, (issue f s).robAt u = if u = s.rob.tail then r else s.robAt u := by
    intro u
    have hu : (issue f s).robAt u = (snapshotBranch f.op s.rob.tail ((allocateRob f s).modifyStation c n
        (newStation f s.rob.tail j k))).robAt u := by rw [heq, hent]; rfl
    rw [hu, hsnap]
    split
    · next hut => rw [hut, hr]
    · rfl
  have hstation : ∀ c' m, (issue f s).station c' m =
      if c' = c ∧ m = n then newStation f s.rob.tail j k (s.station c' m) else s.station c' m := by
    intro c' m
    have hst : (issue f s).station c' m =
        (s.modifyStation c n (newStation f s.rob.tail j k)).station c' m := by rw [heq]; rfl
    rw [hst, station_modifyStation]
    by_cases hcm : c' = c ∧ m = n
    · rw [if_pos ⟨hcm.1, hcm.2, hcm.2 ▸ hnlt⟩, if_pos hcm]
    · rw [if_neg fun hcon => hcm ⟨hcon.1, hcon.2.1⟩, if_neg hcm]
  have hslot : ∀ {v : Slot}, (allocateRob f s).SlotOk s.rob.tail v → (issue f s).SlotOk s.rob.tail v := by
    intro v hv
    cases v with
    | resolved _ => trivial
    | pending w =>
      obtain ⟨hwb, hwk, hwc, hws⟩ := hv
      have hwt : w ≠ s.rob.tail := by
        rintro rfl
        exact absurd hws (lt_irrefl _)
      have htag : ((allocateRob f s).robAt s.rob.tail).seq = r.seq := by
        rw [robAt_allocateRob, if_pos ⟨rfl, htail⟩, ← hr]
      rw [robAt_allocateRob, if_neg fun hcon => hwt hcon.1] at hwb hwk hwc hws
      simp only [State.SlotOk, hrob, if_neg hwt, if_true]
      exact ⟨hwb, hwk, hwc, htag ▸ hws⟩
  refine ⟨r, n, hshape, hdense, by rw [heq], by rw [heq], by rw [heq], by rw [heq], by rw [heq], by rw [heq], hhead,
    hcount, hrob, fun q => ?_, ?_, by rw [← hr]; rfl, fun hb => ?_, fun c' m hcm => by rw [hstation, if_neg hcm],
    .inr ⟨hnfree, ?_, ?_, ?_, ?_⟩⟩
  · have hrat : (issue f s).rat = (renameDest f.dest s.rob.tail s).rat := by rw [heq]
    rw [hrat, lookup_renameDest, ← hr]
    congr 1
    simp only [newRobEntry, eq_iff_iff]
    cases hd : f.dest with
    | none => simp [hd] at hdest; simp [hdest]
    | some d => simp [hd] at hdest; simp [hdest]
  · rw [← hr]
    exact ⟨rfl, fun hd => (by cases hd), fun hk => absurd hk hnop, before_now _⟩
  · rw [← hr] at hb ⊢
    exact hckpt hb
  · rw [hstation, if_pos ⟨rfl, rfl⟩]; rfl
  · have htailr : (issue f s).robAt s.rob.tail = r := by rw [hrob, if_pos rfl]
    rw [hstation, if_pos ⟨rfl, rfl⟩]
    refine ⟨?_, ?_, hcls, ?_, hslot hjok, hslot hkok, rfl⟩
    · exact (congrArg RobEntry.busy htailr).trans (by rw [← hr]; rfl)
    · exact (congrArg RobEntry.op htailr).trans (by rw [← hr]; rfl)
    · exact (congrArg RobEntry.complete htailr).trans (by rw [← hr]; rfl)
  · rw [hstation, if_pos ⟨rfl, rfl⟩]; rfl
  · rw [hstation, if_pos ⟨rfl, rfl⟩]; rfl

end Issue

/-- Issue stalls, or its instruction enters the ROB. -/
theorem State.Running.issue_stalls_or_enters {s : State} (h : s.Running) (i : Instr) :
    issue (issueForm i) s = s ∨
    (s.rob.count < s.cfg.robSize ∧ ∃ r c n, s.Entered (issue (issueForm i) s) r c n) := by
  have hdest : (issueForm i).dest.isSome = decide ((issueForm i).op.kind = .reg) := by
    rw [issueForm_dest_isSome, issueForm_op]
  cases hcan : s.canIssue (issueForm i).op with
  | false =>
    left
    unfold issue
    exact if_neg (Bool.eq_false_iff.1 hcan)
  | true =>
    refine .inr ⟨(issue_frame hcan).1, ?_⟩
    cases hcls : (issueForm i).op.fuClass with
    | none =>
      obtain ⟨r, he⟩ := issue_nop_entered h hcan hcls
      exact ⟨r, _, _, he⟩
    | some c =>
      obtain ⟨r, n, he⟩ := issue_station_entered h hdest hcan hcls
      exact ⟨r, _, _, he⟩

/-- Issuing an instruction keeps the invariant and raises no fault. -/
theorem State.Running.issue {s : State} (h : s.Running) (i : Instr) : (issue (issueForm i) s).Running := by
  obtain heq | ⟨hc, r, c, n, he⟩ := h.issue_stalls_or_enters i
  · rw [heq]; exact h
  · exact h.entered hc he

end Sys2Proof.Machine

/-! ## Commit keeps the invariant between stages -/

namespace Sys2Proof.Machine

/-- `t` is `s` after its head has retired and left its station, with the RAT and the checkpoints settled
(40_engine_cycle.md R246 to R248, 43_load_store.md R338). -/
structure State.Retired (s t : State) : Prop where
  shape : s.ShapeKept t
  ring : t.RingOk
  count : t.rob.count + 1 = s.rob.count
  tagAt : ∀ n, t.tagAt n = s.tagAt (n + 1)
  mem : t.mem.wf = true
  pools : t.pools = s.pools
  fault : t.fault = s.fault
  freed : (t.robAt s.rob.head).busy = false
  rat : ∀ q, t.rat.lookup q = RatEntry.committed s.rob.head (s.rat.lookup q)
  entries : ∀ u, u ≠ s.rob.head → ∃ m, t.robAt u = { s.robAt u with ckpt := m } ∧
    ((s.robAt u).busy = true → (s.robAt u).kind = .branch →
      ∀ q, m.lookup q = RatEntry.committed s.rob.head ((s.robAt u).ckpt.lookup q))
  stations : ∀ k i, t.station k i = if (s.station k i).dest = s.rob.head then
    { s.station k i with busy := false } else s.station k i
  port : t.PortFits

section Retired

variable {s t : State}

/-- Settled renaming is renaming among the instructions behind the head. -/
theorem State.Retired.youngestWriter (ht : s.Retired t) (hr : s.RingOk) (q : Reg) {n : Nat}
    (hn : n + 1 ≤ s.rob.count) :
    t.youngestWriter q n = RatEntry.committed s.rob.head (s.youngestWriter q (n + 1)) := by
  have hc := hr.count
  induction n with
  | zero =>
    simp only [State.youngestWriter]
    split
    · rw [hr.tagAt_zero, RatEntry.committed, if_pos rfl]
    · rfl
  | succ n ih =>
    have hne : s.tagAt (n + 1) ≠ s.rob.head := by
      rw [← hr.tagAt_zero]
      intro hcon
      have := hr.tagAt_inj (by omega) (by omega) hcon
      omega
    obtain ⟨m, hent, -⟩ := ht.entries _ hne
    have hnth : t.nthEntry n = { s.nthEntry (n + 1) with ckpt := m } := by rw [State.nthEntry, ht.tagAt, hent]; rfl
    rw [youngestWriter_succ, ih (by omega), youngestWriter_succ s q (n + 1), hnth, ht.tagAt]
    by_cases hk : (s.nthEntry (n + 1)).kind = .reg ∧ (s.nthEntry (n + 1)).dest = q
    · rw [if_pos hk, if_pos hk, RatEntry.committed, if_neg fun hcon => hne (RatEntry.rob.inj hcon)]
    · rw [if_neg hk, if_neg hk]

theorem State.Retired.renamingOk (ht : s.Retired t) (h : s.RenamingOk) (hr : s.RingOk) (hs : s.Sized) :
    t.RenamingOk := by
  have hc := hr.count
  have hcount := ht.count
  refine ⟨fun q => ?_, fun n hn hk q => ?_⟩
  · rw [ht.rat, h.rat q, ht.youngestWriter hr q (by omega), hcount]
  · have hne : s.tagAt (n + 1) ≠ s.rob.head := by
      rw [← hr.tagAt_zero]
      intro hcon
      have := hr.tagAt_inj (by omega) (by omega) hcon
      omega
    obtain ⟨m, hent, hckpt⟩ := ht.entries _ hne
    have hnth : t.nthEntry n = { s.nthEntry (n + 1) with ckpt := m } := by rw [State.nthEntry, ht.tagAt, hent]; rfl
    rw [hnth] at hk ⊢
    have hbusy : (s.robAt (s.tagAt (n + 1))).busy = true := (hr.busy_iff hs _).2 ⟨n + 1, by omega, rfl⟩
    rw [ht.youngestWriter hr q (by omega)]
    exact (hckpt hbusy hk q).trans (congrArg _ (h.ckpt (n + 1) (by omega) hk q))

/-- A station that is busy after the retirement is as it was, and not the head's. -/
theorem State.Retired.busy_station (ht : s.Retired t) {k : FuClass} {i : Nat} (hb : (t.station k i).busy = true) :
    t.station k i = s.station k i ∧ (s.station k i).busy = true ∧ (s.station k i).dest ≠ s.rob.head := by
  rw [ht.stations] at hb ⊢
  split at hb
  · cases hb
  · next hne => rw [if_neg hne]; exact ⟨rfl, hb, hne⟩

/-- The head is complete, so that its station holds no unit and no port. -/
theorem State.Retired.holdsUnit (ht : s.Retired t) (h : s.Running) (hcomp : (s.robAt s.rob.head).complete = true)
    (k : FuClass) (i : Nat) : (t.station k i).holdsUnit = (s.station k i).holdsUnit := by
  rw [ht.stations]
  split
  · next hd =>
    cases hb : (s.station k i).busy
    · simp [RsEntry.holdsUnit, hb]
    · have hphase := (h.stations k i hb).completes
      rw [hd, hcomp] at hphase
      have hp : (s.station k i).phase = .storeDone := by simpa using hphase.symm
      simp [RsEntry.holdsUnit, hp]
  · rfl

/-- Retirement of a complete head keeps the invariant. -/
theorem State.Running.retired (h : s.Running) (hcomp : (s.robAt s.rob.head).complete = true) (ht : s.Retired t) :
    t.Running := by
  have hbusy : ∀ u, (t.robAt u).busy = true → u ≠ s.rob.head ∧ (s.robAt u).busy = true := by
    intro u hu
    have hne : u ≠ s.rob.head := by
      rintro rfl
      exact absurd (ht.freed.symm.trans hu) (by simp)
    obtain ⟨m, hent, -⟩ := ht.entries u hne
    rw [hent] at hu
    exact ⟨hne, hu⟩
  have hslot : ∀ {u : Nat} {v : Slot}, u ≠ s.rob.head → s.SlotOk u v → t.SlotOk u v := by
    intro u v hu hv
    cases v with
    | resolved _ => trivial
    | pending w =>
      obtain ⟨hwb, hwk, hwc, hws⟩ := hv
      have hw : w ≠ s.rob.head := by
        rintro rfl
        exact absurd (hcomp.symm.trans hwc) (by simp)
      obtain ⟨m, hent, -⟩ := ht.entries u hu
      obtain ⟨m', hent', -⟩ := ht.entries w hw
      simp only [State.SlotOk, hent, hent']
      exact ⟨hwb, hwk, hwc, hws⟩
  refine ⟨⟨h.sized.of_shapeKept ht.shape, ht.ring, ht.renamingOk h.rat h.ring h.sized, ht.fault.trans h.noFault,
    ht.mem, fun u hu => ?_, fun k i hb => ?_, fun k i k' i' hb hb' hd => ?_, 
    h.units.of_same ht.shape.cfg ht.pools fun k => executingCount_congr (ht.shape.tables k) (ht.holdsUnit h hcomp k),
    ht.port⟩,
    fun u hu _ hc => ?_, fun k i _ hb => ?_⟩
  · obtain ⟨hne, hsu⟩ := hbusy u hu
    obtain ⟨m, hent, -⟩ := ht.entries u hne
    have hgood := h.entries u hsu
    rw [hent, ht.shape.cycle]
    exact ⟨hgood.kind, hgood.done, hgood.nop, hgood.issued⟩
  · obtain ⟨heq, hsb, hne⟩ := ht.busy_station hb
    obtain ⟨m, hent, -⟩ := ht.entries _ hne
    have hold := h.stations k i hsb
    rw [heq]
    refine ⟨?_, ?_, hold.table, ?_, hslot hne hold.slotJ, hslot hne hold.slotK, ?_⟩
    · rw [hent]; exact hold.inFlight
    · rw [hent]; exact hold.op
    · rw [hent]; exact hold.completes
    · rw [hent, ht.shape.cycle]; exact hold.phase
  · obtain ⟨heq, hsb, -⟩ := ht.busy_station hb
    obtain ⟨heq', hsb', -⟩ := ht.busy_station hb'
    exact h.unique k i k' i' hsb hsb' (by rw [← heq, ← heq', hd])
  · obtain ⟨hne, hsu⟩ := hbusy u hu
    obtain ⟨m, hent, -⟩ := ht.entries u hne
    rw [hent] at hc
    obtain ⟨k, i, hb, hd⟩ := h.stationed u hsu trivial hc
    refine ⟨k, i, ?_⟩
    rw [ht.stations, if_neg (by rw [hd]; exact hne)]
    exact ⟨hb, hd⟩
  · obtain ⟨heq, hsb, -⟩ := ht.busy_station hb
    rw [heq, ht.shape.cfg]
    exact h.counting k i id hsb

end Retired

/-! ### What commit does under the invariant -/

/-- The head is in flight and done, and of kind `k`. -/
structure State.HeadDone (s : State) (k : RobKind) : Prop where
  busy : (s.robAt s.rob.head).busy = true
  done : (s.robAt s.rob.head).done = true
  kind : (s.robAt s.rob.head).kind = k

/-- Commit does nothing, or takes or holds the port for a store, or retires the head: no fault is among it
(40_engine_cycle.md R245). -/
inductive State.CommitOutcome (s : State) : State → Prop where
  | idle : s.CommitOutcome s
  | holds (s1 : State) (hs : s1 = storeBegun s ∧ s.port.owner = .none ∨ s1 = storeCounted s ∧ s.port.owner = .commit)
      (hd : s.HeadDone .store) (hr : s1.port.remaining ≠ 0) : s.CommitOutcome s1
  | stores (s1 : State) (hs : s1 = storeBegun s ∧ s.port.owner = .none ∨ s1 = storeCounted s ∧ s.port.owner = .commit)
      (hd : s.HeadDone .store) : s.CommitOutcome (retire (stored s1))
  | writes (ho : s.port.owner ≠ .commit) (hd : s.HeadDone .reg) : s.CommitOutcome (retire (written s))
  | retires (ho : s.port.owner ≠ .commit) (k : RobKind) (hk : k = .branch ∨ k = .nop) (hd : s.HeadDone k) :
      s.CommitOutcome (retire s)

theorem State.Running.head_busy {s : State} (h : s.Running) (hc : 0 < s.rob.count) :
    (s.robAt s.rob.head).busy = true :=
  (h.ring.busy_iff h.sized _).2 ⟨0, hc, h.ring.tagAt_zero.symm⟩

theorem storeFinish_of_busy {s s1 : State} (hk : s.RobKept s1) (hb : (s.robAt s.rob.head).busy = true) :
    storeFinish s1 = retire (stored s1) := by
  rw [storeFinish_eq, if_pos (by rw [hk.head, hk.busy, hb])]

theorem State.Running.commitOutcome {s : State} (h : s.Running) : s.CommitOutcome (commit s) := by
  unfold commit
  split
  · next ho =>
    obtain ⟨hpos, hk, hd, -⟩ := h.port.commit ho
    have hhead : s.HeadDone .store := ⟨h.head_busy hpos, hd, hk⟩
    rw [storeCommitStep_eq]
    split
    · rw [storeFinish_of_busy (robKept_storeCounted s) hhead.busy]
      exact .stores _ (.inr ⟨rfl, ho⟩) hhead
    · exact .holds _ (.inr ⟨rfl, ho⟩) hhead ‹_›
  · next ho =>
    split
    · exact .idle
    · next hc =>
      have hb := h.head_busy (Nat.pos_of_ne_zero hc)
      rw [if_neg (by simp [hb])]
      unfold commitHead
      dsimp only
      split
      · exact .idle
      · next hd =>
        have hdone : (s.robAt s.rob.head).done = true := by simpa using hd
        cases hk : (s.robAt s.rob.head).kind with
        | reg => exact .writes ho ⟨hb, hdone, hk⟩
        | branch => exact .retires ho _ (.inl rfl) ⟨hb, hdone, hk⟩
        | nop => exact .retires ho _ (.inr rfl) ⟨hb, hdone, hk⟩
        | store =>
          simp only
          split
          · next hn =>
            rw [storeCommitStart_eq]
            split
            · rw [storeFinish_of_busy (robKept_storeBegun s) hb]
              exact .stores _ (.inl ⟨rfl, hn⟩) ⟨hb, hdone, hk⟩
            · exact .holds _ (.inl ⟨rfl, hn⟩) ⟨hb, hdone, hk⟩ ‹_›
          · exact .idle

/-! ### Each outcome keeps the invariant -/

section Outcomes

variable {s : State}

/-- Only an instruction that writes register `q` is named by `q`'s RAT or checkpoint entry. -/
theorem youngestWriter_eq_head (hr : s.RingOk) {q : Reg} {n : Nat} (hn : n ≤ s.rob.count)
    (h : s.youngestWriter q n = .rob s.rob.head) :
    (s.robAt s.rob.head).kind = .reg ∧ (s.robAt s.rob.head).dest = q := by
  obtain ⟨m, hm, hu, hk, hd⟩ := youngestWriter_eq_rob h
  have hc := hr.count
  rw [← hr.tagAt_zero] at hu
  obtain rfl := hr.tagAt_inj (by omega) (by omega) hu
  rw [State.nthEntry, hr.tagAt_zero] at hk hd
  exact ⟨hk, hd⟩

theorem committed_of_ne {h : Nat} {x : RatEntry} (hx : x ≠ .rob h) : RatEntry.committed h x = x := if_neg hx

/-- Settling register `r` settles the whole table when `r` alone can name the head (40_engine_cycle.md R246). -/
theorem lookup_settle {m : AliasTable} {r : Reg} {h : Nat} (hm : ∀ q, m.lookup q = .rob h → r = q) (q : Reg) :
    (m.settle r h).lookup q = RatEntry.committed h (m.lookup q) := by
  unfold AliasTable.settle RatEntry.committed
  by_cases hq : m.lookup q = .rob h
  · obtain rfl := hm q hq
    rw [if_pos hq, if_pos hq, lookup_assign, if_pos rfl]
  · rw [if_neg hq]
    split
    · next hr =>
      rw [lookup_assign, if_neg]
      rintro rfl
      exact hq hr
    · rfl

/-- A branch in flight has a place, and its checkpoint names the writers before it. -/
theorem State.Running.ckpt_lookup (h : s.Running) {u : Nat} (hb : (s.robAt u).busy = true)
    (hk : (s.robAt u).kind = .branch) :
    ∃ n ≤ s.rob.count, ∀ q, (s.robAt u).ckpt.lookup q = s.youngestWriter q n := by
  obtain ⟨n, hn, rfl⟩ := (h.ring.busy_iff h.sized u).1 hb
  exact ⟨n, by omega, h.rat.ckpt n hn hk⟩

/-- Without a store at the head no busy station belongs to the head. -/
theorem State.Running.dest_ne_head (h : s.Running) (hcomp : (s.robAt s.rob.head).complete = true)
    (hk : (s.robAt s.rob.head).kind ≠ .store) {k : FuClass} {i : Nat} (hb : (s.station k i).busy = true) :
    (s.station k i).dest ≠ s.rob.head := by
  intro hd
  have hold := h.stations k i hb
  have hphase := hold.completes
  rw [hd, hcomp] at hphase
  have hp : (s.station k i).phase = .storeDone := by simpa using hphase.symm
  have hfits := hold.phase
  simp only [PhaseFits, hp] at hfits
  apply hk
  rw [← hd, (h.entries _ hold.inFlight).kind, hold.op, hfits.2.2.1]
  rfl

theorem State.Running.station_of_head (h : s.Running) (hcomp : (s.robAt s.rob.head).complete = true)
    (hk : (s.robAt s.rob.head).kind ≠ .store) (k : FuClass) (i : Nat) :
    s.station k i = if (s.station k i).dest = s.rob.head then { s.station k i with busy := false }
      else s.station k i := by
  split
  · next hd =>
    have hfree : (s.station k i).busy = false := by
      by_contra hb
      exact h.dest_ne_head hcomp hk (by simpa using hb) hd
    rw [← hfree]
  · rfl

theorem State.HeadDone.complete {k : RobKind} (hd : s.HeadDone k) (h : s.Running) :
    (s.robAt s.rob.head).complete = true := (h.entries _ hd.busy).done hd.done

theorem State.PortFits.retire_of_not_commit (h : s.PortFits) (ho : s.port.owner ≠ .commit) {t : State}
    (hst : ∀ i, (t.station .ls i).accessing = (s.station .ls i).accessing) (hport : t.port = s.port) : t.PortFits :=
  h.of_same hport hst fun hc => absurd hc ho

/-- A branch or a nop retires (40_engine_cycle.md R245, R248). -/
theorem State.Running.retired_plain (h : s.Running) (ho : s.port.owner ≠ .commit) {k : RobKind}
    (hk : k = .branch ∨ k = .nop) (hd : s.HeadDone k) : s.Retired (retire s) := by
  have hreg : (s.robAt s.rob.head).kind ≠ .reg := by rw [hd.kind]; rcases hk with rfl | rfl <;> simp
  have hstore : (s.robAt s.rob.head).kind ≠ .store := by rw [hd.kind]; rcases hk with rfl | rfl <;> simp
  refine ⟨shapeKept_retire s, retire_ringOk h.ring h.sized hd.busy, ?_, tagAt_retire s, h.mem, rfl, rfl, ?_,
    fun q => ?_, fun u hu => ⟨(s.robAt u).ckpt, by rw [robAt_retire hd.busy, if_neg hu], fun hb hbr q => ?_⟩,
    fun c i => h.station_of_head (hd.complete h) hstore c i,
    h.port.retire_of_not_commit ho (fun _ => rfl) rfl⟩
  · have := count_pos_of_busy_head h.ring h.sized hd.busy
    change s.rob.count - 1 + 1 = s.rob.count
    omega
  · rw [robAt_retire hd.busy, if_pos rfl]; rfl
  · refine (committed_of_ne fun hq => ?_).symm
    exact hreg (youngestWriter_eq_head h.ring le_rfl ((h.rat.rat q).symm.trans hq)).1
  · obtain ⟨n, hn, hck⟩ := h.ckpt_lookup hb hbr
    refine (committed_of_ne fun hq => ?_).symm
    exact hreg (youngestWriter_eq_head h.ring hn ((hck q).symm.trans hq)).1

/-- A register-writing instruction commits (40_engine_cycle.md R246, R247). -/
theorem State.Running.retired_written (h : s.Running) (ho : s.port.owner ≠ .commit) (hd : s.HeadDone .reg) :
    s.Retired (retire (written s)) := by
  have hplace := placeKept_written s
  have hb : ((written s).robAt (written s).rob.head).busy = true := by rw [hplace.head, hplace.busy, hd.busy]
  have hst : ∀ k i, (retire (written s)).station k i = s.station k i := fun k i => by
    simp [State.station, State.table]
  refine ⟨hplace.toShapeKept.trans (shapeKept_retire _),
    retire_ringOk (h.ring.of_orderSame hplace.toOrderSame) (h.sized.of_shapeKept hplace.toShapeKept) hb,
    ?_, fun n => by rw [tagAt_retire, hplace.tagAt], by simpa using h.mem, by simp, by simp, ?_, fun q => ?_,
    fun u hu => ?_, fun k i => ?_, h.port.retire_of_not_commit ho (fun i => by rw [hst]) (by simp)⟩
  · have hpos := count_pos_of_busy_head h.ring h.sized hd.busy
    rw [retire_count, hplace.count]
    omega
  · rw [robAt_retire hb, if_pos hplace.head.symm]; rfl
  · rw [retire_rat, written_rat]
    exact lookup_settle (fun p hp => (youngestWriter_eq_head h.ring le_rfl ((h.rat.rat p).symm.trans hp)).2) q
  · rw [robAt_retire hb, if_neg (by rw [hplace.head]; exact hu), robAt_written]
    unfold settleCheckpoint
    split
    · refine ⟨_, rfl, fun hub hk => ?_⟩
      obtain ⟨n, hn, hck⟩ := h.ckpt_lookup hub hk
      exact lookup_settle fun p hp => (youngestWriter_eq_head h.ring hn ((hck p).symm.trans hp)).2
    · next hbr => exact ⟨(s.robAt u).ckpt, rfl, fun hub hk => absurd (by simp [hub, hk]) hbr⟩
  · rw [hst]
    exact h.station_of_head (hd.complete h) (by simp [hd.kind]) k i

/-- What the first or a later cycle of a store transaction leaves alone. -/
theorem storeHeld {s1 : State}
    (hs : s1 = storeBegun s ∧ s.port.owner = .none ∨ s1 = storeCounted s ∧ s.port.owner = .commit) :
    s.RobKept s1 ∧ (∀ u, u ≠ s.rob.head → s1.robAt u = s.robAt u) ∧ s1.rs = s.rs ∧ s1.pools = s.pools ∧
      s1.fault = s.fault ∧ (∀ i, s.port.owner ≠ .load i) := by
  obtain ⟨rfl, ho⟩ | ⟨rfl, ho⟩ := hs
  · exact ⟨robKept_storeBegun s, fun u hu => robAt_modifyRob_other _ _ hu, rfl, rfl, rfl,
      fun i hi => (by rw [ho] at hi; cases hi)⟩
  · exact ⟨robKept_storeCounted s, fun u _ => rfl, rfl, rfl, rfl, fun i hi => (by rw [ho] at hi; cases hi)⟩

theorem fuClass_of_store {o : Op} (h : o.kind = .store) : o.fuClass = some .ls := by
  cases o <;> simp_all [Op.kind, Op.fuClass]

/-- A store at the head sits in the load/store table alone. -/
theorem State.Running.table_of_head (h : s.Running) (hd : s.HeadDone .store) {k : FuClass} {i : Nat}
    (hb : (s.station k i).busy = true) (hdest : (s.station k i).dest = s.rob.head) : k = .ls := by
  have hold := h.stations k i hb
  have hop := hold.op
  rw [hdest] at hop
  have htab := hold.table
  rw [← hop, fuClass_of_store ((h.entries _ hd.busy).kind.symm.trans hd.kind)] at htab
  exact (Option.some.inj htab).symm

/-- A store commits and leaves its station, and the port is free again at the end of the cycle (43_load_store.md
R338). -/
theorem State.Running.retired_stored (h : s.Running) (hd : s.HeadDone .store) {s1 : State}
    (hs : s1 = storeBegun s ∧ s.port.owner = .none ∨ s1 = storeCounted s ∧ s.port.owner = .commit) :
    s.Retired { retire (stored s1) with port := (retire (stored s1)).port.settle } := by
  obtain ⟨hk, hentry, hrs, hpools, hfault, hnoload⟩ := storeHeld hs
  have hplace := hk.placeKept.trans (placeKept_stored s1)
  have hb : ((stored s1).robAt (stored s1).rob.head).busy = true := by rw [hplace.head, hplace.busy, hd.busy]
  have hreg : (s.robAt s.rob.head).kind ≠ .reg := by simp [hd.kind]
  have hst1 : ∀ k i, s1.station k i = s.station k i := fun k i => by rw [State.station, State.table, hrs]; rfl
  have hst : ∀ k i, (stored s1).station k i = if (s.station k i).dest = s.rob.head then
      { s.station k i with busy := false } else s.station k i := by
    intro k i
    rw [station_stored, hst1, hk.head]
    split
    · rfl
    · next hls =>
      split
      · next hdest =>
        have hfree : (s.station k i).busy = false := by
          by_contra hne
          exact hls (h.table_of_head hd (by simpa using hne) hdest)
        rw [← hfree]
      · rfl
  have hrob : ∀ u, u ≠ s.rob.head → (retire (stored s1)).robAt u = s.robAt u := by
    intro u hu
    rw [robAt_retire hb, if_neg (by rw [hplace.head]; exact hu), robAt_stored, modifyTiming_eq,
      robAt_modifyRob_other _ _ (by rw [hk.head]; exact hu), hentry u hu]
  have hport : (retire (stored s1)).port.settle = ⟨.none, 0, false⟩ := by simp [Port.settle]
  have hring := retire_ringOk (h.ring.of_orderSame hplace.toOrderSame) (h.sized.of_shapeKept hplace.toShapeKept) hb
  refine ⟨(hplace.toShapeKept.trans (shapeKept_retire _)).trans (robKept_port ..).toShapeKept,
    hring.of_orderSame (robKept_port ..).orderSame, ?_, fun n => ?_, ?_, hpools, hfault, ?_, fun q => ?_,
    fun u hu => ⟨(s.robAt u).ckpt, hrob u hu, fun hub hbr q => ?_⟩, fun k i => hst k i, ?_⟩
  · have hpos := count_pos_of_busy_head h.ring h.sized hd.busy
    change (retire (stored s1)).rob.count + 1 = _
    rw [retire_count, hplace.count]
    omega
  · change (retire (stored s1)).tagAt n = _
    rw [tagAt_retire, hplace.tagAt]
  · change (stored s1).mem.wf = true
    rw [stored_mem]
    exact write_wf (hk.mem ▸ h.mem) _ _
  · change ((retire (stored s1)).robAt s.rob.head).busy = false
    rw [robAt_retire hb, if_pos hplace.head.symm]; rfl
  · change s1.rat.lookup q = _
    rw [hk.rat]
    refine (committed_of_ne fun hq => ?_).symm
    exact hreg (youngestWriter_eq_head h.ring le_rfl ((h.rat.rat q).symm.trans hq)).1
  · obtain ⟨n, hn, hck⟩ := h.ckpt_lookup hub hbr
    refine (committed_of_ne fun hq => ?_).symm
    exact hreg (youngestWriter_eq_head h.ring hn ((hck q).symm.trans hq)).1
  · rw [hport]
    refine ⟨fun i hi => ?_, fun i hi => (by cases hi), fun hm => (by cases hm), fun _ => rfl, fun hc => (by cases hc)⟩
    change ((stored s1).station .ls i).accessing = true at hi
    rw [hst] at hi
    split at hi
    · simp [RsEntry.accessing] at hi
    · exact absurd (h.port.access i hi).1 (hnoload i)

/-- The port held for the store at the head. -/
theorem State.Running.portFits_held (h : s.Running) (hd : s.HeadDone .store) (hnoload : ∀ i, s.port.owner ≠ .load i)
    {n : Nat} (hn : 0 < n) (hlt : n < s.cfg.memLat) :
    State.PortFits { s with port := { s.port with owner := .commit, remaining := n } } where
  access i hi := absurd (h.port.access i hi).1 (hnoload i)
  load i hi := by cases hi
  marked hm := by
    obtain ⟨i, hi⟩ := h.port.marked hm
    exact absurd hi (hnoload i)
  idle hc := absurd rfl hc
  commit _ :=
    have hpos := count_pos_of_busy_head h.ring h.sized hd.busy
    ⟨hpos, hd.kind, hd.done, hn, hlt⟩

/-- The first cycle of a longer store transaction (43_load_store.md R336). -/
theorem State.Running.storeBegun (h : s.Running) (hd : s.HeadDone .store) (ho : s.port.owner = .none)
    (hr : s.cfg.memLat - 1 ≠ 0) : (storeBegun s).Running := by
  have hport := h.withPort (h.portFits_held hd (fun i hi => by rw [ho] at hi; cases hi)
    (Nat.pos_of_ne_zero hr) (by omega))
  obtain ⟨k, i, hb, hdest⟩ := h.stationed _ hd.busy trivial (.inr hd.kind)
  have hold := h.stations k i hb
  have hv := (State.Visited.refl { s with port := { s.port with owner := .commit, remaining := s.cfg.memLat - 1 } }
    k i).modifyTiming hold.inFlight (fun t => { t with memStart := some s.cycle }) rfl
  have hphase : (s.station k i).phase = .storeDone := by
    have hcomp := hold.completes
    rw [hdest, hd.complete h] at hcomp
    simpa using hcomp.symm
  have heq : Machine.storeBegun s =
      State.modifyTiming { s with port := { s.port with owner := .commit, remaining := s.cfg.memLat - 1 } }
        (s.station k i).dest (fun t => { t with memStart := some s.cycle }) := by rw [hdest]; rfl
  rw [heq]
  have hfits := hold.phase
  simp only [PhaseFits, hphase] at hfits
  refine ((hport.but k i).visited hb hv (fun _ => rfl) id (fun _ => ⟨hold.completes, ?_⟩)
    (fun hf => absurd (hb.symm.trans hf) (by simp)) (hport.units.visited_same hv hb rfl rfl)
    (hport.port.visited_same hv rfl rfl)).running ?_
  · change PhaseFits s.cycle (s.station k i) _
    simp only [PhaseFits, hphase]
    exact hfits
  · rw [hv.station]
    exact RsEntry.counts_of_phase (by change (s.station k i).phase ≠ _; simp [hphase])
      (by change (s.station k i).phase ≠ _; simp [hphase])

/-- A later cycle of a store transaction (43_load_store.md R337). -/
theorem State.Running.storeCounted (h : s.Running) (hd : s.HeadDone .store) (ho : s.port.owner = .commit)
    (hr : s.port.remaining - 1 ≠ 0) : (storeCounted s).Running := by
  obtain ⟨-, -, -, -, hlt⟩ := h.port.commit ho
  have hfits := h.portFits_held hd (fun i hi => by rw [ho] at hi; cases hi) (Nat.pos_of_ne_zero hr) (by omega)
  rw [← ho] at hfits
  exact h.withPort hfits

/-- After commit, with the port settled, the invariant holds, and no fault has been raised. -/
theorem State.Running.commit (h : s.Running) :
    State.Running { commit s with port := (commit s).port.settle } := by
  have hsettle : ∀ t : State, t.Running → State.Running { t with port := t.port.settle } :=
    fun t ht => ht.withPort ht.port.settle
  have hout := h.commitOutcome
  generalize Machine.commit s = t at hout
  cases hout with
  | idle => exact hsettle _ h
  | holds s1 hs hd hr =>
    refine hsettle _ ?_
    obtain ⟨rfl, ho⟩ | ⟨rfl, ho⟩ := hs
    · exact h.storeBegun hd ho hr
    · exact h.storeCounted hd ho hr
  | stores s1 hs hd => exact h.retired (hd.complete h) (h.retired_stored hd hs)
  | writes ho hd => exact hsettle _ (h.retired (hd.complete h) (h.retired_written ho hd))
  | retires ho k hk hd => exact hsettle _ (h.retired (hd.complete h) (h.retired_plain ho hk hd))

end Outcomes

/-! ## The step -/

/-- From a state with the invariant a cycle either does nothing but count, perhaps after raising `ILLEGAL_INSTRUCTION`,
or runs every stage without a fault. -/
theorem State.Inv.step_cases {s t : State} (h : s.Inv) (ht : step s = .next t) :
    (∃ f, t = { s with cycle := s.cycle + 1, fault := f } ∧
      ∀ e, f = some e → ∃ pc w r, e = .illegalInstruction pc w r) ∨
    (∃ u, u.Running ∧ t = endOfCycle (commit (executeAndWriteBack u)) ∧
      (u = s ∨ (s.Running ∧ ∃ i, u = issue (issueForm i) s))) := by
  have hstop : ∀ (u : State) (f : EngineFault), u.fault = some f →
      restOfCycle u = { u with cycle := u.cycle + 1, fault := some f } := by
    intro u f hf
    rw [restOfCycle_eq, executeAndWriteBack, unlessFaulted_of_some _ hf, unlessFaulted_of_some _ hf,
      unlessFaulted_of_some _ hf, endOfCycle_eq, unlessFaulted_of_some _ hf, ← hf]
  have hrun : ∀ u : State, u.Running → restOfCycle u = endOfCycle (commit (executeAndWriteBack u)) := by
    intro u hu
    rw [restOfCycle_eq, unlessFaulted_of_none _ hu.executeAndWriteBack.noFault]
  obtain ⟨-, u, rfl, hu⟩ := step_from_issue ht
  cases hf : s.fault with
  | some f =>
    obtain rfl | ⟨w, r, rfl⟩ | ⟨hnone, -⟩ := hu
    · exact .inl ⟨some f, hstop u f hf, fun e he => h.fault e (hf.trans he)⟩
    · exact .inl ⟨some _, hstop _ _ rfl, fun e he => ⟨_, _, _, (Option.some.inj he).symm⟩⟩
    · exact absurd (hf.symm.trans hnone) (by simp)
  | none =>
    have hs := h.running hf
    obtain rfl | ⟨w, r, rfl⟩ | ⟨-, i, rfl⟩ := hu
    · exact .inr ⟨u, hs, hrun u hs, .inl rfl⟩
    · exact .inl ⟨some _, hstop _ _ rfl, fun e he => ⟨_, _, _, (Option.some.inj he).symm⟩⟩
    · exact .inr ⟨_, hs.issue i, hrun _ (hs.issue i), .inr ⟨hs, i, rfl⟩⟩

/-- Settles O49: a cycle that only counts keeps the invariant, and in any other each stage keeps the invariant between
stages, which the end of the cycle turns back into that of the boundary. -/
theorem engineInvariantKept : Obligations.EngineInvariantKept := by
  intro s t h ht
  obtain ⟨f, rfl, hf⟩ | ⟨u, hu, rfl, -⟩ := h.step_cases ht
  · exact h.counted f hf
  · exact endOfCycle_inv hu.executeAndWriteBack.commit

end Sys2Proof.Machine

/-! ## Registers and memory change with commit events alone -/

namespace Sys2Proof.Machine

/-! ### What commit emits -/

theorem State.ArchKept.of_eq {s t : State} (hi : t.intRegs = s.intRegs) (hf : t.fpRegs = s.fpRegs)
    (hm : t.mem = s.mem) : s.ArchKept t :=
  ⟨fun r => by cases r <;> simp [State.readReg, hi, hf], fun a => by rw [hm]⟩

/-- Only what registers and cells read as matters to an effect. -/
theorem State.EffectApplied.congr {s s' t t' : State} {eff : EventEffect} (h : s.EffectApplied t eff)
    (hs : s'.ArchKept s) (ht : t.ArchKept t') : s'.EffectApplied t' eff := by
  obtain ⟨hsr, hsm⟩ := hs
  obtain ⟨htr, htm⟩ := ht
  cases eff with
  | wrote r v =>
    obtain ⟨hr, hq, hm⟩ := h
    exact ⟨(htr r).trans hr, fun q hne => (htr q).trans ((hq q hne).trans (hsr q)),
      fun a => (htm a).trans ((hm a).trans (hsm a))⟩
  | stored a v =>
    obtain ⟨hr, ha, hb⟩ := h
    exact ⟨fun r => (htr r).trans ((hr r).trans (hsr r)), (htm a).trans ha,
      fun b hne => (htm b).trans ((hb b hne).trans (hsm b))⟩
  | nothing =>
    obtain ⟨hr, hm⟩ := h
    exact ⟨fun r => (htr r).trans ((hr r).trans (hsr r)), fun a => (htm a).trans ((hm a).trans (hsm a))⟩

/-- The head of `s` retires in `t` with event `e`, whose effect is all that happens to registers and memory. -/
structure State.Emitted (s t : State) (e : CommitEvent) : Prop where
  events : t.events = s.events ++ [e]
  commit : e.timing.commit = some s.cycle
  seq : e.seq = (s.robAt s.rob.head).seq
  effect : s.EffectApplied t e.effect

section Emission

variable {s : State}

/-- A retirement emits the head's event (40_engine_cycle.md R248, R249). -/
theorem retire_emitted {s1 : State} (hplace : s.PlaceKept s1) (hb : (s.robAt s.rob.head).busy = true)
    (heff : s.EffectApplied (retire s1) (eventEffect (s1.robAt s1.rob.head))) :
    ∃ e, s.Emitted (retire s1) e := by
  have hb1 : (s1.robAt s1.rob.head).busy = true := by rw [hplace.head, hplace.busy, hb]
  refine ⟨_, ⟨by rw [retire_events hb1, hplace.events], ?_, ?_, heff⟩⟩
  · rw [← hplace.cycle]; rfl
  · change (s1.robAt s1.rob.head).seq = _
    rw [hplace.seq, hplace.head]

/-- Under the invariant commit emits nothing and changes neither register nor cell, or the done head retires and changes
them as its event says. -/
theorem State.Running.commit_effect (h : s.Running) :
    ((Machine.commit s).events = s.events ∧ s.ArchKept (Machine.commit s)) ∨
    ((s.robAt s.rob.head).done = true ∧ ∃ e, s.Emitted (Machine.commit s) e) := by
  have hout := h.commitOutcome
  generalize Machine.commit s = t at hout ⊢
  cases hout with
  | idle => exact .inl ⟨rfl, .of_eq rfl rfl rfl⟩
  | holds s1 hs hd hr =>
    have hk := (storeHeld hs).1
    exact .inl ⟨hk.events, .of_eq hk.intRegs hk.fpRegs hk.mem⟩
  | stores s1 hs hd =>
    have hk := (storeHeld hs).1
    refine .inr ⟨hd.done, retire_emitted (hk.placeKept.trans (placeKept_stored s1)) hd.busy ?_⟩
    have hb1 : (s1.robAt s1.rob.head).busy = true := by rw [hk.head, hk.busy, hd.busy]
    have hhead : (stored s1).robAt (stored s1).rob.head = { s1.robAt s1.rob.head with
        timing := { (s1.robAt s1.rob.head).timing with memEnd := some s1.cycle } } := by
      rw [(placeKept_stored s1).head, robAt_stored, modifyTiming_eq, robAt_modifyRob_same _ _ (lt_length_of_busy hb1)]
    have hkind : (s1.robAt s1.rob.head).kind = .store := by rw [hk.head, (hk.entry _).kind, hd.kind]
    have heff : eventEffect ((stored s1).robAt (stored s1).rob.head) =
        .stored (s1.robAt s1.rob.head).stAddr (s1.robAt s1.rob.head).stData := by
      rw [hhead]
      simp [eventEffect, hkind]
    have hread := read_write h.mem (s1.robAt s1.rob.head).stAddr (s1.robAt s1.rob.head).stData
    rw [heff]
    refine ⟨fun r => ?_, ?_, fun b hb => ?_⟩
    · cases r <;> simp [State.readReg, hk.intRegs, hk.fpRegs]
    · rw [retire_mem, stored_mem, hk.mem, hread, if_pos rfl]
    · rw [retire_mem, stored_mem, hk.mem, hread, if_neg hb]
  | writes ho hd =>
    refine .inr ⟨hd.done, retire_emitted (placeKept_written s) hd.busy ?_⟩
    have heff : eventEffect ((written s).robAt (written s).rob.head) =
        .wrote (s.robAt s.rob.head).dest (s.robAt s.rob.head).value := by
      rw [(placeKept_written s).head, robAt_written, settleCheckpoint, if_neg (by simp [hd.kind])]
      simp [eventEffect, hd.kind]
    have hread : ∀ q, (retire (written s)).readReg q =
        (s.writeReg (s.robAt s.rob.head).dest (s.robAt s.rob.head).value).readReg q := by
      intro q
      cases q <;> rfl
    rw [heff]
    refine ⟨?_, fun q hq => ?_, fun a => by rw [retire_mem, written_mem]⟩
    · rw [hread, readReg_writeReg, if_pos rfl]
    · rw [hread, readReg_writeReg, if_neg hq]
  | retires ho k hk hd =>
    refine .inr ⟨hd.done, retire_emitted (.refl s) hd.busy ?_⟩
    have heff : eventEffect (s.robAt s.rob.head) = .nothing := by
      rcases hk with rfl | rfl <;> simp [eventEffect, hd.kind]
    rw [heff]
    exact State.ArchKept.of_eq rfl rfl rfl

end Emission

/-! ### The rest of the cycle -/

theorem endOfCycle_arch (s : State) : (endOfCycle s).events = s.events ∧ s.ArchKept (endOfCycle s) := by
  rw [endOfCycle_eq]
  unfold unlessFaulted
  split
  · exact ⟨rfl, .of_eq rfl rfl rfl⟩
  · exact ⟨rfl, .of_eq rfl rfl rfl⟩

theorem State.ArchKept.trans {s t u : State} (h : s.ArchKept t) (h' : t.ArchKept u) : s.ArchKept u :=
  ⟨fun r => (h'.1 r).trans (h.1 r), fun a => (h'.2 a).trans (h.2 a)⟩

/-- On the way from `s` to `t` within a cycle nothing has been committed: registers, memory and events are those of `s`,
and an instruction at the head of `t` that is ready to retire was there in `s`. -/
structure State.BeforeCommit (s t : State) : Prop where
  events : t.events = s.events
  arch : s.ArchKept t
  cycle : t.cycle = s.cycle
  done : (t.robAt t.rob.head).done = true → (s.robAt s.rob.head).done = true
  seq : (t.robAt t.rob.head).done = true → (t.robAt t.rob.head).seq = (s.robAt s.rob.head).seq

theorem State.BeforeCommit.refl (s : State) : s.BeforeCommit s :=
  ⟨rfl, .of_eq rfl rfl rfl, rfl, id, fun _ => rfl⟩

theorem State.BeforeCommit.trans {s t u : State} (h : s.BeforeCommit t) (h' : t.BeforeCommit u) :
    s.BeforeCommit u where
  events := h'.events.trans h.events
  arch := h.arch.trans h'.arch
  cycle := h'.cycle.trans h.cycle
  done hd := h.done (h'.done hd)
  seq hd := (h'.seq hd).trans (h.seq (h'.done hd))

theorem State.CoreKept.beforeCommit {s t : State} (h : s.CoreKept t) : s.BeforeCommit t where
  events := h.events
  arch := .of_eq h.intRegs h.fpRegs h.mem
  cycle := h.cycle
  done hd := by rw [h.head, (h.entry _).done] at hd; exact hd
  seq _ := by rw [h.head, (h.entry _).seq]

/-- What issue enters is not ready to retire, so the instruction at the head, if it is, was there before. -/
theorem State.Running.issue_beforeCommit {s : State} (h : s.Running) (i : Instr) :
    s.BeforeCommit (Machine.issue (issueForm i) s) := by
  obtain heq | ⟨-, r, c, n, he⟩ := h.issue_stalls_or_enters i
  · rw [heq]; exact .refl s
  · generalize Machine.issue (issueForm i) s = t at he ⊢
    have hhead : (t.robAt t.rob.head).done = true → t.robAt t.rob.head = s.robAt s.rob.head := by
      intro hd
      rw [he.entries, he.head] at hd ⊢
      split at hd
      · exact absurd (he.notDone.symm.trans hd) (by simp)
      · next hne => rw [if_neg hne]
    exact ⟨he.dense.events, .of_eq he.intRegs he.fpRegs he.mem, he.shape.cycle, fun hd => hhead hd ▸ hd,
      fun hd => by rw [hhead hd]⟩

/-- Settles O51: issue, execute, write-back and the end of the cycle change neither registers nor memory nor events, and
commit changes them as the event it emits says. -/
theorem stepEffectsFollowCommitEvents : Obligations.StepEffectsFollowCommitEvents := by
  intro s t h ht
  obtain ⟨f, rfl, -⟩ | ⟨u, hu, rfl, hfrom⟩ := h.step_cases ht
  · exact .inl ⟨rfl, .of_eq rfl rfl rfl⟩
  have hissue : s.BeforeCommit u := by
    obtain rfl | ⟨hs, i, rfl⟩ := hfrom
    · exact .refl u
    · exact hs.issue_beforeCommit i
  have hpre := hissue.trans (coreKept_executeAndWriteBack u).beforeCommit
  obtain ⟨hev, harch⟩ := endOfCycle_arch (commit (executeAndWriteBack u))
  obtain ⟨hnone, hkept⟩ | ⟨hd, e, he⟩ := hu.executeAndWriteBack.commit_effect
  · exact .inl ⟨(hev.trans hnone).trans hpre.events, (hpre.arch.trans hkept).trans harch⟩
  · refine .inr ⟨e, ?_, ?_, ?_, he.effect.congr hpre.arch harch⟩
    · rw [hev, he.events, hpre.events]
    · rw [he.commit, hpre.cycle]
    · rw [he.seq, hpre.seq hd]

end Sys2Proof.Machine

/-! ## The data memory (20_memory.md) -/

namespace Sys2Proof.Machine

/-! ### Cells -/

/-- Settles O55: the model's read after a write, at the written cell and at every other. -/
theorem readAfterWrite : Obligations.ReadAfterWrite := by
  intro m a v hm
  have hread := read_write hm a v
  exact ⟨by rw [hread, if_pos rfl], fun b hb => by rw [hread, if_neg hb]⟩

/-! ### The canonical form is unique -/

theorem toNat_cell {b : Nat} (hb : b < 2 ^ 64) : (BitVec.ofNat 64 b).toNat = b :=
  (BitVec.toNat_ofNat b 64).trans (Nat.mod_eq_of_lt hb)

/-- The first listed cell reads as listed. -/
theorem read_head {b : Nat} (hb : b < 2 ^ 64) (v : Word) (m : Memory) :
    Memory.read ((b, v) :: m) (BitVec.ofNat 64 b) = v := by
  rw [read_cons, if_pos (toNat_cell hb).symm]

/-- A listed cell can be told from the free input, so memories that read the same have no least address in only one of
them. -/
theorem not_read_eq_of_wfFrom_succ {lo b : Nat} {v : Word} {m n : Memory}
    (hm : Memory.wfFrom lo ((b, v) :: m) = true) (hn : Memory.wfFrom (b + 1) n = true) :
    ¬ ∀ a, Memory.read ((b, v) :: m) a = Memory.read n a := by
  intro hread
  obtain ⟨-, hb, hv, -⟩ := (wfFrom_cons ..).1 hm
  have hunlisted : Memory.read n (BitVec.ofNat 64 b) = Config.memUnset (BitVec.ofNat 64 b) :=
    read_below hn (by rw [toNat_cell hb]; exact b.lt_succ_self)
  exact hv ((read_head hb v m).symm.trans ((hread _).trans hunlisted))

/-- Memories that read the same and list the same least cell read the same beyond it. -/
theorem read_tail_eq {b : Nat} {v w : Word} {m n : Memory} (hm : Memory.wfFrom (b + 1) m = true)
    (hn : Memory.wfFrom (b + 1) n = true) (hread : ∀ a, Memory.read ((b, v) :: m) a = Memory.read ((b, w) :: n) a)
    (a : Word) : Memory.read m a = Memory.read n a := by
  by_cases hab : b = a.toNat
  · rw [read_below hm (by omega), read_below hn (by omega)]
  · simpa [read_cons, hab] using hread a

/-- Two lists in canonical form that read the same are equal, whatever lower bounds their addresses have. -/
theorem eq_of_wfFrom_of_read_eq {lo lo' : Nat} {m n : Memory} (hm : Memory.wfFrom lo m = true)
    (hn : Memory.wfFrom lo' n = true) (hread : ∀ a, Memory.read m a = Memory.read n a) : m = n := by
  induction m generalizing lo lo' n with
  | nil =>
    cases n with
    | nil => rfl
    | cons q n => exact absurd (fun a => (hread a).symm) (not_read_eq_of_wfFrom_succ hn rfl)
  | cons p m ih =>
    obtain ⟨b, v⟩ := p
    cases n with
    | nil => exact absurd hread (not_read_eq_of_wfFrom_succ hm rfl)
    | cons q n =>
      obtain ⟨c, w⟩ := q
      obtain ⟨-, hb, hv, hm'⟩ := (wfFrom_cons ..).1 hm
      obtain ⟨-, hc, hw, hn'⟩ := (wfFrom_cons ..).1 hn
      obtain hbc | rfl | hcb := lt_trichotomy b c
      · exact absurd hread (not_read_eq_of_wfFrom_succ hm ((wfFrom_cons ..).2 ⟨hbc, hc, hw, hn'⟩))
      · have hvw := hread (BitVec.ofNat 64 b)
        rw [read_head hb, read_head hb] at hvw
        rw [hvw, ih hm' hn' (read_tail_eq hm' hn' hread)]
      · exact absurd (fun a => (hread a).symm)
          (not_read_eq_of_wfFrom_succ hn ((wfFrom_cons ..).2 ⟨hcb, hb, hv, hm'⟩))

/-- Settles O56: by induction on the lists, since the least listed cell tells two canonical memories apart. -/
theorem equalMemoriesAreEqualData : Obligations.EqualMemoriesAreEqualData :=
  fun _ _ hm hn hread => eq_of_wfFrom_of_read_eq hm hn hread

/-! ### What a step does to the memory

Only commit writes it, and at most one cell (20_memory.md R115, 43_load_store.md R338). -/

theorem snapshotBranch_mem (op : Op) (t : Nat) (s : State) : (snapshotBranch op t s).mem = s.mem := by
  obtain ⟨entries, h⟩ := snapshotBranch_eq op t s
  rw [h]

theorem renameDest_mem (dest : Option Reg) (t : Nat) (s : State) : (renameDest dest t s).mem = s.mem := by
  cases dest <;> rfl

theorem issueToStation_mem (f : IssueForm) (c : FuClass) (t : Nat) (s : State) :
    (issueToStation f c t s).mem = s.mem := by
  obtain ⟨u, h⟩ | ⟨j, k, -, -, h⟩ := issueToStation_cases f c t s <;> rw [h]
  · rfl
  · rw [(robKept_chooseNextPc ..).mem, renameDest_mem, snapshotBranch_mem, (robKept_fillStation ..).mem]

theorem issue_mem (f : IssueForm) (s : State) : (issue f s).mem = s.mem := by
  obtain ⟨-, h⟩ | ⟨-, -, h⟩ | ⟨c, -, -, h⟩ := issue_cases f s <;> rw [h]
  · rw [(robKept_chooseNextPc ..).mem]
    rfl
  · rw [issueToStation_mem]
    rfl

theorem issued_mem {s u : State} (hu : u = s ∨ (∃ w r, u = raiseIllegal w r s) ∨
    (s.fault = none ∧ ∃ i, u = issue (issueForm i) s)) : u.mem = s.mem := by
  obtain rfl | ⟨w, r, rfl⟩ | ⟨-, i, rfl⟩ := hu
  · rfl
  · rfl
  · exact issue_mem _ s

/-- The last cycle of a store transaction writes the head's cell, unless it faults (43_load_store.md R338). -/
theorem storeFinish_mem (s : State) : (storeFinish s).mem = s.mem ∨
    (storeFinish s).mem = s.mem.write (s.robAt s.rob.head).stAddr (s.robAt s.rob.head).stData := by
  rw [storeFinish_eq]
  split
  · exact .inr (by rw [retire_mem, stored_mem])
  · exact .inl rfl

/-- Commit writes at most one cell, in any state. -/
theorem commit_mem (s : State) : (commit s).mem = s.mem ∨ ∃ a v, (commit s).mem = s.mem.write a v := by
  have hfinish : ∀ s1 : State, s.RobKept s1 →
      (storeFinish s1).mem = s.mem ∨ ∃ a v, (storeFinish s1).mem = s.mem.write a v := fun s1 h1 =>
    h1.mem ▸ (storeFinish_mem s1).imp_right fun h => ⟨_, _, h⟩
  obtain h | ⟨f, h⟩ | ⟨-, h⟩ | ⟨-, -, -, -, ⟨-, h⟩ | ⟨-, -, h⟩ | ⟨-, h⟩⟩ := commit_cases s <;> rw [h]
  · exact .inl rfl
  · exact .inl rfl
  · rw [storeCommitStep_eq]
    split
    · exact hfinish _ (robKept_storeCounted s)
    · exact .inl rfl
  · exact .inl (by rw [commitReg_eq, retire_mem, written_mem])
  · rw [storeCommitStart_eq]
    split
    · exact hfinish _ (robKept_storeBegun s)
    · exact .inl (robKept_storeBegun s).mem
  · exact .inl (retire_mem s)

theorem endOfCycle_mem (s : State) : (endOfCycle s).mem = s.mem := by
  rw [endOfCycle_eq]
  unfold unlessFaulted
  split <;> rfl

/-- A step leaves the memory or writes one cell of it, in any state. -/
theorem step_mem {s t : State} (h : step s = .next t) :
    t.mem = s.mem ∨ ∃ a v, t.mem = s.mem.write a v := by
  obtain ⟨-, u, rfl, hu⟩ := step_from_issue h
  have hpre : (executeAndWriteBack u).mem = s.mem := (coreKept_executeAndWriteBack u).mem.trans (issued_mem hu)
  rw [restOfCycle_eq, endOfCycle_mem, ← hpre]
  unfold unlessFaulted
  split
  · exact .inl rfl
  · exact commit_mem _

/-- Settles O48: a step leaves the memory or writes one cell, and a write keeps the canonical form. -/
theorem memoryStaysCanonical : Obligations.MemoryStaysCanonical := by
  intro s t hs ht
  obtain h | ⟨a, v, h⟩ := step_mem ht <;> rw [h]
  · exact hs
  · exact write_wf hs a v

end Sys2Proof.Machine

/-! ## Words and instruction records (30_encoding.md R152 to R163)

A word whose opcode field is the number of `op` is valid when the low bits its format reserves are 0 and the record its
fields hold names registers of the right files; `Op.reservedWidth` and `Op.recordOf` say which bits and which record. -/

namespace Sys2Proof

/-! ### Register codes -/

@[simp] theorem ofCode_code (r : Reg) : Reg.ofCode r.code = r := by
  have hR : ∀ i : Fin 32, Reg.ofCode (Reg.R i).code = .R i := by decide
  have hF : ∀ i : Fin 32, Reg.ofCode (Reg.F i).code = .F i := by decide
  cases r with
  | R i => exact hR i
  | F i => exact hF i

@[simp] theorem code_ofCode (c : BitVec 6) : (Reg.ofCode c).code = c := by
  revert c
  decide

/-- Bit 5 of a register code is its file (10_state.md R33). -/
@[simp] theorem isInt_ofCode (c : BitVec 6) : (Reg.ofCode c).isInt = !c.getLsbD 5 := by
  revert c
  decide

@[simp] theorem code_raField (w : InstrWord) : (raField w).code = w.extractLsb' 22 6 := code_ofCode _

@[simp] theorem code_rbField (w : InstrWord) : (rbField w).code = w.extractLsb' 16 6 := code_ofCode _

@[simp] theorem code_rcField (w : InstrWord) : (rcField w).code = w.extractLsb' 10 6 := code_ofCode _

@[simp] theorem isInt_raField (w : InstrWord) : (raField w).isInt = !w.getLsbD 27 := by simp [raField]

@[simp] theorem isInt_rbField (w : InstrWord) : (rbField w).isInt = !w.getLsbD 21 := by simp [rbField]

@[simp] theorem isInt_rcField (w : InstrWord) : (rcField w).isInt = !w.getLsbD 15 := by simp [rcField]

/-! ### The fields of a word put together -/

section Fields

open BitVec

variable (op : Op) (ra rb rc : Reg) (imm : BitVec 16)

/-- The field in the middle of three. -/
theorem extractLsb'_middle {u v n : Nat} (x : BitVec u) (y : BitVec v) (z : BitVec n) :
    (x ++ y ++ z).extractLsb' n v = y := by
  rw [extractLsb'_append_eq_of_le n.le_refl, Nat.sub_self, extractLsb'_append_eq_right]

@[simp] theorem raField_encodeR : raField (encodeR op ra rb rc) = ra := by
  have hbits : (op.code ++ ra.code ++ rb.code ++ rc.code ++ 0#10).extractLsb' 22 6 = ra.code := by
    rw [extractLsb'_append_eq_of_le (by decide), extractLsb'_append_eq_of_le (by decide)]
    exact extractLsb'_middle ..
  exact (congrArg Reg.ofCode hbits).trans (ofCode_code ra)

@[simp] theorem rbField_encodeR : rbField (encodeR op ra rb rc) = rb := by
  have hbits : (op.code ++ ra.code ++ rb.code ++ rc.code ++ 0#10).extractLsb' 16 6 = rb.code := by
    rw [extractLsb'_append_eq_of_le (by decide)]
    exact extractLsb'_middle ..
  exact (congrArg Reg.ofCode hbits).trans (ofCode_code rb)

@[simp] theorem rcField_encodeR : rcField (encodeR op ra rb rc) = rc :=
  (congrArg Reg.ofCode (extractLsb'_middle (op.code ++ ra.code ++ rb.code) rc.code 0#10)).trans (ofCode_code rc)

@[simp] theorem lowBits_encodeR : (encodeR op ra rb rc).extractLsb' 0 10 = 0#10 := extractLsb'_append_eq_right

@[simp] theorem raField_encodeI : raField (encodeI op ra rb imm) = ra := by
  have hbits : (op.code ++ ra.code ++ rb.code ++ imm).extractLsb' 22 6 = ra.code := by
    rw [extractLsb'_append_eq_of_le (by decide)]
    exact extractLsb'_middle ..
  exact (congrArg Reg.ofCode hbits).trans (ofCode_code ra)

@[simp] theorem rbField_encodeI : rbField (encodeI op ra rb imm) = rb :=
  (congrArg Reg.ofCode (extractLsb'_middle (op.code ++ ra.code) rb.code imm)).trans (ofCode_code rb)

@[simp] theorem immField_encodeI : immField (encodeI op ra rb imm) = imm := extractLsb'_append_eq_right

variable {op} {w : InstrWord}

theorem upper_fields_append (w : InstrWord) :
    w.extractLsb' 28 4 ++ w.extractLsb' 22 6 ++ w.extractLsb' 16 6 = w.extractLsb' 16 16 := by
  rw [extractLsb'_append_extractLsb'_eq_extractLsb' (show 28 = 22 + 6 from rfl),
    extractLsb'_append_extractLsb'_eq_extractLsb' (show 22 = 16 + 6 from rfl)]

theorem halves_append (w : InstrWord) : w.extractLsb' 16 16 ++ w.extractLsb' 0 16 = w :=
  (extractLsb'_append_extractLsb'_eq_extractLsb' rfl).trans extractLsb'_eq_self

/-- An R-format word is its fields put together, when the bits the format reserves are 0 (30_encoding.md R152). -/
theorem encodeR_fields (hop : opField w = op.code) (hlow : w.extractLsb' 0 10 = 0#10) :
    encodeR op (raField w) (rbField w) (rcField w) = w := by
  have hjoin : w.extractLsb' 28 4 ++ w.extractLsb' 22 6 ++ w.extractLsb' 16 6 ++ w.extractLsb' 10 6 ++
      w.extractLsb' 0 10 = w := by
    rw [upper_fields_append, extractLsb'_append_extractLsb'_eq_extractLsb' (show 16 = 10 + 6 from rfl)]
    exact (extractLsb'_append_extractLsb'_eq_extractLsb' rfl).trans extractLsb'_eq_self
  unfold encodeR
  rw [← hop, ← hlow, opField, code_raField, code_rbField, code_rcField]
  exact hjoin

/-- An I-format word is its fields put together (30_encoding.md R152). -/
theorem encodeI_fields (hop : opField w = op.code) : encodeI op (raField w) (rbField w) (immField w) = w := by
  unfold encodeI
  rw [← hop, opField, code_raField, code_rbField, immField, upper_fields_append]
  exact halves_append w

/-- An N-format word is its opcode number, when the bits the format reserves are 0 (30_encoding.md R152). -/
theorem encode_nop_fields (hop : opField w = Op.nop.code) (hlow : w.extractLsb' 0 28 = 0#28) : encode .nop = w := by
  have hjoin : w.extractLsb' 28 4 ++ w.extractLsb' 0 28 = w :=
    (extractLsb'_append_extractLsb'_eq_extractLsb' rfl).trans extractLsb'_eq_self
  rwa [hlow, show w.extractLsb' 28 4 = Op.nop.code from hop] at hjoin

end Fields

/-! ### The decoder, opcode by opcode -/

/-- How many low bits of a word with opcode `op` must be 0 (30_encoding.md R152, R163 (b)). -/
def Op.reservedWidth : Op → Nat
  | .nop => 28
  | .add | .sub | .addD | .subD | .multD => 10
  | .addi | .ld | .sd | .beq | .bne => 0

/-- The record that the fields of `w` hold when its opcode is `op` (30_encoding.md R152, R154). -/
def Op.recordOf (op : Op) (w : InstrWord) : Instr :=
  match op with
  | .nop => .nop
  | .add => .add (raField w) (rbField w) (rcField w)
  | .sub => .sub (raField w) (rbField w) (rcField w)
  | .addi => .addi (raField w) (rbField w) (immField w)
  | .addD => .addD (raField w) (rbField w) (rcField w)
  | .subD => .subD (raField w) (rbField w) (rcField w)
  | .multD => .multD (raField w) (rbField w) (rcField w)
  | .ld => .ld (raField w) (rbField w) (immField w)
  | .sd => .sd (raField w) (rbField w) (immField w)
  | .beq => .beq (raField w) (rbField w) (immField w)
  | .bne => .bne (raField w) (rbField w) (immField w)

theorem checkFiles_eq_valid {i j : Instr} : checkFiles i = .valid j ↔ WellFormed i ∧ i = j := by
  unfold checkFiles
  split <;> simp_all [WellFormed]

theorem decode_of_reserved {w : InstrWord} (h : 11 ≤ (opField w).toNat) : decode w = .invalid .reservedOpcode := by
  unfold decode
  split
  any_goals omega
  rfl

variable {op : Op} {w : InstrWord}

/-- What the decoder does with one of the eleven opcodes: the reserved bits first, then the files (30_encoding.md R163,
60_exceptions.md R402). -/
theorem decode_of_op (h : opField w = op.code) : decode w =
    if w.extractLsb' 0 op.reservedWidth = 0#op.reservedWidth then checkFiles (op.recordOf w)
    else .invalid .reservedBits := by
  unfold decode
  rw [h]
  cases op with
  | nop | add | sub | addD | subD | multD => rfl
  | addi | ld | sd | beq | bne => exact (if_pos (BitVec.of_length_zero)).symm

/-- An opcode field is reserved or the number of an opcode (30_encoding.md R153). -/
theorem opField_cases (w : InstrWord) : 11 ≤ (opField w).toNat ∨ ∃ op : Op, opField w = op.code := by
  have hall : ∀ c : BitVec 4, 11 ≤ c.toNat ∨
      c ∈ [Op.nop, .add, .sub, .addi, .addD, .subD, .multD, .ld, .sd, .beq, .bne].map Op.code := by decide
  refine (hall (opField w)).imp_right fun h => ?_
  obtain ⟨op, -, hop⟩ := List.mem_map.1 h
  exact ⟨op, hop.symm⟩

/-- When the decoder accepts a word of one of the eleven opcodes, and which instruction it then reads. -/
theorem decode_eq_valid_of_op (h : opField w = op.code) {i : Instr} : decode w = .valid i ↔
    w.extractLsb' 0 op.reservedWidth = 0#op.reservedWidth ∧ WellFormed (op.recordOf w) ∧ op.recordOf w = i := by
  rw [decode_of_op h]
  split
  case isTrue hlow => simp only [checkFiles_eq_valid, hlow, true_and]
  case isFalse hlow => simp only [hlow, false_and, reduceCtorEq]

/-! ### Encoding and decoding -/

theorem opField_encode (i : Instr) : opField (encode i) = i.op.code := by
  cases i with
  | nop => exact Laws.OpcodeField.nop
  | add | sub | addD | subD | multD => exact opField_encodeR ..
  | addi | ld | sd | beq | bne => exact opField_encodeI ..

theorem reservedBits_encode (i : Instr) :
    (encode i).extractLsb' 0 i.op.reservedWidth = 0#i.op.reservedWidth := by
  cases i with
  | nop => rfl
  | add | sub | addD | subD | multD => exact lowBits_encodeR ..
  | addi | ld | sd | beq | bne => exact BitVec.of_length_zero

/-- The fields of an R-format word give back the record it was made from, whatever its constructor. -/
theorem fields_encodeR (mk : Reg → Reg → Reg → Instr) (op : Op) (ra rb rc : Reg) :
    mk (raField (encodeR op ra rb rc)) (rbField (encodeR op ra rb rc)) (rcField (encodeR op ra rb rc)) =
      mk ra rb rc := by
  rw [raField_encodeR, rbField_encodeR, rcField_encodeR]

/-- The fields of an I-format word give back the record it was made from, whatever its constructor. -/
theorem fields_encodeI (mk : Reg → Reg → BitVec 16 → Instr) (op : Op) (ra rb : Reg) (imm : BitVec 16) :
    mk (raField (encodeI op ra rb imm)) (rbField (encodeI op ra rb imm)) (immField (encodeI op ra rb imm)) =
      mk ra rb imm := by
  rw [raField_encodeI, rbField_encodeI, immField_encodeI]

theorem recordOf_encode (i : Instr) : i.op.recordOf (encode i) = i := by
  cases i with
  | nop => rfl
  | add | sub | addD | subD | multD => exact fields_encodeR ..
  | addi | ld | sd | beq | bne => exact fields_encodeI ..

theorem encode_recordOf (hop : opField w = op.code) (hlow : w.extractLsb' 0 op.reservedWidth = 0#op.reservedWidth) :
    encode (op.recordOf w) = w := by
  cases op with
  | nop => exact encode_nop_fields hop hlow
  | add | sub | addD | subD | multD => exact encodeR_fields hop hlow
  | addi | ld | sd | beq | bne => exact encodeI_fields hop

/-- Settles O1: the word of an instruction holds its opcode number, its record and zeros in the reserved bits. -/
theorem decodeOfEncode : Obligations.DecodeOfEncode := fun i hi => by
  have hrec : i.op.recordOf (encode i) = i := recordOf_encode i
  exact (decode_eq_valid_of_op (opField_encode i)).2 ⟨reservedBits_encode i, hrec.symm ▸ hi, hrec⟩

/-- Settles O2: an accepted word is its fields put together again, as its reserved bits are 0. -/
theorem encodeOfDecode : Obligations.EncodeOfDecode := by
  intro w i h
  obtain hres | ⟨op, hop⟩ := opField_cases w
  · simp [decode_of_reserved hres] at h
  · obtain ⟨hlow, hwf, rfl⟩ := (decode_eq_valid_of_op hop).1 h
    exact ⟨hwf, encode_recordOf hop hlow⟩

end Sys2Proof

/-! ### Invalid words, bit by bit (30_encoding.md R163) -/

namespace Sys2Proof.Machine

variable {op : Op} {w : InstrWord}

theorem not_hasReservedOpcode_of_op (h : opField w = op.code) : ¬ hasReservedOpcode w := by
  change ¬ 11 ≤ (opField w).toNat
  rw [h]
  cases op <;> decide

theorem hasReservedBits_iff_of_op (h : opField w = op.code) :
    hasReservedBits w ↔ w.extractLsb' 0 op.reservedWidth ≠ 0#op.reservedWidth := by
  change w.extractLsb' 28 4 = op.code at h
  unfold hasReservedBits
  rw [h]
  cases op <;> simp [Op.code, Op.reservedWidth, BitVec.of_length_zero]

theorem hasWrongFile_iff_of_op (h : opField w = op.code) : hasWrongFile w ↔ ¬ WellFormed (op.recordOf w) := by
  change w.extractLsb' 28 4 = op.code at h
  unfold hasWrongFile
  rw [h]
  cases op <;> simp [Op.code, Op.recordOf, Instr.wf, Reg.mustBeR, Reg.mustBeF,
    or_iff_not_imp_left]

/-- The valid words, bit by bit. -/
theorem decode_valid_iff (w : InstrWord) :
    (∃ i, decode w = .valid i) ↔ ¬ (hasReservedOpcode w ∨ hasReservedBits w ∨ hasWrongFile w) := by
  obtain hres | ⟨op, hop⟩ := opField_cases w
  · have hcase : hasReservedOpcode w := hres
    simp [decode_of_reserved hres, hcase]
  · simp [decode_eq_valid_of_op hop, not_hasReservedOpcode_of_op hop, hasReservedBits_iff_of_op hop,
      hasWrongFile_iff_of_op hop]

/-- The decoder is total (30_encoding.md R162). -/
theorem decode_invalid_iff_not_valid (w : InstrWord) :
    (∃ r, decode w = .invalid r) ↔ ¬ ∃ i, decode w = .valid i := by
  cases decode w <;> simp

/-- Settles O3: the words of an opcode are told apart by their reserved and file bits, and a word that is not valid is
invalid. -/
theorem invalidWordsExactly : Obligations.InvalidWordsExactly := fun w =>
  ⟨by rw [decode_invalid_iff_not_valid, decode_valid_iff, not_not], decode_valid_iff w⟩

/-- Settles O5: by running the decoder on the eight words. -/
theorem sampleWordsDecode : Obligations.SampleWordsDecode := by
  unfold Obligations.SampleWordsDecode
  decide

end Sys2Proof.Machine

/-! ## The assembler reads the canonical spelling (30_encoding.md R170 to R174)

From the inside out: numbers, registers and addresses are read back from their spelling; none of these spellings holds
white space, a comma or a line end, so that a line falls apart into just the pieces it was put together from. -/

namespace Sys2Proof.Machine

/-! ### Numbers -/

theorem decimalDigit_digitChar (d : Nat) : decimalDigit (digitChar d) = some (d % 10) := by
  have hall : ∀ e : Fin 10, decimalDigit (Char.ofNat ('0'.toNat + e)) = some e.val := by decide
  exact hall ⟨d % 10, Nat.mod_lt _ (by decide)⟩

/-- Every character is a decimal digit. -/
def AllDigits (cs : List Char) : Prop := ∀ c ∈ cs, (decimalDigit c).isSome = true

theorem AllDigits.not_mem {cs : List Char} (h : AllDigits cs) {c : Char} (hc : decimalDigit c = none) : c ∉ cs :=
  fun hmem => by simpa [hc] using h c hmem

theorem allDigits_decimalChars (fuel n : Nat) : AllDigits (decimalChars fuel n) := by
  have hdigit : ∀ d, AllDigits [digitChar d] := fun d c hc => by
    rw [List.mem_singleton.1 hc, decimalDigit_digitChar]
    rfl
  induction fuel generalizing n with
  | zero => exact hdigit n
  | succ fuel ih =>
    unfold decimalChars
    split
    · exact hdigit n
    · exact fun c hc => (List.mem_append.1 hc).elim (ih _ c) (hdigit n c)

theorem decimalChars_ne_nil (fuel n : Nat) : decimalChars fuel n ≠ [] := by
  cases fuel with
  | zero => simp [decimalChars]
  | succ fuel => unfold decimalChars; split <;> simp

theorem readDigits_concat {digit : Char → Option Nat} {c : Char} {d : Nat} (hc : digit c = some d) (base acc : Nat)
    (cs : List Char) :
    readDigits digit base acc (cs ++ [c]) = (readDigits digit base acc cs).map (fun n => n * base + d) := by
  induction cs generalizing acc with
  | nil => simp [readDigits, hc]
  | cons b cs ih =>
    rw [List.cons_append, readDigits, readDigits]
    split
    · rfl
    · exact ih _

theorem readDigits_decimalChars {fuel n : Nat} (h : n < 10 ^ (fuel + 1)) :
    readDigits decimalDigit 10 0 (decimalChars fuel n) = some n := by
  have hlast : ∀ cs m d, readDigits decimalDigit 10 0 cs = some m →
      readDigits decimalDigit 10 0 (cs ++ [digitChar d]) = some (m * 10 + d % 10) := fun cs m d hcs => by
    rw [readDigits_concat (decimalDigit_digitChar d), hcs, Option.map_some]
  induction fuel generalizing n with
  | zero => exact (hlast [] 0 n rfl).trans (congrArg some (by omega))
  | succ fuel ih =>
    unfold decimalChars
    split
    · exact (hlast [] 0 n rfl).trans (congrArg some (by omega))
    · have hdiv : n / 10 < 10 ^ (fuel + 1) := by omega
      exact (hlast _ _ n (ih hdiv)).trans (congrArg some (by omega))

theorem readNumber_decimalChars {fuel n : Nat} (h : n < 10 ^ (fuel + 1)) :
    readNumber decimalDigit 10 (decimalChars fuel n) = some n := by
  rw [← readDigits_decimalChars h]
  unfold readNumber
  split
  · exact absurd ‹_› (decimalChars_ne_nil fuel n)
  · rfl

/-- Digits alone are neither signed nor hexadecimal. -/
theorem readInt_of_allDigits {cs : List Char} (h : AllDigits cs) :
    readInt cs = (readNumber decimalDigit 10 cs).map Int.ofNat := by
  have hx : 'x' ∉ cs := h.not_mem rfl
  have hminus : '-' ∉ cs := h.not_mem rfl
  have hplus : '+' ∉ cs := h.not_mem rfl
  unfold readInt
  split <;> simp_all

theorem readInt_minus {cs : List Char} (h : AllDigits cs) :
    readInt ('-' :: cs) = (readNumber decimalDigit 10 cs).map (fun n => -Int.ofNat n) := by
  have hx : 'x' ∉ cs := h.not_mem rfl
  unfold readInt
  split <;> simp_all

theorem readInt_signedChars (v : BitVec 16) : readInt (signedChars v) = some v.toInt := by
  have hlo : -32768 ≤ v.toInt := v.le_toInt
  have hhi : v.toInt < 32768 := v.toInt_lt
  have hnum : readNumber decimalDigit 10 (decimalChars 4 v.toInt.natAbs) = some v.toInt.natAbs :=
    readNumber_decimalChars (by omega)
  unfold signedChars
  split
  · rw [readInt_minus (allDigits_decimalChars _ _), hnum, Option.map_some, Int.ofNat_eq_natCast]
    congr 1
    omega
  · rw [readInt_of_allDigits (allDigits_decimalChars _ _), hnum, Option.map_some, Int.ofNat_eq_natCast]
    congr 1
    omega

theorem readImm16_signedChars (v : BitVec 16) : readImm16 (signedChars v) = some v := by
  have hlo : -32768 ≤ v.toInt := v.le_toInt
  have hhi : v.toInt < 32768 := v.toInt_lt
  have hrange : -32768 ≤ v.toInt ∧ v.toInt ≤ 32767 := ⟨hlo, by omega⟩
  simp only [readImm16, readInt_signedChars, if_pos hrange, BitVec.ofInt_toInt]

/-! ### Pieces between separators -/

theorem splitAtChar_of_not_mem {sep : Char} {cs : List Char} (h : sep ∉ cs) : splitAtChar sep cs = [cs] := by
  induction cs with
  | nil => rfl
  | cons c cs ih =>
    rw [splitAtChar, if_neg (List.ne_of_not_mem_cons h).symm, ih (List.not_mem_of_not_mem_cons h)]

theorem splitAtChar_append {sep : Char} {cs : List Char} (h : sep ∉ cs) (ds : List Char) :
    splitAtChar sep (cs ++ sep :: ds) = cs :: splitAtChar sep ds := by
  induction cs with
  | nil => rw [List.nil_append, splitAtChar, if_pos rfl]
  | cons c cs ih =>
    rw [List.cons_append, splitAtChar, if_neg (List.ne_of_not_mem_cons h).symm, ih (List.not_mem_of_not_mem_cons h)]

/-! ### Operands -/

theorem readRegister_registerChars (r : Reg) : readRegister (registerChars r) = some r := by
  have hnum : ∀ i : Fin 32, readNumber decimalDigit 10 (decimalChars 4 i) = some i.val := fun i =>
    readNumber_decimalChars (by omega)
  cases r <;> simp [registerChars, readRegister, hnum, regOfIndex]

theorem not_mem_signedChars {c : Char} (hc : decimalDigit c = none) (hminus : c ≠ '-') (v : BitVec 16) :
    c ∉ signedChars v := by
  have hnum := (allDigits_decimalChars 4 v.toInt.natAbs).not_mem hc
  unfold signedChars
  split
  · exact List.not_mem_cons_of_ne_of_not_mem hminus hnum
  · exact hnum

theorem not_mem_registerChars {c : Char} (hc : decimalDigit c = none) (hR : c ≠ 'R') (hF : c ≠ 'F') (r : Reg) :
    c ∉ registerChars r := by
  cases r with
  | R i => exact List.not_mem_cons_of_ne_of_not_mem hR ((allDigits_decimalChars 4 i).not_mem hc)
  | F i => exact List.not_mem_cons_of_ne_of_not_mem hF ((allDigits_decimalChars 4 i).not_mem hc)

theorem readAddress_addressChars (r : Reg) (off : BitVec 16) : readAddress (addressChars r off) = some (off, r) := by
  have hoff : '(' ∉ signedChars off := not_mem_signedChars rfl (by decide) off
  have hbase : '(' ∉ registerChars r ++ [')'] := by
    simpa using not_mem_registerChars rfl (by decide) (by decide) r
  have hsplit : splitAtChar '(' (addressChars r off) = [signedChars off, registerChars r ++ [')']] := by
    rw [addressChars, List.append_assoc, List.cons_append, splitAtChar_append hoff, splitAtChar_of_not_mem hbase]
  simp [readAddress, hsplit, readImm16_signedChars, readRegister_registerChars]

/-- The texts of an instruction's operands in its canonical spelling (30_encoding.md R173, R174). -/
def operandChars : Instr → List (List Char)
  | .nop => []
  | .add a b c | .sub a b c | .addD a b c | .subD a b c | .multD a b c =>
    [registerChars a, registerChars b, registerChars c]
  | .addi a b v | .beq a b v | .bne a b v => [registerChars a, registerChars b, signedChars v]
  | .ld a b v | .sd a b v => [registerChars a, addressChars b v]

theorem readRRR_registerChars (mk : Reg → Reg → Reg → Instr) (a b c : Reg) :
    readRRR mk [registerChars a, registerChars b, registerChars c] = some (mk a b c) := by
  simp only [readRRR, readRegister_registerChars]

theorem readRRI_registerChars (mk : Reg → Reg → BitVec 16 → Instr) (a b : Reg) (v : BitVec 16) :
    readRRI mk [registerChars a, registerChars b, signedChars v] = some (mk a b v) := by
  simp only [readRRI, readRegister_registerChars, readImm16_signedChars]

theorem readRAddress_registerChars (mk : Reg → Reg → BitVec 16 → Instr) (a b : Reg) (v : BitVec 16) :
    readRAddress mk [registerChars a, addressChars b v] = some (mk a b v) := by
  simp only [readRAddress, readRegister_registerChars, readAddress_addressChars]

theorem readOperands_operandChars (i : Instr) : readOperands i.op (operandChars i) = some i := by
  cases i with
  | nop => rfl
  | add | sub | addD | subD | multD => exact readRRR_registerChars ..
  | addi | beq | bne => exact readRRI_registerChars ..
  | ld | sd => exact readRAddress_registerChars ..

/-! ### The texts that a line is put together from -/

/-- A character that separates neither texts nor lines (30_encoding.md R170). -/
def isPlainChar (c : Char) : Bool := !isBlankChar c && c != ',' && c != '\n'

theorem isPlainChar_of_decimalDigit {c : Char} (h : (decimalDigit c).isSome = true) : isPlainChar c = true := by
  have hne : ∀ d, decimalDigit d = none → c ≠ d := fun d hd he => by simp [he, hd] at h
  simp [isPlainChar, isBlankChar, hne ' ' rfl, hne '\t' rfl, hne '\r' rfl, hne ',' rfl, hne '\n' rfl]

/-- A mnemonic or an operand: a text that nothing separates. -/
structure PlainText (p : List Char) : Prop where
  ne_nil : p ≠ []
  plain : ∀ c ∈ p, isPlainChar c = true

namespace PlainText

variable {p q : List Char}

theorem not_blank (hp : PlainText p) : ∀ c ∈ p, isBlankChar c = false := fun c hc => by
  have hplain := hp.plain c hc
  simp_all [isPlainChar]

theorem no_comma (hp : PlainText p) : ',' ∉ p := fun hc => absurd (hp.plain _ hc) (by decide)

theorem no_newline (hp : PlainText p) : '\n' ∉ p := fun hc => absurd (hp.plain _ hc) (by decide)

theorem singleton {c : Char} (h : isPlainChar c = true) : PlainText [c] :=
  ⟨List.cons_ne_nil c [], fun _ hd => List.mem_singleton.1 hd ▸ h⟩

theorem append (hp : PlainText p) (hq : PlainText q) : PlainText (p ++ q) :=
  ⟨List.append_ne_nil_of_left_ne_nil hp.ne_nil q, fun c hc => (List.mem_append.1 hc).elim (hp.plain c) (hq.plain c)⟩

theorem reverse (hp : PlainText p) : PlainText p.reverse :=
  ⟨mt List.reverse_eq_nil_iff.1 hp.ne_nil, fun c hc => hp.plain c (List.mem_reverse.1 hc)⟩

end PlainText

theorem plainText_decimalChars (fuel n : Nat) : PlainText (decimalChars fuel n) :=
  ⟨decimalChars_ne_nil fuel n, fun c hc => isPlainChar_of_decimalDigit (allDigits_decimalChars fuel n c hc)⟩

theorem plainText_registerChars (r : Reg) : PlainText (registerChars r) := by
  cases r with
  | R i => exact (PlainText.singleton (c := 'R') (by decide)).append (plainText_decimalChars 4 i)
  | F i => exact (PlainText.singleton (c := 'F') (by decide)).append (plainText_decimalChars 4 i)

theorem plainText_signedChars (v : BitVec 16) : PlainText (signedChars v) := by
  have hnum := plainText_decimalChars 4 v.toInt.natAbs
  unfold signedChars
  split
  · exact (PlainText.singleton (c := '-') (by decide)).append hnum
  · exact hnum

theorem plainText_addressChars (r : Reg) (v : BitVec 16) : PlainText (addressChars r v) := by
  have hopen : PlainText ['('] := .singleton (by decide)
  have hclose : PlainText [')'] := .singleton (by decide)
  exact ((plainText_signedChars v).append (hopen.append (plainText_registerChars r))).append hclose

theorem plainText_spelling (op : Op) : PlainText (Op.spelling op) := by
  cases op <;> exact ⟨by decide, by simp [Op.spelling, isPlainChar, isBlankChar]⟩

theorem plainText_operandChars (i : Instr) : ∀ p ∈ operandChars i, PlainText p := by
  cases i <;>
    simp [operandChars, plainText_registerChars, plainText_signedChars, plainText_addressChars]

/-! ### White space round a text -/

theorem dropWhile_blank_plain {p : List Char} (hp : PlainText p) (cs : List Char) :
    (p ++ cs).dropWhile isBlankChar = p ++ cs := by
  cases p with
  | nil => exact absurd rfl hp.ne_nil
  | cons c p =>
    rw [List.cons_append, List.dropWhile_cons_of_neg]
    simp [hp.not_blank c List.mem_cons_self]

/-- A text that begins and ends with plain texts has no white space round it. -/
theorem trimBlank_eq_self {cs p q xs ys : List Char} (hp : PlainText p) (hq : PlainText q) (hhead : cs = p ++ xs)
    (hlast : cs = ys ++ q) : trimBlank cs = cs := by
  unfold trimBlank
  rw [hhead, dropWhile_blank_plain hp, ← hhead, hlast, List.reverse_append, dropWhile_blank_plain hq.reverse,
    ← List.reverse_append, List.reverse_reverse]

theorem PlainText.trimBlank {p : List Char} (hp : PlainText p) : trimBlank p = p :=
  trimBlank_eq_self hp hp (List.append_nil p).symm (List.nil_append p).symm

theorem trimBlank_space (cs : List Char) : trimBlank (' ' :: cs) = trimBlank cs := rfl

/-! ### Lines -/

/-- Operand texts behind the first one, as R174 separates them. -/
def commaSeparated (ps : List (List Char)) : List Char := ps.flatMap (fun p => ',' :: ' ' :: p)

/-- The part of a canonical line behind the mnemonic. -/
def spacedOperands : List (List Char) → List Char
  | [] => []
  | a :: rest => ' ' :: (a ++ commaSeparated rest)

theorem disassemble_eq (i : Instr) : disassemble i = Op.spelling i.op ++ spacedOperands (operandChars i) := by
  have hinstr : ∀ op a rest, instrChars op a rest = Op.spelling op ++ spacedOperands (a :: rest) := fun op a rest => by
    simp [instrChars, spacedOperands, commaSeparated]
  cases i with
  | nop => exact (List.append_nil _).symm
  | _ => exact hinstr ..

section Line

variable {ps : List (List Char)} {a : List Char}

/-- Plain texts, so separated, end with a plain text. -/
theorem commaSeparated_ends (ha : PlainText a) (hps : ∀ p ∈ ps, PlainText p) (xs : List Char) :
    ∃ ys q, PlainText q ∧ xs ++ a ++ commaSeparated ps = ys ++ q := by
  induction ps generalizing a xs with
  | nil => exact ⟨xs, a, ha, List.append_nil _⟩
  | cons p ps ih =>
    obtain ⟨hp, hps⟩ := List.forall_mem_cons.1 hps
    obtain ⟨ys, q, hq, hend⟩ := ih hp hps (xs ++ a ++ [',', ' '])
    exact ⟨ys, q, hq, by rw [← hend]; simp [commaSeparated]⟩

theorem spacedOperands_ends (ha : PlainText a) (hps : ∀ p ∈ ps, PlainText p) :
    ∃ ys q, PlainText q ∧ a ++ spacedOperands ps = ys ++ q := by
  cases ps with
  | nil => exact ⟨[], a, ha, List.append_nil a⟩
  | cons p ps =>
    obtain ⟨hp, hps⟩ := List.forall_mem_cons.1 hps
    obtain ⟨ys, q, hq, hend⟩ := commaSeparated_ends hp hps (a ++ [' '])
    exact ⟨ys, q, hq, by rw [← hend]; simp [spacedOperands]⟩

theorem splitAtChar_commaSeparated (ha : ',' ∉ a) (hps : ∀ p ∈ ps, PlainText p) :
    splitAtChar ',' (a ++ commaSeparated ps) = a :: ps.map (' ' :: ·) := by
  induction ps generalizing a with
  | nil => simpa [commaSeparated] using splitAtChar_of_not_mem ha
  | cons p ps ih =>
    obtain ⟨hp, hps⟩ := List.forall_mem_cons.1 hps
    have hnext : ',' ∉ ' ' :: p := List.not_mem_cons_of_ne_of_not_mem (by decide) hp.no_comma
    rw [List.map_cons, ← ih hnext hps]
    exact splitAtChar_append ha _

theorem operandTexts_spacedOperands (hps : ∀ p ∈ ps, PlainText p) : operandTexts (spacedOperands ps) = ps := by
  cases ps with
  | nil => rfl
  | cons a ps =>
    obtain ⟨ha, hps⟩ := List.forall_mem_cons.1 hps
    obtain ⟨ys, q, hq, hend⟩ := commaSeparated_ends ha hps []
    have htrim : trimBlank (spacedOperands (a :: ps)) = a ++ commaSeparated ps :=
      trimBlank_eq_self ha hq rfl hend
    have hmap : ps.map (fun p => trimBlank (' ' :: p)) = ps :=
      (List.map_congr_left fun p hp => (trimBlank_space p).trans (hps p hp).trimBlank).trans (List.map_id' ps)
    unfold operandTexts
    rw [htrim]
    split
    · simp_all [ha.ne_nil]
    · rw [splitAtChar_commaSeparated ha.no_comma hps]
      simp [ha.trimBlank, hmap, Function.comp_def]

theorem newline_not_mem_spacedOperands (hps : ∀ p ∈ ps, PlainText p) : '\n' ∉ spacedOperands ps := by
  have hcomma : ∀ qs : List (List Char), (∀ p ∈ qs, PlainText p) → '\n' ∉ commaSeparated qs := fun qs hqs hmem => by
    obtain ⟨p, hp, hin⟩ := List.mem_flatMap.1 hmem
    simp [(hqs p hp).no_newline] at hin
  cases ps with
  | nil => simp [spacedOperands]
  | cons a ps =>
    obtain ⟨ha, hps⟩ := List.forall_mem_cons.1 hps
    simp [spacedOperands, ha.no_newline, hcomma ps hps]

theorem takeWhile_spacedOperands (ha : PlainText a) (ps : List (List Char)) :
    (a ++ spacedOperands ps).takeWhile (fun c => !isBlankChar c) = a := by
  rw [List.takeWhile_append_of_pos (by simpa using ha.not_blank)]
  cases ps <;> simp [spacedOperands, isBlankChar]

theorem dropWhile_spacedOperands (ha : PlainText a) (ps : List (List Char)) :
    (a ++ spacedOperands ps).dropWhile (fun c => !isBlankChar c) = spacedOperands ps := by
  rw [List.dropWhile_append_of_pos (by simpa using ha.not_blank)]
  cases ps <;> simp [spacedOperands, isBlankChar]

theorem readMnemonic_spelling (op : Op) : readMnemonic (Op.spelling op) = some op := by
  cases op <;> decide

/-- A line of a mnemonic and plain operand texts is read by the mnemonic's operand form. -/
theorem readLine_spelling {op : Op} {i : Instr} (hps : ∀ p ∈ ps, PlainText p) (hread : readOperands op ps = some i)
    (hwf : WellFormed i) : readLine (Op.spelling op ++ spacedOperands ps) = .instr i := by
  have hop := plainText_spelling op
  obtain ⟨ys, q, hq, hend⟩ := spacedOperands_ends hop hps
  unfold readLine
  rw [trimBlank_eq_self hop hq rfl hend]
  split
  next hnil => exact absurd (List.append_eq_nil_iff.1 hnil).1 hop.ne_nil
  next =>
    rw [takeWhile_spacedOperands hop, dropWhile_spacedOperands hop, readMnemonic_spelling,
      operandTexts_spacedOperands hps]
    simp only [hread]
    exact if_pos hwf

end Line

theorem assemble_of_readLine {line : List Char} {i : Instr} (hline : '\n' ∉ line) (hread : readLine line = .instr i) :
    assemble line = some [encode i] := by
  simp [assemble, splitAtChar_of_not_mem hline, assembleLines, hread]

theorem assemble_disassemble {i : Instr} (h : WellFormed i) : assemble (disassemble i) = some [encode i] := by
  have hps := plainText_operandChars i
  rw [disassemble_eq]
  refine assemble_of_readLine ?_ (readLine_spelling hps (readOperands_operandChars i) h)
  exact List.not_mem_append (plainText_spelling i.op).no_newline (newline_not_mem_spacedOperands hps)

/-- Settles O6: the assembler reads the spelling of a well-formed instruction as its word, and a valid word is the word
of the instruction it decodes to. -/
theorem assemblerReadsCanonicalSpelling : Obligations.AssemblerReadsCanonicalSpelling := by
  intro w i h
  obtain ⟨hwf, rfl⟩ := encodeOfDecode w i h
  exact assemble_disassemble hwf

end Sys2Proof.Machine

/-! ## Issue of one instruction (40_engine_cycle.md R206 to R219)

With the gates open and the operands resolving, issue is the chain of its updates; what each of them leaves is then read
off. -/

namespace Sys2Proof.Machine

section Issue

variable {s : State} {f : IssueForm}

theorem chooseNextPc_of_not_branch {op : Op} (h : op.kind ≠ .branch) (t : Nat) (s : State) :
    chooseNextPc op t s = { s with pc := s.pc + 1 } := by
  unfold chooseNextPc
  exact if_neg fun hc => h hc.1

theorem snapshotBranch_of_not_branch {op : Op} (h : op.kind ≠ .branch) (t : Nat) (s : State) :
    snapshotBranch op t s = s := by
  unfold snapshotBranch
  exact if_neg h

theorem State.GatesOpen.freeStation {c : FuClass} (h : s.GatesOpen c) : ∃ n, s.freeStation c = some n := by
  obtain ⟨-, n, hn, hfree⟩ := h
  cases hf : s.freeStation c with
  | some m => exact ⟨m, rfl⟩
  | none =>
    have hbusy := List.findIdx?_eq_none_iff.1 hf (s.station c n) (mem_table.2 ⟨n, hn, rfl⟩)
    simp [hfree] at hbusy

theorem State.GatesOpen.canIssue {c : FuClass} (h : s.GatesOpen c) {op : Op} (hcls : op.fuClass = some c) :
    s.canIssue op = true := by
  obtain ⟨n, hn⟩ := h.freeStation
  simp [State.canIssue, hcls, hn, h.1]

/-- Allocation does not disturb operand resolution: the new entry is not among those the RAT names
(40_engine_cycle.md R206, R213). -/
theorem State.ResolvesTo.resolveOperand {r : Reg} {v : Slot} (h : s.ResolvesTo r v) (hr : s.RingOk)
    (hc : s.rob.count < s.cfg.robSize) (f : IssueForm) : resolveOperand (allocateRob f s) (.reg r) = .slot v := by
  change resolveReg (allocateRob f s) r = .slot v
  obtain ⟨hrat, rfl⟩ | ⟨u, hrat, hb, hv⟩ := h
  · have hread : (allocateRob f s).readReg r = s.readReg r := by cases r <;> rfl
    unfold resolveReg
    rw [show (allocateRob f s).rat.lookup r = .arf from hrat, hread]
  · have hkeep : (allocateRob f s).robAt u = s.robAt u := by
      rw [robAt_allocateRob, if_neg fun hcon => ne_tail_of_busy hr hc hb hcon.1]
    unfold resolveReg
    rw [show (allocateRob f s).rat.lookup r = .rob u from hrat]
    obtain ⟨hcomp, rfl⟩ | ⟨hcomp, rfl⟩ := hv <;> simp [hkeep, hb, hcomp]

/-- With open gates and resolving operands issue fills the free station with the lowest index
(40_engine_cycle.md R209, R215). -/
theorem issue_of_gatesOpen {c : FuClass} (hg : s.GatesOpen c) (hcls : f.op.fuClass = some c) {j k : Slot}
    (hj : resolveOperand (allocateRob f s) f.j = .slot j) (hk : resolveOperand (allocateRob f s) f.k = .slot k) :
    ∃ n, s.freeStation c = some n ∧
      issue f s = chooseNextPc f.op s.rob.tail (renameDest f.dest s.rob.tail (snapshotBranch f.op s.rob.tail
        ((allocateRob f s).modifyStation c n (newStation f s.rob.tail j k)))) := by
  obtain ⟨n, hn⟩ := hg.freeStation
  refine ⟨n, hn, ?_⟩
  obtain ⟨hno, -⟩ | ⟨-, hnone, -⟩ | ⟨c', -, hsome, heq⟩ := issue_cases f s
  · exact absurd ((hg.canIssue hcls).symm.trans hno) (by simp)
  · exact absurd (hcls.symm.trans hnone) (by simp)
  · obtain rfl : c = c' := Option.some.inj (hcls.symm.trans hsome)
    rw [heq, issueToStation_eq hj hk, fillStation_eq (s := allocateRob f s) hn]

/-- An instruction that writes a register allocates, waits in its station and renames its destination
(40_engine_cycle.md R211, R215, R217, R219). -/
theorem issue_of_writer {c : FuClass} (hg : s.GatesOpen c) (hcls : f.op.fuClass = some c) (hkind : f.op.kind = .reg)
    {rd : Reg} (hdest : f.dest = some rd) {j k : Slot} (hj : resolveOperand (allocateRob f s) f.j = .slot j)
    (hk : resolveOperand (allocateRob f s) f.k = .slot k) : ∃ n, s.freeStation c = some n ∧
      issue f s = { (allocateRob f s).modifyStation c n (newStation f s.rob.tail j k) with
        rat := s.rat.assign rd (.rob s.rob.tail), pc := s.pc + 1 } := by
  have hbranch : f.op.kind ≠ .branch := by simp [hkind]
  obtain ⟨n, hn, heq⟩ := issue_of_gatesOpen hg hcls hj hk
  refine ⟨n, hn, ?_⟩
  rw [heq, snapshotBranch_of_not_branch hbranch, chooseNextPc_of_not_branch hbranch, hdest]
  rfl

/-- A nop allocates and is complete at once (40_engine_cycle.md R218). -/
theorem issue_nop (hc : s.rob.count < s.cfg.robSize) : issue (issueForm .nop) s =
    { completeAtIssue s.rob.tail (allocateRob (issueForm .nop) s) with pc := s.pc + 1 } := by
  have hcan : s.canIssue (issueForm .nop).op = true := by simp [State.canIssue, issueForm, Op.fuClass, hc]
  obtain ⟨hno, -⟩ | ⟨-, -, heq⟩ | ⟨c, -, hsome, -⟩ := issue_cases (issueForm .nop) s
  · exact absurd (hcan.symm.trans hno) (by simp)
  · rw [heq, chooseNextPc_of_not_branch (by simp [Op.kind, Instr.op])]
    rfl
  · cases hsome

/-! ### What an issue leaves -/

/-- What the allocation and the updates after it leave in the ROB (40_engine_cycle.md R211, R212): `t` has the ring of
the allocation, and its new entry may differ from the allocated one in `complete`. -/
theorem robAllocated_of_entries {t : State} {complete : Bool}
    (hring : t.rob = { (allocateRob f s).rob with entries := t.rob.entries }) (hseq : t.nextSeq = s.nextSeq + 1)
    (hent : ∀ u, t.robAt u =
      if u = s.rob.tail then { newRobEntry f s (s.robAt u) with complete := complete } else s.robAt u) :
    s.RobAllocated t f.op f.op.kind complete := by
  have htail : t.robAt s.rob.tail = { newRobEntry f s (s.robAt s.rob.tail) with complete := complete } := by
    rw [hent, if_pos rfl]
  exact ⟨by rw [htail]; rfl, by rw [htail]; rfl, by rw [htail]; rfl, by rw [htail], by rw [htail]; rfl,
    by rw [htail]; rfl, by rw [htail]; rfl, by rw [htail]; rfl, fun u hu => by rw [hent, if_neg hu],
    by rw [hring]; rfl, by rw [hring]; rfl, by rw [hring]; rfl, hseq⟩

theorem stationFilled_modifyStation {t : State} {c : FuClass} {n : Nat} (hn : s.freeStation c = some n)
    {tag : Nat} {j k : Slot} (ht : ∀ c' m, t.station c' m = (s.modifyStation c n (newStation f tag j k)).station c' m) :
    s.StationFilled t c f.op tag j k f.imm := by
  obtain ⟨hlt, hfree, hlow⟩ := (freeStation_eq_some s c n).1 hn
  have hnew : t.station c n = newStation f tag j k (s.station c n) := by
    rw [ht, station_modifyStation, if_pos ⟨rfl, rfl, hlt⟩]
  refine ⟨n, hlt, hfree, hlow, by rw [hnew]; rfl, by rw [hnew]; rfl, by rw [hnew]; rfl, by rw [hnew]; rfl,
    by rw [hnew]; rfl, by rw [hnew]; rfl, by rw [hnew]; rfl, by rw [hnew]; rfl, by rw [hnew]; rfl, fun c' m hcm => ?_⟩
  rw [ht, station_modifyStation, if_neg fun hcon => hcm (by rw [hcon.1, hcon.2.1])]

/-- The issue of an instruction that writes a register, as the statements speak of it. -/
theorem writer_issues {c : FuClass} (hs : s.Sized) (hr : s.RingOk) (hg : s.GatesOpen c)
    (hcls : f.op.fuClass = some c) (hkind : f.op.kind = .reg) {rd : Reg} (hdest : f.dest = some rd) {j k : Slot}
    (hj : resolveOperand (allocateRob f s) f.j = .slot j) (hk : resolveOperand (allocateRob f s) f.k = .slot k) :
    s.OnlyIssued (issue f s) ∧ s.RobAllocated (issue f s) f.op .reg false ∧
      ((issue f s).robAt s.rob.tail).dest = rd ∧ s.StationFilled (issue f s) c f.op s.rob.tail j k f.imm ∧
      s.Renamed (issue f s) rd s.rob.tail ∧ (issue f s).pc = s.pc + 1 := by
  obtain ⟨n, hn, heq⟩ := issue_of_writer hg hcls hkind hdest hj hk
  have htail := hr.tail_lt hs
  have hent : ∀ u, (issue f s).robAt u =
      if u = s.rob.tail then { newRobEntry f s (s.robAt u) with complete := false } else s.robAt u := by
    intro u
    have hu : (issue f s).robAt u = (allocateRob f s).robAt u := by rw [heq]; rfl
    rw [hu, robAt_allocateRob]
    by_cases h : u = s.rob.tail
    · rw [if_pos ⟨h, h ▸ htail⟩, if_pos h]; rfl
    · rw [if_neg fun hcon => h hcon.1, if_neg h]
  have hrat : (issue f s).rat = s.rat.assign rd (.rob s.rob.tail) := by rw [heq]
  refine ⟨?_, hkind ▸ robAllocated_of_entries (by rw [heq]; rfl) (by rw [heq]; rfl) hent, ?_,
    stationFilled_modifyStation hn fun c' m => by rw [heq]; rfl, ⟨?_, fun q hq => ?_⟩, by rw [heq]⟩
  · rw [heq]
    exact ⟨.of_eq rfl rfl rfl, rfl, rfl, rfl, rfl, rfl, rfl, rfl, rfl, rfl⟩
  · rw [hent, if_pos rfl]
    simp [newRobEntry, hdest]
  · rw [hrat, lookup_assign, if_pos rfl]
  · rw [hrat, lookup_assign, if_neg hq]

end Issue

/-- Settles O16: `addi` is an instruction that writes a register, its second operand a value from the start. -/
theorem addiIssues : Obligations.AddiIssues := by
  intro s rd rs imm j hs hr hg hj
  exact ⟨_, exec_eq_issue _ s,
    writer_issues (f := issueForm (.addi rd rs imm)) hs hr hg rfl rfl rfl (hj.resolveOperand hr hg.1 _) rfl⟩

/-- Settles O14: a nop's issue is the allocation, the completion of the new entry and the next pc. -/
theorem nopIssues : Obligations.NopIssues := by
  intro s hs hr hc
  have htail := hr.tail_lt hs
  refine ⟨_, exec_eq_issue .nop s, ?_⟩
  rw [issue_nop hc]
  refine ⟨⟨.of_eq rfl rfl rfl, rfl, rfl, rfl, rfl, rfl, rfl, rfl, rfl, rfl⟩,
    robAllocated_of_entries (f := issueForm .nop) rfl rfl fun u => ?_, rfl, rfl, rfl⟩
  change (completeAtIssue s.rob.tail (allocateRob (issueForm .nop) s)).robAt u = _
  have hlen : s.rob.tail < (allocateRob (issueForm .nop) s).rob.entries.length :=
    (shapeKept_allocateRob (issueForm .nop) s).robLength ▸ htail
  rw [completeAtIssue]
  by_cases hu : u = s.rob.tail
  · subst hu
    rw [robAt_modifyRob_same _ _ hlen, robAt_allocateRob, if_pos ⟨rfl, htail⟩, if_pos rfl]
  · rw [robAt_modifyRob_other _ _ hu, robAt_allocateRob, if_neg fun hcon => hu hcon.1, if_neg hu]

end Sys2Proof.Machine

/-! ## The stages when at most one station is busy (40_engine_cycle.md R220, R221, R231) -/

namespace Sys2Proof.Machine

section FewStations

variable {s t : State} {k : FuClass} {n : Nat}

/-! ### Scans -/

theorem ageOrder_of_free (h : ∀ i, (s.station k i).busy = false) : s.ageOrder k = [] :=
  List.eq_nil_iff_forall_not_mem.2 fun i hi => absurd ((h i).symm.trans ((mem_ageOrder s k i).1 hi)) (by simp)

theorem ageOrder_of_only (h : ∀ i, (s.station k i).busy = true ↔ i = n) : s.ageOrder k = [n] :=
  List.perm_singleton.1 <| (List.perm_ext_iff_of_nodup (nodup_ageOrder s k) (List.nodup_singleton n)).2 fun i => by
    rw [mem_ageOrder, h, List.mem_singleton]

theorem danglingStation_of_free (h : ∀ i, (s.station k i).busy = false) : s.danglingStation k = none :=
  (danglingStation_eq_none s k).2 fun i hi => absurd ((h i).symm.trans hi) (by simp)

/-- A scan of a table without a busy entry does nothing. -/
theorem scanTable_of_free (h : ∀ i, (s.station k i).busy = false) : scanTable k s = s := by
  unfold scanTable
  rw [danglingStation_of_free h, ageOrder_of_free h]
  rfl

/-- A scan of a table with one busy entry is one visit. -/
theorem scanTable_of_only (h : ∀ i, (s.station k i).busy = true ↔ i = n)
    (hr : (s.robAt (s.station k n).dest).busy = true) (hf : s.fault = none) : scanTable k s = visit k n s := by
  unfold scanTable
  rw [(danglingStation_eq_none s k).2 fun i hi => (h i).1 hi ▸ hr, ageOrder_of_only h]
  exact unlessFaulted_of_none _ hf

/-- Parts that do nothing can be left out of a run. -/
theorem foldUnlessFaulted_of_fixed {α : Type} {f : α → State → State} {xs : List α} (h : ∀ x ∈ xs, f x s = s) :
    foldUnlessFaulted f xs s = s := by
  induction xs with
  | nil => rfl
  | cons x xs ih =>
    have hx : unlessFaulted (f x) s = s := by
      unfold unlessFaulted
      split
      · rfl
      · exact h x (by simp)
    rw [foldUnlessFaulted_cons, hx]
    exact ih fun y hy => h y (List.mem_cons_of_mem _ hy)

/-- When one part of a run acts, and acts without a fault, the run is that part. -/
theorem foldUnlessFaulted_of_only {α : Type} {f : α → State → State} {xs : List α} {a : α} (hn : xs.Nodup)
    (ha : a ∈ xs) (hf : s.fault = none) (hact : f a s = t) (hother : ∀ x, x ≠ a → f x s = s ∧ f x t = t) :
    foldUnlessFaulted f xs s = t := by
  induction xs with
  | nil => cases ha
  | cons x xs ih =>
    obtain ⟨hx, hxs⟩ := List.nodup_cons.1 hn
    rw [foldUnlessFaulted_cons, unlessFaulted_of_none _ hf]
    by_cases hxa : x = a
    · subst hxa
      rw [hact]
      exact foldUnlessFaulted_of_fixed fun y hy => (hother y fun hyx => hx (hyx ▸ hy)).2
    · rw [(hother x hxa).1]
      exact ih hxs ((List.mem_cons.1 ha).resolve_left (Ne.symm hxa))

theorem mem_tableOrder (k : FuClass) : k ∈ tableOrder := by cases k <;> decide

/-! ### Execute -/

theorem execute_of_free (h : ∀ k i, (s.station k i).busy = false) : execute s = s :=
  foldUnlessFaulted_of_fixed fun k _ => scanTable_of_free (h k)

/-- When one station is busy, execute is the visit of it. -/
theorem execute_of_only (h : ∀ c m, (s.station c m).busy = true ↔ c = k ∧ m = n)
    (hr : (s.robAt (s.station k n).dest).busy = true) (hf : s.fault = none) (hvisit : visit k n s = t)
    (hother : ∀ c, c ≠ k → ∀ m, t.station c m = s.station c m) : execute s = t := by
  have hfree : ∀ c, c ≠ k → ∀ m, (s.station c m).busy = false := fun c hc m => by
    by_contra hb
    exact hc ((h c m).1 (by simpa using hb)).1
  refine foldUnlessFaulted_of_only (by decide) (mem_tableOrder k) hf ?_ fun c hc =>
    ⟨scanTable_of_free (hfree c hc), scanTable_of_free fun m => hother c hc m ▸ hfree c hc m⟩
  rw [scanTable_of_only (fun i => by simp [h]) hr hf, hvisit]

/-! ### Write-back -/

theorem arbitrate_of_none (hd : ∀ c, s.danglingStation c = none) (hc : ∀ c m, s.isCandidate c m = false)
    (ks : List FuClass) : s.arbitrate ks = .noCandidate := by
  induction ks with
  | nil => rfl
  | cons c ks ih =>
    unfold State.arbitrate
    rw [hd, List.find?_eq_none.2 fun m _ => by simp [hc]]
    exact ih

/-- The only candidate wins. -/
theorem arbitrate_of_only {ks : List FuClass} (hd : ∀ c, s.danglingStation c = none)
    (hc : ∀ c m, s.isCandidate c m = true ↔ c = k ∧ m = n) (hk : k ∈ ks) : s.arbitrate ks = .winner k n := by
  have hbusy : (s.station k n).busy = true := by
    have hcand := (hc k n).2 ⟨rfl, rfl⟩
    simp only [State.isCandidate, Bool.and_eq_true] at hcand
    exact hcand.1.1
  induction ks with
  | nil => cases hk
  | cons c ks ih =>
    unfold State.arbitrate
    rw [hd]
    cases hfind : (s.ageOrder c).find? (s.isCandidate c) with
    | some m =>
      obtain ⟨rfl, rfl⟩ := (hc c m).1 (by simpa using List.find?_some hfind)
      rfl
    | none =>
      refine ih ((List.mem_cons.1 hk).resolve_left ?_)
      rintro rfl
      exact List.find?_eq_none.1 hfind n ((mem_ageOrder s k n).2 hbusy) ((hc k n).2 ⟨rfl, rfl⟩)

theorem writeBack_of_none (hd : ∀ c, s.danglingStation c = none) (hc : ∀ c m, s.isCandidate c m = false) :
    writeBack s = s := by
  unfold writeBack
  rw [arbitrate_of_none hd hc]

theorem isCandidate_of_free {c : FuClass} {m : Nat} (h : (s.station c m).busy = false) :
    s.isCandidate c m = false := by
  simp [State.isCandidate, h]

theorem writeBack_of_free (h : ∀ k i, (s.station k i).busy = false) : writeBack s = s :=
  writeBack_of_none (fun c => danglingStation_of_free (h c)) fun c m => isCandidate_of_free (h c m)

/-- The only candidate broadcasts its row of the result table (40_engine_cycle.md R232). -/
theorem writeBack_of_only (hd : ∀ c, s.danglingStation c = none)
    (hc : ∀ c m, s.isCandidate c m = true ↔ c = k ∧ m = n) {v : Word} (hv : resultOf (s.station k n) = some v) :
    writeBack s = broadcast k n v s := by
  unfold writeBack
  rw [arbitrate_of_only hd hc (mem_tableOrder k)]
  simp only [hv]

/-- A broadcast that no station waits for changes no station (40_engine_cycle.md R235). -/
theorem drainCdb_of_free (h : ∀ k i, (s.station k i).busy = false) : drainCdb s =
    s.modifyRob s.cdb.tag (fun r =>
      { r with value := s.cdb.value, complete := true, timing := { r.timing with wb := some s.cycle } }) := by
  have hsame : ∀ c, (s.rs.get c).map (captureBroadcast s.cdb.tag s.cdb.value) = s.rs.get c := fun c =>
    List.map_congr_left (g := id) (fun e he => by
      obtain ⟨m, -, rfl⟩ := mem_table.1 he
      simp [captureBroadcast, h]) |>.trans (List.map_id _)
  have hrs : s.rs.map (List.map (captureBroadcast s.cdb.tag s.cdb.value)) = s.rs := by
    unfold ClassMap.map
    exact congr (congr (congr (congr (congrArg ClassMap.mk (hsame .fpadd)) (hsame .int)) (hsame .mult)) (hsame .ls))
      (hsame .br)
  rw [drainCdb_eq fun c => danglingOperand_eq_none (fun m hm => absurd ((h c m).symm.trans hm) (by simp))
    fun m hm => absurd ((h c m).symm.trans hm) (by simp), drained, hrs]

end FewStations

/-! ### Commit -/

section Commit

variable {s : State}

/-- A head that was not done before this cycle waits (40_engine_cycle.md R245). -/
theorem commit_of_not_done (ho : s.port.owner ≠ .commit) (hb : (s.robAt s.rob.head).busy = true)
    (hd : (s.robAt s.rob.head).done = false) : commit s = s := by
  unfold commit
  rw [if_neg ho]
  split
  · rfl
  · simp [hb, commitHead, hd]

theorem commit_eq_commitHead (ho : s.port.owner ≠ .commit) (hc : s.rob.count ≠ 0)
    (hb : (s.robAt s.rob.head).busy = true) : commit s = commitHead s := by
  unfold commit
  simp [ho, hc, hb]

theorem commitHead_of_reg (hd : (s.robAt s.rob.head).done = true) (hk : (s.robAt s.rob.head).kind = .reg) :
    commitHead s = retire (written s) := by
  simp [commitHead, hd, hk, commitReg_eq]

theorem commitHead_of_nop (hd : (s.robAt s.rob.head).done = true) (hk : (s.robAt s.rob.head).kind = .nop) :
    commitHead s = retire s := by
  simp [commitHead, hd, hk]

end Commit

/-! ### A whole cycle -/

/-- A cycle whose stages all run without a fault. -/
theorem restOfCycle_of_stages {s a b c : State} (hf : s.fault = none) (he : execute s = a) (hfa : a.fault = none)
    (hw : writeBack a = b) (hfb : b.fault = none) (hc : commit b = c) (hfc : c.fault = none) :
    restOfCycle s = boundary c := by
  unfold restOfCycle
  rw [unlessFaulted_of_none execute hf, he, unlessFaulted_of_none writeBack hfa, hw, unlessFaulted_of_none commit hfb,
    hc, endOfCycle_eq, unlessFaulted_of_none _ hfc]
  rfl

/-- A step that issues nothing (40_engine_cycle.md R207). -/
theorem step_of_idle {s : State} (hl : s.launchLegal = true) (hf : s.fault = none) (hfetch : s.fetch = .idle) :
    step s = .next (restOfCycle s) := by
  unfold step issueStage
  simp [hl, State.faulted, hf, hfetch, completeCycle]

theorem step_of_instr {s : State} {i : Instr} (hl : s.launchLegal = true) (hf : s.fault = none)
    (hfetch : s.fetch = .instr i) : step s = .next (restOfCycle (issue (issueForm i) s)) := by
  unfold step issueStage
  simp [hl, State.faulted, hf, hfetch, completeCycle, exec_eq_issue]

/-! ### Runs -/

theorem run_succ_of_next (M : Host.Core) {s t : M.State} (h : M.step s = .next t) (n : Nat) :
    M.run (n + 1) s = M.run n t := by
  rw [Host.Core.run, h]

theorem run_add_of_next (M : Host.Core) {s t : M.State} {m : Nat} (h : M.run m s = .next t) (n : Nat) :
    M.run (m + n) s = M.run n t := by
  induction m generalizing s with
  | zero => cases h; rw [Nat.zero_add]
  | succ m ih =>
    cases hs : M.step s with
    | next u =>
      rw [run_succ_of_next M hs] at h
      rw [Nat.succ_add, run_succ_of_next M hs, ih h]
    | fault f => rw [Host.Core.run, hs] at h; cases h
    | refused r => rw [Host.Core.run, hs] at h; cases h

theorem run_succ_of_step {s t : State} (h : step s = .next t) (n : Nat) :
    Host.Core.run Sys2Proof.core (n + 1) s = Host.Core.run Sys2Proof.core n t :=
  run_succ_of_next Sys2Proof.core h n

theorem run_add_of_run {s t : State} {m : Nat} (h : Host.Core.run Sys2Proof.core m s = .next t) (n : Nat) :
    Host.Core.run Sys2Proof.core (m + n) s = Host.Core.run Sys2Proof.core n t :=
  run_add_of_next Sys2Proof.core h n

end Sys2Proof.Machine

/-! ## One instruction alone in the engine

`s.carrying k n e r` is the engine `s` with one instruction put in: its station entry `e` at `(k, n)` and its ROB entry
`r` at the head. Each stage maps such a state to such a state, so a run is followed by equations on `e`, `r`, the pools
and the clock, and all else stays that of `s`. -/

namespace Sys2Proof.Machine

/-- The ROB entry at the head is `r`. -/
def State.withHead (s : State) (r : RobEntry) : State := s.modifyRob s.rob.head (fun _ => r)

/-- The station `(k, n)` holds `e`. -/
def State.withStation (s : State) (k : FuClass) (n : Nat) (e : RsEntry) : State := s.modifyStation k n (fun _ => e)

/-- The station `(k, n)` holds `e`, and the ROB entry at the head is `r`. -/
def State.carrying (s : State) (k : FuClass) (n : Nat) (e : RsEntry) (r : RobEntry) : State :=
  (s.withStation k n e).withHead r

/-- The same engine in cycle `c`, with pools `p`. -/
def State.clocked (s : State) (c : Nat) (p : PoolMap Pool) : State := { s with cycle := c, pools := p }

/-- Nothing is busy, no fault is set, and port and CDB are free. -/
structure State.Vacant (s : State) : Prop where
  noFault : s.fault = none
  head : s.rob.head < s.rob.entries.length
  entries : ∀ t, (s.robAt t).busy = false
  stations : ∀ k i, (s.station k i).busy = false
  port : s.port = ⟨.none, 0, false⟩
  cdb : s.cdb.valid = false

/-- The engine a last instruction is put in: vacant, with one instruction counted and fetch behind the program. -/
structure State.LastFetched (s : State) : Prop extends s.Vacant where
  legal : s.launchLegal = true
  idle : s.fetch = .idle
  count : s.rob.count = 1

theorem State.Vacant.clocked {s : State} (h : s.Vacant) (c : Nat) (p : PoolMap Pool) : (s.clocked c p).Vacant :=
  ⟨h.noFault, h.head, h.entries, h.stations, h.port, h.cdb⟩

theorem State.Vacant.owner_ne_commit {s : State} (h : s.Vacant) : s.port.owner ≠ .commit := by
  simp [h.port]

theorem State.LastFetched.clocked {s : State} (h : s.LastFetched) (c : Nat) (p : PoolMap Pool) :
    (s.clocked c p).LastFetched :=
  ⟨h.toVacant.clocked c p, h.legal, h.idle, h.count⟩

section Carrying

variable {s : State} {k : FuClass} {n : Nat} {e : RsEntry} {r : RobEntry}

/-! ### Reading and updating the instruction -/

theorem robAt_withHead (hh : s.rob.head < s.rob.entries.length) (r : RobEntry) (u : Nat) :
    (s.withHead r).robAt u = if u = s.rob.head then r else s.robAt u := by
  rw [State.withHead]
  by_cases hu : u = s.rob.head
  · rw [hu, robAt_modifyRob_same _ _ hh, if_pos rfl]
  · rw [robAt_modifyRob_other _ _ hu, if_neg hu]

theorem head_withHead (hh : s.rob.head < s.rob.entries.length) (r : RobEntry) :
    (s.withHead r).robAt s.rob.head = r := by
  rw [robAt_withHead hh, if_pos rfl]

theorem station_withStation (hn : n < (s.table k).length) (e : RsEntry) (c : FuClass) (m : Nat) :
    (s.withStation k n e).station c m = if c = k ∧ m = n then e else s.station c m := by
  rw [State.withStation, station_modifyStation]
  by_cases hcm : c = k ∧ m = n
  · rw [if_pos ⟨hcm.1, hcm.2, hcm.2 ▸ hn⟩, if_pos hcm]
  · rw [if_neg fun hcon => hcm ⟨hcon.1, hcon.2.1⟩, if_neg hcm]

theorem head_carrying (hh : s.rob.head < s.rob.entries.length) : (s.carrying k n e r).robAt s.rob.head = r :=
  head_withHead (s := s.withStation k n e) hh r

theorem station_carrying (hn : n < (s.table k).length) (c : FuClass) (m : Nat) :
    (s.carrying k n e r).station c m = if c = k ∧ m = n then e else s.station c m :=
  station_withStation hn e c m

theorem own_station_carrying (hn : n < (s.table k).length) : (s.carrying k n e r).station k n = e := by
  rw [station_carrying hn, if_pos ⟨rfl, rfl⟩]

theorem modify_modify_class {α : Type} (m : ClassMap α) (k : FuClass) (f g : α → α) :
    (m.modify k f).modify k g = m.modify k (g ∘ f) := by
  cases k <;> rfl

theorem withHead_modifyRob (s : State) (r : RobEntry) (f : RobEntry → RobEntry) :
    (s.withHead r).modifyRob s.rob.head f = s.withHead (f r) := by
  simp only [State.withHead, State.modifyRob, List.modify_modify_eq]
  rfl

theorem carrying_modifyStation (s : State) (f : RsEntry → RsEntry) :
    (s.carrying k n e r).modifyStation k n f = s.carrying k n (f e) r := by
  have h : (s.withStation k n e).modifyStation k n f = s.withStation k n (f e) := by
    simp only [State.withStation, State.modifyStation, State.modifyTable, modify_modify_class]
    congr 2
    funext tbl
    exact List.modify_modify_eq ..
  exact congrArg (State.withHead · r) h

theorem carrying_modifyRob (s : State) (f : RobEntry → RobEntry) :
    (s.carrying k n e r).modifyRob s.rob.head f = s.carrying k n e (f r) :=
  withHead_modifyRob (s.withStation k n e) r f

theorem carrying_modifyTiming (s : State) (g : Timing → Timing) :
    (s.carrying k n e r).modifyTiming s.rob.head g = s.carrying k n e { r with timing := g r.timing } :=
  carrying_modifyRob s _

/-- The instruction is the only one in a station. -/
theorem State.Vacant.busy_carrying (h : s.Vacant) (hn : n < (s.table k).length) (hb : e.busy = true) (c : FuClass)
    (m : Nat) : ((s.carrying k n e r).station c m).busy = true ↔ c = k ∧ m = n := by
  rw [station_carrying hn]
  by_cases hcm : c = k ∧ m = n
  · simp [hcm, hb]
  · simp [hcm, h.stations]

theorem State.Vacant.danglingStation_carrying (h : s.Vacant) (hn : n < (s.table k).length) (hd : e.dest = s.rob.head)
    (hr : r.busy = true) (c : FuClass) : (s.carrying k n e r).danglingStation c = none := by
  refine (danglingStation_eq_none _ c).2 fun m hm => ?_
  rw [station_carrying hn] at hm ⊢
  split at hm
  · next hcm => rw [if_pos hcm, hd, head_carrying h.head, hr]
  · exact absurd ((h.stations c m).symm.trans hm) (by simp)

/-- Once out of its station the instruction is an entry of the ROB in a vacant engine. -/
theorem State.LastFetched.withStation (h : s.LastFetched) (hn : n < (s.table k).length) (hb : e.busy = false) :
    (s.withStation k n e).LastFetched := by
  refine ⟨⟨h.noFault, h.head, h.entries, fun c m => ?_, h.port, h.cdb⟩, h.legal, h.idle, h.count⟩
  rw [station_withStation hn]
  split
  · exact hb
  · exact h.stations c m

/-! ### The end of a cycle -/

theorem mem_entries {x : RobEntry} (hx : x ∈ s.rob.entries) : ∃ t, s.robAt t = x := by
  obtain ⟨t, ht⟩ := List.mem_iff_getElem?.1 hx
  exact ⟨t, by rw [State.robAt, ht]; rfl⟩

/-- What leaves free entries alone acts on the instruction's entry alone. -/
theorem State.Vacant.map_entries (h : s.Vacant) {f : RobEntry → RobEntry} (hf : ∀ x, x.busy = false → f x = x)
    (r : RobEntry) : (s.withHead r).rob.entries.map f = (s.withHead (f r)).rob.entries := by
  have hfix : s.rob.entries.map f = s.rob.entries :=
    (List.map_congr_left (g := id) fun x hx => by
      obtain ⟨t, rfl⟩ := mem_entries hx
      exact hf _ (h.entries t)).trans (List.map_id _)
  refine List.ext_getElem? fun u => ?_
  have hu : (s.rob.entries[u]?).map f = s.rob.entries[u]? := by rw [← List.getElem?_map, hfix]
  simp only [State.withHead, modifyRob_entries, List.getElem?_map, List.getElem?_modify]
  split
  · cases s.rob.entries[u]? <;> rfl
  · simpa using hu

theorem markDone_of_free {x : RobEntry} (h : x.busy = false) : markDone x = x := by simp [markDone, h]

theorem State.Vacant.boundary_withHead (h : s.Vacant) (r : RobEntry) :
    boundary (s.withHead r) = (s.clocked (s.cycle + 1) (s.pools.map Pool.settle)).withHead (markDone r) := by
  have hport : s.port.settle = s.port := by rw [h.port]; rfl
  have hcdb : { s.cdb with valid := false } = s.cdb := by rw [← h.cdb]
  have hent := h.map_entries (fun _ => markDone_of_free) r
  unfold boundary settleCycle
  rw [hent]
  simp only [State.withHead, State.clocked, State.modifyRob, hport, hcdb]

end Carrying

end Sys2Proof.Machine

/-! ### The cycles of an instruction alone -/

namespace Sys2Proof.Machine

/-- No unit of any class is taken. -/
def unitsFree : PoolMap Pool := ⟨⟨0, 0⟩, ⟨0, 0⟩, ⟨0, 0⟩, ⟨0, 0⟩⟩

/-- One more unit of class `k` is taken. -/
def unitTaken (k : FuClass) (p : PoolMap Pool) : PoolMap Pool := p.modify k (fun p => { p with busy := p.busy + 1 })

/-- One unit of class `k` is marked for release. -/
def unitReleased (k : FuClass) (p : PoolMap Pool) : PoolMap Pool :=
  p.modify k (fun p => { p with release := p.release + 1 })

theorem settle_unitTaken (k : FuClass) :
    (unitTaken k unitsFree).map Pool.settle = unitTaken k unitsFree := by cases k <;> rfl

/-- A unit marked for release is free after the cycle (40_engine_cycle.md R226, R260). -/
theorem settle_unitReleased (k : FuClass) :
    (unitReleased k (unitTaken k unitsFree)).map Pool.settle = unitsFree := by cases k <;> rfl

theorem unitFree_of_unitsFree {s : State} (hs : s.launchLegal = true) (hp : s.pools = unitsFree) (k : FuClass) :
    s.unitFree k = true := by
  have hlegal := (Bool.and_eq_true_iff.1 hs).1
  simp only [Config.legal, PoolMap.allInRange, inRange, List.all_cons, List.all_nil, Bool.and_true, id,
    Bool.and_eq_true, decide_eq_true_eq] at hlegal
  obtain ⟨-, -, -, -, -, ⟨hfp, -⟩, ⟨hint, -⟩, ⟨hmult, -⟩, hls, -⟩ := hlegal
  cases k <;> simp [State.unitFree, hp, unitsFree, PoolMap.get?] <;> omega

/-- The entry executes and has `m` cycles to go. -/
def RsEntry.executing (e : RsEntry) (m : Nat) : RsEntry := { e with phase := .executing, remaining := m }

/-- The entry's result is ready. -/
def RsEntry.finished (e : RsEntry) : RsEntry := { e with phase := .resultReady, remaining := 0 }

/-- The entry has left its table. -/
def RsEntry.left (e : RsEntry) : RsEntry := { e with busy := false }

/-- Execution started in cycle `c`. -/
def RobEntry.startedAt (r : RobEntry) (c : Nat) : RobEntry :=
  { r with timing := { r.timing with exStart := some c } }

/-- Execution ended in cycle `c`. -/
def RobEntry.endedAt (r : RobEntry) (c : Nat) : RobEntry := { r with timing := { r.timing with exEnd := some c } }

/-- The result `v` was broadcast in cycle `c`. -/
def RobEntry.broadcastAt (r : RobEntry) (c : Nat) (v : Word) : RobEntry :=
  { r with value := v, complete := true, timing := { r.timing with wb := some c } }

/-- `e` and `r` are the two entries of an instruction that is in a station of `s` and in its ROB's head. -/
structure State.Aboard (s : State) (e : RsEntry) (r : RobEntry) : Prop where
  busy : e.busy = true
  dest : e.dest = s.rob.head
  inFlight : r.busy = true
  notComplete : r.complete = false
  notDone : r.done = false

section Cycles

variable {s : State} {k : FuClass} {n : Nat} {e e' : RsEntry} {r r' : RobEntry}

theorem State.Aboard.executing (h : s.Aboard e r) (m : Nat) : s.Aboard (e.executing m) r := { h with }

theorem State.Aboard.startedAt (h : s.Aboard e r) (c : Nat) : s.Aboard e (r.startedAt c) := { h with }

theorem State.Aboard.finished (h : s.Aboard e r) (c : Nat) : s.Aboard e.finished (r.endedAt c) := { h with }

theorem State.Aboard.clocked (h : s.Aboard e r) (c : Nat) (p : PoolMap Pool) : (s.clocked c p).Aboard e r := { h with }

theorem boundary_carrying (h : s.Vacant) (k : FuClass) (n : Nat) (e : RsEntry) (r : RobEntry) :
    boundary (s.carrying k n e r) =
      (s.clocked (s.cycle + 1) (s.pools.map Pool.settle)).carrying k n e (markDone r) :=
  congrArg (State.withStation · k n e) (h.boundary_withHead r)

/-- A cycle in which only the visit acts: the instruction neither broadcasts nor retires in it. -/
theorem State.Vacant.restOfCycle_of_visit (h : s.Vacant) (hn : n < (s.table k).length) (ha : s.Aboard e r)
    (ha' : s.Aboard e' r') {c : Nat} {p q : PoolMap Pool}
    (hvisit : visit k n ((s.clocked c p).carrying k n e r) = (s.clocked c q).carrying k n e' r')
    (hwait : e'.phase = .resultReady → before (readyCycle e' r'.timing) c = false) :
    restOfCycle ((s.clocked c p).carrying k n e r) =
      (s.clocked (c + 1) (q.map Pool.settle)).carrying k n e' r' := by
  set a := (s.clocked c p).carrying k n e r
  set b := (s.clocked c q).carrying k n e' r' with hbdef
  have hsta : ∀ c' m, a.station c' m = if c' = k ∧ m = n then e else s.station c' m :=
    station_carrying (s := s.clocked c p) hn
  have hstb : ∀ c' m, b.station c' m = if c' = k ∧ m = n then e' else s.station c' m :=
    station_carrying (s := s.clocked c q) hn
  have hheada : a.robAt s.rob.head = r := head_carrying (s := s.clocked c p) h.head
  have hheadb : b.robAt s.rob.head = r' := head_carrying (s := s.clocked c q) h.head
  have hexec : execute a = b := by
    refine execute_of_only ((h.clocked c p).busy_carrying hn ha.busy) ?_ h.noFault hvisit fun c' hc m => ?_
    · rw [hsta, if_pos ⟨rfl, rfl⟩, ha.dest, hheada, ha.inFlight]
    · rw [hsta, hstb, if_neg fun hcm => hc hcm.1, if_neg fun hcm => hc hcm.1]
  have hwb : writeBack b = b := by
    refine writeBack_of_none ((h.clocked c q).danglingStation_carrying hn ha'.dest ha'.inFlight) fun c' m => ?_
    by_cases hcm : c' = k ∧ m = n
    · have hcycle : b.cycle = c := rfl
      simp only [State.isCandidate, hstb, if_pos hcm, ha'.dest, hheadb, hcycle]
      by_cases hready : e'.phase = .resultReady
      · simp [hwait hready]
      · simp [hready]
    · refine isCandidate_of_free ?_
      rw [hstb, if_neg hcm]
      exact h.stations c' m
  have hcommit : commit b = b := commit_of_not_done h.owner_ne_commit
    ((congrArg RobEntry.busy hheadb).trans ha'.inFlight) ((congrArg RobEntry.done hheadb).trans ha'.notDone)
  have hfault : b.fault = none := h.noFault
  have hmark : markDone r' = r' := by simp [markDone, ha'.notComplete]
  rw [restOfCycle_of_stages (s := a) h.noFault hexec hfault hwb hfault hcommit hfault, hbdef,
    boundary_carrying (h.clocked c q), hmark]
  rfl

/-- The same, where nothing is left to fetch. -/
theorem State.LastFetched.step_of_visit (h : s.LastFetched) (hn : n < (s.table k).length) (ha : s.Aboard e r)
    (ha' : s.Aboard e' r') {c : Nat} {p q q' : PoolMap Pool}
    (hvisit : visit k n ((s.clocked c p).carrying k n e r) = (s.clocked c q).carrying k n e' r')
    (hsettle : q.map Pool.settle = q')
    (hwait : e'.phase = .resultReady → before (readyCycle e' r'.timing) c = false) :
    step ((s.clocked c p).carrying k n e r) = .next ((s.clocked (c + 1) q').carrying k n e' r') := by
  rw [step_of_idle (s := (s.clocked c p).carrying k n e r) h.legal h.noFault h.idle,
    h.restOfCycle_of_visit hn ha ha' hvisit hwait, hsettle]

/-! #### Visits -/

theorem visit_waiting (hn : n < (s.table k).length) (hh : s.rob.head < s.rob.entries.length) (ha : s.Aboard e r)
    (hp : e.phase = .waiting) : visit k n (s.carrying k n e r) =
      if (s.carrying k n e r).canStart k n then start k n (s.carrying k n e r) else s.carrying k n e r := by
  simp [visit, own_station_carrying hn, ha.busy, ha.dest, head_carrying hh, ha.inFlight, hp]

theorem visit_executing (hn : n < (s.table k).length) (hh : s.rob.head < s.rob.entries.length) (ha : s.Aboard e r)
    (hp : e.phase = .executing) : visit k n (s.carrying k n e r) = executingStep k n (s.carrying k n e r) := by
  simp [visit, own_station_carrying hn, ha.busy, ha.dest, head_carrying hh, ha.inFlight, hp]

theorem visit_resultReady (hn : n < (s.table k).length) (hh : s.rob.head < s.rob.entries.length) (ha : s.Aboard e r)
    (hp : e.phase = .resultReady) : visit k n (s.carrying k n e r) = s.carrying k n e r := by
  simp [visit, own_station_carrying hn, ha.busy, ha.dest, head_carrying hh, ha.inFlight, hp]

theorem canStart_carrying (hn : n < (s.table k).length) (hh : s.rob.head < s.rob.entries.length) (ha : s.Aboard e r) :
    (s.carrying k n e r).canStart k n =
      (e.j.ready && e.k.ready && before r.timing.issue s.cycle && s.unitFree k) := by
  simp only [State.canStart, own_station_carrying hn, ha.dest, head_carrying hh]
  rfl

theorem executingStep_carrying (hn : n < (s.table k).length) (m : Nat) :
    executingStep k n (s.carrying k n (e.executing (m + 1)) r) =
      if m = 0 then finish k n (s.carrying k n (e.executing m) r) else s.carrying k n (e.executing m) r := by
  rw [executingStep, carrying_modifyStation]
  simp only [own_station_carrying hn]
  rfl

theorem start_carrying (hn : n < (s.table k).length) (ha : s.Aboard e r) (c : Nat) (p : PoolMap Pool) {l : Nat}
    (hlat : Config.latency s.cfg k = l + 1) :
    start k n ((s.clocked c p).carrying k n e r) =
      if l = 0 then
        finish k n ((s.clocked c (unitTaken k p)).carrying k n (e.executing l) (r.startedAt c))
      else (s.clocked c (unitTaken k p)).carrying k n (e.executing l) (r.startedAt c) := by
  have hl : Config.latency s.cfg k - 1 = l := by omega
  have hstarted : started k n ((s.clocked c p).carrying k n e r) =
      (s.clocked c (unitTaken k p)).carrying k n (e.executing (Config.latency s.cfg k - 1)) (r.startedAt c) := by
    rw [started, own_station_carrying (s := s.clocked c p) hn, ha.dest]
    exact (congrArg (State.modifyStation · k n _) (carrying_modifyTiming (s.clocked c (unitTaken k p)) _)).trans
      (carrying_modifyStation (s.clocked c (unitTaken k p)) _)
  rw [start_eq, hstarted, show ((s.clocked c p).carrying k n e r).cfg = s.cfg from rfl, hl]

theorem finish_of_arithmetic (hls : k ≠ .ls) (hbr : k ≠ .br) (n : Nat) (s : State) : finish k n s =
    (finishing k n s).modifyStation k n (fun e => { e with phase := .resultReady }) := by
  cases k with
  | ls => exact absurd rfl hls
  | br => exact absurd rfl hbr
  | fpadd => rfl
  | int => rfl
  | mult => rfl

/-- An arithmetic instruction's execution ends (40_engine_cycle.md R226). -/
theorem finish_carrying (hls : k ≠ .ls) (hbr : k ≠ .br) (hn : n < (s.table k).length) (ha : s.Aboard e r) (c : Nat)
    (p : PoolMap Pool) : finish k n ((s.clocked c p).carrying k n (e.executing 0) r) =
      (s.clocked c (unitReleased k p)).carrying k n e.finished (r.endedAt c) := by
  rw [finish_of_arithmetic hls hbr, finishing, own_station_carrying (s := s.clocked c p) hn, (ha.executing 0).dest]
  exact (congrArg (fun x => (State.releaseUnits x k 1).modifyStation k n _)
    (carrying_modifyTiming (s.clocked c p) _)).trans (carrying_modifyStation (s.clocked c (unitReleased k p)) _)

end Cycles

end Sys2Proof.Machine

/-! ### From issue to write-back -/

namespace Sys2Proof.Machine

section Execution

variable {s : State} {k : FuClass} {n : Nat} {e : RsEntry} {r : RobEntry}

/-- The countdown of an executing arithmetic instruction, and its end (40_engine_cycle.md R222, R226). -/
theorem run_countdown (h : s.LastFetched) (hls : k ≠ .ls) (hbr : k ≠ .br) (hn : n < (s.table k).length)
    (ha : s.Aboard e r) (hop : e.op ≠ .ld) (m c : Nat) :
    Host.Core.run Sys2Proof.core (m + 1)
        ((s.clocked c (unitTaken k unitsFree)).carrying k n (e.executing (m + 1)) r) =
      .next ((s.clocked (c + m + 1) unitsFree).carrying k n e.finished (r.endedAt (c + m))) := by
  induction m generalizing c with
  | zero =>
    have hvisit := visit_executing (s := s.clocked c (unitTaken k unitsFree)) hn h.head
      ((ha.executing 1).clocked ..) rfl
    rw [executingStep_carrying (s := s.clocked c (unitTaken k unitsFree)) hn, if_pos rfl,
      finish_carrying hls hbr hn ha] at hvisit
    rw [run_succ_of_step (h.step_of_visit hn (ha.executing 1) (ha.finished c) hvisit (settle_unitReleased k)
      fun _ => by simp [readyCycle, RsEntry.finished, RobEntry.endedAt, hop, before])]
    rfl
  | succ m ih =>
    have hvisit := visit_executing (s := s.clocked c (unitTaken k unitsFree)) hn h.head
      ((ha.executing (m + 2)).clocked ..) rfl
    rw [executingStep_carrying (s := s.clocked c (unitTaken k unitsFree)) hn, if_neg (Nat.succ_ne_zero m)] at hvisit
    rw [run_succ_of_step (h.step_of_visit hn (ha.executing (m + 2)) (ha.executing (m + 1)) hvisit
      (settle_unitTaken k) fun hp => by cases hp), ih (c + 1), show c + 1 + m = c + (m + 1) by omega]

/-- The execution of an arithmetic instruction that starts in cycle `c` (40_engine_cycle.md R222 to R226). -/
theorem run_execution (h : s.LastFetched) (hls : k ≠ .ls) (hbr : k ≠ .br) (hn : n < (s.table k).length)
    (ha : s.Aboard e r) (hop : e.op ≠ .ld) (hp : e.phase = .waiting) (hj : e.j.ready = true) (hk : e.k.ready = true)
    {c : Nat} (hissue : before r.timing.issue c = true) {l : Nat} (hlat : Config.latency s.cfg k = l + 1) :
    Host.Core.run Sys2Proof.core (l + 1) ((s.clocked c unitsFree).carrying k n e r) =
      .next ((s.clocked (c + l + 1) unitsFree).carrying k n e.finished ((r.startedAt c).endedAt (c + l))) := by
  have hunit : (s.clocked c unitsFree).unitFree k = true :=
    unitFree_of_unitsFree (s := s.clocked c unitsFree) h.legal rfl k
  have hstart : ((s.clocked c unitsFree).carrying k n e r).canStart k n = true := by
    rw [canStart_carrying (s := s.clocked c unitsFree) hn h.head (ha.clocked ..), hj, hk, hunit,
      show (s.clocked c unitsFree).cycle = c from rfl, hissue]
    rfl
  have hvisit := visit_waiting (s := s.clocked c unitsFree) hn h.head (ha.clocked ..) hp
  rw [if_pos hstart, start_carrying hn ha c unitsFree hlat] at hvisit
  cases l with
  | zero =>
    rw [if_pos rfl, finish_carrying hls hbr hn (ha.startedAt c)] at hvisit
    rw [run_succ_of_step (h.step_of_visit hn ha ((ha.startedAt c).finished c) hvisit (settle_unitReleased k)
      fun _ => by simp [readyCycle, RsEntry.finished, RobEntry.endedAt, hop, before])]
    rfl
  | succ l =>
    rw [if_neg (Nat.succ_ne_zero l)] at hvisit
    rw [run_succ_of_step (h.step_of_visit hn ha ((ha.startedAt c).executing (l + 1)) hvisit (settle_unitTaken k)
      fun hp => by cases hp), run_countdown h hls hbr hn (ha.startedAt c) hop l (c + 1),
      show c + 1 + l = c + (l + 1) by omega]

/-- In the cycle of its issue an instruction does nothing more (40_engine_cycle.md R222). -/
theorem restOfCycle_of_issued (h : s.Vacant) (hn : n < (s.table k).length) (ha : s.Aboard e r)
    (hp : e.phase = .waiting) {c : Nat} (hissue : r.timing.issue = some c) :
    restOfCycle ((s.clocked c unitsFree).carrying k n e r) = (s.clocked (c + 1) unitsFree).carrying k n e r := by
  have hstart : ((s.clocked c unitsFree).carrying k n e r).canStart k n = false := by
    rw [canStart_carrying (s := s.clocked c unitsFree) hn h.head (ha.clocked ..), hissue]
    simp [before, State.clocked]
  have hvisit := visit_waiting (s := s.clocked c unitsFree) hn h.head (ha.clocked ..) hp
  rw [hstart, if_neg (by simp)] at hvisit
  exact h.restOfCycle_of_visit hn ha ha hvisit fun hready => by simp [hp] at hready

/-- The bus after the broadcast of `v` for ROB entry `r` at the head. -/
def State.busOf (s : State) (valid : Bool) (r : RobEntry) (v : Word) : State :=
  { s with cdb := ⟨valid, s.rob.head, r.dest, v, r.seq⟩ }

theorem State.LastFetched.busOf (h : s.LastFetched) (r : RobEntry) (v : Word) : (s.busOf false r v).LastFetched :=
  ⟨⟨h.noFault, h.head, h.entries, h.stations, h.port, rfl⟩, h.legal, h.idle, h.count⟩

/-- The broadcast of a lone result: the instruction leaves its station, complete and then done
(40_engine_cycle.md R230 to R236, R260). -/
theorem step_broadcast (h : s.LastFetched) (hn : n < (s.table k).length) (ha : s.Aboard e r)
    (hp : e.phase = .resultReady) {c : Nat} (hready : before (readyCycle e r.timing) c = true) {v : Word}
    (hv : resultOf e = some v) :
    step ((s.clocked c unitsFree).carrying k n e r) = .next (((s.busOf false r v).clocked (c + 1) unitsFree).carrying
      k n e.left { r.broadcastAt c v with done := true }) := by
  set a := (s.clocked c unitsFree).carrying k n e r with hadef
  set b := (s.busOf true r v).clocked c unitsFree
  have hsta : ∀ c' m, a.station c' m = if c' = k ∧ m = n then e else s.station c' m :=
    station_carrying (s := s.clocked c unitsFree) hn
  have hhead : a.robAt s.rob.head = r := head_carrying (s := s.clocked c unitsFree) h.head
  have hown : a.station k n = e := own_station_carrying (s := s.clocked c unitsFree) hn
  have hexec : execute a = a := execute_of_only ((h.clocked c unitsFree).busy_carrying hn ha.busy)
    (by rw [hown, ha.dest, hhead, ha.inFlight]) h.noFault
    (visit_resultReady (s := s.clocked c unitsFree) hn h.head (ha.clocked ..) hp) fun _ _ _ => rfl
  have hcand : ∀ c' m, a.isCandidate c' m = true ↔ c' = k ∧ m = n := by
    intro c' m
    by_cases hcm : c' = k ∧ m = n
    · have hcycle : a.cycle = c := rfl
      simp [State.isCandidate, hsta, hcm, ha.dest, hhead, ha.busy, hp, hcycle, hready]
    · simp only [hcm, iff_false, Bool.not_eq_true]
      refine isCandidate_of_free ?_
      rw [hsta, if_neg hcm]
      exact h.stations c' m
  have hbus : onBus k n v a = b.carrying k n e.left r := by
    rw [onBus, hown, ha.dest, hhead]
    exact carrying_modifyStation b _
  have hfree : ∀ c' m, ((b.carrying k n e.left r).station c' m).busy = false := fun c' m => by
    rw [station_carrying (s := b) hn]
    split
    · rfl
    · exact h.stations c' m
  have hwb : writeBack a = b.carrying k n e.left (r.broadcastAt c v) := by
    rw [writeBack_of_only ((h.clocked c unitsFree).danglingStation_carrying hn ha.dest ha.inFlight) hcand
      (hown ▸ hv), broadcast_eq_drainCdb, hbus, drainCdb_of_free hfree]
    exact carrying_modifyRob b _
  have hheadb : (b.carrying k n e.left (r.broadcastAt c v)).robAt s.rob.head = r.broadcastAt c v :=
    head_carrying (s := b) h.head
  have hcommit : commit (b.carrying k n e.left (r.broadcastAt c v)) = b.carrying k n e.left (r.broadcastAt c v) :=
    commit_of_not_done h.owner_ne_commit ((congrArg RobEntry.busy hheadb).trans ha.inFlight)
      ((congrArg RobEntry.done hheadb).trans ha.notDone)
  have hmark : markDone (r.broadcastAt c v) = { r.broadcastAt c v with done := true } := by
    simp [markDone, RobEntry.broadcastAt, ha.inFlight]
  have hfault : (b.carrying k n e.left (r.broadcastAt c v)).fault = none := h.noFault
  have hend : boundary (b.carrying k n e.left (r.broadcastAt c v)) = ((s.busOf false r v).clocked (c + 1)
      unitsFree).carrying k n e.left (markDone (r.broadcastAt c v)) :=
    boundary_carrying ((h.busOf r v).clocked c unitsFree).toVacant k n e.left (r.broadcastAt c v)
  rw [step_of_idle (s := a) h.legal h.noFault h.idle,
    restOfCycle_of_stages (s := a) h.noFault hexec h.noFault hwb hfault hcommit hfault, hend, hmark]

end Execution

end Sys2Proof.Machine

/-! ### Retirement -/

namespace Sys2Proof.Machine

section Retirement

variable {s : State} {r : RobEntry}

/-- The cycle in which an instruction that is done and in no station retires. -/
theorem step_retirement (h : s.LastFetched) (hr : r.busy = true) {t : State} (hc : commitHead (s.withHead r) = t)
    (hf : t.fault = none) : step (s.withHead r) = .next (boundary t) := by
  have hhead := head_withHead h.head r
  have hfree : ∀ k i, ((s.withHead r).station k i).busy = false := h.stations
  have hcount : (s.withHead r).rob.count ≠ 0 := by
    change s.rob.count ≠ 0
    simp [h.count]
  have hfault : (s.withHead r).fault = none := h.noFault
  have hhead_busy := (congrArg RobEntry.busy hhead).trans hr
  have hcommit : commit (s.withHead r) = t :=
    (commit_eq_commitHead (s := s.withHead r) h.owner_ne_commit hcount hhead_busy).trans hc
  rw [step_of_idle (s := s.withHead r) h.legal h.noFault h.idle,
    restOfCycle_of_stages hfault (execute_of_free hfree) hfault (writeBack_of_free hfree) hfault hcommit hf]

/-- A register write changes the register, and the RAT where it named the instruction; there is no checkpoint to change
(40_engine_cycle.md R246, R247). -/
theorem written_withHead (h : s.Vacant) (hk : r.kind = .reg) : written (s.withHead r) =
    { s.withHead r with
      intRegs := (s.writeReg r.dest r.value).intRegs
      fpRegs := (s.writeReg r.dest r.value).fpRegs
      rat := s.rat.settle r.dest s.rob.head } := by
  have hhead : (s.withHead r).robAt (s.withHead r).rob.head = r := head_withHead h.head r
  have hfix : settleCheckpoint r.dest s.rob.head r = r := by simp [settleCheckpoint, hk]
  have hent := h.map_entries (f := settleCheckpoint r.dest s.rob.head)
    (fun x hx => by simp [settleCheckpoint, hx]) r
  rw [hfix] at hent
  unfold written
  simp only [hhead, writeReg_rob, writeReg_rat]
  rw [show (s.withHead r).rob.head = s.rob.head from rfl, hent]
  cases r.dest <;> rfl

/-- The engine `s`, a cycle later and quiet: its last instruction has retired. -/
structure State.LastRetired (s t : State) : Prop where
  quiet : t.Quiet
  cycle : t.cycle = s.cycle + 1
  nextSeq : t.nextSeq = s.nextSeq
  pc : t.pc = s.pc
  cfg : t.cfg = s.cfg
  prog : t.prog = s.prog
  btb : t.btb = s.btb
  mem : t.mem = s.mem

/-- The last instruction's retirement leaves the engine quiet when no register is renamed any more, and emits its event
(40_engine_cycle.md R248, R249). -/
theorem lastRetired_of_retire (h : s.LastFetched) (hs : s.Sized) (hr : r.busy = true) (hp : s.pools = unitsFree)
    (htail : s.rob.tail = (s.rob.head + 1) % s.cfg.robSize) {w : State} {intRegs fpRegs : Vector Word 32}
    {rat : AliasTable} (hrat : ∀ q, rat.lookup q = .arf)
    (hw : w = { s.withHead r with intRegs := intRegs, fpRegs := fpRegs, rat := rat }) :
    s.LastRetired (boundary (retire w)) ∧ (boundary (retire w)).events =
      s.events ++ [commitEvent { r with timing := { r.timing with commit := some s.cycle } }] := by
  have hrob : w.rob = (s.withHead r).rob := by rw [hw]
  have hent : ∀ u, w.robAt u = if u = s.rob.head then r else s.robAt u := fun u => by
    rw [State.robAt, hrob]
    exact robAt_withHead h.head r u
  have hhead : w.rob.head = s.rob.head := by rw [hrob]; rfl
  have hbusy : (w.robAt w.rob.head).busy = true := by rw [hhead, hent, if_pos rfl, hr]
  have hlen : w.rob.entries.length = s.rob.entries.length := by rw [hrob]; simp [State.withHead]
  have hport : s.port.settle = s.port := by rw [h.port]; rfl
  have hevents : (retire w).events = s.events ++ [commitEvent { r with
      timing := { r.timing with commit := some s.cycle } }] := by
    rw [retire_events hbusy, hhead, hent, if_pos rfl, hw]
    rfl
  have hlen' := (placeKept_settleCycle (retire w)).robLength.trans ((shapeKept_retire w).robLength.trans hlen)
  have hquiet : (boundary (retire w)).Quiet :=
    { sized :=
        { legal := by rw [hw]; exact hs.legal
          rob := hlen'.trans (by rw [hw]; exact hs.rob)
          tables := by rw [hw]; exact hs.tables
          btb := by rw [hw]; exact hs.btb }
      noFault := by rw [hw]; exact h.noFault
      count := by rw [hw]; exact congrArg (· - 1) h.count
      head := by rw [hw]; exact Nat.mod_lt _ hs.robSize_pos
      tail := by rw [hw]; exact htail
      entries := fun t => by
        rw [robAt_boundary, markDone_busy, robAt_retire hbusy, hhead, hent]
        split
        · rfl
        · exact h.entries t
      stations := by rw [hw]; exact h.stations
      pools := by rw [hw]; exact congrArg (PoolMap.map Pool.settle) hp
      port := by rw [hw]; exact hport.trans h.port
      cdb := rfl
      rat := by rw [hw]; exact hrat }
  refine ⟨⟨hquiet, ?_, ?_, ?_, ?_, ?_, ?_, ?_⟩, hevents⟩ <;> rw [hw] <;> rfl

@[simp] theorem boundary_intRegs (s : State) : (boundary s).intRegs = s.intRegs := rfl
@[simp] theorem boundary_fpRegs (s : State) : (boundary s).fpRegs = s.fpRegs := rfl
@[simp] theorem boundary_mem (s : State) : (boundary s).mem = s.mem := rfl

theorem readReg_boundary_retire (w : State) (x : Reg) : (boundary (retire w)).readReg x = w.readReg x :=
  (State.ArchKept.of_eq (by simp) (by simp) (by simp)).1 x

theorem readReg_withHead (s : State) (r : RobEntry) (x : Reg) : (s.withHead r).readReg x = s.readReg x :=
  (State.ArchKept.of_eq (s := s) (t := s.withHead r) rfl rfl rfl).1 x

/-- A nop's retirement changes no register (40_engine_cycle.md R248). -/
theorem nop_retires (h : s.LastFetched) (hs : s.Sized) (hr : r.busy = true) (hd : r.done = true)
    (hk : r.kind = .nop) (hp : s.pools = unitsFree) (htail : s.rob.tail = (s.rob.head + 1) % s.cfg.robSize)
    (hrat : ∀ q, s.rat.lookup q = .arf) : ∃ t, step (s.withHead r) = .next t ∧ s.LastRetired t ∧
      (∀ q, t.readReg q = s.readReg q) ∧ t.events = s.events ++
        [⟨r.seq, r.pc, r.op, .nothing, { r.timing with commit := some s.cycle }⟩] := by
  have hhead : (s.withHead r).robAt (s.withHead r).rob.head = r := head_withHead h.head r
  have hcommit := commitHead_of_nop (s := s.withHead r) (by rw [hhead, hd]) (by rw [hhead, hk])
  obtain ⟨hlast, hevents⟩ := lastRetired_of_retire (intRegs := s.intRegs) (fpRegs := s.fpRegs) (rat := s.rat) h hs hr hp
    htail hrat (w := s.withHead r) rfl
  refine ⟨_, step_retirement h hr hcommit h.noFault, hlast,
    fun q => (readReg_boundary_retire _ q).trans (readReg_withHead s r q), ?_⟩
  rw [hevents]
  simp [commitEvent, eventEffect, hk]

/-- The retirement of an instruction that writes a register, when that register alone is renamed
(40_engine_cycle.md R246, R248, R249). -/
theorem writer_retires (h : s.LastFetched) (hs : s.Sized) (hr : r.busy = true) (hd : r.done = true)
    (hk : r.kind = .reg) (hp : s.pools = unitsFree) (htail : s.rob.tail = (s.rob.head + 1) % s.cfg.robSize)
    (hrat : ∀ q, s.rat.lookup q = if q = r.dest then .rob s.rob.head else .arf) :
    ∃ t, step (s.withHead r) = .next t ∧ s.LastRetired t ∧
      (∀ q, t.readReg q = if q = r.dest then r.value else s.readReg q) ∧ t.events = s.events ++
        [⟨r.seq, r.pc, r.op, .wrote r.dest r.value, { r.timing with commit := some s.cycle }⟩] := by
  have hhead : (s.withHead r).robAt (s.withHead r).rob.head = r := head_withHead h.head r
  have hcommit := commitHead_of_reg (s := s.withHead r) (by rw [hhead, hd]) (by rw [hhead, hk])
  have hw := written_withHead h.toVacant hk
  have hsettle : ∀ q, (s.rat.settle r.dest s.rob.head).lookup q = .arf := fun q => by
    rw [AliasTable.settle, hrat, if_pos rfl, if_pos rfl, lookup_assign, hrat]
    split <;> rfl
  obtain ⟨hlast, hevents⟩ := lastRetired_of_retire h hs hr hp htail hsettle hw
  refine ⟨_, step_retirement h hr hcommit (by rw [retire_fault, written_fault]; exact h.noFault), hlast,
    fun q => ?_, ?_⟩
  · rw [← readReg_writeReg, readReg_boundary_retire, hw]
    exact (State.ArchKept.of_eq (s := s.writeReg r.dest r.value) rfl rfl (by simp)).1 q
  · rw [hevents]
    simp [commitEvent, eventEffect, hk]

end Retirement

/-! ### The quiet engine -/

section Quiet

variable {q : State}

theorem State.Quiet.ringOk (h : q.Quiet) : q.RingOk where
  head := h.head
  count := by rw [h.count]; exact Nat.zero_le _
  tail := by rw [h.tail, h.count, Nat.add_zero, Nat.mod_eq_of_lt h.head]
  busy n _ := by rw [h.count]; exact h.entries (q.tagAt n)
  seq n hn := by rw [h.count] at hn; exact absurd hn (Nat.not_lt_zero n)

theorem rsCount_pos {c : Config} (h : c.legal = true) (k : FuClass) : 0 < c.rsCount.get k := by
  simp only [Config.legal, ClassMap.allInRange, inRange, List.all_cons, List.all_nil, Bool.and_true, id,
    Bool.and_eq_true, decide_eq_true_eq] at h
  obtain ⟨-, -, ⟨⟨hfp, -⟩, ⟨hint, -⟩, ⟨hmult, -⟩, ⟨hls, -⟩, hbr, -⟩, -⟩ := h
  cases k <;> simp only [ClassMap.get] <;> omega

theorem State.Quiet.rob_room (h : q.Quiet) : q.rob.count < q.cfg.robSize := by
  rw [h.count]
  exact h.sized.robSize_pos

theorem State.Quiet.gatesOpen (h : q.Quiet) (k : FuClass) : q.GatesOpen k := by
  refine ⟨h.rob_room, 0, ?_, h.stations k 0⟩
  rw [h.sized.tables]
  exact rsCount_pos (Bool.and_eq_true_iff.1 h.sized.legal).1 k

/-- Every register resolves to its committed value. -/
theorem State.Quiet.resolvesTo (h : q.Quiet) (r : Reg) : q.ResolvesTo r (.resolved (q.readReg r)) :=
  .inl ⟨h.rat r, rfl⟩

theorem State.Quiet.head_lt (h : q.Quiet) : q.rob.head < q.rob.entries.length := by
  rw [h.sized.rob]
  exact h.head

theorem State.Quiet.vacant (h : q.Quiet) : q.Vacant :=
  ⟨h.noFault, h.head_lt, h.entries, h.stations, h.port, h.cdb⟩

/-- The engine `s` has fetched and counted one more instruction, and its RAT is `rat`. -/
def State.counting (s : State) (rat : AliasTable) : State :=
  { s with
    rob := { s.rob with tail := (s.rob.tail + 1) % s.cfg.robSize, count := s.rob.count + 1 }
    nextSeq := s.nextSeq + 1
    rat := rat
    pc := s.pc + 1 }

theorem State.NextIsLast.fetch {i : Instr} (h : q.NextIsLast i) (hi : WellFormed i) : q.fetch = .instr i := by
  unfold State.fetch
  rw [h.1]
  simp only
  rw [decodeOfEncode i hi]

theorem fetch_of_past {s : State} (h : s.prog.length ≤ s.pc.toNat) : s.fetch = .idle := by
  unfold State.fetch
  rw [List.getElem?_eq_none h]

/-- Behind the last word there is nothing to fetch. -/
theorem State.NextIsLast.idle {i : Instr} (h : q.NextIsLast i) (hs : q.Sized) (rat : AliasTable) :
    (q.counting rat).fetch = .idle := by
  have hlen : q.prog.length < 2 ^ 32 := of_decide_eq_true (Bool.and_eq_true_iff.1 hs.legal).2
  have hlast := h.2
  refine fetch_of_past (s := q.counting rat) ?_
  change q.prog.length ≤ (q.pc + 1).toNat
  bv_omega

theorem State.Quiet.counting (h : q.Quiet) {i : Instr} (hl : q.NextIsLast i) (rat : AliasTable) :
    (q.counting rat).LastFetched :=
  ⟨⟨h.noFault, h.head_lt, h.entries, h.stations, h.port, h.cdb⟩, h.sized.legal, hl.idle h.sized rat,
    congrArg (· + 1) h.count⟩

theorem modify_eq_const {α : Type} (l : List α) (i : Nat) (d : α) (f : α → α) :
    l.modify i f = l.modify i (fun _ => f ((l[i]?).getD d)) := by
  refine List.ext_getElem? fun j => ?_
  rw [List.getElem?_modify, List.getElem?_modify]
  by_cases h : i = j
  · subst h
    cases l[i]? <;> simp
  · simp [h]

theorem modifyStation_eq_withStation (s : State) (k : FuClass) (n : Nat) (f : RsEntry → RsEntry) :
    s.modifyStation k n f = s.withStation k n (f (s.station k n)) := by
  have htbl : s.rs.modify k (fun tbl => tbl.modify n f) =
      s.rs.modify k (fun tbl => tbl.modify n (fun _ => f (s.station k n))) := by
    cases k <;> simp only [ClassMap.modify] <;> congr 1 <;> exact modify_eq_const _ n RsEntry.free f
  exact congrArg (fun rs => ({ s with rs := rs } : State)) htbl

/-- Allocation into the quiet engine is at the head (40_engine_cycle.md R211, R212). -/
theorem State.Quiet.allocateRob_eq (h : q.Quiet) (f : IssueForm) (rat : AliasTable) :
    { allocateRob f q with rat := rat, pc := q.pc + 1 } =
      (q.counting rat).withHead (newRobEntry f q (q.robAt q.rob.head)) := by
  have hent : q.rob.entries.modify q.rob.tail (newRobEntry f q) =
      q.rob.entries.modify q.rob.head (fun _ => newRobEntry f q (q.robAt q.rob.head)) := by
    rw [h.tail]
    exact modify_eq_const _ _ RobEntry.free _
  unfold allocateRob
  rw [hent]
  rfl

/-- The issue of an instruction that writes a register into the quiet engine. -/
theorem State.Quiet.issue_writer (h : q.Quiet) {f : IssueForm} {k : FuClass} (hcls : f.op.fuClass = some k)
    (hkind : f.op.kind = .reg) {rd : Reg} (hdest : f.dest = some rd) {a b : Word}
    (hj : resolveOperand (allocateRob f q) f.j = .slot (.resolved a))
    (hk : resolveOperand (allocateRob f q) f.k = .slot (.resolved b)) :
    ∃ n, n < (q.table k).length ∧ issue f q = (q.counting (q.rat.assign rd (.rob q.rob.head))).carrying k n
      (newStation f q.rob.head (.resolved a) (.resolved b) (q.station k n)) (newRobEntry f q (q.robAt q.rob.head)) := by
  obtain ⟨n, hn, heq⟩ := issue_of_writer (h.gatesOpen k) hcls hkind hdest hj hk
  refine ⟨n, ((freeStation_eq_some q k n).1 hn).1, ?_⟩
  rw [heq, modifyStation_eq_withStation, h.tail]
  exact congrArg (State.withStation · k n _) (h.allocateRob_eq f _)

/-- The issue of a nop into the quiet engine. -/
theorem State.Quiet.issue_nop (h : q.Quiet) : issue (issueForm .nop) q =
    (q.counting q.rat).withHead { newRobEntry (issueForm .nop) q (q.robAt q.rob.head) with complete := true } := by
  rw [Machine.issue_nop h.rob_room, h.tail]
  exact (congrArg (completeAtIssue q.rob.head) (h.allocateRob_eq (issueForm .nop) q.rat)).trans
    (withHead_modifyRob (q.counting q.rat) _ _)

end Quiet

end Sys2Proof.Machine

/-! ### An instruction alone, from issue to commit -/

namespace Sys2Proof.Machine

section Alone

variable {q : State}

theorem State.LastRetired.retiredAlone {s t : State} (h : s.LastRetired t) {n : Nat}
    (hcycle : s.cycle + 1 = q.cycle + n) (hseq : s.nextSeq = q.nextSeq + 1) (hpc : s.pc = q.pc + 1)
    (hcfg : s.cfg = q.cfg) (hprog : s.prog = q.prog)
    (hbtb : s.btb = q.btb) : q.RetiredAlone t n :=
  ⟨h.quiet, h.cycle.trans hcycle, h.nextSeq.trans hseq, h.pc.trans hpc, h.cfg.trans hcfg, h.prog.trans hprog,
    h.btb.trans hbtb⟩

theorem State.Quiet.clocked_counting (h : q.Quiet) (rat : AliasTable) :
    (q.counting rat).clocked q.cycle unitsFree = q.counting rat := by
  have hp : unitsFree = q.pools := h.pools.symm
  rw [hp]
  rfl

theorem State.Quiet.tail_counting (h : q.Quiet) (rat : AliasTable) :
    (q.counting rat).rob.tail = ((q.counting rat).rob.head + 1) % (q.counting rat).cfg.robSize :=
  congrArg (fun x => (x + 1) % q.cfg.robSize) h.tail

/-- The ROB entry `r` of an arithmetic instruction issued in cycle `c` and of latency `l + 1`, done with value `v`. -/
def RobEntry.doneWith (r : RobEntry) (c l : Nat) (v : Word) : RobEntry :=
  { ((r.startedAt (c + 1)).endedAt (c + 1 + l)).broadcastAt (c + 1 + l + 1) v with done := true }

section Arithmetic

variable {i : Instr} {k : FuClass} {rd : Reg} {a b v : Word} (h : q.Quiet) (hi : WellFormed i) (hl : q.NextIsLast i)
  (hcls : i.op.fuClass = some k) (hls : k ≠ .ls) (hbr : k ≠ .br) (hdest : (issueForm i).dest = some rd)
  (hj : resolveOperand (allocateRob (issueForm i) q) (issueForm i).j = .slot (.resolved a))
  (hk : resolveOperand (allocateRob (issueForm i) q) (issueForm i).k = .slot (.resolved b))
  (hv : ∀ e : RsEntry, e.op = i.op → e.j = .resolved a → e.k = .resolved b → resultOf e = some v)
include h hi hl hcls hls hbr hdest hj hk hv

/-- An arithmetic instruction alone has executed, broadcast its result and left its station when `EX_LAT + 1` cycles
have followed that of its issue (40_engine_cycle.md R222 to R236). -/
theorem run_to_done {l : Nat} (hlat : Config.latency q.cfg k = l + 1) :
    ∃ (e : RsEntry) (n : Nat), e.busy = false ∧ n < (q.table k).length ∧
      Host.Core.run Sys2Proof.core (l + 3) q = .next
        (((((q.counting (q.rat.assign rd (.rob q.rob.head))).busOf false
          (newRobEntry (issueForm i) q (q.robAt q.rob.head)) v).clocked (q.cycle + 1 + l + 1 + 1)
          unitsFree).withStation k n e).withHead
          ((newRobEntry (issueForm i) q (q.robAt q.rob.head)).doneWith q.cycle l v)) := by
  obtain ⟨hkind, hld⟩ := kind_of_fuClass hcls hls hbr
  rw [← issueForm_op] at hcls hkind hld
  obtain ⟨n, hn, hissue⟩ := h.issue_writer hcls hkind hdest hj hk
  set s := q.counting (q.rat.assign rd (.rob q.rob.head))
  set e := newStation (issueForm i) q.rob.head (.resolved a) (.resolved b) (q.station k n)
  set r := newRobEntry (issueForm i) q (q.robAt q.rob.head)
  have hs : s.LastFetched := h.counting hl _
  have ha : s.Aboard e r := ⟨rfl, rfl, rfl, rfl, rfl⟩
  have hfirst : step q = .next ((s.clocked (q.cycle + 1) unitsFree).carrying k n e r) := by
    have hclocked : s.clocked q.cycle unitsFree = s := h.clocked_counting _
    rw [step_of_instr h.sized.legal h.noFault (hl.fetch hi), hissue, ← hclocked]
    exact congrArg Host.Outcome.next (restOfCycle_of_issued hs.toVacant hn ha rfl rfl)
  have hexec := run_execution hs hls hbr hn ha hld rfl rfl rfl (c := q.cycle + 1) (before_now _) hlat
  have hready : before (readyCycle e.finished ((r.startedAt (q.cycle + 1)).endedAt (q.cycle + 1 + l)).timing)
      (q.cycle + 1 + l + 1) = true := by
    rw [readyCycle, if_neg (show e.finished.op ≠ .ld from hld)]
    exact before_now _
  have hbus := step_broadcast hs hn ((ha.startedAt (q.cycle + 1)).finished (q.cycle + 1 + l)) rfl hready
    (hv e.finished (issueForm_op i) rfl rfl)
  refine ⟨e.finished.left, n, rfl, hn, ?_⟩
  rw [show l + 3 = (l + 1) + 1 + 1 by omega, run_succ_of_step hfirst, run_add_of_run hexec 1, run_succ_of_step hbus]
  rfl

/-- An arithmetic instruction alone retires `EX_LAT + 2` cycles after its issue, with its result in the destination and
nothing else changed (70_reset_and_hazards.md R447). -/
theorem lone_arithmetic : ∃ u t, exec i q = .next u ∧
    Host.Core.run Sys2Proof.core (Config.latency q.cfg k + 3) q = .next t ∧
    q.RetiredAlone t (Config.latency q.cfg k + 3) ∧ t.readReg rd = v ∧ (∀ x, x ≠ rd → t.readReg x = q.readReg x) ∧
    (∀ x, t.mem.read x = q.mem.read x) ∧
    t.events = q.events ++ [⟨q.nextSeq, q.pc, i.op, .wrote rd v,
      ⟨some q.cycle, some (q.cycle + 1), some (q.cycle + Config.latency q.cfg k), none, none,
        some (q.cycle + Config.latency q.cfg k + 1), some (q.cycle + Config.latency q.cfg k + 2)⟩⟩] := by
  obtain ⟨l, hlat⟩ : ∃ l, Config.latency q.cfg k = l + 1 :=
    ⟨_, (Nat.sub_add_cancel (h.sized.latency_pos k)).symm⟩
  obtain ⟨e, n, he, hn, hrun⟩ := run_to_done h hi hl hcls hls hbr hdest hj hk hv hlat
  have hrd : (newRobEntry (issueForm i) q (q.robAt q.rob.head)).dest = rd := by simp [newRobEntry, hdest]
  have hkind : (issueForm i).op.kind = .reg := by rw [issueForm_op, (kind_of_fuClass hcls hls hbr).1]
  have hop : (newRobEntry (issueForm i) q (q.robAt q.rob.head)).op = i.op := issueForm_op i
  set r := newRobEntry (issueForm i) q (q.robAt q.rob.head)
  set s := ((q.counting (q.rat.assign rd (.rob q.rob.head))).busOf false r v).clocked (q.cycle + 1 + l + 1 + 1)
    unitsFree
  have hs : s.LastFetched := ((h.counting hl _).busOf r v).clocked ..
  have hsized : s.Sized := ⟨h.sized.legal, h.sized.rob, h.sized.tables, h.sized.btb⟩
  have hrat : ∀ x, (s.withStation k n e).rat.lookup x =
      if x = (r.doneWith q.cycle l v).dest then .rob s.rob.head else .arf := fun x => by
    change (q.rat.assign rd (.rob q.rob.head)).lookup x = if x = r.dest then .rob q.rob.head else .arf
    rw [lookup_assign, hrd, h.rat]
  obtain ⟨t, ht, hlast, hregs, hevents⟩ := writer_retires (s := s.withStation k n e) (r := r.doneWith q.cycle l v)
    (hs.withStation hn he) (hsized.of_shapeKept (robKept_modifyStation ..).toShapeKept) rfl rfl hkind rfl
    (h.tail_counting (q.rat.assign rd (.rob q.rob.head))) hrat
  have hregs' : ∀ x, t.readReg x = if x = rd then v else q.readReg x := fun x => by
    rw [hregs]
    change (if x = r.dest then v else _) = _
    rw [hrd]
    cases x <;> rfl
  rw [hlat]
  refine ⟨_, t, exec_eq_issue i q, ?_, hlast.retiredAlone ?_ rfl rfl rfl rfl rfl, by rw [hregs', if_pos rfl],
    fun x hx => by rw [hregs', if_neg hx], fun x => by rw [hlast.mem]; rfl, ?_⟩
  · rw [show l + 1 + 3 = (l + 3) + 1 by omega, run_add_of_run hrun, run_succ_of_step ht]
    rfl
  · change q.cycle + 1 + l + 1 + 1 + 1 = _
    omega
  · rw [hevents, ← hrd, ← hop, show q.cycle + (l + 1) = q.cycle + 1 + l by omega]
    rfl

end Arithmetic

end Alone

/-- Settles O27: a nop is complete when it is issued, so it is done at the end of that cycle and retires in the next. -/
theorem loneNop : Obligations.LoneNop := by
  intro q h hl
  set s := q.counting q.rat
  set r := { newRobEntry (issueForm .nop) q (q.robAt q.rob.head) with complete := true }
  have hs : s.LastFetched := h.counting hl q.rat
  have hfree : ∀ k i, ((s.withHead r).station k i).busy = false := hs.stations
  have hhead := head_withHead hs.head r
  have hfault : (s.withHead r).fault = none := h.noFault
  have hissue : step q = .next ((s.clocked (q.cycle + 1) unitsFree).withHead (markDone r)) := by
    rw [step_of_instr h.sized.legal h.noFault (hl.fetch rfl), h.issue_nop,
      restOfCycle_of_stages hfault (execute_of_free hfree) hfault (writeBack_of_free hfree) hfault
        (commit_of_not_done hs.owner_ne_commit (congrArg RobEntry.busy hhead) (congrArg RobEntry.done hhead)) hfault,
      hs.boundary_withHead, show s.pools = unitsFree from h.pools]
    rfl
  obtain ⟨t, ht, hlast, hregs, hevents⟩ := nop_retires (s := s.clocked (q.cycle + 1) unitsFree) (r := markDone r)
    (hs.clocked ..) ⟨h.sized.legal, h.sized.rob, h.sized.tables, h.sized.btb⟩ rfl rfl rfl rfl
    (h.tail_counting q.rat) h.rat
  refine ⟨_, t, exec_eq_issue .nop q, ?_, hlast.retiredAlone rfl rfl rfl rfl rfl rfl,
    ⟨hregs, fun a => by rw [hlast.mem]; rfl⟩, hevents⟩
  rw [run_succ_of_step hissue, run_succ_of_step ht]
  rfl

/-- Settles O22: the three integer instructions are arithmetic instructions of class `INT`, their operands the committed
values and, for `addi`, the immediate. -/
theorem loneIntegerInstruction : Obligations.LoneIntegerInstruction := by
  intro q rd rs rt imm i v hmem hi h hl
  have hreg : ∀ (f : IssueForm) (r : Reg),
      resolveOperand (allocateRob f q) (.reg r) = .slot (.resolved (q.readReg r)) := fun f r =>
    (h.resolvesTo r).resolveOperand h.ringOk h.rob_room f
  simp only [List.mem_cons, Prod.mk.injEq, List.not_mem_nil, or_false] at hmem
  obtain ⟨rfl, rfl⟩ | ⟨rfl, rfl⟩ | ⟨rfl, rfl⟩ := hmem
  · exact lone_arithmetic (k := .int) h hi hl rfl (by simp) (by simp) rfl (hreg _ rs) (hreg _ rt)
      fun e ho hj hk => by simp [resultOf, ho, hj, hk, Instr.op, addValue, Slot.val]
  · exact lone_arithmetic (k := .int) h hi hl rfl (by simp) (by simp) rfl (hreg _ rs) (hreg _ rt)
      fun e ho hj hk => by simp [resultOf, ho, hj, hk, Instr.op, subValue, Slot.val]
  · exact lone_arithmetic (k := .int) h hi hl rfl (by simp) (by simp) rfl (hreg _ rs) rfl
      fun e ho hj hk => by simp [resultOf, ho, hj, hk, Instr.op, addiValue, Slot.val, sext64]

end Sys2Proof.Machine

/-! ### The floating-point instructions alone (42_fp.md R301 to R305) -/

namespace Sys2Proof.Machine

/-- In the quiet engine a source register's operand is its committed value. -/
theorem State.Quiet.resolveOperand_reg {q : State} (h : q.Quiet) (f : IssueForm) (r : Reg) :
    resolveOperand (allocateRob f q) (.reg r) = .slot (.resolved (q.readReg r)) :=
  (h.resolvesTo r).resolveOperand h.ringOk h.rob_room f

/-- Settles O23: the two instructions are arithmetic instructions of class `FPADD`, their operands the committed
values. -/
theorem loneFpAdderInstruction : Obligations.LoneFpAdderInstruction := by
  intro q fd fs ft i v hmem hi h hl
  simp only [List.mem_cons, Prod.mk.injEq, List.not_mem_nil, or_false] at hmem
  obtain ⟨rfl, rfl⟩ | ⟨rfl, rfl⟩ := hmem
  · exact lone_arithmetic (k := .fpadd) h hi hl rfl (by simp) (by simp) rfl (h.resolveOperand_reg _ fs)
      (h.resolveOperand_reg _ ft) fun e ho hj hk => by simp [resultOf, ho, hj, hk, Instr.op, addDValue, Slot.val]
  · exact lone_arithmetic (k := .fpadd) h hi hl rfl (by simp) (by simp) rfl (h.resolveOperand_reg _ fs)
      (h.resolveOperand_reg _ ft) fun e ho hj hk => by simp [resultOf, ho, hj, hk, Instr.op, subDValue, Slot.val]

/-- Settles O24: `mult.d` is an arithmetic instruction of class `MULT`, its operands the committed values. -/
theorem loneMultiply : Obligations.LoneMultiply := by
  intro q fd fs ft hi h hl
  exact lone_arithmetic (k := .mult) h hi hl rfl (by simp) (by simp) rfl (h.resolveOperand_reg _ fs)
    (h.resolveOperand_reg _ ft) fun e ho hj hk => by simp [resultOf, ho, hj, hk, Instr.op, multDValue, Slot.val]

end Sys2Proof.Machine

/-! ## Floating point (42_fp.md R300)

### Binary64 patterns: sign, exponent and fraction -/

namespace Sys2Proof.Machine

theorem fpSign_eq (a : Word) : fpSign a = decide (2 ^ 63 ≤ a.toNat) := by
  rw [fpSign, ← BitVec.msb_eq_getLsbD_last a, BitVec.msb_eq_decide]

theorem fpExp_eq (a : Word) : fpExp a = a.toNat / 2 ^ 52 % 2 ^ 11 := by
  rw [fpExp, BitVec.extractLsb'_toNat, Nat.shiftRight_eq_div_pow]

theorem fpFrac_eq (a : Word) : fpFrac a = a.toNat % 2 ^ 52 := by
  rw [fpFrac, BitVec.extractLsb'_toNat, Nat.shiftRight_zero]

theorem fpFrac_lt (a : Word) : fpFrac a < 2 ^ 52 := BitVec.isLt _

/-! #### Packing -/

theorem fpPack_toNat (s : Bool) {low : Nat} (h : low < 2 ^ 63) : (fpPack s low).toNat = s.toNat * 2 ^ 63 + low := by
  have hsign : (if s then 1#1 else 0#1).toNat = s.toNat := by cases s <;> rfl
  rw [fpPack, BitVec.toNat_append, BitVec.toNat_ofNat, Nat.mod_eq_of_lt h, ← Nat.shiftLeft_add_eq_or_of_lt h,
    Nat.shiftLeft_eq, hsign]

theorem fpSign_fpPack (s : Bool) {low : Nat} (h : low < 2 ^ 63) : fpSign (fpPack s low) = s := by
  rw [fpSign_eq, fpPack_toNat s h]
  cases s
  · simpa using h
  · simp

theorem fpExp_fpPack (s : Bool) {low : Nat} (h : low < 2 ^ 63) : fpExp (fpPack s low) = low / 2 ^ 52 := by
  rw [fpExp_eq, fpPack_toNat s h]
  omega

theorem fpFrac_fpPack (s : Bool) {low : Nat} (h : low < 2 ^ 63) : fpFrac (fpPack s low) = low % 2 ^ 52 := by
  rw [fpFrac_eq, fpPack_toNat s h]
  omega

/-- The last bit of a pattern is the parity of its low 63 bits. -/
theorem lastBit_fpPack (s : Bool) {low : Nat} (h : low < 2 ^ 63) (heven : low % 2 = 0) :
    (fpPack s low).getLsbD 0 = false := by
  rw [BitVec.getLsbD, fpPack_toNat s h, Nat.testBit_zero]
  simp only [decide_eq_false_iff_not]
  omega

theorem fpInfLow_lt : fpInfLow < 2 ^ 63 := by decide

@[simp] theorem fpSign_fpInf (s : Bool) : fpSign (fpInf s) = s := fpSign_fpPack s fpInfLow_lt

theorem fpExp_fpInf (s : Bool) : fpExp (fpInf s) = 2047 := fpExp_fpPack s fpInfLow_lt

theorem fpFrac_fpInf (s : Bool) : fpFrac (fpInf s) = 0 := fpFrac_fpPack s fpInfLow_lt

/-! #### The three kinds of pattern -/

@[simp] theorem fpIsInf_fpInf (s : Bool) : fpIsInf (fpInf s) = true := by
  simp [fpIsInf, fpExp_fpInf, fpFrac_fpInf]

@[simp] theorem fpIsNaN_fpInf (s : Bool) : fpIsNaN (fpInf s) = false := by
  simp [fpIsNaN, fpFrac_fpInf]

theorem fpIsNaN_of_finite {a : Word} (h : fpIsFinite a = true) : fpIsNaN a = false := by
  simp_all [fpIsFinite, fpIsNaN]

theorem fpIsInf_of_finite {a : Word} (h : fpIsFinite a = true) : fpIsInf a = false := by
  simp_all [fpIsFinite, fpIsInf]

/-- The fields of a pattern written as sign, exponent and fraction. -/
theorem fields_of_append (s : BitVec 1) (e : BitVec 11) (f : BitVec 52) :
    fpExp (s ++ e ++ f : Word) = e.toNat ∧ fpFrac (s ++ e ++ f : Word) = f.toNat := by
  have hword : (s ++ e ++ f : Word).toNat = (s.toNat * 2 ^ 11 + e.toNat) * 2 ^ 52 + f.toNat := by
    rw [BitVec.toNat_append, BitVec.toNat_append, ← Nat.shiftLeft_add_eq_or_of_lt f.isLt,
      ← Nat.shiftLeft_add_eq_or_of_lt e.isLt, Nat.shiftLeft_eq, Nat.shiftLeft_eq]
  rw [fpExp_eq, fpFrac_eq, hword]
  omega

theorem fpIsNaN_of_fraction (s : BitVec 1) {n : Nat} (h : n < 2 ^ 52) (h0 : n ≠ 0) :
    fpIsNaN (s ++ 0x7FF#11 ++ BitVec.ofNat 52 n : Word) = true := by
  obtain ⟨hexp, hfrac⟩ := fields_of_append s 0x7FF#11 (BitVec.ofNat 52 n)
  rw [BitVec.toNat_ofNat, Nat.mod_eq_of_lt h] at hfrac
  simp [fpIsNaN, hexp, hfrac, h0]

theorem fpIsNaN_fpNan : fpIsNaN Config.fpNan = true :=
  fpIsNaN_of_fraction Config.fpNanSign (Nat.succ_lt_succ Config.fpNanFraction.isLt) (Nat.succ_ne_zero _)

/-! #### Units: sign and magnitude -/

/-- The integer of sign `s` and magnitude `n`. -/
def signed (s : Bool) (n : Nat) : Int := if s then -(n : Int) else n

theorem fpUnits_eq (a : Word) : fpUnits a = signed (fpSign a) (fpMagnitude a) := rfl

theorem natAbs_signed (s : Bool) (n : Nat) : (signed s n).natAbs = n := by cases s <;> simp [signed]

theorem signed_not (s : Bool) (n : Nat) : signed (!s) n = -signed s n := by cases s <;> simp [signed]

theorem signed_eq_zero {s : Bool} {n : Nat} : signed s n = 0 ↔ n = 0 := by cases s <;> simp [signed]

theorem signed_of_neg (z : Int) : signed (decide (z < 0)) z.natAbs = z := by
  by_cases h : z < 0
  · simp only [signed, h, decide_true, if_true]
    omega
  · simp only [signed, h, decide_false, Bool.false_eq_true, if_false]
    omega

theorem signed_mul (s t : Bool) (m n : Nat) : signed s m * signed t n = signed (s != t) (m * n) := by
  cases s <;> cases t <;> simp [signed]

theorem signed_neg_iff {s : Bool} {n : Nat} (h : n ≠ 0) : decide (signed s n < 0) = s := by
  cases s
  · simp [signed]
  · simpa [signed] using Nat.pos_of_ne_zero h

/-- A magnitude is a significand of at most 53 bits times a power of two. -/
theorem exists_significand (a : Word) : ∃ m e, m < 2 ^ 53 ∧ fpMagnitude a = m * 2 ^ e := by
  have hfrac := fpFrac_lt a
  unfold fpMagnitude
  split
  · exact ⟨fpFrac a, 0, by omega, (Nat.mul_one _).symm⟩
  · exact ⟨2 ^ 52 + fpFrac a, fpExp a - 1, by omega, rfl⟩

/-- The pattern of a significand `m` and exponent `e`: a subnormal's significand is below `2^52`, and `2^53` is a carry
into the exponent field. -/
theorem fpMagnitude_fpPack (s : Bool) {e m : Nat} (hm : m ≤ 2 ^ 53) (hnormal : 2 ^ 52 ≤ m ∨ e = 0)
    (h : e * 2 ^ 52 + m < 2 ^ 63) : fpMagnitude (fpPack s (e * 2 ^ 52 + m)) = m * 2 ^ e := by
  rw [fpMagnitude, fpExp_fpPack s h, fpFrac_fpPack s h]
  obtain hlt | hcarry | ⟨hlo, hhi⟩ : m < 2 ^ 52 ∨ m = 2 ^ 53 ∨ (2 ^ 52 ≤ m ∧ m < 2 ^ 53) := by omega
  · obtain rfl : e = 0 := hnormal.resolve_left (by omega)
    rw [if_pos (by omega), Nat.zero_mul, Nat.zero_add, Nat.mod_eq_of_lt hlt, Nat.pow_zero, Nat.mul_one]
  · rw [if_neg (by omega), show (e * 2 ^ 52 + m) / 2 ^ 52 - 1 = e + 1 by omega,
      show (e * 2 ^ 52 + m) % 2 ^ 52 = 0 by omega, hcarry]
    ring
  · rw [if_neg (by omega), show (e * 2 ^ 52 + m) / 2 ^ 52 - 1 = e by omega,
      show 2 ^ 52 + (e * 2 ^ 52 + m) % 2 ^ 52 = m by omega]

/-! #### Negation -/

@[simp] theorem fpSign_fpNegate (a : Word) : fpSign (fpNegate a) = !fpSign a := by
  simp [fpSign, fpNegate]

@[simp] theorem fpExp_fpNegate (a : Word) : fpExp (fpNegate a) = fpExp a := by
  simp [fpExp, fpNegate, BitVec.extractLsb'_xor]

@[simp] theorem fpFrac_fpNegate (a : Word) : fpFrac (fpNegate a) = fpFrac a := by
  simp [fpFrac, fpNegate, BitVec.extractLsb'_xor]

@[simp] theorem fpIsNaN_fpNegate (a : Word) : fpIsNaN (fpNegate a) = fpIsNaN a := by simp [fpIsNaN]

@[simp] theorem fpIsFinite_fpNegate (a : Word) : fpIsFinite (fpNegate a) = fpIsFinite a := by simp [fpIsFinite]

@[simp] theorem fpNegate_fpInf (s : Bool) : fpNegate (fpInf s) = fpInf (!s) := by cases s <;> rfl

theorem fpUnits_fpNegate (a : Word) : fpUnits (fpNegate a) = -fpUnits a := by
  have hmag : fpMagnitude (fpNegate a) = fpMagnitude a := by simp [fpMagnitude]
  rw [fpUnits_eq, fpUnits_eq, hmag, fpSign_fpNegate, signed_not]

end Sys2Proof.Machine

/-! ### Rounding to nearest, ties to even -/

namespace Sys2Proof.Machine

/-! #### The nearest multiple of a power of two -/

/-- The distance of two magnitudes. -/
def gap (x n : Nat) : Nat := ((x : Int) - n).natAbs

/-- Half a unit at most is rounded away, and exactly half a unit only from an odd quotient. -/
theorem roundShift_spec (n k : Nat) :
    2 * n ≤ 2 * (roundShift n k * 2 ^ k) + 2 ^ k ∧ 2 * (roundShift n k * 2 ^ k) ≤ 2 * n + 2 ^ k ∧
    ((2 * n = 2 * (roundShift n k * 2 ^ k) + 2 ^ k ∨ 2 * (roundShift n k * 2 ^ k) = 2 * n + 2 ^ k) →
      roundShift n k % 2 = 0) := by
  have hdiv := Nat.div_add_mod' n (2 ^ k)
  have hmod := Nat.mod_lt n (Nat.two_pow_pos k)
  have hsucc := Nat.succ_mul (n / 2 ^ k) (2 ^ k)
  unfold roundShift
  simp only
  split
  · rw [hsucc]
    omega
  · omega

theorem roundShift_nearest (n k c : Nat) :
    gap (roundShift n k * 2 ^ k) n ≤ gap (c * 2 ^ k) n ∧
    (gap (roundShift n k * 2 ^ k) n = gap (c * 2 ^ k) n → c = roundShift n k ∨ roundShift n k % 2 = 0) := by
  obtain ⟨hlo, hhi, htie⟩ := roundShift_spec n k
  unfold gap
  obtain hlt | rfl | hgt := Nat.lt_trichotomy c (roundShift n k)
  · have hstep := Nat.mul_le_mul_right (2 ^ k) hlt
    rw [Nat.succ_mul] at hstep
    omega
  · exact ⟨le_rfl, fun _ => .inl rfl⟩
  · have hstep := Nat.mul_le_mul_right (2 ^ k) hgt
    rw [Nat.succ_mul] at hstep
    omega

theorem roundShift_zero (k : Nat) : roundShift 0 k = 0 := by simp [roundShift]

theorem roundShift_le {n k m : Nat} (h : n ≤ m * 2 ^ k) : roundShift n k ≤ m := by
  by_contra hgt
  have hstep := Nat.mul_le_mul_right (2 ^ k) (Nat.lt_of_not_le hgt)
  rw [Nat.succ_mul] at hstep
  have hspec := roundShift_spec n k
  have hpos := Nat.two_pow_pos k
  omega

/-- To an even bound a value is rounded up from half a unit below it. -/
theorem le_roundShift_iff {n k m : Nat} (hm : m % 2 = 0) :
    m ≤ roundShift n k ↔ 2 * (m * 2 ^ k) ≤ 2 * n + 2 ^ k := by
  obtain ⟨hlo, hhi, htie⟩ := roundShift_spec n k
  constructor
  · intro hle
    have hstep := Nat.mul_le_mul_right (2 ^ k) hle
    omega
  · intro hle
    by_contra hlt
    have hstep := Nat.mul_le_mul_right (2 ^ k) (Nat.lt_of_not_le hlt)
    rw [Nat.succ_mul] at hstep
    have heq : roundShift n k + 1 = m := Nat.eq_of_mul_eq_mul_right (Nat.two_pow_pos k) (by rw [Nat.succ_mul]; omega)
    omega

/-! #### The rounded significand and its exponent -/

/-- How many low bits of `n` rounding drops. -/
def fpDropped (n extra : Nat) : Nat := max extra (Nat.log2 n - 52)

/-- The low 63 bits of the result with an unbounded exponent field. -/
def fpUnboundedLow (n extra : Nat) : Nat :=
  (fpDropped n extra - extra) * 2 ^ 52 + roundShift n (fpDropped n extra)

theorem fpRoundLow_eq (n extra : Nat) : fpRoundLow n extra = min fpInfLow (fpUnboundedLow n extra) := rfl

theorem fpRoundLow_lt (n extra : Nat) : fpRoundLow n extra < 2 ^ 63 :=
  (Nat.min_le_left ..).trans_lt fpInfLow_lt

section Rounding

variable {n extra : Nat}

theorem lt_of_fpDropped : n < 2 ^ 53 * 2 ^ fpDropped n extra := by
  have hlog : n < 2 ^ (Nat.log2 n + 1) := Nat.lt_log2_self
  rw [← Nat.pow_add]
  exact hlog.trans_le (Nat.pow_le_pow_right (by omega) (by unfold fpDropped; omega))

/-- Where more bits than the `extra` ones are dropped, the significand is full. -/
theorem le_of_extra_lt (h : extra < fpDropped n extra) : 2 ^ 52 * 2 ^ fpDropped n extra ≤ n := by
  have hk : fpDropped n extra = Nat.log2 n - 52 := by unfold fpDropped at h ⊢; omega
  have hn : n ≠ 0 := by
    rintro rfl
    simp [hk] at h
  rw [← Nat.pow_add, hk, show 52 + (Nat.log2 n - 52) = Nat.log2 n by omega]
  exact Nat.log2_self_le hn

theorem significand_le : roundShift n (fpDropped n extra) ≤ 2 ^ 53 := roundShift_le lt_of_fpDropped.le

theorem significand_normal : 2 ^ 52 ≤ roundShift n (fpDropped n extra) ∨ fpDropped n extra - extra = 0 := by
  by_cases h : extra < fpDropped n extra
  · have hle := le_of_extra_lt h
    exact .inl ((le_roundShift_iff (by decide)).2 (by omega))
  · exact .inr (by omega)

/-! #### The range of the exponent field -/

theorem fpOverflowUnits_mul (extra : Nat) :
    fpOverflowUnits * 2 ^ extra = (2 ^ 54 - 1) * 2 ^ (2044 + extra) := by
  rw [fpOverflowUnits, Nat.mul_assoc, ← Nat.pow_add]

/-- The exponent field stays below all ones exactly when the value is below the overflow bound. -/
theorem fpUnboundedLow_lt_iff : fpUnboundedLow n extra < fpInfLow ↔ n < fpOverflowUnits * 2 ^ extra := by
  have hextra : extra ≤ fpDropped n extra := Nat.le_max_left ..
  have hlt : n < 2 ^ 53 * 2 ^ fpDropped n extra := lt_of_fpDropped
  have hle := significand_le (n := n) (extra := extra)
  rw [fpOverflowUnits_mul, fpUnboundedLow, fpInfLow]
  obtain hlow | hlast | hhigh :
      fpDropped n extra ≤ 2044 + extra ∨ fpDropped n extra = 2044 + extra + 1 ∨
        2044 + extra + 2 ≤ fpDropped n extra := by omega
  · have hpow := Nat.pow_le_pow_right (n := 2) (by omega) hlow
    omega
  · have hpow : 2 ^ fpDropped n extra = 2 ^ (2044 + extra) * 2 := by rw [hlast, Nat.pow_succ]
    have hcarry := le_roundShift_iff (n := n) (k := fpDropped n extra) (m := 2 ^ 53) (by decide)
    omega
  · have hpow := Nat.pow_le_pow_right (n := 2) (by omega) hhigh
    rw [Nat.pow_succ, Nat.pow_succ] at hpow
    have hfull := le_of_extra_lt (n := n) (extra := extra) (by omega)
    have hnormal := significand_normal (n := n) (extra := extra)
    omega

theorem fpRoundLow_of_lt (h : n < fpOverflowUnits * 2 ^ extra) : fpRoundLow n extra = fpUnboundedLow n extra :=
  (fpRoundLow_eq n extra).trans (Nat.min_eq_right (fpUnboundedLow_lt_iff.2 h).le)

theorem fpRoundLow_of_overflow (h : fpOverflowUnits * 2 ^ extra ≤ n) : fpRoundLow n extra = fpInfLow :=
  (fpRoundLow_eq n extra).trans (Nat.min_eq_left (Nat.le_of_not_lt fun hlt =>
    absurd (fpUnboundedLow_lt_iff.1 hlt) (Nat.not_lt.2 h)))

/-! #### The rounded value is the nearest -/

/-- The magnitude of the rounded value, counted in the units of `n`. -/
theorem fpMagnitude_rounded (h : n < fpOverflowUnits * 2 ^ extra) (s : Bool) :
    fpMagnitude (fpPack s (fpRoundLow n extra)) * 2 ^ extra =
      roundShift n (fpDropped n extra) * 2 ^ fpDropped n extra := by
  have hextra : extra ≤ fpDropped n extra := Nat.le_max_left ..
  have hrange := fpRoundLow_lt n extra
  rw [fpRoundLow_of_lt h] at hrange ⊢
  rw [fpUnboundedLow, fpMagnitude_fpPack s significand_le significand_normal hrange, Nat.mul_assoc, ← Nat.pow_add,
    Nat.sub_add_cancel hextra]

/-- No magnitude of a 53-bit significand is nearer than the rounded one. One that is no multiple of its last place
lies below the full significand `2 ^ 52`, which lies below `n`. -/
theorem rounded_nearest {m e : Nat} (hm : m < 2 ^ 53) :
    gap (roundShift n (fpDropped n extra) * 2 ^ fpDropped n extra) n ≤ gap (m * 2 ^ e * 2 ^ extra) n ∧
    (gap (roundShift n (fpDropped n extra) * 2 ^ fpDropped n extra) n = gap (m * 2 ^ e * 2 ^ extra) n →
      m * 2 ^ e * 2 ^ extra = roundShift n (fpDropped n extra) * 2 ^ fpDropped n extra ∨
        roundShift n (fpDropped n extra) % 2 = 0) := by
  rw [Nat.mul_assoc, ← Nat.pow_add]
  by_cases hk : fpDropped n extra ≤ e + extra
  · have hmult : m * 2 ^ (e + extra) = m * 2 ^ (e + extra - fpDropped n extra) * 2 ^ fpDropped n extra := by
      rw [Nat.mul_assoc, ← Nat.pow_add, Nat.sub_add_cancel hk]
    obtain ⟨hle, htie⟩ := roundShift_nearest n (fpDropped n extra) (m * 2 ^ (e + extra - fpDropped n extra))
    rw [hmult]
    exact ⟨hle, fun heq => (htie heq).imp_left (congrArg (· * 2 ^ fpDropped n extra))⟩
  · have hfull := le_of_extra_lt (n := n) (extra := extra) (by omega)
    have hbelow : m * 2 ^ (e + extra) < 2 ^ 52 * 2 ^ fpDropped n extra := calc
      m * 2 ^ (e + extra) < 2 ^ 53 * 2 ^ (e + extra) := Nat.mul_lt_mul_of_pos_right hm (Nat.two_pow_pos _)
      _ = 2 ^ 52 * 2 ^ (e + extra + 1) := by ring
      _ ≤ 2 ^ 52 * 2 ^ fpDropped n extra :=
        Nat.mul_le_mul_left _ (Nat.pow_le_pow_right (by omega) (by omega))
    have hnear := (roundShift_nearest n (fpDropped n extra) (2 ^ 52)).1
    have hfar : gap (2 ^ 52 * 2 ^ fpDropped n extra) n < gap (m * 2 ^ (e + extra)) n := by
      unfold gap
      omega
    omega

/-- Between values of either sign the distance is at least that of their magnitudes. -/
theorem gap_natAbs_le (z w : Int) : gap z.natAbs w.natAbs ≤ (z - w).natAbs := by
  unfold gap
  omega

theorem natAbs_signed_sub (s : Bool) (x n : Nat) : (signed s x - signed s n).natAbs = gap x n := by
  unfold gap
  cases s
  · rfl
  · simp only [signed, if_true]
    omega

/-- A value as near to `signed s n` as its magnitude is to `n` has sign `s`, or is zero. -/
theorem eq_signed_of_natAbs_sub {s : Bool} {z : Int} {n : Nat} (hn : n = 0 → z = 0)
    (h : (z - signed s n).natAbs = gap z.natAbs n) : z = signed s z.natAbs := by
  unfold gap at h
  cases s <;> simp only [signed, Bool.false_eq_true, if_true, if_false] at h ⊢ <;> omega

theorem signed_mul_natCast (s : Bool) (m n : Nat) : signed s m * n = signed s (m * n) := by
  cases s <;> simp [signed]

theorem fpIsFinite_fpPack (s : Bool) {low : Nat} (h : low < fpInfLow) : fpIsFinite (fpPack s low) = true := by
  rw [fpIsFinite, fpExp_fpPack s (h.trans fpInfLow_lt), bne_iff_ne]
  unfold fpInfLow at h
  omega

/-- Rounding a magnitude below the overflow bound, with the sign kept, gives the nearest binary64 value. -/
theorem nearestTo_fpPack (h : n < fpOverflowUnits * 2 ^ extra) (s : Bool) :
    NearestTo (signed s n) (2 ^ extra) (fpPack s (fpRoundLow n extra)) := by
  have hrange := fpRoundLow_lt n extra
  have hpos := Nat.two_pow_pos extra
  set r := fpPack s (fpRoundLow n extra)
  have hmag : fpMagnitude r * 2 ^ extra = _ := fpMagnitude_rounded h s
  have hunits : fpUnits r * (2 ^ extra : Nat) = signed s (fpMagnitude r * 2 ^ extra) := by
    rw [fpUnits_eq, fpSign_fpPack s hrange, signed_mul_natCast]
  have hdist : (fpUnits r * (2 ^ extra : Nat) - signed s n).natAbs = gap (fpMagnitude r * 2 ^ extra) n := by
    rw [hunits, natAbs_signed_sub]
  refine ⟨fpIsFinite_fpPack s ?_, fun c _ => ?_⟩
  · rw [fpRoundLow_of_lt h]
    exact fpUnboundedLow_lt_iff.2 h
  obtain ⟨m, e, hm, hc⟩ := exists_significand c
  obtain ⟨hnear, htie⟩ := rounded_nearest (n := n) (extra := extra) (e := e) hm
  rw [← hmag, ← hc] at hnear htie
  have habs : (fpUnits c * (2 ^ extra : Nat)).natAbs = fpMagnitude c * 2 ^ extra := by
    rw [fpUnits_eq, signed_mul_natCast, natAbs_signed]
  have hsigns := gap_natAbs_le (fpUnits c * (2 ^ extra : Nat)) (signed s n)
  rw [habs, natAbs_signed] at hsigns
  rw [hdist]
  refine ⟨hnear.trans hsigns, fun heq hne => ?_⟩
  obtain hsame | heven := htie (by omega)
  · have hzero : n = 0 → fpMagnitude c * 2 ^ extra = 0 := by
      rintro rfl
      rw [hsame, hmag, roundShift_zero, Nat.zero_mul]
    have hsign := eq_signed_of_natAbs_sub (s := s) (z := fpUnits c * (2 ^ extra : Nat)) (n := n)
      (fun hn => Int.natAbs_eq_zero.1 (habs.trans (hzero hn))) (by rw [habs]; omega)
    rw [habs, hsame, ← hunits] at hsign
    exact absurd (Int.eq_of_mul_eq_mul_right (by omega) hsign).symm hne
  · refine lastBit_fpPack s hrange ?_
    rw [fpRoundLow_of_lt h, fpUnboundedLow]
    omega

end Rounding

end Sys2Proof.Machine

/-! ### Addition, subtraction and multiplication -/

namespace Sys2Proof.Machine

/-- A finite sum is the exact sum rounded, with the sign of the exact sum; zero has either sign. -/
theorem fpAddFinite_eq (a b : Word) :
    ∃ s, signed s (fpUnits a + fpUnits b).natAbs = fpUnits a + fpUnits b ∧
      fpAddFinite a b = fpPack s (fpRoundLow (fpUnits a + fpUnits b).natAbs 0) := by
  unfold fpAddFinite
  by_cases hz : fpUnits a + fpUnits b = 0
  · refine ⟨fpSign a && fpSign b, ?_, ?_⟩
    · rw [hz]
      exact signed_eq_zero.2 rfl
    · simp only [hz]
      rfl
  · exact ⟨_, signed_of_neg _, if_neg hz⟩

theorem fpUnits_mul (a b : Word) :
    fpUnits a * fpUnits b = signed (fpSign a != fpSign b) (fpMagnitude a * fpMagnitude b) := by
  rw [fpUnits_eq, fpUnits_eq, signed_mul]

theorem natAbs_fpUnits_mul (a b : Word) : (fpUnits a * fpUnits b).natAbs = fpMagnitude a * fpMagnitude b := by
  rw [fpUnits_mul, natAbs_signed]

theorem fpUnits_eq_zero {a : Word} : fpUnits a = 0 ↔ fpMagnitude a = 0 := signed_eq_zero

theorem fpUnits_add_fpNegate (a b : Word) : fpUnits a + fpUnits (fpNegate b) = fpUnits a - fpUnits b := by
  rw [fpUnits_fpNegate, Int.sub_eq_add_neg]

theorem fpOverflowUnits_pos : 0 < fpOverflowUnits := Nat.mul_pos (by decide) (pow_pos Nat.two_pos _)

/-! #### Finite operands: results in range and out of range -/

section Finite

variable {a b : Word} (ha : fpIsFinite a = true) (hb : fpIsFinite b = true)
include ha hb

theorem fadd64_of_finite : fadd64 a b = fpAddFinite a b := by
  simp [fadd64, fpIsNaN_of_finite, fpIsInf_of_finite, ha, hb]

theorem fmul64_of_finite :
    fmul64 a b = fpPack (fpSign a != fpSign b) (fpRoundLow (fpMagnitude a * fpMagnitude b) 1074) := by
  simp [fmul64, fpIsNaN_of_finite, fpIsInf_of_finite, ha, hb]

theorem fadd64_nearest (h : (fpUnits a + fpUnits b).natAbs < fpOverflowUnits) :
    NearestTo (fpUnits a + fpUnits b) 1 (fadd64 a b) := by
  obtain ⟨s, hs, heq⟩ := fpAddFinite_eq a b
  have hnear := nearestTo_fpPack (extra := 0) (by simpa using h) s
  rwa [hs, ← heq, ← fadd64_of_finite ha hb] at hnear

theorem fadd64_of_zero (h : fpUnits a + fpUnits b = 0) : fadd64 a b = fpZero (fpSign a && fpSign b) := by
  rw [fadd64_of_finite ha hb, fpAddFinite]
  exact if_pos h

theorem fadd64_overflow (h : fpOverflowUnits ≤ (fpUnits a + fpUnits b).natAbs) :
    fadd64 a b = fpInf (decide (fpUnits a + fpUnits b < 0)) := by
  have hz : fpUnits a + fpUnits b ≠ 0 := Int.natAbs_pos.1 (fpOverflowUnits_pos.trans_le h)
  rw [fadd64_of_finite ha hb, fpAddFinite]
  simp only [hz, if_false, fpRoundLow_of_overflow (extra := 0) (by simpa using h)]
  rfl

theorem fmul64_overflow (h : fpOverflowUnits * 2 ^ 1074 ≤ (fpUnits a * fpUnits b).natAbs) :
    fmul64 a b = fpInf (decide (fpUnits a * fpUnits b < 0)) := by
  rw [natAbs_fpUnits_mul] at h
  have hbound : 0 < fpOverflowUnits * 2 ^ 1074 := Nat.mul_pos fpOverflowUnits_pos (pow_pos Nat.two_pos _)
  have hz : fpMagnitude a * fpMagnitude b ≠ 0 := Nat.ne_of_gt (Nat.lt_of_lt_of_le hbound h)
  rw [fmul64_of_finite ha hb, fpRoundLow_of_overflow h, fpUnits_mul, signed_neg_iff hz]
  rfl

end Finite

/-- Settles O57: `nearestTo_fpPack` for the exact sum; a difference is the sum with the second operand negated. -/
theorem fpSumIsNearest : Obligations.FpSumIsNearest := by
  intro a b ha hb
  have hnb : fpIsFinite (fpNegate b) = true := by rw [fpIsFinite_fpNegate, hb]
  rw [← fpUnits_add_fpNegate, ← fpSign_fpNegate]
  exact ⟨fadd64_nearest ha hb, fadd64_nearest ha hnb, fadd64_of_zero ha hb, fadd64_of_zero ha hnb⟩

/-- Settles O58: `nearestTo_fpPack` for the exact product, counted in units of 2^-2148. -/
theorem fpProductIsNearest : Obligations.FpProductIsNearest := by
  intro a b ha hb
  rw [natAbs_fpUnits_mul, fpUnits_mul, fmul64_of_finite ha hb]
  exact ⟨fpSign_fpPack _ (fpRoundLow_lt ..), fun h => nearestTo_fpPack h _⟩

/-- Settles O59: from the overflow bound on the rounded low bits are those of infinity. -/
theorem fpOverflowGoesToInfinity : Obligations.FpOverflowGoesToInfinity := by
  intro a b ha hb
  have hnb : fpIsFinite (fpNegate b) = true := by rw [fpIsFinite_fpNegate, hb]
  rw [← fpUnits_add_fpNegate]
  exact ⟨fadd64_overflow ha hb, fadd64_overflow ha hnb, fmul64_overflow ha hb⟩

/-! #### NaNs and infinities -/

theorem fadd64_of_nan {a b : Word} (h : fpIsNaN a = true ∨ fpIsNaN b = true) : fadd64 a b = Config.fpNan := by
  obtain h | h := h <;> simp [fadd64, h]

theorem fmul64_of_nan {a b : Word} (h : fpIsNaN a = true ∨ fpIsNaN b = true) : fmul64 a b = Config.fpNan := by
  obtain h | h := h <;> simp [fmul64, h]

theorem fadd64_fpInf_fpInf (x y : Bool) : fadd64 (fpInf x) (fpInf y) = if x = y then fpInf x else Config.fpNan := by
  simp [fadd64]

theorem fadd64_fpInf_left (x : Bool) {a : Word} (ha : fpIsFinite a = true) : fadd64 (fpInf x) a = fpInf x := by
  simp [fadd64, fpIsNaN_of_finite ha, fpIsInf_of_finite ha]

theorem fadd64_fpInf_right (x : Bool) {a : Word} (ha : fpIsFinite a = true) : fadd64 a (fpInf x) = fpInf x := by
  simp [fadd64, fpIsNaN_of_finite ha, fpIsInf_of_finite ha]

theorem fpMagnitude_ne_zero {a : Word} (h : fpExp a ≠ 0) : fpMagnitude a ≠ 0 := by
  rw [fpMagnitude, if_neg h]
  exact (Nat.mul_pos (by omega) (Nat.two_pow_pos _)).ne'

theorem fpMagnitude_fpInf (x : Bool) : fpMagnitude (fpInf x) ≠ 0 :=
  fpMagnitude_ne_zero (by rw [fpExp_fpInf]; decide)

theorem fmul64_fpInf_left (x : Bool) {a : Word} (ha : fpIsNaN a = false) :
    fmul64 (fpInf x) a = if fpMagnitude a = 0 then Config.fpNan else fpInf (x != fpSign a) := by
  simp [fmul64, ha, fpMagnitude_fpInf]

theorem fmul64_fpInf_right (x : Bool) {a : Word} (ha : fpIsNaN a = false) :
    fmul64 a (fpInf x) = if fpMagnitude a = 0 then Config.fpNan else fpInf (x != fpSign a) := by
  simp [fmul64, ha, fpMagnitude_fpInf, bne_comm (a := x)]

/-- Settles O60: NaN operands come first in every operation, then infinities; a difference is the sum with the second
operand negated. -/
theorem fpSpecialOperands : Obligations.FpSpecialOperands := by
  refine ⟨fpIsNaN_fpNan, fun a b => ⟨fun h => ⟨fadd64_of_nan h, ?_, fmul64_of_nan h⟩, fun x => ?_, fun x ha => ?_,
    fun x ha => ⟨fun hz => ?_, fun hz => ?_⟩⟩⟩
  · exact fadd64_of_nan (by rwa [fpIsNaN_fpNegate])
  · simp [fsub64, fadd64_fpInf_fpInf]
  · have hna : fpIsFinite (fpNegate a) = true := by rw [fpIsFinite_fpNegate, ha]
    simp [fsub64, fadd64_fpInf_left, fadd64_fpInf_right, ha, hna]
  · rw [fmul64_fpInf_left x ha, fmul64_fpInf_right x ha, if_pos (fpUnits_eq_zero.1 hz)]
    exact ⟨rfl, rfl⟩
  · rw [fmul64_fpInf_left x ha, fmul64_fpInf_right x ha, if_neg (mt fpUnits_eq_zero.2 hz)]
    exact ⟨rfl, rfl⟩

end Sys2Proof.Machine

/-! ## Issue of the load and the store (43_load_store.md R320, R321) -/

namespace Sys2Proof.Machine

section Issue

variable {s : State} {f : IssueForm} {c : FuClass} {j k : Slot}

/-- A store allocates and waits in its station; nothing is renamed (40_engine_cycle.md R211, R215, R219,
43_load_store.md R321). -/
theorem issue_of_store (hg : s.GatesOpen c) (hcls : f.op.fuClass = some c) (hkind : f.op.kind = .store)
    (hdest : f.dest = none) (hj : resolveOperand (allocateRob f s) f.j = .slot j)
    (hk : resolveOperand (allocateRob f s) f.k = .slot k) : ∃ n, s.freeStation c = some n ∧
      issue f s = { (allocateRob f s).modifyStation c n (newStation f s.rob.tail j k) with pc := s.pc + 1 } := by
  have hbranch : f.op.kind ≠ .branch := by simp [hkind]
  obtain ⟨n, hn, heq⟩ := issue_of_gatesOpen hg hcls hj hk
  refine ⟨n, hn, ?_⟩
  rw [heq, snapshotBranch_of_not_branch hbranch, chooseNextPc_of_not_branch hbranch, hdest]
  rfl

/-- The entry an allocation leaves at each index, in the form `robAllocated_of_entries` takes. -/
theorem robAt_allocated (hs : s.Sized) (hr : s.RingOk) (u : Nat) : (allocateRob f s).robAt u =
    if u = s.rob.tail then { newRobEntry f s (s.robAt u) with complete := false } else s.robAt u := by
  rw [robAt_allocateRob]
  by_cases h : u = s.rob.tail
  · rw [if_pos ⟨h, h ▸ hr.tail_lt hs⟩, if_pos h]
    rfl
  · rw [if_neg fun hcon => h hcon.1, if_neg h]

/-- The issue of a store, as the statements speak of it. -/
theorem store_issues (hs : s.Sized) (hr : s.RingOk) (hg : s.GatesOpen c) (hcls : f.op.fuClass = some c)
    (hkind : f.op.kind = .store) (hdest : f.dest = none) (hj : resolveOperand (allocateRob f s) f.j = .slot j)
    (hk : resolveOperand (allocateRob f s) f.k = .slot k) :
    s.OnlyIssued (issue f s) ∧ s.RobAllocated (issue f s) f.op .store false ∧
      s.StationFilled (issue f s) c f.op s.rob.tail j k f.imm ∧ (issue f s).rat = s.rat ∧
      (issue f s).pc = s.pc + 1 := by
  obtain ⟨n, hn, heq⟩ := issue_of_store hg hcls hkind hdest hj hk
  rw [heq]
  exact ⟨⟨.of_eq rfl rfl rfl, rfl, rfl, rfl, rfl, rfl, rfl, rfl, rfl, rfl⟩,
    hkind ▸ robAllocated_of_entries rfl rfl (robAt_allocated hs hr), stationFilled_modifyStation hn fun _ _ => rfl,
    rfl, rfl⟩

end Issue

/-- Settles O17: `ld` is an instruction that writes a register, of either file, its second operand a value from the
start. -/
theorem loadIssues : Obligations.LoadIssues := by
  intro s rt rb off j hs hr hg hj
  exact ⟨_, exec_eq_issue _ s,
    writer_issues (f := issueForm (.ld rt rb off)) hs hr hg rfl rfl rfl (hj.resolveOperand hr hg.1 _) rfl⟩

/-- Settles O18: `sd` is the one instruction of kind `STORE`, its operands the base and the data register. -/
theorem storeIssues : Obligations.StoreIssues := by
  intro s rt rb off j k hs hr hg hj hk
  exact ⟨_, exec_eq_issue _ s, store_issues (f := issueForm (.sd rt rb off)) hs hr hg rfl rfl rfl
    (hj.resolveOperand hr hg.1 _) (hk.resolveOperand hr hg.1 _)⟩

end Sys2Proof.Machine

/-! ## A waiting load's visit (43_load_store.md R324 to R328) -/

namespace Sys2Proof.Machine

section WaitingLoad

variable {s : State} {i q : Nat}

/-! ### Older stores -/

theorem mem_olderStores : q ∈ s.olderStores i ↔ s.OlderStore i q := by
  simp [State.olderStores, State.OlderStore, mem_busyStations]

theorem mem_matchingStores : q ∈ s.matchingStores i ↔
    s.OlderStore i q ∧ (s.station .ls q).addr = (s.station .ls i).addr := by
  simp [State.matchingStores, mem_olderStores]

/-- A list with entries has a youngest: it is in the list, and no entry of the list is younger. -/
theorem youngest_exists (s : State) {l : List Nat} (hl : l ≠ []) :
    ∃ q, s.youngest l = some q ∧ q ∈ l ∧ ∀ p ∈ l, s.stationSeq .ls p ≤ s.stationSeq .ls q := by
  induction l with
  | nil => exact absurd rfl hl
  | cons a l ih =>
    by_cases hnil : l = []
    · subst hnil
      exact ⟨a, rfl, by simp, by simp⟩
    · obtain ⟨p, hy, hp, hmax⟩ := ih hnil
      unfold State.youngest
      rw [hy]
      by_cases hlt : s.stationSeq .ls p < s.stationSeq .ls a
      · exact ⟨a, if_pos hlt, by simp, List.forall_mem_cons.2 ⟨le_rfl, fun x hx => (hmax x hx).trans hlt.le⟩⟩
      · exact ⟨p, if_neg hlt, by simp [hp], List.forall_mem_cons.2 ⟨not_lt.1 hlt, hmax⟩⟩

/-- An entry younger than every other of the list is the youngest. -/
theorem youngest_eq_some {l : List Nat} (hq : q ∈ l)
    (hmax : ∀ p ∈ l, p ≠ q → s.stationSeq .ls p < s.stationSeq .ls q) : s.youngest l = some q := by
  obtain ⟨p, hy, hp, hle⟩ := youngest_exists s (List.ne_nil_of_mem hq)
  obtain rfl : p = q := by
    by_contra hne
    exact absurd (hle q hq) (not_le.2 (hmax p hp hne))
  exact hy

/-! ### Which way a visit goes -/

theorem State.LoadWaiting.visit_eq (h : s.LoadWaiting i) : visit .ls i s = memWaitStep i s := by
  obtain ⟨hb, hr, hp⟩ := h
  simp [visit, hb, hr, hp]

theorem memWaitStep_of_unaddressed (hq : s.OlderStore i q) (ha : (s.station .ls q).addrValid = false) :
    memWaitStep i s = s := by
  unfold memWaitStep
  exact if_pos (List.any_eq_true.2 ⟨q, mem_olderStores.2 hq, by simp [ha]⟩)

theorem olderStores_addressed (h : ∀ p, s.OlderStore i p → (s.station .ls p).addrValid = true) :
    (s.olderStores i).any (fun q => !(s.station .ls q).addrValid) = false :=
  List.any_eq_false.2 fun p hp => by simp [h p (mem_olderStores.1 hp)]

/-- The youngest matching store forwards once its address phase ended in an earlier cycle (43_load_store.md R326). -/
theorem memWaitStep_of_match (h : ∀ p, s.OlderStore i p → (s.station .ls p).addrValid = true)
    (hy : s.youngest (s.matchingStores i) = some q) : memWaitStep i s =
      if before (s.robAt (s.station .ls q).dest).timing.exEnd s.cycle then forward i q s else s := by
  unfold memWaitStep
  simp [olderStores_addressed h, hy]

/-- Without a matching store the load asks for the port (43_load_store.md R327). -/
theorem memWaitStep_of_noMatch (h : ∀ p, s.OlderStore i p →
      (s.station .ls p).addrValid = true ∧ (s.station .ls p).addr ≠ (s.station .ls i).addr) :
    memWaitStep i s = if s.port.owner = .none then loadStart i s else s := by
  have hempty : s.matchingStores i = [] := List.eq_nil_iff_forall_not_mem.2 fun p hp =>
    (h p (mem_matchingStores.1 hp).1).2 (mem_matchingStores.1 hp).2
  unfold memWaitStep
  rw [if_neg (by simp [olderStores_addressed fun p hp => (h p hp).1]), hempty]
  rfl

theorem loadStart_eq (i : Nat) (s : State) :
    loadStart i s = if s.cfg.memLat - 1 = 0 then loadFinish i (loadStarted i s) else loadStarted i s := rfl

@[simp] theorem loadFinish_pc (i : Nat) (s : State) : (loadFinish i s).pc = s.pc := rfl
@[simp] theorem loadFinish_pools (i : Nat) (s : State) : (loadFinish i s).pools = s.pools := rfl
@[simp] theorem loadFinish_btb (i : Nat) (s : State) : (loadFinish i s).btb = s.btb := rfl
@[simp] theorem loadFinish_cdb (i : Nat) (s : State) : (loadFinish i s).cdb = s.cdb := rfl
@[simp] theorem loadFinish_port (i : Nat) (s : State) : (loadFinish i s).port = { s.port with release := true } := rfl
@[simp] theorem loadStarted_pc (i : Nat) (s : State) : (loadStarted i s).pc = s.pc := rfl
@[simp] theorem loadStarted_pools (i : Nat) (s : State) : (loadStarted i s).pools = s.pools := rfl
@[simp] theorem loadStarted_btb (i : Nat) (s : State) : (loadStarted i s).btb = s.btb := rfl
@[simp] theorem loadStarted_cdb (i : Nat) (s : State) : (loadStarted i s).cdb = s.cdb := rfl
@[simp] theorem loadStarted_port (i : Nat) (s : State) :
    (loadStarted i s).port = { s.port with owner := .load i } := rfl

/-! ### What a visit leaves -/

theorem State.Visited.station_other {t : State} {k : FuClass} {e : RsEntry} {r : RobEntry} (hv : s.Visited t k i e r)
    {c : FuClass} {m : Nat} (h : (c, m) ≠ (k, i)) : t.station c m = s.station c m := by
  rw [hv.stations, if_neg fun hcm => h (by rw [hcm.1, hcm.2])]

theorem State.Visited.entry_other {t : State} {k : FuClass} {e : RsEntry} {r : RobEntry} (hv : s.Visited t k i e r)
    {u : Nat} (h : u ≠ (s.station k i).dest) : t.robAt u = s.robAt u := by
  rw [hv.entries, if_neg h]

theorem State.LoadWaiting.visited_forward (h : s.LoadWaiting i) (q : Nat) : s.Visited (forward i q s) .ls i
    { s.station .ls i with result := (s.robAt (s.station .ls q).dest).stData, phase := .resultReady }
    { s.robAt (s.station .ls i).dest with
      timing := { (s.robAt (s.station .ls i).dest).timing with
        memStart := some s.cycle, memEnd := some s.cycle } } := by
  obtain ⟨hb, hr, -⟩ := h
  exact ((State.Visited.refl s .ls i).modifyStation hb
    (fun e => { e with result := (s.robAt (s.station .ls q).dest).stData, phase := .resultReady }) rfl rfl rfl
    rfl).modifyTiming hr (fun t => { t with memStart := some s.cycle, memEnd := some s.cycle }) rfl

/-- The end of a memory access (43_load_store.md R328). -/
theorem visited_loadFinish (hb : (s.station .ls i).busy = true) (hr : (s.robAt (s.station .ls i).dest).busy = true) :
    s.Visited (loadFinish i s) .ls i
      { s.station .ls i with result := s.mem.read (s.station .ls i).addr, phase := .resultReady }
      { s.robAt (s.station .ls i).dest with
        timing := { (s.robAt (s.station .ls i).dest).timing with memEnd := some s.cycle } } :=
  (((State.Visited.refl s .ls i).modifyStation hb
    (fun e => { e with result := s.mem.read e.addr, phase := .resultReady }) rfl rfl rfl rfl).modifyTiming hr
    (fun t => { t with memEnd := some s.cycle }) rfl).update s.pools { s.port with release := true } s.btb rfl

/-- A one-cycle memory access: the load takes the port and reads its cell (43_load_store.md R327, R328). -/
theorem visited_oneCycleLoad (hb : (s.station .ls i).busy = true) (hr : (s.robAt (s.station .ls i).dest).busy = true) :
    s.Visited (loadFinish i (loadStarted i s)) .ls i
      { s.station .ls i with
        phase := .resultReady, remaining := s.cfg.memLat - 1, result := s.mem.read (s.station .ls i).addr }
      { s.robAt (s.station .ls i).dest with
        timing := { (s.robAt (s.station .ls i).dest).timing with
          memStart := some s.cycle, memEnd := some s.cycle } } := by
  have hv := visited_loadStarted hb hr
  have hfin := visited_loadFinish (s := loadStarted i s) (i := i) (by rw [hv.station]; exact hb)
    (by rw [hv.entry_eq]; exact hr)
  rw [hv.station, hv.dest, hv.entry] at hfin
  exact hv.trans hfin

/-- A visited state's ring and architectural state are the old ones. -/
theorem State.Visited.ringKept {t : State} {k : FuClass} {e : RsEntry} {r : RobEntry} (hv : s.Visited t k i e r) :
    s.RingKept t := ⟨hv.kept.head, hv.kept.tail, hv.kept.count⟩

theorem State.Visited.archKept {t : State} {k : FuClass} {e : RsEntry} {r : RobEntry} (hv : s.Visited t k i e r) :
    s.ArchKept t := .of_eq hv.kept.intRegs hv.kept.fpRegs hv.kept.mem

/-- A visit that moves neither `pc` nor units nor BTB keeps the whole control state. -/
theorem State.Visited.controlKept {t : State} {k : FuClass} {e : RsEntry} {r : RobEntry} (hv : s.Visited t k i e r)
    (hpc : t.pc = s.pc) (hpools : t.pools = s.pools) (hbtb : t.btb = s.btb) : s.ControlKept t :=
  ⟨hv.kept.cfg, hv.kept.prog, hv.kept.cycle, hpc, hv.kept.nextSeq, hpools, hbtb, hv.fault⟩

end WaitingLoad

/-- Settles O30: an older store without an address ends the visit of a waiting load at once. -/
theorem loadWaitsForOlderStoreAddress : Obligations.LoadWaitsForOlderStoreAddress := by
  intro s i q h hq ha
  rw [h.visit_eq, memWaitStep_of_unaddressed hq ha]

/-- Settles O31: the youngest matching store is the one the visit finds, and forwarding changes the load's station and
timing record alone. -/
theorem loadForwardsFromYoungestStore : Obligations.LoadForwardsFromYoungestStore := by
  intro s i q n h haddr hq hmatch hyoung hend
  have hy : s.youngest (s.matchingStores i) = some q :=
    youngest_eq_some (mem_matchingStores.2 ⟨hq, hmatch⟩) fun p hp hne =>
      hyoung p hne (mem_matchingStores.1 hp).1 (mem_matchingStores.1 hp).2
  rw [h.visit_eq, memWaitStep_of_match haddr hy, hend]
  refine ⟨fun hle => if_neg (by simp [before, hle]), fun hlt => ?_⟩
  rw [if_pos (by simp [before, hlt])]
  have hv := h.visited_forward q
  exact ⟨hv.station, fun _ _ => hv.station_other, hv.entry, fun _ => hv.entry_other, hv.ringKept,
    hv.controlKept rfl rfl rfl, hv.archKept, rfl, hv.kept.rat, rfl, hv.kept.events⟩

/-- Settles O32: without a matching store the visit starts the memory access exactly when the port is free, and with
`MEM_LAT = 1` ends it as well. -/
theorem loadWithoutMatchTakesPort : Obligations.LoadWithoutMatchTakesPort := by
  intro s i h hno
  rw [h.visit_eq, memWaitStep_of_noMatch hno]
  refine ⟨fun hheld => if_neg hheld, fun hfree => ?_⟩
  rw [if_pos hfree, loadStart_eq]
  obtain ⟨hb, hr, -⟩ := h
  by_cases hlat : s.cfg.memLat - 1 = 0
  · have hv := visited_oneCycleLoad hb hr
    rw [if_pos hlat]
    refine ⟨by simp, by rw [hv.entry], hv.ringKept, hv.controlKept (by simp) (by simp) (by simp), hv.archKept,
      hv.kept.rat, by simp, hv.kept.events, fun _ _ => hv.station_other, fun _ => hv.entry_other, fun h2 => by omega,
      fun _ => ⟨?_, by rw [hv.entry], by simp⟩⟩
    rw [hv.station, hlat]
  · have hv := visited_loadStarted hb hr
    rw [if_neg hlat]
    exact ⟨rfl, by rw [hv.entry], hv.ringKept, hv.controlKept rfl rfl rfl, hv.archKept, hv.kept.rat, rfl,
      hv.kept.events, fun _ _ => hv.station_other, fun _ => hv.entry_other, fun _ => ⟨hv.station, rfl⟩,
      fun h1 => by omega⟩

end Sys2Proof.Machine

/-! ## The store's commit transaction (43_load_store.md R336 to R339) -/

namespace Sys2Proof.Machine

section StoreCommit

variable {s s1 : State}

/-! ### Which way commit goes -/

theorem commit_of_commit_owner (ho : s.port.owner = .commit) : commit s = storeCommitStep s := by
  unfold commit
  exact if_pos ho

theorem commitHead_of_store (hd : (s.robAt s.rob.head).done = true) (hk : (s.robAt s.rob.head).kind = .store) :
    commitHead s = if s.port.owner = .none then storeCommitStart s else s := by
  simp [commitHead, hd, hk]

/-- A cycle that is not the transaction's last ends with the port held (43_load_store.md R336, R337). -/
theorem storeCommitStart_of_wait (h : s.cfg.memLat - 1 ≠ 0) : storeCommitStart s = storeBegun s := by
  rw [storeCommitStart_eq]
  exact if_neg h

theorem storeCommitStep_of_wait (h : s.port.remaining - 1 ≠ 0) : storeCommitStep s = storeCounted s := by
  rw [storeCommitStep_eq]
  exact if_neg h

theorem storeCommitStart_of_last (hb : (s.robAt s.rob.head).busy = true) (h : s.cfg.memLat - 1 = 0) :
    storeCommitStart s = retire (stored (storeBegun s)) := by
  rw [storeCommitStart_eq, ← storeFinish_of_busy (robKept_storeBegun s) hb]
  exact if_pos h

theorem storeCommitStep_of_last (hb : (s.robAt s.rob.head).busy = true) (h : s.port.remaining - 1 = 0) :
    storeCommitStep s = retire (stored (storeCounted s)) := by
  rw [storeCommitStep_eq, ← storeFinish_of_busy (robKept_storeCounted s) hb]
  exact if_pos h

/-! ### What a cycle of the transaction leaves -/

theorem State.ControlKept.trans {s t u : State} (h : s.ControlKept t) (h' : t.ControlKept u) : s.ControlKept u :=
  ⟨h'.cfg.trans h.cfg, h'.prog.trans h.prog, h'.cycle.trans h.cycle, h'.pc.trans h.pc, h'.nextSeq.trans h.nextSeq,
    h'.pools.trans h.pools, h'.btb.trans h.btb, h'.fault.trans h.fault⟩

theorem controlKept_retire (s : State) : s.ControlKept (retire s) := ⟨rfl, rfl, rfl, rfl, rfl, rfl, rfl, rfl⟩

theorem controlKept_stored (s : State) : s.ControlKept (stored s) := ⟨rfl, rfl, rfl, rfl, rfl, rfl, rfl, rfl⟩

@[simp] theorem retire_cdb (s : State) : (retire s).cdb = s.cdb := rfl
@[simp] theorem stored_cdb (s : State) : (stored s).cdb = s.cdb := rfl
@[simp] theorem stored_head (s : State) : (stored s).rob.head = s.rob.head := rfl

/-- Of the head, the first cycle of the transaction sets `memStart` and a later one nothing. -/
theorem storeHeld_head (hb : (s.robAt s.rob.head).busy = true)
    (hs : s1 = storeBegun s ∧ s.port.owner = .none ∨ s1 = storeCounted s ∧ s.port.owner = .commit) :
    s1.robAt s.rob.head = { s.robAt s.rob.head with timing := { (s.robAt s.rob.head).timing with
      memStart := if s.port.owner = .none then some s.cycle else (s.robAt s.rob.head).timing.memStart } } := by
  obtain ⟨rfl, ho⟩ | ⟨rfl, ho⟩ := hs
  · rw [if_pos ho]
    exact robAt_modifyRob_same _ _ (lt_length_of_busy hb)
  · rw [if_neg (by simp [ho])]
    rfl

theorem storeHeld_control
    (hs : s1 = storeBegun s ∧ s.port.owner = .none ∨ s1 = storeCounted s ∧ s.port.owner = .commit) :
    s.ControlKept s1 ∧ s1.cdb = s.cdb := by
  obtain ⟨rfl, -⟩ | ⟨rfl, -⟩ := hs <;> exact ⟨⟨rfl, rfl, rfl, rfl, rfl, rfl, rfl, rfl⟩, rfl⟩

/-- The head as the transaction's last cycle hands it to retirement (43_load_store.md R338). -/
theorem head_stored (hb : (s.robAt s.rob.head).busy = true) : (stored s).robAt s.rob.head =
    { s.robAt s.rob.head with timing := { (s.robAt s.rob.head).timing with memEnd := some s.cycle } } := by
  rw [robAt_stored, modifyTiming_eq, robAt_modifyRob_same _ _ (lt_length_of_busy hb)]

/-- The last cycle retires the head, a store (43_load_store.md R338, 40_engine_cycle.md R248, R249). -/
theorem headRetired_of_stored (hb : (s.robAt s.rob.head).busy = true) (hk : (s.robAt s.rob.head).kind = .store)
    (hc : s.rob.count ≠ 0) : s.HeadRetired (retire (stored s))
      (.stored (s.robAt s.rob.head).stAddr (s.robAt s.rob.head).stData)
      { (s.robAt s.rob.head).timing with memEnd := some s.cycle, commit := some s.cycle } := by
  have hhead : (stored s).robAt (stored s).rob.head = _ := head_stored hb
  have hbusy : ((stored s).robAt (stored s).rob.head).busy = true := by rw [hhead, hb]
  refine ⟨?_, ?_, rfl, rfl, Nat.sub_add_cancel (Nat.pos_of_ne_zero hc)⟩
  · rw [retire_events hbusy, hhead]
    simp only [commitEvent, eventEffect, hk]
    rfl
  · rw [robAt_retire hbusy, stored_head, if_pos rfl]
    rfl

/-- What holds of the retirement of the held store holds of the retirement of the store before it was held. -/
theorem State.HeadRetired.of_held {t : State} {eff : EventEffect} {tm tm' : Timing} (h : s1.HeadRetired t eff tm)
    (hk : s.RobKept s1) (he : s1.robAt s.rob.head = { s.robAt s.rob.head with timing := tm' }) :
    s.HeadRetired t eff tm := by
  obtain ⟨hev, hfreed, hhead, htail, hcount⟩ := h
  rw [hk.head] at hev hfreed hhead
  refine ⟨?_, hfreed, by rw [hhead, hk.cfg], htail.trans hk.tail, hcount.trans hk.count⟩
  rw [hev, hk.events, he]

theorem robAt_retire_stored (hb : (s.robAt s.rob.head).busy = true) {u : Nat} (hu : u ≠ s.rob.head) :
    (retire (stored s)).robAt u = s.robAt u := by
  have hbusy : ((stored s).robAt (stored s).rob.head).busy = true :=
    (congrArg RobEntry.busy (head_stored hb)).trans hb
  rw [robAt_retire hbusy, stored_head, if_neg hu, robAt_stored, modifyTiming_eq, robAt_modifyRob_other _ _ hu]

theorem leaveTable_busy (h : Nat) (e : RsEntry) : (leaveTable h e).busy = (e.busy && decide (e.dest ≠ h)) := by
  unfold leaveTable
  split <;> simp [*]

/-- In the last cycle of the transaction commit retires the head behind the first or a later of its cycles. -/
theorem commit_of_last_cycle (hb : (s.robAt s.rob.head).busy = true) (hk : (s.robAt s.rob.head).kind = .store)
    (hc : s.rob.count ≠ 0) (hlast : (s.port.owner = .commit ∧ s.port.remaining = 1) ∨
      (s.port.owner = .none ∧ s.cfg.memLat = 1 ∧ (s.robAt s.rob.head).done = true)) :
    ∃ s1, (s1 = storeBegun s ∧ s.port.owner = .none ∨ s1 = storeCounted s ∧ s.port.owner = .commit) ∧
      commit s = retire (stored s1) := by
  obtain ⟨ho, hr⟩ | ⟨ho, hl, hd⟩ := hlast
  · exact ⟨_, .inr ⟨rfl, ho⟩, by rw [commit_of_commit_owner ho, storeCommitStep_of_last hb (by rw [hr])]⟩
  · refine ⟨_, .inl ⟨rfl, ho⟩, ?_⟩
    rw [commit_eq_commitHead (by simp [ho]) hc hb, commitHead_of_store hd hk, if_pos ho,
      storeCommitStart_of_last hb (by rw [hl])]

end StoreCommit

/-- Settles O39: the last cycle of the transaction, be it the first or a later one, writes the cell, frees the station
and retires the head. -/
theorem storeCommitWritesOneCell : Obligations.StoreCommitWritesOneCell := by
  intro s hm hb hk hc hlast
  obtain ⟨s1, hs, heq⟩ := commit_of_last_cycle hb hk hc hlast
  obtain ⟨hkept, hentry, hrs, -⟩ := storeHeld hs
  obtain ⟨hcontrol, hcdb⟩ := storeHeld_control hs
  have hhead := storeHeld_head hb hs
  have hst1 : ∀ c m, s1.station c m = s.station c m := fun c m => by rw [State.station, State.table, hrs]; rfl
  have hb1 : (s1.robAt s1.rob.head).busy = true := by rw [hkept.head, hhead, hb]
  have hread := read_write hm (s.robAt s.rob.head).stAddr (s.robAt s.rob.head).stData
  have hmem : (retire (stored s1)).mem = s.mem.write (s.robAt s.rob.head).stAddr (s.robAt s.rob.head).stData := by
    rw [retire_mem, stored_mem, hkept.mem, hkept.head, hhead]
  have hst : ∀ c m, (retire (stored s1)).station c m =
      if c = .ls then leaveTable s.rob.head (s.station c m) else s.station c m := fun c m => by
    change (stored s1).station c m = _
    rw [station_stored, hkept.head, hst1]
  have hretired := headRetired_of_stored hb1 (by rw [hkept.head, hhead, hk]) (by rwa [hkept.count])
  rw [hkept.head, hhead, hkept.cycle] at hretired
  rw [heq]
  refine ⟨by rw [hmem, hread, if_pos rfl], fun a ha => by rw [hmem, hread, if_neg ha], fun q => ?_,
    by rw [retire_rat, stored_rat, hkept.rat], by rw [retire_port, stored_port],
    (hcontrol.trans (controlKept_stored s1)).trans (controlKept_retire _), by rw [retire_cdb, stored_cdb, hcdb],
    fun m => by rw [hst, if_pos rfl, leaveTable_busy], fun c m hcls => by rw [hst, if_neg hcls],
    fun u hu => by rw [robAt_retire_stored hb1 (by rwa [hkept.head]), hentry u hu], hretired.of_held hkept hhead⟩
  cases q <;> simp [State.readReg, hkept.intRegs, hkept.fpRegs]

/-- Settles O40: with the port held by a load commit is idle, with it free the transaction's first cycle takes it, and a
later cycle that is not the last counts down. -/
theorem storeTransactionHoldsThePort : Obligations.StoreTransactionHoldsThePort := by
  refine fun s => ⟨fun hc hb hd hk => ⟨fun i ho => ?_, fun ho hl => ?_⟩, fun ho hr => ?_⟩
  · rw [commit_eq_commitHead (by simp [ho]) hc hb, commitHead_of_store hd hk, if_neg (by simp [ho])]
  · rw [commit_eq_commitHead (by simp [ho]) hc hb, commitHead_of_store hd hk, if_pos ho,
      storeCommitStart_of_wait (by omega)]
    refine ⟨rfl, .of_eq rfl rfl rfl, ?_, rfl, rfl⟩
    rw [storeHeld_head hb (.inl ⟨rfl, ho⟩), if_pos ho]
  · rw [commit_of_commit_owner ho, storeCommitStep_of_wait (by omega)]
    rfl

end Sys2Proof.Machine

/-! ## The memory port has one holder (43_load_store.md R340) -/

namespace Sys2Proof.Machine

/-- Under the invariant a load in its memory phase is the port's owner. -/
theorem State.Inv.owner_of_accessing {s : State} (h : s.Inv) {i : Nat} (hb : (s.station .ls i).busy = true)
    (hp : (s.station .ls i).phase = .memAccess) : s.port.owner = .load i := by
  have hphase := h.stations.phase .ls i hb
  simp only [State.PhaseOk, hp] at hphase
  obtain ⟨-, -, -, -, howner, -⟩ := hphase
  exact howner

theorem State.Inv.portExclusive {s : State} (h : s.Inv) : s.PortExclusive := by
  refine ⟨fun i j hi hpi hj hpj => ?_, fun ho i hi hpi => ?_, fun ho i hi hpi => ?_⟩
  · exact PortOwner.load.inj ((h.owner_of_accessing hi hpi).symm.trans (h.owner_of_accessing hj hpj))
  · cases ho.symm.trans (h.owner_of_accessing hi hpi)
  · cases ho.symm.trans (h.owner_of_accessing hi hpi)

/-- Settles O50: the invariant names the owner of the port in every load's memory phase, and every step keeps it. -/
theorem portHeldByOne : Obligations.PortHeldByOne :=
  fun s h => ⟨h.portExclusive, fun t ht => (engineInvariantKept s t h ht).portExclusive⟩

end Sys2Proof.Machine

/-! ## A load or a store alone in the engine

The states are those of `State.carrying`, with a memory port that may be held. -/

namespace Sys2Proof.Machine

/-- The same engine with port `p`. -/
def State.withPort (s : State) (p : Port) : State := { s with port := p }

/-- `e` and `r` are the two entries of an instruction that is in a station of `s` and in its ROB's head, however far it
has come. -/
structure State.Seated (s : State) (e : RsEntry) (r : RobEntry) : Prop where
  busy : e.busy = true
  dest : e.dest = s.rob.head
  inFlight : r.busy = true

section Cycle

variable {s t : State} {k : FuClass} {n : Nat} {e e' : RsEntry} {r r' : RobEntry}

theorem State.Aboard.seated (h : s.Aboard e r) : s.Seated e r := ⟨h.busy, h.dest, h.inFlight⟩

/-- A cycle in which nothing is issued or broadcast: the visit of the one busy station, then commit. -/
theorem State.LastFetched.step_of_visit_of_commit (h : s.LastFetched) (hn : n < (s.table k).length)
    (ha : s.Seated e r) (ha' : s.Seated e' r') {c : Nat} {p q : PoolMap Pool} {P Q : Port}
    (hvisit : visit k n (((s.withPort P).clocked c p).carrying k n e r) =
      ((s.withPort Q).clocked c q).carrying k n e' r')
    (hwait : e'.phase = .resultReady → before (readyCycle e' r'.timing) c = false)
    (hcommit : commit (((s.withPort Q).clocked c q).carrying k n e' r') = t) (hf : t.fault = none) :
    step (((s.withPort P).clocked c p).carrying k n e r) = .next (boundary t) := by
  set a := ((s.withPort P).clocked c p).carrying k n e r
  set b := ((s.withPort Q).clocked c q).carrying k n e' r'
  have hsta : ∀ c' m, a.station c' m = if c' = k ∧ m = n then e else s.station c' m :=
    station_carrying (s := (s.withPort P).clocked c p) hn
  have hstb : ∀ c' m, b.station c' m = if c' = k ∧ m = n then e' else s.station c' m :=
    station_carrying (s := (s.withPort Q).clocked c q) hn
  have hheada : a.robAt s.rob.head = r := head_carrying (s := (s.withPort P).clocked c p) h.head
  have hheadb : b.robAt s.rob.head = r' := head_carrying (s := (s.withPort Q).clocked c q) h.head
  have hexec : execute a = b := by
    refine execute_of_only (h.busy_carrying (r := r) hn ha.busy) ?_ h.noFault hvisit fun c' hc m => ?_
    · rw [hsta, if_pos ⟨rfl, rfl⟩, ha.dest, hheada, ha.inFlight]
    · rw [hsta, hstb, if_neg fun hcm => hc hcm.1, if_neg fun hcm => hc hcm.1]
  have hwb : writeBack b = b := by
    refine writeBack_of_none (h.danglingStation_carrying hn ha'.dest ha'.inFlight) fun c' m => ?_
    by_cases hcm : c' = k ∧ m = n
    · have hcycle : b.cycle = c := rfl
      simp only [State.isCandidate, hstb, if_pos hcm, ha'.dest, hheadb, hcycle]
      by_cases hready : e'.phase = .resultReady
      · simp [hwait hready]
      · simp [hready]
    · exact isCandidate_of_free (by rw [hstb, if_neg hcm, h.stations])
  rw [step_of_idle (s := a) h.legal h.noFault h.idle,
    restOfCycle_of_stages (s := a) h.noFault hexec h.noFault hwb h.noFault hcommit hf]

/-- The end of a cycle settles the port too (40_engine_cycle.md R260). -/
theorem boundary_withPort_carrying (h : s.Vacant) (c : Nat) (p : PoolMap Pool) (P : Port) :
    boundary (((s.withPort P).clocked c p).carrying k n e r) =
      ((s.withPort P.settle).clocked (c + 1) (p.map Pool.settle)).carrying k n e (markDone r) :=
  congrArg (State.withPort · P.settle) (boundary_carrying (h.clocked c p) k n e r)

/-- A cycle in which only the visit acts, when commit does not hold the port. -/
theorem State.LastFetched.step_of_port_visit (h : s.LastFetched) (hn : n < (s.table k).length)
    (ha : s.Seated e r) (ha' : s.Seated e' r') (hd : r'.done = false) {c : Nat} {p q q' : PoolMap Pool} {P Q Q' : Port}
    (hQ : Q.owner ≠ .commit)
    (hvisit : visit k n (((s.withPort P).clocked c p).carrying k n e r) =
      ((s.withPort Q).clocked c q).carrying k n e' r')
    (hpools : q.map Pool.settle = q') (hport : Q.settle = Q')
    (hwait : e'.phase = .resultReady → before (readyCycle e' r'.timing) c = false) :
    step (((s.withPort P).clocked c p).carrying k n e r) =
      .next (((s.withPort Q').clocked (c + 1) q').carrying k n e' (markDone r')) := by
  have hhead : (((s.withPort Q).clocked c q).carrying k n e' r').robAt s.rob.head = r' :=
    head_carrying (s := (s.withPort Q).clocked c q) h.head
  have hcommit := commit_of_not_done (s := ((s.withPort Q).clocked c q).carrying k n e' r') hQ
    ((congrArg RobEntry.busy hhead).trans ha'.inFlight) ((congrArg RobEntry.done hhead).trans hd)
  rw [h.step_of_visit_of_commit hn ha ha' hvisit hwait hcommit h.noFault, boundary_withPort_carrying h.toVacant,
    hpools, hport]

end Cycle

/-! ### The address phase (43_load_store.md R322, R323) -/

/-- The address of a load or store. -/
def RsEntry.address (e : RsEntry) : Word := effectiveAddress e.j.val e.imm

/-- The entry has its address. -/
def RsEntry.addressed (e : RsEntry) : RsEntry :=
  if e.op = .ld then loadAddressed e.address e else storeAddressed e.address e

/-- The ROB entry of an instruction whose station `e` has its address: a store is complete. -/
def RobEntry.addressedFrom (r : RobEntry) (e : RsEntry) : RobEntry :=
  if e.op = .ld then r else { r with stAddr := e.address, stData := e.k.val, complete := true }

section AddressPhase

variable {s : State} {n : Nat} {e e' : RsEntry} {r r' : RobEntry}

theorem RobEntry.addressedFrom_busy (r : RobEntry) (e : RsEntry) : (r.addressedFrom e).busy = r.busy := by
  unfold RobEntry.addressedFrom
  split <;> rfl

theorem RobEntry.addressedFrom_done (r : RobEntry) (e : RsEntry) : (r.addressedFrom e).done = r.done := by
  unfold RobEntry.addressedFrom
  split <;> rfl

theorem RsEntry.addressed_phase (e : RsEntry) : e.addressed.phase ≠ .resultReady := by
  unfold RsEntry.addressed
  split <;> simp [loadAddressed, storeAddressed]

theorem State.Seated.addressed (h : s.Seated e r) : s.Seated e.addressed (r.addressedFrom e) := by
  refine ⟨?_, ?_, (r.addressedFrom_busy e).trans h.inFlight⟩ <;> unfold RsEntry.addressed
  · split <;> exact h.busy
  · split <;> exact h.dest

theorem lsFinish_carrying (hn : n < (s.table .ls).length) (ha : s.Seated e r) :
    lsFinish n (s.carrying .ls n e r) = s.carrying .ls n e.addressed (r.addressedFrom e) := by
  unfold lsFinish RsEntry.addressed RobEntry.addressedFrom
  rw [own_station_carrying hn]
  by_cases hop : e.op = .ld
  · simp only [if_pos hop]
    exact carrying_modifyStation s _
  · simp only [if_neg hop, ha.dest]
    rw [carrying_modifyStation]
    exact carrying_modifyRob s _

/-- The end of an address phase (43_load_store.md R322, R323). -/
theorem finish_ls_carrying (hn : n < (s.table .ls).length) (ha : s.Seated e r) (c : Nat) (p : PoolMap Pool) :
    finish .ls n ((s.clocked c p).carrying .ls n e r) =
      (s.clocked c (unitReleased .ls p)).carrying .ls n e.addressed ((r.endedAt c).addressedFrom e) := by
  have hfinishing : finishing .ls n ((s.clocked c p).carrying .ls n e r) =
      (s.clocked c (unitReleased .ls p)).carrying .ls n e (r.endedAt c) := by
    rw [finishing, own_station_carrying (s := s.clocked c p) hn, ha.dest]
    exact congrArg (State.releaseUnits · .ls 1) (carrying_modifyTiming (s.clocked c p) _)
  change lsFinish n (finishing .ls n _) = _
  rw [hfinishing]
  exact lsFinish_carrying (s := s.clocked c (unitReleased .ls p)) hn ⟨ha.busy, ha.dest, ha.inFlight⟩

/-- An address phase from a visit that leaves `m` more cycles to go: the start's or a later one. -/
theorem run_address_from (h : s.LastFetched) (hn : n < (s.table .ls).length) (ha : s.Aboard e r) (m : Nat)
    {c : Nat} {p : PoolMap Pool} {e₀ : RsEntry} {r₀ : RobEntry} (ha₀ : s.Aboard e₀ r₀)
    (hvisit : visit .ls n ((s.clocked c p).carrying .ls n e₀ r₀) =
      if m = 0 then finish .ls n ((s.clocked c (unitTaken .ls unitsFree)).carrying .ls n (e.executing m) r)
      else (s.clocked c (unitTaken .ls unitsFree)).carrying .ls n (e.executing m) r) :
    Host.Core.run Sys2Proof.core (m + 1) ((s.clocked c p).carrying .ls n e₀ r₀) =
      .next ((s.clocked (c + m + 1) unitsFree).carrying .ls n (e.executing 0).addressed
        (markDone ((r.endedAt (c + m)).addressedFrom (e.executing 0)))) := by
  induction m generalizing c p e₀ r₀ with
  | zero =>
    have hseat : s.Seated (e.executing 0) (r.endedAt c) := ⟨ha.busy, ha.dest, ha.inFlight⟩
    rw [if_pos rfl, finish_ls_carrying hn (ha.executing 0).seated] at hvisit
    have hstep : step ((s.clocked c p).carrying .ls n e₀ r₀) =
        .next ((s.clocked (c + 1) unitsFree).carrying .ls n _ _) :=
      h.step_of_port_visit (P := s.port) (Q := s.port) (Q' := s.port) hn ha₀.seated hseat.addressed
        ((RobEntry.addressedFrom_done ..).trans ha.notDone) h.owner_ne_commit hvisit (settle_unitReleased .ls)
        (by rw [h.port]; rfl) fun hready => absurd hready (RsEntry.addressed_phase _)
    rw [run_succ_of_step hstep]
    rfl
  | succ m ih =>
    rw [if_neg (Nat.succ_ne_zero m)] at hvisit
    rw [run_succ_of_step (h.step_of_visit hn ha₀ (ha.executing (m + 1)) hvisit (settle_unitTaken .ls)
      fun hp => by cases hp)]
    have hnext := visit_executing (s := s.clocked (c + 1) (unitTaken .ls unitsFree)) hn h.head
      ((ha.executing (m + 1)).clocked ..) rfl
    rw [executingStep_carrying (s := s.clocked (c + 1) (unitTaken .ls unitsFree)) hn] at hnext
    rw [ih (ha.executing (m + 1)) hnext, show c + 1 + m = c + (m + 1) by omega]

/-- The address phase of a load or store that starts in cycle `c` (40_engine_cycle.md R222 to R226). -/
theorem run_address (h : s.LastFetched) (hn : n < (s.table .ls).length) (ha : s.Aboard e r) (hp : e.phase = .waiting)
    (hj : e.j.ready = true) (hk : e.k.ready = true) {c : Nat} (hissue : before r.timing.issue c = true) {l : Nat}
    (hlat : Config.latency s.cfg .ls = l + 1) :
    Host.Core.run Sys2Proof.core (l + 1) ((s.clocked c unitsFree).carrying .ls n e r) =
      .next ((s.clocked (c + l + 1) unitsFree).carrying .ls n (e.executing 0).addressed
        (markDone (((r.startedAt c).endedAt (c + l)).addressedFrom (e.executing 0)))) := by
  have hunit : (s.clocked c unitsFree).unitFree .ls = true :=
    unitFree_of_unitsFree (s := s.clocked c unitsFree) h.legal rfl .ls
  have hstart : ((s.clocked c unitsFree).carrying .ls n e r).canStart .ls n = true := by
    rw [canStart_carrying (s := s.clocked c unitsFree) hn h.head (ha.clocked ..), hj, hk, hunit,
      show (s.clocked c unitsFree).cycle = c from rfl, hissue]
    rfl
  have hvisit := visit_waiting (s := s.clocked c unitsFree) hn h.head (ha.clocked ..) hp
  rw [if_pos hstart, start_carrying hn ha c unitsFree hlat] at hvisit
  exact run_address_from h hn (ha.startedAt c) l ha hvisit

end AddressPhase

end Sys2Proof.Machine

/-! ### The load's memory phase (43_load_store.md R324, R327, R328) -/

namespace Sys2Proof.Machine

/-- The entry accesses memory and has `m` cycles to go. -/
def RsEntry.inMemory (e : RsEntry) (m : Nat) : RsEntry := { e with phase := .memAccess, remaining := m }

/-- The entry has read `v`. -/
def RsEntry.loaded (e : RsEntry) (v : Word) : RsEntry :=
  { e with phase := .resultReady, remaining := 0, result := v }

/-- The memory phase started in cycle `c`. -/
def RobEntry.memStartedAt (r : RobEntry) (c : Nat) : RobEntry :=
  { r with timing := { r.timing with memStart := some c } }

/-- The memory phase ended in cycle `c`. -/
def RobEntry.memEndedAt (r : RobEntry) (c : Nat) : RobEntry :=
  { r with timing := { r.timing with memEnd := some c } }

/-- The engine `s` in cycle `c` with its units free and the port held by the load in LS entry `n`. -/
def State.loading (s : State) (n c : Nat) : State := (s.withPort ⟨.load n, 0, false⟩).clocked c unitsFree

section MemoryPhase

variable {s : State} {n : Nat} {e : RsEntry} {r : RobEntry}

theorem State.Aboard.inMemory (h : s.Aboard e r) (m : Nat) : s.Aboard (e.inMemory m) r := { h with }

theorem State.Aboard.memStartedAt (h : s.Aboard e r) (c : Nat) : s.Aboard e (r.memStartedAt c) := { h with }

theorem State.Aboard.memEndedAt (h : s.Aboard e r) (c : Nat) : s.Aboard e (r.memEndedAt c) := { h with }

theorem State.Aboard.loaded (h : s.Aboard e r) (v : Word) : s.Aboard (e.loaded v) r := { h with }

theorem State.Aboard.markDone (h : s.Aboard e r) : markDone r = r := by simp [Machine.markDone, h.notComplete]

/-- The one load in the engine waits for no store and takes the free port (43_load_store.md R324, R327). -/
theorem visit_memWait (h : s.Vacant) (hn : n < (s.table .ls).length) (ha : s.Aboard e r) (hp : e.phase = .memWait)
    (c : Nat) : visit .ls n ((s.clocked c unitsFree).carrying .ls n e r) =
      loadStart n ((s.clocked c unitsFree).carrying .ls n e r) := by
  set a := (s.clocked c unitsFree).carrying .ls n e r
  have hown : a.station .ls n = e := own_station_carrying (s := s.clocked c unitsFree) hn
  have hhead : a.robAt s.rob.head = r := head_carrying (s := s.clocked c unitsFree) h.head
  have hload : a.LoadWaiting n :=
    ⟨by rw [hown, ha.busy], by rw [hown, ha.dest, hhead, ha.inFlight], by rw [hown, hp]⟩
  have hnone : ∀ p, ¬ a.OlderStore n p := fun p hold => by
    obtain ⟨hb, -, hage⟩ := hold
    obtain ⟨-, rfl⟩ := (h.busy_carrying (r := r) hn ha.busy .ls p).1 hb
    exact absurd hage (lt_irrefl _)
  have hport : a.port.owner = .none := congrArg Port.owner h.port
  rw [hload.visit_eq, memWaitStep_of_noMatch fun p hold => absurd hold (hnone p), if_pos hport]

theorem visit_memAccess (hn : n < (s.table .ls).length) (hh : s.rob.head < s.rob.entries.length) (ha : s.Aboard e r)
    (hp : e.phase = .memAccess) : visit .ls n (s.carrying .ls n e r) = memAccessStep n (s.carrying .ls n e r) := by
  simp [visit, own_station_carrying hn, ha.busy, ha.dest, head_carrying hh, ha.inFlight, hp]

theorem memAccessStep_carrying (hn : n < (s.table .ls).length) (m : Nat) :
    memAccessStep n (s.carrying .ls n (e.inMemory (m + 1)) r) =
      if m = 0 then loadFinish n (s.carrying .ls n (e.inMemory m) r) else s.carrying .ls n (e.inMemory m) r := by
  rw [memAccessStep, carrying_modifyStation]
  simp only [own_station_carrying hn]
  rfl

/-- The load takes the port for `m + 1` cycles (43_load_store.md R327). -/
theorem loadStart_carrying (h : s.Vacant) (hn : n < (s.table .ls).length) (ha : s.Aboard e r) (c : Nat) {m : Nat}
    (hlat : s.cfg.memLat = m + 1) : loadStart n ((s.clocked c unitsFree).carrying .ls n e r) =
      if m = 0 then loadFinish n ((s.loading n c).carrying .ls n (e.inMemory m) (r.memStartedAt c))
      else (s.loading n c).carrying .ls n (e.inMemory m) (r.memStartedAt c) := by
  have hm : s.cfg.memLat - 1 = m := by omega
  have hport : { s.port with owner := .load n } = (⟨.load n, 0, false⟩ : Port) := by rw [h.port]
  have hstarted : loadStarted n ((s.clocked c unitsFree).carrying .ls n e r) =
      (s.loading n c).carrying .ls n (e.inMemory (s.cfg.memLat - 1)) (r.memStartedAt c) := by
    rw [loadStarted, own_station_carrying (s := s.clocked c unitsFree) hn, ha.dest, State.loading, ← hport]
    exact (congrArg (State.modifyStation · .ls n _)
      (carrying_modifyTiming ((s.withPort { s.port with owner := .load n }).clocked c unitsFree) _)).trans
      (carrying_modifyStation ((s.withPort { s.port with owner := .load n }).clocked c unitsFree) _)
  rw [loadStart_eq, hstarted, show ((s.clocked c unitsFree).carrying .ls n e r).cfg = s.cfg from rfl, hm]

/-- The load reads its cell and marks the port for release (43_load_store.md R328). -/
theorem loadFinish_carrying (hn : n < (s.table .ls).length) (ha : s.Aboard e r) (c : Nat) :
    loadFinish n ((s.loading n c).carrying .ls n (e.inMemory 0) r) =
      ((s.withPort ⟨.load n, 0, true⟩).clocked c unitsFree).carrying .ls n (e.loaded (s.mem.read e.addr))
        (r.memEndedAt c) := by
  rw [loadFinish, own_station_carrying (s := s.loading n c) hn, (ha.inMemory 0).dest]
  exact congrArg (State.withPort · ⟨.load n, 0, true⟩)
    ((congrArg (State.modifyTiming · s.rob.head _) (carrying_modifyStation (s.loading n c) _)).trans
      (carrying_modifyTiming (s.loading n c) _))

/-- A memory phase from a visit that leaves `m` more cycles to go: the start's or a later one. -/
theorem run_memory_from (h : s.LastFetched) (hn : n < (s.table .ls).length) (ha : s.Aboard e r) (hop : e.op = .ld)
    (m : Nat) {c : Nat} {P : Port} {e₀ : RsEntry} {r₀ : RobEntry} (ha₀ : s.Aboard e₀ r₀)
    (hvisit : visit .ls n (((s.withPort P).clocked c unitsFree).carrying .ls n e₀ r₀) =
      if m = 0 then loadFinish n ((s.loading n c).carrying .ls n (e.inMemory m) r)
      else (s.loading n c).carrying .ls n (e.inMemory m) r) :
    Host.Core.run Sys2Proof.core (m + 1) (((s.withPort P).clocked c unitsFree).carrying .ls n e₀ r₀) =
      .next ((s.clocked (c + m + 1) unitsFree).carrying .ls n (e.loaded (s.mem.read e.addr))
        (r.memEndedAt (c + m))) := by
  induction m generalizing c P e₀ r₀ with
  | zero =>
    rw [if_pos rfl, loadFinish_carrying hn ha] at hvisit
    have hend := (ha.loaded (s.mem.read e.addr)).memEndedAt c
    have hstep := h.step_of_port_visit (q' := unitsFree) (Q' := s.port) hn ha₀.seated hend.seated ha.notDone (by simp)
      hvisit rfl (by rw [h.port]; rfl)
      fun _ => by simp [readyCycle, RsEntry.loaded, RobEntry.memEndedAt, hop, before]
    rw [hend.markDone] at hstep
    rw [run_succ_of_step hstep]
    rfl
  | succ m ih =>
    rw [if_neg (Nat.succ_ne_zero m)] at hvisit
    have hstep := h.step_of_port_visit (q' := unitsFree) (Q' := ⟨.load n, 0, false⟩) hn ha₀.seated
      (ha.inMemory (m + 1)).seated ha.notDone (by simp) hvisit rfl rfl fun hp => by cases hp
    rw [ha.markDone] at hstep
    have hnext := visit_memAccess (s := s.loading n (c + 1)) (e := e.inMemory (m + 1)) (r := r) hn h.head
      { ha with } rfl
    rw [memAccessStep_carrying (s := s.loading n (c + 1)) hn] at hnext
    rw [run_succ_of_step hstep, ih (ha.inMemory (m + 1)) hnext, show c + 1 + m = c + (m + 1) by omega]

/-- The memory phase of the one load in the engine, from cycle `c` on (43_load_store.md R324 to R328). -/
theorem run_memory (h : s.LastFetched) (hn : n < (s.table .ls).length) (ha : s.Aboard e r) (hop : e.op = .ld)
    (hp : e.phase = .memWait) (c : Nat) {m : Nat} (hlat : s.cfg.memLat = m + 1) :
    Host.Core.run Sys2Proof.core (m + 1) ((s.clocked c unitsFree).carrying .ls n e r) =
      .next ((s.clocked (c + m + 1) unitsFree).carrying .ls n (e.loaded (s.mem.read e.addr))
        ((r.memStartedAt c).memEndedAt (c + m))) := by
  have hvisit := visit_memWait h.toVacant hn ha hp c
  rw [loadStart_carrying h.toVacant hn ha c hlat] at hvisit
  exact run_memory_from (P := s.port) h hn (ha.memStartedAt c) hop m ha hvisit

end MemoryPhase

end Sys2Proof.Machine

/-! ### A load alone, from issue to commit -/

namespace Sys2Proof.Machine

section LoneLoad

variable {q : State} {i : Instr}

theorem State.Sized.memLat_pos {s : State} (h : s.Sized) : 0 < s.cfg.memLat := by
  have hlegal := (Bool.and_eq_true_iff.1 h.legal).1
  simp only [Config.legal, inRange, List.all_cons, List.all_nil, Bool.and_true, id, Bool.and_eq_true,
    decide_eq_true_eq] at hlegal
  obtain ⟨-, -, -, -, ⟨hpos, -⟩, -⟩ := hlegal
  exact hpos

theorem State.Quiet.sized_counting (h : q.Quiet) (rat : AliasTable) : (q.counting rat).Sized :=
  ⟨h.sized.legal, h.sized.rob, h.sized.tables, h.sized.btb⟩

/-- In the cycle of its issue into the quiet engine an instruction of a class only gets its two entries. -/
theorem State.Quiet.step_issue (h : q.Quiet) (hl : q.NextIsLast i) (hi : WellFormed i) {k : FuClass} {n : Nat}
    {rat : AliasTable} {e : RsEntry} {r : RobEntry} (hn : n < (q.table k).length)
    (hissue : issue (issueForm i) q = (q.counting rat).carrying k n e r) (ha : (q.counting rat).Aboard e r)
    (hp : e.phase = .waiting) (ht : r.timing.issue = some q.cycle) :
    step q = .next (((q.counting rat).clocked (q.cycle + 1) unitsFree).carrying k n e r) := by
  have hclocked : (q.counting rat).clocked q.cycle unitsFree = q.counting rat := h.clocked_counting rat
  rw [step_of_instr h.sized.legal h.noFault (hl.fetch hi), hissue, ← hclocked]
  exact congrArg Host.Outcome.next (restOfCycle_of_issued (h.counting hl rat).toVacant hn ha hp ht)

/-- From the cycle `c` in which the one instruction in the engine may broadcast `v` for register `rd`: it broadcasts,
and retires in the next cycle (40_engine_cycle.md R230 to R236, R246 to R249). -/
theorem State.Quiet.result_retires (h : q.Quiet) (hl : q.NextIsLast i) {rd : Reg} {k : FuClass} {n c : Nat}
    {e : RsEntry} {r : RobEntry} {v : Word} (hn : n < (q.table k).length)
    (ha : (q.counting (q.rat.assign rd (.rob q.rob.head))).Aboard e r) (hp : e.phase = .resultReady)
    (hready : before (readyCycle e r.timing) c = true) (hv : resultOf e = some v) (hkind : r.kind = .reg)
    (hrd : r.dest = rd) (hc : q.cycle ≤ c) : ∃ t,
      Host.Core.run Sys2Proof.core 2
        (((q.counting (q.rat.assign rd (.rob q.rob.head))).clocked c unitsFree).carrying k n e r) = .next t ∧
      q.RetiredAlone t (c - q.cycle + 2) ∧ t.readReg rd = v ∧ (∀ x, x ≠ rd → t.readReg x = q.readReg x) ∧
      (∀ x, t.mem.read x = q.mem.read x) ∧ t.events = q.events ++
        [⟨r.seq, r.pc, r.op, .wrote rd v, { r.timing with wb := some c, commit := some (c + 1) }⟩] := by
  subst hrd
  have hbus := step_broadcast (h.counting hl _) hn ha hp hready hv
  set s := ((q.counting (q.rat.assign r.dest (.rob q.rob.head))).busOf false r v).clocked (c + 1) unitsFree
  have hs : s.LastFetched := ((h.counting hl _).busOf r v).clocked ..
  have hsized : s.Sized := ⟨h.sized.legal, h.sized.rob, h.sized.tables, h.sized.btb⟩
  have hrat : ∀ x, (s.withStation k n e.left).rat.lookup x =
      if x = r.dest then .rob s.rob.head else .arf := fun x => by
    change (q.rat.assign r.dest (.rob q.rob.head)).lookup x = _
    rw [lookup_assign, h.rat]
    rfl
  obtain ⟨t, ht, hlast, hregs, hevents⟩ := writer_retires (s := s.withStation k n e.left)
    (r := { r.broadcastAt c v with done := true }) (hs.withStation hn rfl)
    (hsized.of_shapeKept (robKept_modifyStation ..).toShapeKept) ha.inFlight rfl hkind rfl
    (h.tail_counting (q.rat.assign r.dest (.rob q.rob.head))) hrat
  have hregs' : ∀ x, t.readReg x = if x = r.dest then v else q.readReg x := fun x => by
    rw [hregs]
    cases x <;> rfl
  refine ⟨t, ?_, hlast.retiredAlone ?_ rfl rfl rfl rfl rfl, by rw [hregs', if_pos rfl],
    fun x hx => by rw [hregs', if_neg hx], fun x => by rw [hlast.mem]; rfl, hevents⟩
  · rw [run_succ_of_step hbus]
    exact (run_succ_of_step ht 0).trans rfl
  · change c + 1 + 1 = _
    omega

end LoneLoad

/-- Settles O25: issue, address phase, memory phase, broadcast and retirement, one after the other. -/
theorem loneLoad : Obligations.LoneLoad := by
  intro q rt rb off hi h hl
  obtain ⟨n, hn, hissue⟩ := h.issue_writer (f := issueForm (.ld rt rb off)) (k := .ls) rfl rfl rfl
    (h.resolveOperand_reg _ rb) rfl
  set s := q.counting (q.rat.assign rt (.rob q.rob.head))
  set e := newStation (issueForm (.ld rt rb off)) q.rob.head (.resolved (q.readReg rb)) (.resolved 0) (q.station .ls n)
  set r := newRobEntry (issueForm (.ld rt rb off)) q (q.robAt q.rob.head)
  have hs : s.LastFetched := h.counting hl _
  have ha : s.Aboard e r := ⟨rfl, rfl, rfl, rfl, rfl⟩
  obtain ⟨l, hlat⟩ : ∃ l, q.cfg.exLat.ls = l + 1 := ⟨_, (Nat.sub_add_cancel (h.sized.latency_pos .ls)).symm⟩
  obtain ⟨m, hmem⟩ : ∃ m, q.cfg.memLat = m + 1 := ⟨_, (Nat.sub_add_cancel h.sized.memLat_pos).symm⟩
  set c := q.cycle + 1
  have hfirst := h.step_issue hl hi hn hissue ha rfl rfl
  have haddress := run_address hs hn ha rfl rfl rfl (c := c) (before_now _) hlat
  set e₁ := loadAddressed (q.readReg rb + sext64 off) (e.executing 0)
  set r₁ := (r.startedAt c).endedAt (c + l)
  have ha₁ : s.Aboard e₁ r₁ := ⟨rfl, rfl, rfl, rfl, rfl⟩
  have haddress' : Host.Core.run Sys2Proof.core (l + 1) ((s.clocked c unitsFree).carrying .ls n e r) =
      .next ((s.clocked (c + l + 1) unitsFree).carrying .ls n e₁ r₁) := haddress
  have hmemory := run_memory hs hn ha₁ rfl rfl (c + l + 1) hmem
  obtain ⟨t, hrun, hret, hrd, hregs, hcells, hevents⟩ := h.result_retires hl hn
    (e := e₁.loaded (q.mem.read (q.readReg rb + sext64 off)))
    (r := (r₁.memStartedAt (c + l + 1)).memEndedAt (c + l + 1 + m)) (c := c + l + 1 + m + 1)
    ⟨rfl, rfl, rfl, rfl, rfl⟩ rfl (before_now _) rfl rfl rfl (by omega)
  rw [hlat, hmem]
  refine ⟨_, t, exec_eq_issue _ q, ?_, ?_, hrd, hregs, hcells, ?_⟩
  · rw [show l + 1 + (m + 1) + 3 = (l + 1 + (m + 1 + 2)) + 1 by omega, run_succ_of_step hfirst,
      run_add_of_run haddress', run_add_of_run hmemory]
    exact hrun
  · rwa [show l + 1 + (m + 1) + 3 = c + l + 1 + m + 1 - q.cycle + 2 by omega]
  · rw [hevents, show q.cycle + (l + 1) = c + l by omega, show c + l + (m + 1) = c + l + 1 + m by omega]
    rfl

end Sys2Proof.Machine

/-! ### The commit transaction of the one store in the engine (43_load_store.md R336 to R338) -/

namespace Sys2Proof.Machine

/-- The same engine with data memory `m`. -/
def State.withMem (s : State) (m : Memory) : State := { s with mem := m }

/-- The engine `s` in cycle `c` with its units free and the port held for the store at the head, with `m` cycles to
go. -/
def State.storing (s : State) (c m : Nat) : State := (s.withPort ⟨.commit, m, false⟩).clocked c unitsFree

theorem State.LastFetched.withMem {s : State} (h : s.LastFetched) (m : Memory) : (s.withMem m).LastFetched :=
  ⟨⟨h.noFault, h.head, h.entries, h.stations, h.port, h.cdb⟩, h.legal, h.idle, h.count⟩

theorem markDone_of_done {r : RobEntry} (h : r.done = true) : markDone r = r := by
  unfold markDone
  split
  · rw [← h]
  · rfl

section Transaction

variable {s : State} {n : Nat} {e : RsEntry} {r : RobEntry}

/-- A store that has its address waits for commit (43_load_store.md R323). -/
theorem visit_storeDone (hn : n < (s.table .ls).length) (hh : s.rob.head < s.rob.entries.length) (ha : s.Seated e r)
    (hp : e.phase = .storeDone) : visit .ls n (s.carrying .ls n e r) = s.carrying .ls n e r := by
  simp [visit, own_station_carrying hn, ha.busy, ha.dest, head_carrying hh, ha.inFlight, hp]

/-- The store takes the port for `m + 1` cycles (43_load_store.md R336). -/
theorem commit_start_carrying (h : s.LastFetched) (ha : s.Seated e r) (hd : r.done = true) (hk : r.kind = .store)
    (c : Nat) {m : Nat} (hlat : s.cfg.memLat = m + 1) : commit ((s.clocked c unitsFree).carrying .ls n e r) =
      if m = 0 then storeFinish ((s.storing c m).carrying .ls n e (r.memStartedAt c))
      else (s.storing c m).carrying .ls n e (r.memStartedAt c) := by
  set a := (s.clocked c unitsFree).carrying .ls n e r
  have hhead : a.robAt a.rob.head = r := head_carrying (s := s.clocked c unitsFree) h.head
  have hport : a.port.owner = .none := congrArg Port.owner h.port
  have hcount : a.rob.count ≠ 0 := by
    change s.rob.count ≠ 0
    simp [h.count]
  have hm : a.cfg.memLat - 1 = m := by
    change s.cfg.memLat - 1 = m
    omega
  have hbegun : storeBegun a = (s.storing c m).carrying .ls n e (r.memStartedAt c) := by
    have hp : { a.port with owner := .commit, remaining := a.cfg.memLat - 1 } = (⟨.commit, m, false⟩ : Port) := by
      rw [hm, show a.port = ⟨.none, 0, false⟩ from h.port]
    rw [storeBegun, hp]
    exact carrying_modifyTiming (k := .ls) (n := n) (e := e) (r := r) (s.storing c m) _
  rw [commit_eq_commitHead (by simp [hport]) hcount (by rw [hhead, ha.inFlight]),
    commitHead_of_store (by rw [hhead, hd]) (by rw [hhead, hk]), if_pos hport, storeCommitStart_eq, hbegun]
  rfl

/-- A later cycle of the transaction (43_load_store.md R337). -/
theorem commit_count_carrying (s : State) (n c m : Nat) (e : RsEntry) (r : RobEntry) :
    commit ((s.storing c (m + 1)).carrying .ls n e r) =
      if m = 0 then storeFinish ((s.storing c m).carrying .ls n e r) else (s.storing c m).carrying .ls n e r := by
  rw [commit_of_commit_owner rfl, storeCommitStep_eq]
  rfl

/-- A transaction from a cycle that leaves `m` more to go, the first or a later one, to the store's retirement. -/
theorem run_transaction_from (h : s.LastFetched) (hn : n < (s.table .ls).length) (ha : s.Seated e r)
    (hp : e.phase = .storeDone) (hd : r.done = true) (m : Nat) {c : Nat} {P : Port} {r₀ : RobEntry}
    (ha₀ : s.Seated e r₀) (hcommit : commit (((s.withPort P).clocked c unitsFree).carrying .ls n e r₀) =
      if m = 0 then storeFinish ((s.storing c m).carrying .ls n e r) else (s.storing c m).carrying .ls n e r) :
    Host.Core.run Sys2Proof.core (m + 1) (((s.withPort P).clocked c unitsFree).carrying .ls n e r₀) =
      .next (boundary (retire (stored ((s.storing (c + m) 0).carrying .ls n e r)))) := by
  induction m generalizing c P r₀ with
  | zero =>
    have hvisit := visit_storeDone (s := (s.withPort P).clocked c unitsFree) hn h.head
      ⟨ha₀.busy, ha₀.dest, ha₀.inFlight⟩ hp
    have hbusy : (((s.storing c 0).carrying .ls n e r).robAt
        ((s.storing c 0).carrying .ls n e r).rob.head).busy = true :=
      (congrArg RobEntry.busy (head_carrying (s := s.storing c 0) h.head)).trans ha.inFlight
    rw [if_pos rfl, storeFinish_eq, if_pos hbusy] at hcommit
    rw [run_succ_of_step (h.step_of_visit_of_commit hn ha₀ ha₀ hvisit (fun hready => by simp [hp] at hready) hcommit
      (by rw [retire_fault, stored_fault]; exact h.noFault))]
    rfl
  | succ m ih =>
    have hvisit := visit_storeDone (s := (s.withPort P).clocked c unitsFree) hn h.head
      ⟨ha₀.busy, ha₀.dest, ha₀.inFlight⟩ hp
    rw [if_neg (Nat.succ_ne_zero m)] at hcommit
    have hstep := h.step_of_visit_of_commit hn ha₀ ha₀ hvisit (fun hready => by simp [hp] at hready) hcommit
      h.noFault
    have hend : boundary ((s.storing c (m + 1)).carrying .ls n e r) = (s.storing (c + 1) (m + 1)).carrying .ls n e r :=
      (boundary_withPort_carrying h.toVacant c unitsFree ⟨.commit, m + 1, false⟩).trans
        (by rw [markDone_of_done hd]; rfl)
    rw [hend] at hstep
    rw [run_succ_of_step hstep, State.storing, ih ha (commit_count_carrying s n (c + 1) m e r),
      show c + 1 + m = c + (m + 1) by omega]

/-- The transaction of the one store in the engine, from cycle `c` on (43_load_store.md R336 to R338). -/
theorem run_transaction (h : s.LastFetched) (hn : n < (s.table .ls).length) (ha : s.Seated e r)
    (hp : e.phase = .storeDone) (hd : r.done = true) (hk : r.kind = .store) (c : Nat) {m : Nat}
    (hlat : s.cfg.memLat = m + 1) :
    Host.Core.run Sys2Proof.core (m + 1) ((s.clocked c unitsFree).carrying .ls n e r) =
      .next (boundary (retire (stored ((s.storing (c + m) 0).carrying .ls n e (r.memStartedAt c))))) :=
  run_transaction_from (P := s.port) (r := r.memStartedAt c) h hn ⟨ha.busy, ha.dest, ha.inFlight⟩ hp hd m ha
    (commit_start_carrying h ha hd hk c hlat)

/-! #### The last cycle -/

theorem map_modify_const {α : Type} {f : α → α} {l : List α} (h : ∀ x ∈ l, f x = x) (i : Nat) (a : α) :
    (l.modify i (fun _ => a)).map f = l.modify i (fun _ => f a) := by
  have hfix : l.map f = l := (List.map_congr_left (g := id) h).trans (List.map_id _)
  refine List.ext_getElem? fun j => ?_
  have hj : (l[j]?).map f = l[j]? := by rw [← List.getElem?_map, hfix]
  rw [List.getElem?_map, List.getElem?_modify, List.getElem?_modify]
  split
  · cases l[j]? <;> rfl
  · simpa using hj

/-- The one store in the engine leaves its table (43_load_store.md R338). -/
theorem leaveTable_carrying (h : s.Vacant) (hd : e.dest = s.rob.head) :
    (s.carrying .ls n e r).modifyTable .ls (List.map (leaveTable s.rob.head)) = s.carrying .ls n e.left r := by
  have hfix : ∀ x ∈ s.rs.ls, leaveTable s.rob.head x = x := fun x hx => by
    obtain ⟨m, -, rfl⟩ := mem_table.1 (show x ∈ s.table .ls from hx)
    unfold leaveTable
    split
    · rw [← h.stations .ls m]
    · rfl
  have hls : (s.rs.ls.modify n (fun _ => e)).map (leaveTable s.rob.head) = s.rs.ls.modify n (fun _ => e.left) := by
    rw [map_modify_const hfix, leaveTable, if_pos hd]
    rfl
  have hrs : (s.rs.modify .ls (fun tbl => tbl.modify n (fun _ => e))).modify .ls (List.map (leaveTable s.rob.head)) =
      s.rs.modify .ls (fun tbl => tbl.modify n (fun _ => e.left)) := congrArg (fun l => { s.rs with ls := l }) hls
  exact congrArg (fun rs => ({ s.withHead r with rs := rs } : State)) hrs

/-- The last cycle of the transaction writes the cell, gives the port back and takes the store out of its station
(43_load_store.md R338). -/
theorem stored_carrying (h : s.Vacant) (hd : e.dest = s.rob.head) (c : Nat) :
    stored ((s.storing c 0).carrying .ls n e r) = (((s.clocked c unitsFree).withMem
      (s.mem.write r.stAddr r.stData)).carrying .ls n e.left (r.memEndedAt c)).withPort ⟨.commit, 0, true⟩ := by
  have hhead : ((s.storing c 0).carrying .ls n e r).robAt s.rob.head = r := head_carrying (s := s.storing c 0) h.head
  set w := (s.clocked c unitsFree).withMem (s.mem.write r.stAddr r.stData)
  have hstored : stored ((s.storing c 0).carrying .ls n e r) = (((w.carrying .ls n e r).modifyTiming w.rob.head
      (fun t => { t with memEnd := some c })).modifyTable .ls (List.map (leaveTable w.rob.head))).withPort
        ⟨.commit, 0, true⟩ := by
    simp only [stored]
    rw [show ((s.storing c 0).carrying .ls n e r).rob.head = s.rob.head from rfl, hhead]
    rfl
  have hw : w.Vacant := ⟨h.noFault, h.head, h.entries, h.stations, h.port, h.cdb⟩
  rw [hstored, carrying_modifyTiming, leaveTable_carrying hw hd]
  rfl

/-- The end of the cycle frees the port that the last cycle of a transaction has marked (40_engine_cycle.md R260). -/
theorem boundary_retire_withPort {w : State} {P : Port} (h : P.settle = w.port.settle) :
    boundary (retire (w.withPort P)) = boundary (retire w) := by
  change (boundary (retire w)).withPort P.settle = _
  rw [h]
  rfl

/-- The retirement of the one store in the engine (43_load_store.md R338, 40_engine_cycle.md R248, R249). -/
theorem store_retires (h : s.LastFetched) (hs : s.Sized) (hn : n < (s.table .ls).length) (ha : s.Seated e r)
    (hk : r.kind = .store) (htail : s.rob.tail = (s.rob.head + 1) % s.cfg.robSize) (hrat : ∀ x, s.rat.lookup x = .arf)
    (c : Nat) {t : State} (ht : t = boundary (retire (stored ((s.storing c 0).carrying .ls n e r)))) :
    ((s.clocked c unitsFree).withMem (s.mem.write r.stAddr r.stData)).LastRetired t ∧
      (∀ x, t.readReg x = s.readReg x) ∧ t.events = s.events ++
        [⟨r.seq, r.pc, r.op, .stored r.stAddr r.stData, { r.timing with memEnd := some c, commit := some c }⟩] := by
  set w := (s.clocked c unitsFree).withMem (s.mem.write r.stAddr r.stData)
  have hw : w.LastFetched := (h.clocked c unitsFree).withMem _
  have hsized : w.Sized := ⟨hs.legal, hs.rob, hs.tables, hs.btb⟩
  have hport : (⟨.commit, 0, true⟩ : Port).settle = (w.carrying .ls n e.left (r.memEndedAt c)).port.settle := by
    rw [show (w.carrying .ls n e.left (r.memEndedAt c)).port = ⟨.none, 0, false⟩ from hw.port]
    rfl
  rw [stored_carrying h.toVacant ha.dest, boundary_retire_withPort hport] at ht
  obtain ⟨hlast, hevents⟩ := lastRetired_of_retire (s := w.withStation .ls n e.left) (r := r.memEndedAt c)
    (intRegs := s.intRegs) (fpRegs := s.fpRegs) (rat := s.rat) (hw.withStation hn rfl)
    (hsized.of_shapeKept (robKept_modifyStation ..).toShapeKept) ha.inFlight rfl htail hrat
    (w := w.carrying .ls n e.left (r.memEndedAt c)) rfl
  subst ht
  refine ⟨⟨hlast.quiet, hlast.cycle, hlast.nextSeq, hlast.pc, hlast.cfg, hlast.prog, hlast.btb, hlast.mem⟩,
    fun x => (readReg_boundary_retire _ x).trans (by cases x <;> rfl), ?_⟩
  rw [hevents]
  simp only [commitEvent, eventEffect, RobEntry.memEndedAt, hk]
  rfl

end Transaction

end Sys2Proof.Machine

/-! ### A store alone, from issue to commit -/

namespace Sys2Proof.Machine

/-- The issue of a store into the quiet engine. -/
theorem State.Quiet.issue_store {q : State} (h : q.Quiet) {f : IssueForm} {k : FuClass} (hcls : f.op.fuClass = some k)
    (hkind : f.op.kind = .store) (hdest : f.dest = none) {a b : Word}
    (hj : resolveOperand (allocateRob f q) f.j = .slot (.resolved a))
    (hk : resolveOperand (allocateRob f q) f.k = .slot (.resolved b)) :
    ∃ n, n < (q.table k).length ∧ issue f q = (q.counting q.rat).carrying k n
      (newStation f q.rob.head (.resolved a) (.resolved b) (q.station k n)) (newRobEntry f q (q.robAt q.rob.head)) := by
  obtain ⟨n, hn, heq⟩ := issue_of_store (h.gatesOpen k) hcls hkind hdest hj hk
  refine ⟨n, ((freeStation_eq_some q k n).1 hn).1, ?_⟩
  rw [heq, modifyStation_eq_withStation, h.tail]
  exact congrArg (State.withStation · k n _) (h.allocateRob_eq f q.rat)

/-- Settles O26: issue, address phase and commit transaction, one after the other. -/
theorem loneStore : Obligations.LoneStore := by
  intro q rt rb off hi h hwf hl
  obtain ⟨n, hn, hissue⟩ := h.issue_store (f := issueForm (.sd rt rb off)) (k := .ls) rfl rfl rfl
    (h.resolveOperand_reg _ rb) (h.resolveOperand_reg _ rt)
  set s := q.counting q.rat
  set e := newStation (issueForm (.sd rt rb off)) q.rob.head (.resolved (q.readReg rb)) (.resolved (q.readReg rt))
    (q.station .ls n)
  set r := newRobEntry (issueForm (.sd rt rb off)) q (q.robAt q.rob.head)
  have hs : s.LastFetched := h.counting hl _
  have ha : s.Aboard e r := ⟨rfl, rfl, rfl, rfl, rfl⟩
  obtain ⟨l, hlat⟩ : ∃ l, q.cfg.exLat.ls = l + 1 := ⟨_, (Nat.sub_add_cancel (h.sized.latency_pos .ls)).symm⟩
  obtain ⟨m, hmem⟩ : ∃ m, q.cfg.memLat = m + 1 := ⟨_, (Nat.sub_add_cancel h.sized.memLat_pos).symm⟩
  set c := q.cycle + 1
  set addr := q.readReg rb + sext64 off
  have hfirst := h.step_issue hl hi hn hissue ha rfl rfl
  have haddress := run_address hs hn ha rfl rfl rfl (c := c) (before_now _) hlat
  set e₁ := storeAddressed addr (e.executing 0)
  set r₁ : RobEntry := { (r.startedAt c).endedAt (c + l) with
    stAddr := addr, stData := q.readReg rt, complete := true, done := true }
  have haddress' : Host.Core.run Sys2Proof.core (l + 1) ((s.clocked c unitsFree).carrying .ls n e r) =
      .next ((s.clocked (c + l + 1) unitsFree).carrying .ls n e₁ r₁) := haddress
  have hrun := run_transaction hs hn (e := e₁) (r := r₁) ⟨rfl, rfl, rfl⟩ rfl rfl rfl (c + l + 1) hmem
  obtain ⟨hlast, hregs, hevents⟩ := store_retires hs (h.sized_counting q.rat) hn (e := e₁)
    (r := r₁.memStartedAt (c + l + 1)) ⟨rfl, rfl, rfl⟩ rfl (h.tail_counting q.rat) h.rat (c + l + 1 + m) rfl
  have hread := read_write hwf addr (q.readReg rt)
  rw [hlat, hmem]
  refine ⟨_, _, exec_eq_issue _ q, ?_, hlast.retiredAlone ?_ rfl rfl rfl rfl rfl, ?_, fun a hne => ?_,
    fun x => ?_, ?_⟩
  · rw [show l + 1 + (m + 1) + 1 = (l + 1 + (m + 1)) + 1 by omega, run_succ_of_step hfirst, run_add_of_run haddress']
    exact hrun
  · change c + l + 1 + m + 1 = _
    omega
  · rw [hlast.mem]
    exact (hread addr).trans (if_pos rfl)
  · rw [hlast.mem]
    exact (hread a).trans (if_neg hne)
  · rw [hregs]
    cases x <;> rfl
  · rw [hevents, show q.cycle + (l + 1) = c + l by omega, show c + l + (m + 1) = c + l + 1 + m by omega]
    rfl

end Sys2Proof.Machine

/-! ## The tables of a squash (44_branch_recovery.md R375)

`State.Squashed` says what a run of `squashTable` leaves when every station's tag is live; nothing else of the invariant
is needed for it. -/

namespace Sys2Proof.Machine

/-- How many units the instructions of table `k` younger than sequence id `n` hold. -/
def State.youngerUnits (s : State) (n : Nat) (k : FuClass) : Nat :=
  (s.table k).countP (fun e => s.younger n e && decide (e.phase = .executing))

/-- An instruction of table `k` younger than sequence id `n` is in its memory access. -/
def State.youngerAccess (s : State) (n : Nat) (k : FuClass) : Bool :=
  (s.table k).any (fun e => s.younger n e && decide (e.phase = .memAccess))

/-- `t` is `s` with the instructions younger than sequence id `n` out of the tables `ks`. -/
structure State.Squashed (s t : State) (n : Nat) (ks : List FuClass) : Prop where
  frame : t = { s with rs := t.rs, pools := t.pools, port := { s.port with release := t.port.release } }
  table : ∀ c, t.table c = if c ∈ ks then (s.table c).map (s.dropYounger n) else s.table c
  units : ∀ c, t.pools.get? c = (s.pools.get? c).map (fun p =>
    { p with release := p.release + if c ∈ ks then s.youngerUnits n c else 0 })
  release : t.port.release = (s.port.release || ks.any (s.youngerAccess n))

/-- The state after every table has been squashed, with the ROB still to be truncated. -/
def squashedTables (n : Nat) (s : State) : State := foldUnlessFaulted (squashTable n) tableOrder s

section SquashTables

variable {s t : State} {n : Nat} {k : FuClass} {ks : List FuClass}

theorem table_squashedTable (c : FuClass) : (squashedTable n k s).table c =
    if c = k then (s.table c).map (s.dropYounger n) else s.table c := by
  split
  · next hc => subst hc; exact table_modifyTable_same _ _ _
  · next hc => exact table_modifyTable_other _ _ hc

theorem get?_pools_squashedTable (c : FuClass) : (squashedTable n k s).pools.get? c = (s.pools.get? c).map (fun p =>
    { p with release := p.release + if c = k then s.youngerUnits n c else 0 }) := by
  have hpools : (squashedTable n k s).pools = s.pools.modify k (fun p => { p with
      release := p.release + ((s.table k).filter (s.younger n)).countP fun e => decide (e.phase = .executing) }) := rfl
  rw [hpools, get?_modify_pools]
  by_cases hc : c = k
  · subst hc
    simp [State.youngerUnits, List.countP_filter, Bool.and_comm]
  · simp [hc]

theorem release_squashedTable : (squashedTable n k s).port.release = (s.port.release || s.youngerAccess n k) := by
  simp [squashedTable, State.youngerAccess, List.any_filter]

theorem State.Squashed.refl (s : State) (n : Nat) : s.Squashed s n [] where
  frame := rfl
  table c := by simp
  units c := by simp
  release := by simp

/-- Squashing one more table first. -/
theorem State.Squashed.cons (h : (squashedTable n k s).Squashed t n ks) (hk : k ∉ ks) : s.Squashed t n (k :: ks) := by
  have hother : ∀ c, c ≠ k → (squashedTable n k s).table c = s.table c := fun c hc => by
    rw [table_squashedTable, if_neg hc]
  have hunits : ∀ c, c ≠ k → (squashedTable n k s).youngerUnits n c = s.youngerUnits n c := fun c hc => by
    rw [State.youngerUnits, hother c hc]
    rfl
  have haccess : ∀ c, c ≠ k → (squashedTable n k s).youngerAccess n c = s.youngerAccess n c := fun c hc => by
    rw [State.youngerAccess, hother c hc]
    rfl
  refine ⟨h.frame, fun c => ?_, fun c => ?_, ?_⟩
  · rw [h.table, table_squashedTable]
    by_cases hc : c = k
    · simp [hc, hk]
    · simp only [hc, if_false, List.mem_cons, false_or]
      rfl
  · rw [h.units, get?_pools_squashedTable, Option.map_map]
    by_cases hc : c = k
    · simp [hc, hk, Function.comp_def]
    · simp [hc, hunits c hc, Function.comp_def]
  · have hany : ks.any ((squashedTable n k s).youngerAccess n) = ks.any (s.youngerAccess n) := by
      refine Bool.eq_iff_iff.2 ?_
      rw [List.any_eq_true, List.any_eq_true]
      exact exists_congr fun c => and_congr_right fun hc => by rw [haccess c fun hck => hk (hck ▸ hc)]
    rw [h.release, release_squashedTable, hany, List.any_cons, Bool.or_assoc]

theorem State.StationsInFlight.danglingStation (h : s.StationsInFlight) (k : FuClass) : s.danglingStation k = none :=
  (danglingStation_eq_none s k).2 (h k)

theorem State.StationsInFlight.squashedTable (h : s.StationsInFlight) (n : Nat) (k : FuClass) :
    (squashedTable n k s).StationsInFlight := by
  intro c i hb
  obtain ⟨heq, hsb, -⟩ := station_of_busy_squashedTable hb
  rw [heq]
  exact h c i hsb

theorem foldUnlessFaulted_squashTable (hf : s.fault = none) (hs : s.StationsInFlight) (hks : ks.Nodup) (n : Nat) :
    s.Squashed (foldUnlessFaulted (squashTable n) ks s) n ks := by
  induction ks generalizing s with
  | nil => exact .refl s n
  | cons k ks ih =>
    obtain ⟨hk, hks⟩ := List.nodup_cons.1 hks
    rw [foldUnlessFaulted_cons, unlessFaulted_of_none _ hf, squashTable_eq n (hs.danglingStation k)]
    exact (ih (s := squashedTable n k s) hf (hs.squashedTable n k) hks).cons hk

theorem squashedTables_squashed (hf : s.fault = none) (hs : s.StationsInFlight) (n : Nat) :
    s.Squashed (squashedTables n s) n tableOrder :=
  foldUnlessFaulted_squashTable hf hs (by decide) n

theorem State.Squashed.station (h : s.Squashed t n tableOrder) (c : FuClass) (m : Nat) :
    t.station c m = s.dropYounger n (s.station c m) := by
  unfold State.station
  rw [h.table, if_pos (mem_tableOrder c), List.getElem?_map]
  cases (s.table c)[m]? <;> rfl

theorem State.Squashed.fault (h : s.Squashed t n ks) : t.fault = s.fault := by rw [h.frame]

theorem State.Squashed.cdb (h : s.Squashed t n ks) : t.cdb = s.cdb := by rw [h.frame]

theorem State.Squashed.btb (h : s.Squashed t n ks) : t.btb = s.btb := by rw [h.frame]

theorem State.Squashed.robAt (h : s.Squashed t n ks) (u : Nat) : t.robAt u = s.robAt u := by rw [h.frame]; rfl

theorem busy_dropYounger (e : RsEntry) :
    (s.dropYounger n e).busy = true ↔ e.busy = true ∧ (s.robAt e.dest).seq ≤ n := by
  cases hb : e.busy <;> simp [State.dropYounger, State.younger, hb]

theorem State.youngerAccess_iff : s.youngerAccess n k = true ↔
    ∃ m, (s.station k m).busy = true ∧ n < s.stationSeq k m ∧ (s.station k m).phase = .memAccess := by
  simp only [State.youngerAccess, List.any_eq_true, Bool.and_eq_true, State.younger, decide_eq_true_eq]
  constructor
  · rintro ⟨e, he, ⟨hb, hlt⟩, hp⟩
    obtain ⟨m, -, rfl⟩ := mem_table.1 he
    exact ⟨m, hb, hlt, hp⟩
  · rintro ⟨m, hb, hlt, hp⟩
    exact ⟨_, mem_table.2 ⟨m, lt_length_of_station_busy hb, rfl⟩, ⟨hb, hlt⟩, hp⟩

end SquashTables

/-! ### The whole squash -/

theorem freeRobFrom_eq (t m : Nat) (s : State) : freeRobFrom t m s = { s with rob := (freeRobFrom t m s).rob } := by
  induction m generalizing t s with
  | zero => rfl
  | succ m ih => exact (ih _ _).trans rfl

/-- Truncation and purge touch the ROB and the CDB alone. -/
theorem purgeCdb_truncateRob_eq (b n : Nat) (s : State) : purgeCdb n (truncateRob b s) =
    { s with rob := (truncateRob b s).rob, cdb := (purgeCdb n s).cdb } := by
  have htrunc : truncateRob b s = { s with rob := (truncateRob b s).rob } := by
    unfold truncateRob
    dsimp only
    rw [freeRobFrom_eq]
  have hcdb : (truncateRob b s).cdb = s.cdb := by rw [htrunc]
  unfold purgeCdb
  rw [hcdb]
  split <;> (rw [htrunc])

/-- Without a dead tag a squash runs to its end (44_branch_recovery.md R375). -/
theorem squash_eq {s : State} (hf : s.fault = none) (hs : s.StationsInFlight) (b : Nat) : squash b s =
    purgeCdb (s.robAt b).seq (truncateRob b (squashedTables (s.robAt b).seq s)) :=
  unlessFaulted_of_none (fun t => purgeCdb (s.robAt b).seq (truncateRob b t))
    ((squashedTables_squashed hf hs (s.robAt b).seq).fault.trans hf)

/-- Settles O35: pools and port are those the squash of the tables leaves. -/
theorem squashGivesBackUnitsAndPort : Obligations.SquashGivesBackUnitsAndPort := by
  intro s b hf hs
  have hsq := squashedTables_squashed hf hs (s.robAt b).seq
  rw [squash_eq hf hs, purgeCdb_truncateRob_eq]
  refine ⟨fun c p hp => ?_, ?_, by rw [hsq.frame], by rw [hsq.frame]⟩
  · change (squashedTables (s.robAt b).seq s).pools.get? c = _
    rw [hsq.units, hp, if_pos (mem_tableOrder c)]
    rfl
  · change (squashedTables (s.robAt b).seq s).port.release = true ↔ _
    simp only [hsq.release, Bool.or_eq_true, List.any_eq_true, State.youngerAccess_iff, mem_tableOrder, true_and]

end Sys2Proof.Machine

/-! ## Resolution of a branch in flight (44_branch_recovery.md R364 to R378) -/

namespace Sys2Proof.Machine

theorem State.Sized.btbEntries_pos {s : State} (h : s.Sized) : 0 < s.cfg.btbEntries := by
  have hlegal := (Bool.and_eq_true_iff.1 h.legal).1
  simp only [Config.legal, isBtbSize, List.all_cons, List.all_nil, Bool.and_true, id, Bool.and_eq_true,
    List.any_eq_true, beq_iff_eq] at hlegal
  obtain ⟨-, ⟨e, -, he⟩, -⟩ := hlegal
  rw [he]
  exact Nat.two_pow_pos e

/-- Training writes the one entry of `pc` (44_branch_recovery.md R367). -/
theorem trained_of_btb {s t : State} (hs : s.Sized) {pc : Pc} {taken : Bool} {target : Pc}
    (ht : t.btb = (trainBtb pc taken target s).btb) : s.Trained t pc taken target := by
  have hlt : s.btbIndex pc < s.btb.length := by
    rw [hs.btb]
    exact Nat.mod_lt _ hs.btbEntries_pos
  rw [State.Trained, ht, trainBtb_btb]
  exact ⟨List.getElem?_set_self hlt, fun m hm => List.getElem?_set_ne (Ne.symm hm)⟩

theorem branchOutcome_beq (a b : Word) : branchOutcome .beq a b = decide (a = b) := beq_eq_decide a b

theorem branchOutcome_bne (a b : Word) : branchOutcome .bne a b = decide (a ≠ b) := by
  simp [branchOutcome, bneTaken, beq_eq_decide]

theorem mispredicted_iff (e : RobEntry) (taken : Bool) (target : Pc) :
    mispredicted e taken target = true ↔ e.PredictedWrong taken target := by
  simp [mispredicted, RobEntry.PredictedWrong, and_assoc]

theorem resolveBranch_eq (i : Nat) (s : State) : resolveBranch i s =
    if mispredicted (s.robAt (s.station .br i).dest)
        (branchOutcome (s.station .br i).op (s.station .br i).j.val (s.station .br i).k.val)
        (branchTarget (s.robAt (s.station .br i).dest).pc (s.station .br i).imm) then
      unlessFaulted (recover (s.station .br i).dest
        (branchOutcome (s.station .br i).op (s.station .br i).j.val (s.station .br i).k.val)
        (branchTarget (s.robAt (s.station .br i).dest).pc (s.station .br i).imm))
        (squash (s.station .br i).dest (resolved i s))
    else resolved i s := rfl

section BranchAt

variable {s : State} {i n : Nat} {a b : Word} (h : s.BranchAt i n a b)
include h

theorem State.BranchAt.robAt_dest : s.robAt (s.station .br i).dest = s.nthEntry n := by rw [h.dest]; rfl

theorem State.BranchAt.outcome :
    branchOutcome (s.station .br i).op (s.station .br i).j.val (s.station .br i).k.val = s.outcomeAt i a b := by
  rw [h.j, h.k, State.outcomeAt]
  obtain hop | hop := h.op <;> rw [hop]
  · exact branchOutcome_beq a b
  · exact branchOutcome_bne a b

theorem State.BranchAt.target :
    branchTarget (s.robAt (s.station .br i).dest).pc (s.station .br i).imm = s.targetAt i n := by
  rw [h.robAt_dest]
  rfl

/-- The branch leaves its station and its ROB entry is complete, whatever was predicted (44_branch_recovery.md
R368). -/
theorem State.BranchAt.visited :
    s.Visited (resolved i s) .br i (s.station .br i).left { s.nthEntry n with complete := true } := by
  rw [← h.robAt_dest]
  exact (State.Visited.refl s .br i).resolved h.busy (h.inFlight .br i h.busy)

theorem State.BranchAt.trained :
    s.Trained (resolved i s) (s.nthEntry n).pc (s.outcomeAt i a b) (s.targetAt i n) := by
  refine trained_of_btb h.sized ?_
  rw [← h.robAt_dest, ← h.outcome, ← h.target]
  rfl

theorem State.BranchAt.robAt_resolved (u : Nat) : (resolved i s).robAt u =
    if u = s.tagAt n then { s.nthEntry n with complete := true } else s.robAt u := by
  rw [h.visited.entries, h.dest]

/-- A branch predicted right only resolves (44_branch_recovery.md R371). -/
theorem State.BranchAt.resolveBranch_of_right
    (hp : ¬ (s.nthEntry n).PredictedWrong (s.outcomeAt i a b) (s.targetAt i n)) :
    resolveBranch i s = resolved i s := by
  rw [resolveBranch_eq, h.outcome, h.target, h.robAt_dest]
  exact if_neg fun hm => hp ((mispredicted_iff ..).1 hm)

end BranchAt

/-- Settles O34: the branch only resolves. -/
theorem predictedBranchKeepsGoing : Obligations.PredictedBranchKeepsGoing := by
  intro s i n a b h hp
  have hv := h.visited
  rw [h.resolveBranch_of_right hp]
  refine ⟨h.trained, h.noFault, rfl, rfl, rfl, ?_, fun u hu => ?_, rfl, ?_, fun c m hcm => ?_, rfl, rfl, rfl,
    rfl, rfl, rfl, rfl, rfl, .of_eq rfl rfl rfl, rfl⟩
  · rw [h.robAt_resolved, if_pos rfl]
  · rw [h.robAt_resolved, if_neg hu]
  · rw [hv.station]
    rfl
  · rw [hv.stations, if_neg fun hcon => hcm (by rw [hcon.1, hcon.2])]

/-! ### Misprediction -/

/-- Truncation, purge and restore, field by field; pc, RAT and sequence counter come from the branch's own entry
(44_branch_recovery.md R375 to R378). -/
theorem recovered_eq_update (b n : Nat) (taken : Bool) (target : Pc) (s : State) : recovered b n taken target s =
    { s with
      rob := (truncateRob b s).rob
      cdb := (purgeCdb n s).cdb
      rat := ((recovered b n taken target s).robAt b).ckpt
      pc := if taken then target else ((recovered b n taken target s).robAt b).pc + 1
      nextSeq := ((recovered b n taken target s).robAt b).seq + 1 } := by
  conv_lhs => rw [recovered, recover, purgeCdb_truncateRob_eq]
  rw [robAt_recovered]
  rfl

/-- A broadcast that is still pending after the purge is not younger (44_branch_recovery.md R375). -/
theorem valid_of_purgeCdb {n : Nat} {s : State} (h : (purgeCdb n s).cdb.valid = true) :
    s.cdb.valid = true ∧ s.cdb.seq ≤ n := by
  unfold purgeCdb at h
  split at h
  · cases h
  · next hkeep =>
    simp only [h, Bool.true_and, decide_eq_true_eq] at hkeep
    exact ⟨h, by omega⟩

/-- The state after BR entry `i`, the `n`-th oldest instruction, has resolved and every table has been squashed for
it. -/
def State.squashedAt (s : State) (i n : Nat) : State := squashedTables (s.nthEntry n).seq (resolved i s)

/-- The state after the recovery of BR entry `i`, the `n`-th oldest instruction. -/
def State.recoveredAt (s : State) (i n : Nat) (taken : Bool) (target : Pc) : State :=
  recovered (s.tagAt n) (s.nthEntry n).seq taken target (s.squashedAt i n)

section Misprediction

variable {s : State} {i n : Nat} {a b : Word} (h : s.BranchAt i n a b)
include h

theorem State.BranchAt.stationsInFlight_resolved : (resolved i s).StationsInFlight := by
  intro c m hb
  rw [h.visited.kept.busy]
  rw [h.visited.stations] at hb ⊢
  split at hb
  · cases hb
  · next hcm => rw [if_neg hcm]; exact h.inFlight c m hb

theorem State.BranchAt.squashed : (resolved i s).Squashed (s.squashedAt i n) (s.nthEntry n).seq tableOrder :=
  squashedTables_squashed (s := resolved i s) h.noFault h.stationsInFlight_resolved _

omit h in
theorem robKept_squashedAt (s : State) (i n : Nat) : s.RobKept (s.squashedAt i n) :=
  (robKept_resolved i s).trans (robKept_squashTables ..)

/-- A branch predicted wrong resolves, squashes and recovers; no tag is dead (44_branch_recovery.md R370 to R378). -/
theorem State.BranchAt.resolveBranch_of_wrong
    (hp : (s.nthEntry n).PredictedWrong (s.outcomeAt i a b) (s.targetAt i n)) :
    resolveBranch i s = s.recoveredAt i n (s.outcomeAt i a b) (s.targetAt i n) := by
  have hseq : ((resolved i s).robAt (s.tagAt n)).seq = (s.nthEntry n).seq := by rw [h.robAt_resolved, if_pos rfl]
  have hsq := squash_recover_of_noFault (s.tagAt n) (s.outcomeAt i a b) (s.targetAt i n) (s := resolved i s)
    (by rw [hseq]; exact h.squashed.fault.trans h.noFault)
  rw [resolveBranch_eq, h.outcome, h.target, h.robAt_dest, if_pos ((mispredicted_iff ..).2 hp), h.dest, hsq, hseq]
  rfl

/-- What recovery leaves at each place of the ring: the older instructions, the branch, complete, and free entries
(44_branch_recovery.md R375). -/
theorem State.BranchAt.robAt_recoveredAt {m : Nat} (hm : m < s.cfg.robSize) (taken : Bool) (target : Pc) :
    (s.recoveredAt i n taken target).robAt (s.tagAt m) =
      if m < n then s.nthEntry m else if m = n then { s.nthEntry n with complete := true }
      else { s.nthEntry m with busy := false } := by
  have hkept := robKept_squashedAt s i n
  have htag := hkept.orderSame.tagAt
  have hentry : (s.squashedAt i n).robAt (s.tagAt m) =
      if m = n then { s.nthEntry n with complete := true } else s.nthEntry m := by
    rw [h.squashed.robAt, h.robAt_resolved]
    have hn : n < s.cfg.robSize := h.place.trans_le h.ring.count
    by_cases hmn : m = n
    · rw [hmn, if_pos rfl, if_pos rfl]
    · rw [if_neg fun hcon => hmn (h.ring.tagAt_inj hm hn hcon), if_neg hmn]
      rfl
  have htrunc := robAt_truncateRob (h.ring.of_orderSame hkept.orderSame) (h.sized.of_shapeKept hkept.toShapeKept)
    (hkept.count ▸ h.place) (hkept.cfg ▸ hm)
  rw [State.nthEntry, htag, htag, hentry, hkept.count] at htrunc
  rw [State.recoveredAt, robAt_recovered, htrunc]
  have hbusy := h.ring.busy m hm
  by_cases hlt : m < n
  · simp [hlt, hlt.ne, hlt.not_gt]
  by_cases heq : m = n
  · simp [heq]
  · simp only [hlt, heq, if_false]
    split
    · rfl
    · next hfree =>
      rw [decide_eq_false (by omega)] at hbusy
      rw [← hbusy]

theorem State.BranchAt.branch_recoveredAt (taken : Bool) (target : Pc) :
    (s.recoveredAt i n taken target).robAt (s.tagAt n) = { s.nthEntry n with complete := true } := by
  rw [h.robAt_recoveredAt (h.place.trans_le h.ring.count), if_neg (lt_irrefl n), if_pos rfl]

/-- RAT, pc and sequence counter are restored from the branch's entry (44_branch_recovery.md R376 to R378). -/
theorem State.BranchAt.recoveredAt_eq (taken : Bool) (target : Pc) : s.recoveredAt i n taken target =
    { s.squashedAt i n with
      rob := (truncateRob (s.tagAt n) (s.squashedAt i n)).rob
      cdb := (purgeCdb (s.nthEntry n).seq (s.squashedAt i n)).cdb
      rat := (s.nthEntry n).ckpt
      pc := if taken then target else (s.nthEntry n).pc + 1
      nextSeq := (s.nthEntry n).seq + 1 } := by
  have hbranch := h.branch_recoveredAt taken target
  rw [State.recoveredAt] at hbranch ⊢
  rw [recovered_eq_update, hbranch]

theorem State.BranchAt.count_truncateRob : (truncateRob (s.tagAt n) (s.squashedAt i n)).rob.count = n + 1 := by
  have hsame := (robKept_squashedAt s i n).orderSame
  rw [← hsame.tagAt]
  exact truncateRob_count (h.ring.of_orderSame hsame) (hsame.count ▸ h.place)

/-- A station after recovery: free when it is the branch's own or its instruction is younger. -/
theorem State.BranchAt.station_recoveredAt (taken : Bool) (target : Pc) (c : FuClass) (m : Nat) :
    (s.recoveredAt i n taken target).station c m =
      s.dropYounger (s.nthEntry n).seq (if c = .br ∧ m = i then (s.station .br i).left else s.station c m) := by
  have hseq := fun u => ((robKept_resolved i s).entry u).seq
  rw [h.recoveredAt_eq]
  change (s.squashedAt i n).station c m = _
  rw [h.squashed.station, h.visited.stations]
  simp only [State.dropYounger, State.younger, hseq]

end Misprediction

/-- Settles O33: what recovery leaves, structure by structure. -/
theorem mispredictedBranchRecovers : Obligations.MispredictedBranchRecovers := by
  intro s i n a b h hp
  have hcore := coreKept_resolveBranch i s
  rw [h.resolveBranch_of_wrong hp] at hcore ⊢
  have hentry := fun m hm => h.robAt_recoveredAt (m := m) hm (s.outcomeAt i a b) (s.targetAt i n)
  have hstation := h.station_recoveredAt (s.outcomeAt i a b) (s.targetAt i n)
  have heq := h.recoveredAt_eq (s.outcomeAt i a b) (s.targetAt i n)
  have hn : n < s.cfg.robSize := h.place.trans_le h.ring.count
  refine ⟨?_, congrArg State.pc heq, congrArg State.rat heq, congrArg State.nextSeq heq, ?_, hcore.head, ?_, ?_,
    h.branch_recoveredAt _ _, fun m hm => ?_, fun m hnm hm => ?_, fun c m => ?_, fun c m hb => ?_, fun hb => ?_,
    .of_eq hcore.intRegs hcore.fpRegs hcore.mem, hcore.events⟩
  · rw [heq]
    exact h.squashed.fault.trans h.noFault
  · rw [State.Trained, (congrArg State.btb heq).trans h.squashed.btb]
    exact h.trained
  · rw [heq]
    exact h.count_truncateRob
  · rw [heq, ← (robKept_squashedAt s i n).cfg]
    rfl
  · rw [hentry m (hm.trans hn), if_pos hm]
  · rw [hentry m hm, if_neg hnm.not_gt, if_neg hnm.ne']
  · rw [hstation, busy_dropYounger]
    by_cases hcm : c = .br ∧ m = i
    · simp [hcm, RsEntry.left]
    · simp [hcm, State.stationSeq]
  · rw [hstation] at hb ⊢
    obtain ⟨hsame, hbusy, -⟩ := dropYounger_of_busy hb
    rw [hsame]
    split at hbusy
    · cases hbusy
    · next hcm => rw [if_neg hcm]
  · rw [heq] at hb
    have hcdb : (s.squashedAt i n).cdb = s.cdb := h.squashed.cdb
    rw [← hcdb]
    exact valid_of_purgeCdb hb

end Sys2Proof.Machine

/-! ## Issue of the branches (44_branch_recovery.md R360 to R363) -/

namespace Sys2Proof.Machine

/-- The entry of a branch predicted as `p` while the RAT was `rat` (44_branch_recovery.md R362, R363). -/
def RobEntry.predicted (p : Bool × Pc) (rat : AliasTable) (e : RobEntry) : RobEntry :=
  { e with predTaken := p.1, predTarget := p.2, ckpt := rat }

theorem predict_not_taken {s : State} {pc : Pc} (h : (predict s pc).1 = false) : (predict s pc).2 = pc + 1 := by
  unfold predict at h ⊢
  dsimp only at h ⊢
  split at h
  · cases h
  · next hb => rw [if_neg hb]

section Issue

variable {s : State} {f : IssueForm} {c : FuClass} {j k : Slot}

theorem snapshotBranch_of_branch {op : Op} (h : op.kind = .branch) (t : Nat) (s : State) :
    snapshotBranch op t s = s.modifyRob t (RobEntry.predicted (predict s s.pc) s.rat) :=
  if_pos h

/-- A branch goes where it was predicted to go (40_engine_cycle.md R219). -/
theorem chooseNextPc_of_predicted {op : Op} (h : op.kind = .branch) {t : Nat} {rat : AliasTable}
    (ht : t < s.rob.entries.length) :
    chooseNextPc op t (s.modifyRob t (RobEntry.predicted (predict s s.pc) rat)) =
      { s.modifyRob t (RobEntry.predicted (predict s s.pc) rat) with pc := (predict s s.pc).2 } := by
  unfold chooseNextPc
  rw [robAt_modifyRob_same _ _ ht]
  cases htaken : (predict s s.pc).1
  · simp [RobEntry.predicted, htaken, predict_not_taken htaken]
  · simp [RobEntry.predicted, h, htaken]

/-- A branch allocates, waits in its station and records prediction and RAT; nothing is renamed
(40_engine_cycle.md R211, R215, R216, R219, 44_branch_recovery.md R362, R363). -/
theorem issue_of_branch (hs : s.Sized) (hr : s.RingOk) (hg : s.GatesOpen c) (hcls : f.op.fuClass = some c)
    (hkind : f.op.kind = .branch) (hdest : f.dest = none) (hj : resolveOperand (allocateRob f s) f.j = .slot j)
    (hk : resolveOperand (allocateRob f s) f.k = .slot k) : ∃ n, s.freeStation c = some n ∧
      issue f s = { ((allocateRob f s).modifyStation c n (newStation f s.rob.tail j k)).modifyRob s.rob.tail
        (RobEntry.predicted (predict s s.pc) s.rat) with pc := (predict s s.pc).2 } := by
  obtain ⟨n, hn, heq⟩ := issue_of_gatesOpen hg hcls hj hk
  have hlt : s.rob.tail < ((allocateRob f s).modifyStation c n (newStation f s.rob.tail j k)).rob.entries.length :=
    (shapeKept_allocateRob f s).robLength ▸ hr.tail_lt hs
  refine ⟨n, hn, ?_⟩
  rw [heq, hdest, snapshotBranch_of_branch hkind]
  exact chooseNextPc_of_predicted hkind hlt

/-- The issue of a branch, as the statements speak of it. -/
theorem branch_issues (hs : s.Sized) (hr : s.RingOk) (hg : s.GatesOpen c) (hcls : f.op.fuClass = some c)
    (hkind : f.op.kind = .branch) (hdest : f.dest = none) (hj : resolveOperand (allocateRob f s) f.j = .slot j)
    (hk : resolveOperand (allocateRob f s) f.k = .slot k) :
    s.OnlyIssued (issue f s) ∧ s.RobAllocated (issue f s) f.op .branch false ∧
      s.StationFilled (issue f s) c f.op s.rob.tail j k f.imm ∧ (issue f s).rat = s.rat ∧
      ((issue f s).robAt s.rob.tail).ckpt = s.rat ∧
      ((issue f s).robAt s.rob.tail).predTaken = (predict s s.pc).1 ∧
      ((issue f s).robAt s.rob.tail).predTarget = (predict s s.pc).2 ∧ (issue f s).pc = (predict s s.pc).2 := by
  obtain ⟨n, hn, heq⟩ := issue_of_branch hs hr hg hcls hkind hdest hj hk
  have hent : ∀ u, (issue f s).robAt u = if u = s.rob.tail then
      (newRobEntry f s (s.robAt u)).predicted (predict s s.pc) s.rat else s.robAt u := fun u => by
    have hu : (issue f s).robAt u =
        ((allocateRob f s).modifyRob s.rob.tail (RobEntry.predicted (predict s s.pc) s.rat)).robAt u := by rw [heq]; rfl
    have hlt := hr.tail_lt hs
    rw [hu]
    by_cases hut : u = s.rob.tail
    · subst hut
      rw [robAt_modifyRob_same _ _ ((shapeKept_allocateRob f s).robLength ▸ hlt), robAt_allocateRob,
        if_pos ⟨rfl, hlt⟩, if_pos rfl]
    · rw [robAt_modifyRob_other _ _ hut, robAt_allocateRob, if_neg fun hcon => hut hcon.1, if_neg hut]
  have hnew := hent s.rob.tail
  rw [if_pos rfl] at hnew
  refine ⟨?_, ?_, stationFilled_modifyStation hn fun _ _ => by rw [heq]; rfl, by rw [heq]; rfl, by rw [hnew]; rfl,
    by rw [hnew]; rfl, by rw [hnew]; rfl, by rw [heq]⟩
  · rw [heq]
    exact ⟨.of_eq rfl rfl rfl, rfl, rfl, rfl, rfl, rfl, rfl, rfl, rfl, rfl⟩
  · exact ⟨by rw [hnew]; rfl, by rw [hnew]; rfl, by rw [hnew]; exact hkind, by rw [hnew]; rfl, by rw [hnew]; rfl,
      by rw [hnew]; rfl, by rw [hnew]; rfl, by rw [hnew]; rfl, fun u hu => by rw [hent, if_neg hu], by rw [heq]; rfl,
      by rw [heq]; rfl, by rw [heq]; rfl, by rw [heq]; rfl⟩

end Issue

/-- The prediction is what the BTB entry of `pc` says (44_branch_recovery.md R362). -/
theorem predict_eq {s : State} {pc : Pc} {b : BtbEntry} (hb : s.btb[pc.toNat % s.cfg.btbEntries]? = some b) :
    predict s pc = (b.valid && b.taken, if b.valid && b.taken then b.target else pc + 1) := by
  have hat : s.btbAt pc = b := by rw [State.btbAt, State.btbIndex, hb]; rfl
  rw [predict, hat]
  cases b.valid && b.taken <;> rfl

/-- Settles O19: the two branches are the instructions of kind `BRANCH`, and `pc` has a BTB entry because the BTB has
`BTB_ENTRIES` of them. -/
theorem branchesIssue : Obligations.BranchesIssue := by
  intro s rs rt off i j k hmem hs hr hg hj hk
  have hlt : s.pc.toNat % s.cfg.btbEntries < s.btb.length := by
    rw [hs.btb]
    exact Nat.mod_lt _ hs.btbEntries_pos
  have hb := List.getElem?_eq_getElem hlt
  have hj' := hj.resolveOperand hr hg.1
  have hk' := hk.resolveOperand hr hg.1
  simp only [List.mem_cons, List.not_mem_nil, or_false] at hmem
  refine ⟨issue (issueForm i) s, _, hb, exec_eq_issue i s, ?_⟩
  obtain rfl | rfl := hmem
  · have hissue := branch_issues (f := issueForm (.beq rs rt off)) hs hr hg rfl rfl rfl (hj' _) (hk' _)
    rwa [predict_eq hb] at hissue
  · have hissue := branch_issues (f := issueForm (.bne rs rt off)) hs hr hg rfl rfl rfl (hj' _) (hk' _)
    rwa [predict_eq hb] at hissue

end Sys2Proof.Machine

/-! ## A branch that is the youngest instruction in flight (44_branch_recovery.md R360, R361, R364 to R371) -/

namespace Sys2Proof.Machine

/-- `t` is what resolving the youngest branch of `s`, predicted not taken, leaves: nothing is younger, so the
misprediction only changes `pc`. -/
structure State.LastResolved (s t : State) (i n : Nat) (taken : Bool) (target : Pc) : Prop where
  noFault : t.fault = none
  pc : t.pc = if taken then target else (s.nthEntry n).pc + 1
  rat : t.rat = s.rat
  nextSeq : t.nextSeq = s.nextSeq
  count : t.rob.count = s.rob.count
  trained : s.Trained t (s.nthEntry n).pc taken target
  entry : t.robAt (s.tagAt n) = { s.nthEntry n with complete := true }
  stations : ∀ c m, (t.station c m).busy = true → (s.station c m).busy = true ∧ (c, m) ≠ (.br, i)

theorem predictedWrong_of_not_predicted {e : RobEntry} (h : e.predTaken = false) (taken : Bool) (target : Pc) :
    e.PredictedWrong taken target ↔ taken = true := by
  cases taken <;> simp [RobEntry.PredictedWrong, h]

theorem State.BranchAt.owner_resolveBranch {s : State} {i n : Nat} {a b : Word} (h : s.BranchAt i n a b) :
    (resolveBranch i s).port.owner = s.port.owner := by
  by_cases hp : (s.nthEntry n).PredictedWrong (s.outcomeAt i a b) (s.targetAt i n)
  · rw [h.resolveBranch_of_wrong hp, h.recoveredAt_eq, h.squashed.frame]
    rfl
  · rw [h.resolveBranch_of_right hp]
    rfl

/-- The youngest branch, predicted not taken: right or wrong, its resolution leaves the same but for `pc`. -/
theorem State.BranchAt.lastResolved {s : State} {i n : Nat} {a b : Word} (h : s.BranchAt i n a b)
    (hlast : s.rob.count = n + 1) (hpred : (s.nthEntry n).predTaken = false) (hpc : s.pc = (s.nthEntry n).pc + 1)
    (hckpt : (s.nthEntry n).ckpt = s.rat) :
    s.LastResolved (resolveBranch i s) i n (s.outcomeAt i a b) (s.targetAt i n) := by
  have hwrong := predictedWrong_of_not_predicted hpred (s.outcomeAt i a b) (s.targetAt i n)
  by_cases hp : (s.nthEntry n).PredictedWrong (s.outcomeAt i a b) (s.targetAt i n)
  · obtain ⟨hfault, hpc', hrat, hseq, htrained, -, hcount, -, hentry, -, -, hstations, -⟩ :=
      mispredictedBranchRecovers s i n a b h hp
    have hring := h.ring.seq n h.place
    exact ⟨hfault, hpc', hrat.trans hckpt, by omega, by omega, htrained, hentry,
      fun c m hb => ⟨((hstations c m).1 hb).1, ((hstations c m).1 hb).2.1⟩⟩
  · obtain ⟨htrained, hfault, hpc', hrat, hseq, hentry, -, hcount, hfree, hstations, -⟩ :=
      predictedBranchKeepsGoing s i n a b h hp
    refine ⟨hfault, ?_, hrat, hseq, hcount, htrained, hentry, fun c m hb => ?_⟩
    · rw [hpc', if_neg (mt hwrong.2 hp), hpc]
    · have hcm : (c, m) ≠ (.br, i) := by
        rintro ⟨⟩
        exact absurd (hfree.symm.trans hb) (by simp)
      exact ⟨hstations c m hcm ▸ hb, hcm⟩

/-! ### A branch alone in the engine -/

/-- `e` and `r` are the two entries of a branch on operands `a` and `b`, predicted not taken, that is alone in the
engine `s`. -/
structure State.LoneBranch (s : State) (n : Nat) (e : RsEntry) (r : RobEntry) (a b : Word) : Prop
    extends s.LastFetched, s.Aboard e r where
  sized : s.Sized
  room : n < (s.table .br).length
  ring : (s.carrying .br n e r).RingOk
  op : e.op = .beq ∨ e.op = .bne
  j : e.j = .resolved a
  k : e.k = .resolved b
  notPredicted : r.predTaken = false
  fetchedNext : s.pc = r.pc + 1
  ckpt : r.ckpt = s.rat

section LoneBranch

variable {s : State} {n : Nat} {e : RsEntry} {r : RobEntry} {a b : Word}

theorem robAt_carrying {k : FuClass} (hh : s.rob.head < s.rob.entries.length) (u : Nat) :
    (s.carrying k n e r).robAt u = if u = s.rob.head then r else s.robAt u :=
  robAt_withHead (s := s.withStation k n e) hh r u

/-- Station and progress of the one instruction do not matter to the ring. -/
theorem ringOk_carrying {k : FuClass} {e' : RsEntry} {r' : RobEntry} (h : (s.carrying k n e r).RingOk)
    (hh : s.rob.head < s.rob.entries.length) (hb : r'.busy = r.busy) (hs : r'.seq = r.seq) :
    (s.carrying k n e' r').RingOk := by
  have hsame : (s.carrying k n e r).OrderSame (s.carrying k n e' r') := by
    refine ⟨rfl, rfl, rfl, rfl, rfl, rfl, fun u => ?_, fun u => ?_⟩ <;>
      rw [robAt_carrying hh, robAt_carrying hh] <;> split
    · exact hb
    · rfl
    · exact hs
    · rfl
  exact h.of_orderSame hsame

theorem State.LoneBranch.clocked (h : s.LoneBranch n e r a b) (c : Nat) (p : PoolMap Pool) :
    (s.clocked c p).LoneBranch n e r a b :=
  { h with
    toLastFetched := h.toLastFetched.clocked c p
    sized := ⟨h.legal, h.sized.rob, h.sized.tables, h.sized.btb⟩
    ring := ⟨h.ring.head, h.ring.count, h.ring.tail, h.ring.busy, h.ring.seq⟩ }

theorem State.LoneBranch.executing (h : s.LoneBranch n e r a b) (m : Nat) : s.LoneBranch n (e.executing m) r a b :=
  { h with ring := ringOk_carrying h.ring h.head rfl rfl }

theorem State.LoneBranch.startedAt (h : s.LoneBranch n e r a b) (c : Nat) : s.LoneBranch n e (r.startedAt c) a b :=
  { h with ring := ringOk_carrying h.ring h.head rfl rfl }

theorem State.LoneBranch.endedAt (h : s.LoneBranch n e r a b) (c : Nat) : s.LoneBranch n e (r.endedAt c) a b :=
  { h with ring := ringOk_carrying h.ring h.head rfl rfl }

theorem State.LoneBranch.nthEntry_zero (h : s.LoneBranch n e r a b) : (s.carrying .br n e r).nthEntry 0 = r := by
  rw [State.nthEntry, h.ring.tagAt_zero]
  exact head_carrying h.head

theorem State.LoneBranch.branchAt (h : s.LoneBranch n e r a b) : (s.carrying .br n e r).BranchAt n 0 a b := by
  have hown : (s.carrying .br n e r).station .br n = e := own_station_carrying h.room
  refine ⟨?_, h.ring, h.noFault, fun c m hb => ?_, by rw [hown, h.busy], ?_,
    by rw [hown, h.dest, h.ring.tagAt_zero]; rfl, by rw [hown]; exact h.op, by rw [hown, h.j], by rw [hown, h.k]⟩
  · exact h.sized.of_shapeKept
      { (robKept_modifyStation s .br n fun _ => e).toShapeKept with
        robLength := by simp [State.carrying, State.withHead, State.withStation] }
  · obtain ⟨rfl, rfl⟩ := (h.busy_carrying h.room h.busy c m).1 hb
    rw [hown, h.dest]
    exact (congrArg RobEntry.busy (head_carrying h.head)).trans h.inFlight
  · change 0 < s.rob.count
    rw [h.count]
    exact Nat.one_pos

theorem State.LoneBranch.lastResolved (h : s.LoneBranch n e r a b) :
    (s.carrying .br n e r).LastResolved (resolveBranch n (s.carrying .br n e r)) n 0
      (branchOutcome e.op a b) (branchTarget r.pc e.imm) := by
  have hentry := h.nthEntry_zero
  have hown : (s.carrying .br n e r).station .br n = e := own_station_carrying h.room
  have hres := h.branchAt.lastResolved h.count (by rw [hentry, h.notPredicted]) (by rw [hentry]; exact h.fetchedNext)
    (by rw [hentry]; exact h.ckpt)
  rw [← h.branchAt.outcome, ← h.branchAt.target, h.branchAt.robAt_dest, hentry, hown, h.j, h.k] at hres
  exact hres

theorem State.LoneBranch.free_resolved (h : s.LoneBranch n e r a b) (c : FuClass) (m : Nat) :
    ((resolveBranch n (s.carrying .br n e r)).station c m).busy = false := by
  by_contra hb
  obtain ⟨hbusy, hne⟩ := h.lastResolved.stations c m (by simpa using hb)
  obtain ⟨rfl, rfl⟩ := (h.busy_carrying h.room h.busy c m).1 hbusy
  exact hne rfl

theorem State.LoneBranch.head_resolved (h : s.LoneBranch n e r a b) :
    (resolveBranch n (s.carrying .br n e r)).robAt s.rob.head = { r with complete := true } := by
  have hentry := h.lastResolved.entry
  rw [h.nthEntry_zero, h.ring.tagAt_zero] at hentry
  exact hentry

/-- `t` is `s` a cycle later with its branch, of ROB entry `r`, resolved and done. -/
structure State.ResolvedAlone (s t : State) (r : RobEntry) (taken : Bool) (target : Pc) : Prop where
  noFault : t.fault = none
  pc : t.pc = if taken then target else r.pc + 1
  trained : s.Trained t r.pc taken target
  intRegs : t.intRegs = s.intRegs
  fpRegs : t.fpRegs = s.fpRegs
  mem : t.mem = s.mem
  events : t.events = s.events
  nextSeq : t.nextSeq = s.nextSeq
  cycle : t.cycle = s.cycle + 1
  rat : t.rat = s.rat
  count : t.rob.count = 1
  head : t.rob.head = s.rob.head
  entry : t.robAt s.rob.head = { r with complete := true, done := true }
  stations : ∀ c m, (t.station c m).busy = false

theorem State.LoneBranch.resolvedAlone (h : s.LoneBranch n e r a b) :
    s.ResolvedAlone (boundary (resolveBranch n (s.carrying .br n e r))) r (branchOutcome e.op a b)
      (branchTarget r.pc e.imm) := by
  have hres := h.lastResolved
  have hcore := coreKept_resolveBranch n (s.carrying .br n e r)
  have hhead := h.head_resolved
  have hfree := h.free_resolved
  generalize resolveBranch n (s.carrying .br n e r) = t at hres hcore hhead hfree ⊢
  have hpc := hres.pc
  have htrained := hres.trained
  rw [h.nthEntry_zero] at hpc htrained
  refine ⟨hres.noFault, hpc, htrained, hcore.intRegs, hcore.fpRegs, hcore.mem, hcore.events, hres.nextSeq,
    congrArg (· + 1) hcore.cycle, hres.rat, hres.count.trans h.count, hcore.head, ?_, hfree⟩
  rw [robAt_boundary, hhead]
  simp [markDone, h.inFlight]

/-- The end of a branch's execution is its resolution; the class has no units (40_engine_cycle.md R224, R226). -/
theorem finish_br_carrying (h : s.LoneBranch n e r a b) : finish .br n (s.carrying .br n e r) =
    resolveBranch n (s.carrying .br n e (r.endedAt s.cycle)) := by
  have hfinishing : finishing .br n (s.carrying .br n e r) = s.carrying .br n e (r.endedAt s.cycle) := by
    rw [finishing, own_station_carrying h.room, h.dest]
    exact congrArg (State.releaseUnits · .br 1) (carrying_modifyTiming s _)
  change resolveBranch n (finishing .br n _) = _
  rw [hfinishing]

/-- The cycle in which the branch resolves: nothing is left to broadcast, and the branch is not done before its end
(44_branch_recovery.md R368). -/
theorem step_of_resolution (h : s.LoneBranch n e r a b) {e₀ : RsEntry} {r₀ : RobEntry} (h₀ : s.Aboard e₀ r₀)
    (hvisit : visit .br n (s.carrying .br n e₀ r₀) = resolveBranch n (s.carrying .br n e r)) :
    step (s.carrying .br n e₀ r₀) = .next (boundary (resolveBranch n (s.carrying .br n e r))) := by
  set t := resolveBranch n (s.carrying .br n e r)
  have hfault : t.fault = none := h.lastResolved.noFault
  have hfree : ∀ c m, (t.station c m).busy = false := h.free_resolved
  have hhead : t.robAt t.rob.head = { r with complete := true } := by
    rw [(coreKept_resolveBranch n (s.carrying .br n e r)).head]
    exact h.head_resolved
  have howner : t.port.owner ≠ .commit := by
    rw [h.branchAt.owner_resolveBranch]
    exact h.owner_ne_commit
  have hcommit : commit t = t :=
    commit_of_not_done howner (by rw [hhead]; exact h.inFlight) (by rw [hhead]; exact h.notDone)
  have hbusy₀ := h.busy_carrying (r := r₀) h.room h₀.busy
  have hown₀ : (s.carrying .br n e₀ r₀).station .br n = e₀ := own_station_carrying h.room
  have hscan : scanTable .br (s.carrying .br n e₀ r₀) = t := by
    refine (scanTable_of_only (s := s.carrying .br n e₀ r₀) (fun m => ?_) ?_ h.noFault).trans hvisit
    · rw [hbusy₀, eq_self, true_and]
    · rw [hown₀, h₀.dest]
      exact (congrArg RobEntry.busy (head_carrying h.head)).trans h₀.inFlight
  have hexec : execute (s.carrying .br n e₀ r₀) = t :=
    foldUnlessFaulted_of_only (by decide) (mem_tableOrder .br) h.noFault hscan fun c hc =>
      ⟨scanTable_of_free fun m => by simpa [hc] using hbusy₀ c m, scanTable_of_free (hfree c)⟩
  rw [step_of_idle (s := s.carrying .br n e₀ r₀) h.legal h.noFault h.idle,
    restOfCycle_of_stages (s := s.carrying .br n e₀ r₀) h.noFault hexec hfault (writeBack_of_free hfree)
      hfault hcommit hfault]

/-- The execution of a branch from a visit that leaves `m` more cycles to go: the start's or a later one. -/
theorem run_branch_from (h : s.LoneBranch n e r a b) (m : Nat) {c : Nat} {e₀ : RsEntry} {r₀ : RobEntry}
    (h₀ : s.Aboard e₀ r₀) (hvisit : visit .br n ((s.clocked c unitsFree).carrying .br n e₀ r₀) =
      if m = 0 then finish .br n ((s.clocked c unitsFree).carrying .br n (e.executing m) r)
      else (s.clocked c unitsFree).carrying .br n (e.executing m) r) :
    Host.Core.run Sys2Proof.core (m + 1) ((s.clocked c unitsFree).carrying .br n e₀ r₀) =
      .next (boundary (resolveBranch n
        ((s.clocked (c + m) unitsFree).carrying .br n (e.executing 0) (r.endedAt (c + m))))) := by
  induction m generalizing c e₀ r₀ with
  | zero =>
    have hlast := (h.executing 0).clocked c unitsFree
    rw [if_pos rfl, finish_br_carrying hlast] at hvisit
    rw [run_succ_of_step (step_of_resolution (hlast.endedAt c) (h₀.clocked ..) hvisit)]
    rfl
  | succ m ih =>
    rw [if_neg (Nat.succ_ne_zero m)] at hvisit
    rw [run_succ_of_step (h.step_of_visit h.room h₀ (h.toAboard.executing (m + 1)) hvisit
      (settle_unitTaken .br) fun hp => by cases hp)]
    have hnext := visit_executing (s := s.clocked (c + 1) unitsFree) h.room h.head
      ((h.toAboard.executing (m + 1)).clocked ..) rfl
    rw [executingStep_carrying (s := s.clocked (c + 1) unitsFree) h.room] at hnext
    refine (ih (h.toAboard.executing (m + 1)) hnext).trans ?_
    rw [show c + 1 + m = c + (m + 1) by omega]

/-- The execution of a branch that starts in cycle `c` (40_engine_cycle.md R222 to R226, 44_branch_recovery.md
R369). -/
theorem run_branch (h : s.LoneBranch n e r a b) (hp : e.phase = .waiting) {c : Nat}
    (hissue : before r.timing.issue c = true) {l : Nat} (hlat : Config.latency s.cfg .br = l + 1) :
    ∃ t, Host.Core.run Sys2Proof.core (l + 1) ((s.clocked c unitsFree).carrying .br n e r) = .next t ∧
      (s.clocked (c + l) unitsFree).ResolvedAlone t ((r.startedAt c).endedAt (c + l)) (branchOutcome e.op a b)
        (branchTarget r.pc e.imm) := by
  have hstart : ((s.clocked c unitsFree).carrying .br n e r).canStart .br n = true := by
    rw [canStart_carrying (s := s.clocked c unitsFree) h.room h.head (h.toAboard.clocked ..), h.j, h.k,
      unitFree_of_unitsFree (s := s.clocked c unitsFree) h.legal rfl .br,
      show (s.clocked c unitsFree).cycle = c from rfl, hissue]
    rfl
  have hvisit := visit_waiting (s := s.clocked c unitsFree) h.room h.head (h.toAboard.clocked ..) hp
  rw [if_pos hstart, start_carrying h.room h.toAboard c unitsFree hlat] at hvisit
  exact ⟨_, run_branch_from (h.startedAt c) l h.toAboard hvisit,
    ((((h.startedAt c).endedAt (c + l)).executing 0).clocked (c + l) unitsFree).resolvedAlone⟩

end LoneBranch

/-! ### The branches alone, from issue to resolution -/

section Quiet

variable {q : State}

/-- The issue of a branch predicted not taken into the quiet engine. -/
theorem State.Quiet.issue_branch (h : q.Quiet) {f : IssueForm} {k : FuClass} (hcls : f.op.fuClass = some k)
    (hkind : f.op.kind = .branch) (hdest : f.dest = none) {a b : Word}
    (hj : resolveOperand (allocateRob f q) f.j = .slot (.resolved a))
    (hk : resolveOperand (allocateRob f q) f.k = .slot (.resolved b)) (hp : predict q q.pc = (false, q.pc + 1)) :
    ∃ n, n < (q.table k).length ∧ issue f q = (q.counting q.rat).carrying k n
      (newStation f q.rob.head (.resolved a) (.resolved b) (q.station k n))
      ((newRobEntry f q (q.robAt q.rob.head)).predicted (false, q.pc + 1) q.rat) := by
  obtain ⟨n, hn, heq⟩ := issue_of_branch h.sized h.ringOk (h.gatesOpen k) hcls hkind hdest hj hk
  refine ⟨n, ((freeStation_eq_some q k n).1 hn).1, ?_⟩
  have hentry := (congrArg (State.modifyRob · q.rob.head (RobEntry.predicted (false, q.pc + 1) q.rat))
    (h.allocateRob_eq f q.rat)).trans (withHead_modifyRob (q.counting q.rat) _ _)
  rw [heq, modifyStation_eq_withStation, h.tail, hp]
  exact congrArg (State.withStation · k n _) hentry

/-- What the issue of a branch predicted not taken puts into the quiet engine. -/
theorem State.Quiet.issue_loneBranch (h : q.Quiet) {i : Instr} (hl : q.NextIsLast i) {f : IssueForm}
    (hop : f.op = .beq ∨ f.op = .bne) (hdest : f.dest = none) {a b : Word}
    (hj : resolveOperand (allocateRob f q) f.j = .slot (.resolved a))
    (hk : resolveOperand (allocateRob f q) f.k = .slot (.resolved b)) (hp : predict q q.pc = (false, q.pc + 1)) :
    ∃ n e r, issue f q = (q.counting q.rat).carrying .br n e r ∧ (q.counting q.rat).LoneBranch n e r a b ∧
      e.op = f.op ∧ e.imm = f.imm ∧ e.phase = .waiting ∧ r.pc = q.pc ∧ r.kind = .branch ∧
      r.timing = ⟨some q.cycle, none, none, none, none, none, none⟩ := by
  obtain ⟨hcls, hkind⟩ : f.op.fuClass = some .br ∧ f.op.kind = .branch := by
    obtain hop | hop := hop <;> rw [hop] <;> exact ⟨rfl, rfl⟩
  obtain ⟨n, hn, hissue⟩ := h.issue_branch hcls hkind hdest hj hk hp
  have hring := hissue ▸ (issue_dense h.ringOk h.sized f).ring
  exact ⟨n, _, _, hissue,
    { toLastFetched := h.counting hl q.rat, toAboard := ⟨rfl, rfl, rfl, rfl, rfl⟩, sized := h.sized_counting q.rat
      room := hn, ring := hring, op := hop, j := rfl, k := rfl, notPredicted := rfl, fetchedNext := rfl, ckpt := rfl },
    rfl, rfl, rfl, rfl, hkind, rfl⟩

end Quiet

theorem branchTarget_sext64 (pc : Pc) (off : BitVec 16) :
    branchTarget pc (sext64 off) = pc + 1 + off.signExtend 32 := by
  have hoff : (off.signExtend 64).extractLsb' 0 16 = off := by
    refine BitVec.eq_of_getLsbD_eq fun m hm => ?_
    have hm' : m < 64 := by omega
    simp [BitVec.getElem_signExtend, hm, hm']
  rw [branchTarget, branchDisplacement, sext64, hoff]

/-- Settles O28: issue, execution and resolution, one after the other, for both opcodes and both outcomes. -/
theorem loneBranchResolves : Obligations.LoneBranchResolves := by
  intro q rs rt off i taken hmem hi h hl hbtb
  have hp : predict q q.pc = (false, q.pc + 1) := by
    rw [predict]
    simp only [hbtb]
    rfl
  obtain ⟨hform, hop, htaken⟩ : issueForm i = ⟨i.op, none, .reg rs, .reg rt, sext64 off⟩ ∧
      (i.op = .beq ∨ i.op = .bne) ∧ branchOutcome i.op (q.readReg rs) (q.readReg rt) = taken := by
    simp only [List.mem_cons, Prod.mk.injEq, List.not_mem_nil, or_false] at hmem
    obtain ⟨rfl, rfl⟩ | ⟨rfl, rfl⟩ := hmem
    · exact ⟨rfl, .inl rfl, branchOutcome_beq ..⟩
    · exact ⟨rfl, .inr rfl, branchOutcome_bne ..⟩
  obtain ⟨n, e, r, hissue, hlone, heop, himm, hphase, hpc, hkind, htiming⟩ := h.issue_loneBranch hl
    (f := ⟨i.op, none, .reg rs, .reg rt, sext64 off⟩) hop rfl (h.resolveOperand_reg _ rs)
    (h.resolveOperand_reg _ rt) hp
  rw [← hform] at hissue
  obtain ⟨l, hlat⟩ : ∃ l, max q.cfg.exLat.br 1 = l + 1 :=
    ⟨_, (Nat.sub_add_cancel (h.sized.latency_pos .br)).symm⟩
  have hfirst := h.step_issue hl hi hlone.room hissue hlone.toAboard hphase (by rw [htiming])
  obtain ⟨t, hrun, hres⟩ := run_branch hlone hphase (c := q.cycle + 1) (by rw [htiming]; exact before_now _) hlat
  have hpc' : ((r.startedAt (q.cycle + 1)).endedAt (q.cycle + 1 + l)).pc = q.pc := hpc
  have htiming' : ((r.startedAt (q.cycle + 1)).endedAt (q.cycle + 1 + l)).timing =
      ⟨some q.cycle, some (q.cycle + 1), some (q.cycle + (l + 1)), none, none, none, none⟩ := by
    rw [RobEntry.endedAt, RobEntry.startedAt, htiming, show q.cycle + (l + 1) = q.cycle + 1 + l by omega]
  rw [heop, himm, hpc, htaken, branchTarget_sext64] at hres
  rw [hlat]
  refine ⟨_, t, exec_eq_issue i q, ?_, hpc' ▸ hres.pc, hpc' ▸ hres.trained,
    .of_eq hres.intRegs hres.fpRegs hres.mem, hres.noFault, hres.events, hres.nextSeq, ?_, hres.count, hres.head,
    congrArg RobEntry.done hres.entry, (congrArg RobEntry.kind hres.entry).trans hkind,
    (congrArg RobEntry.timing hres.entry).trans htiming', hres.stations, fun x => ?_⟩
  · rw [run_succ_of_step hfirst]
    exact hrun
  · rw [hres.cycle]
    change q.cycle + 1 + l + 1 = _
    omega
  · rw [hres.rat]
    exact h.rat x

end Sys2Proof.Machine

/-! ## Reasons of invalid words (60_exceptions.md R402) -/

namespace Sys2Proof.Machine

section InvalidReason

variable {op : Op} {w : InstrWord}

theorem checkFiles_eq_invalid {i : Instr} {r : DecodeReason} :
    checkFiles i = .invalid r ↔ ¬ WellFormed i ∧ r = .registerFile := by
  unfold checkFiles
  split
  case isTrue hwf => simp [hwf]
  case isFalse hwf => simp [hwf, eq_comm]

/-- A word with a reserved opcode has neither a format nor operands. -/
theorem no_other_fault_of_reservedOpcode (h : hasReservedOpcode w) : ¬ hasReservedBits w ∧ ¬ hasWrongFile w := by
  unfold hasReservedOpcode at h
  unfold hasReservedBits hasWrongFile
  generalize (w.extractLsb' 28 4).toNat = n at h
  simp only [List.mem_cons, List.not_mem_nil, or_false]
  omega

/-- A word of one of the eleven opcodes is invalid for its reserved bits first, then for its files (30_encoding.md R163,
60_exceptions.md R402). -/
theorem decode_eq_invalid_of_op (h : opField w = op.code) {r : DecodeReason} : decode w = .invalid r ↔
    hasReservedBits w ∧ r = .reservedBits ∨ ¬ hasReservedBits w ∧ hasWrongFile w ∧ r = .registerFile := by
  rw [decode_of_op h, hasReservedBits_iff_of_op h, hasWrongFile_iff_of_op h]
  split
  case isTrue hlow => rw [checkFiles_eq_invalid]; tauto
  case isFalse hlow => rw [Decoded.invalid.injEq, eq_comm]; tauto

/-- Settles O4: a reserved opcode is reported alone, and the words of the eleven opcodes are told apart by their reserved
bits before their files are looked at. -/
theorem invalidReasonIsFirst : Obligations.InvalidReasonIsFirst := by
  intro w
  obtain hres | ⟨op, hop⟩ := opField_cases w
  · have hcase : hasReservedOpcode w := hres
    obtain ⟨hbits, hfile⟩ := no_other_fault_of_reservedOpcode hcase
    simp [decode_of_reserved hres, hcase, hbits, hfile]
  · simp [decode_eq_invalid_of_op hop, not_hasReservedOpcode_of_op hop, and_comm]

end InvalidReason

end Sys2Proof.Machine

/-! ## Faults stop the engine (60_exceptions.md R401, R402) -/

namespace Sys2Proof.Machine

/-- With a fault set every stage after issue is skipped and the clock advances (40_engine_cycle.md R202). -/
theorem restOfCycle_of_fault {s : State} {f : EngineFault} (h : s.fault = some f) :
    restOfCycle s = { s with cycle := s.cycle + 1 } := by
  rw [restOfCycle_eq, executeAndWriteBack, unlessFaulted_of_some _ h, unlessFaulted_of_some _ h,
    unlessFaulted_of_some _ h, endOfCycle_eq, unlessFaulted_of_some _ h]

theorem step_of_fault {s : State} (hl : s.launchLegal = true) {f : EngineFault} (hf : s.fault = some f) :
    step s = .next { s with cycle := s.cycle + 1 } := by
  have hissue : issueStage s = .next s := if_pos (by simp [State.faulted, hf])
  rw [step, if_pos hl, hissue, completeCycle, restOfCycle_of_fault hf]

/-- Fetching an invalid word stops the cycle at once (60_exceptions.md R402). -/
theorem step_of_illegal {s : State} (hl : s.launchLegal = true) (hf : s.fault = none) {w : InstrWord}
    {r : DecodeReason} (hfetch : s.fetch = .illegal w r) :
    step s = .next { s with fault := some (.illegalInstruction s.pc w r), cycle := s.cycle + 1 } := by
  have hissue : issueStage s = .next (raiseIllegal w r s) := by simp [issueStage, State.faulted, hf, hfetch]
  rw [step, if_pos hl, hissue, completeCycle, restOfCycle_of_fault (f := .illegalInstruction s.pc w r) rfl]
  rfl

/-- Settles O10: every stage is skipped. -/
theorem faultedEngineOnlyCounts : Obligations.FaultedEngineOnlyCounts := by
  intro s hl hf
  obtain ⟨f, hf⟩ := Option.ne_none_iff_exists'.1 hf
  exact step_of_fault hl hf

/-- Settles O9: fetch reports the word as illegal, and the fault it raises stops the cycle. -/
theorem illegalWordStopsTheEngine : Obligations.IllegalWordStopsTheEngine := by
  intro s w r hl hf hw hd
  refine step_of_illegal hl hf ?_
  unfold State.fetch
  rw [hw]
  simp only
  rw [hd]

end Sys2Proof.Machine

/-! ## Dead operand tags at issue (60_exceptions.md R404) -/

namespace Sys2Proof.Machine

section DeadOperand

variable {s : State} {f : IssueForm} {c : FuClass} {u : Nat}

theorem resolveReg_of_dead {r : Reg} (hrat : s.rat.lookup r = .rob u) (hdead : (s.robAt u).busy = false) :
    resolveReg s r = .dangling u := by
  unfold resolveReg
  rw [hrat]
  simp [hdead]

/-- A tag that names neither an instruction in flight nor the one just allocated stays dead (40_engine_cycle.md R206). -/
theorem resolveOperand_allocateRob_of_dead {r : Reg} (hrat : s.rat.lookup r = .rob u) (hu : u ≠ s.rob.tail)
    (hdead : (s.robAt u).busy = false) (f : IssueForm) :
    resolveOperand (allocateRob f s) (.reg r) = .dangling u :=
  resolveReg_of_dead hrat (by rw [robAt_allocateRob, if_neg fun hcon => hu hcon.1, hdead])

/-- A live register resolves to some slot after the allocation, also one that names the entry just allocated. -/
theorem State.ResolvesTo.exists_slot {r : Reg} {v : Slot} (h : s.ResolvesTo r v) (f : IssueForm) :
    ∃ x, Machine.resolveOperand (allocateRob f s) (.reg r) = .slot x := by
  change ∃ x, resolveReg (allocateRob f s) r = .slot x
  obtain ⟨hrat, hres⟩ | ⟨u, hrat, hres⟩ := resolveReg_cases (allocateRob f s) r
  · exact ⟨_, hres⟩
  · obtain ⟨hfree, -⟩ | ⟨-, -, hres⟩ | ⟨-, -, hres⟩ := hres
    · obtain ⟨harf, -⟩ | ⟨u', hrob, hb, -⟩ := h
      · exact absurd (harf.symm.trans hrat) (by simp)
      · obtain rfl := RatEntry.rob.inj (hrob.symm.trans hrat)
        rw [robAt_allocateRob] at hfree
        split at hfree
        · cases hfree
        · exact absurd (hb.symm.trans hfree) (by simp)
    · exact ⟨_, hres⟩
    · exact ⟨_, hres⟩

/-- A dead tag stops issue after the allocation, before anything but ROB and sequence counter has changed
(40_engine_cycle.md R206, 60_exceptions.md R404). -/
theorem issue_of_dead (hg : s.GatesOpen c) (hcls : f.op.fuClass = some c)
    (hdead : resolveOperand (allocateRob f s) f.j = .dangling u ∨
      ∃ v, resolveOperand (allocateRob f s) f.j = .slot v ∧ resolveOperand (allocateRob f s) f.k = .dangling u) :
    issue f s = raiseFault (.invariantViolation .issue u) (allocateRob f s) := by
  obtain ⟨hno, -⟩ | ⟨-, hnone, -⟩ | ⟨c', -, -, heq⟩ := issue_cases f s
  · exact absurd ((hg.canIssue hcls).symm.trans hno) (by simp)
  · exact absurd (hcls.symm.trans hnone) (by simp)
  · rw [heq, issueToStation]
    obtain hj | ⟨v, hj, hk⟩ := hdead
    · rw [hj]
    · rw [hj]
      simp only
      rw [hk]

end DeadOperand

/-- Settles O21: in every form the first source is operand `j` and the second is operand `k`. -/
theorem deadOperandTagFaults : Obligations.DeadOperandTagFaults := by
  intro s rd r q imm i c u hsource hg hrat hu hb
  have hdead := resolveOperand_allocateRob_of_dead hrat hu hb (issueForm i)
  have hstop : issue (issueForm i) s = raiseFault (.invariantViolation .issue u) (allocateRob (issueForm i) s) := by
    obtain hfirst | ⟨hsecond, j, hlive⟩ := hsource
    · have hform : i.op.fuClass = some c ∧ (issueForm i).j = .reg r := by
        simp only [List.mem_cons, Prod.mk.injEq, List.not_mem_nil, or_false] at hfirst
        obtain ⟨rfl, rfl⟩ | ⟨rfl, rfl⟩ | ⟨rfl, rfl⟩ | ⟨rfl, rfl⟩ | ⟨rfl, rfl⟩ | ⟨rfl, rfl⟩ | ⟨rfl, rfl⟩ | ⟨rfl, rfl⟩ |
          ⟨rfl, rfl⟩ | ⟨rfl, rfl⟩ := hfirst <;> exact ⟨rfl, rfl⟩
      exact issue_of_dead hg (by rw [issueForm_op, hform.1]) (.inl (by rw [hform.2, hdead]))
    · have hform : i.op.fuClass = some c ∧ (issueForm i).j = .reg q ∧ (issueForm i).k = .reg r := by
        simp only [List.mem_cons, Prod.mk.injEq, List.not_mem_nil, or_false] at hsecond
        obtain ⟨rfl, rfl⟩ | ⟨rfl, rfl⟩ | ⟨rfl, rfl⟩ | ⟨rfl, rfl⟩ | ⟨rfl, rfl⟩ | ⟨rfl, rfl⟩ | ⟨rfl, rfl⟩ | ⟨rfl, rfl⟩ :=
          hsecond <;> exact ⟨rfl, rfl, rfl⟩
      obtain ⟨hcls, hj, hk⟩ := hform
      obtain ⟨v, hv⟩ := hlive.exists_slot (issueForm i)
      exact issue_of_dead hg (by rw [issueForm_op, hcls]) (.inr ⟨v, by rw [hj, hv], by rw [hk, hdead]⟩)
  exact ⟨_, exec_eq_issue i s, by rw [hstop]; rfl, by rw [hstop]; exact .of_eq rfl rfl rfl, by rw [hstop]; rfl⟩

end Sys2Proof.Machine

/-! ## Runs from a launch -/

namespace Sys2Proof.Machine

/-! ### A launch meets the invariant (70_reset_and_hazards.md R430, R434) -/

theorem writeCells_wf (ps : List (Word × Word)) {m : Memory} (h : m.wf = true) : (writeCells ps m).wf = true := by
  induction ps generalizing m with
  | nil => exact h
  | cons p ps ih => exact ih (write_wf h _ _)

section Launch

variable {cfg : Config} {prog : List InstrWord}

theorem blank_sized (hc : cfg.legal = true) (hp : prog.length < 2 ^ 32) : (State.blank cfg prog).Sized where
  legal := Bool.and_eq_true_iff.2 ⟨hc, decide_eq_true hp⟩
  rob := List.length_replicate
  tables k := by simp [State.table, State.blank]
  btb := List.length_replicate

theorem blank_quiet (hc : cfg.legal = true) (hp : prog.length < 2 ^ 32) : (State.blank cfg prog).Quiet where
  sized := blank_sized hc hp
  noFault := rfl
  count := rfl
  head := (blank_sized hc hp).robSize_pos
  tail := rfl
  entries := blank_robAt cfg prog
  stations := blank_station cfg prog
  pools := rfl
  port := rfl
  cdb := rfl
  rat := lookup_allArf

/-- The launch's maps touch registers and memory alone, of which a quiet engine says nothing. -/
theorem launch_quiet (hc : cfg.legal = true) (hp : prog.length < 2 ^ 32) (arfInit : List (Reg × Word))
    (memInit : List (Word × Word)) : (State.launch cfg prog arfInit memInit).Quiet := by
  obtain ⟨ints, fps, hw⟩ := writeRegs_eq arfInit (State.blank cfg prog)
  have h := blank_quiet hc hp
  rw [launch_eq, hw]
  exact ⟨⟨h.sized.legal, h.sized.rob, h.sized.tables, h.sized.btb⟩, h.noFault, h.count, h.head, h.tail, h.entries,
    h.stations, h.pools, h.port, h.cdb, h.rat⟩

/-- Nothing is in flight in a quiet engine, so every clause of the invariant that speaks of instructions is empty. -/
theorem State.Quiet.inv {s : State} (h : s.Quiet) (hm : s.mem.wf = true) : s.Inv where
  sized := h.sized
  ring := h.ringOk
  entries := by
    have hnone : ∀ n, ¬ n < s.rob.count := by simp [h.count]
    exact ⟨fun n hn => absurd hn (hnone n), fun n hn => absurd hn (hnone n), fun n hn => absurd hn (hnone n),
      fun n hn => absurd hn (hnone n)⟩
  rat := ⟨fun r => by rw [h.rat, h.count]; rfl, fun n hn => absurd hn (by simp [h.count])⟩
  stations := by
    have hnone : ∀ k i, ¬ (s.station k i).busy = true := by simp [h.stations]
    exact ⟨fun k i hb => absurd hb (hnone k i), fun k i hb => absurd hb (hnone k i),
      fun k i hb => absurd hb (hnone k i), fun k i _ _ hb => absurd hb (hnone k i),
      fun k i hb => absurd hb (hnone k i), fun k i hb => absurd hb (hnone k i),
      fun n hn => absurd hn (by simp [h.count])⟩
  pools k p n hp _ := by
    have hunits : s.executingCount k = 0 := List.countP_eq_zero.2 fun e he => by
      obtain ⟨i, -, rfl⟩ := mem_table.1 he
      simp [h.stations]
    have hfree : p = ⟨0, 0⟩ := by
      rw [h.pools] at hp
      cases k with
      | fpadd | int | mult | ls => exact (Option.some.inj hp).symm
      | br => cases hp
    rw [hfree, hunits]
    exact ⟨rfl, rfl, Nat.zero_le n⟩
  port := by
    have hport := h.port
    exact ⟨by rw [hport], fun _ => by rw [hport], fun i hi => (by rw [hport] at hi; cases hi),
      fun hc => (by rw [hport] at hc; cases hc), h.cdb⟩
  fault f hf := absurd (h.noFault.symm.trans hf) (by simp)
  mem := hm

theorem launch_inv (hc : cfg.legal = true) (hp : prog.length < 2 ^ 32) (arfInit : List (Reg × Word))
    (memInit : List (Word × Word)) : (State.launch cfg prog arfInit memInit).Inv :=
  (launch_quiet hc hp arfInit memInit).inv (writeCells_wf memInit rfl)

theorem launch_cfg (arfInit : List (Reg × Word)) (memInit : List (Word × Word)) :
    (State.launch cfg prog arfInit memInit).cfg = cfg ∧ (State.launch cfg prog arfInit memInit).prog = prog ∧
      (State.launch cfg prog arfInit memInit).events = [] := by
  obtain ⟨ints, fps, hw⟩ := writeRegs_eq arfInit (State.blank cfg prog)
  rw [launch_eq, hw]
  exact ⟨rfl, rfl, rfl⟩

end Launch

/-! ### Steps of a launched machine -/

/-- From a state with the invariant and no fault a step meets an invalid word, or runs every stage without a fault. -/
theorem State.Inv.step_stops_or_runs {s t : State} (h : s.Inv) (hf : s.fault = none) (ht : step s = .next t) :
    (∃ w r, s.fetch = .illegal w r ∧
      t = { s with fault := some (.illegalInstruction s.pc w r), cycle := s.cycle + 1 }) ∨
    (∃ u, u.Running ∧ t = endOfCycle (commit (executeAndWriteBack u)) ∧
      (u = s ∨ ∃ i, u = issue (issueForm i) s)) := by
  have hs := h.running hf
  have hrun : ∀ u : State, u.Running → restOfCycle u = endOfCycle (commit (executeAndWriteBack u)) := by
    intro u hu
    rw [restOfCycle_eq, unlessFaulted_of_none _ hu.executeAndWriteBack.noFault]
  cases hfetch : s.fetch with
  | illegal w r =>
    rw [step_of_illegal h.sized.legal hf hfetch] at ht
    exact .inl ⟨w, r, rfl, (Host.Outcome.next.inj ht).symm⟩
  | idle =>
    rw [step_of_idle h.sized.legal hf hfetch, hrun s hs] at ht
    exact .inr ⟨s, hs, (Host.Outcome.next.inj ht).symm, .inl rfl⟩
  | instr i =>
    rw [step_of_instr h.sized.legal hf hfetch, hrun _ (hs.issue i)] at ht
    exact .inr ⟨_, hs.issue i, (Host.Outcome.next.inj ht).symm, .inr ⟨i, rfl⟩⟩

/-- A word that decodes is not illegal. -/
theorem fetch_ne_illegal {s : State} (h : progDecodes s.prog) (w : InstrWord) (r : DecodeReason) :
    s.fetch ≠ .illegal w r := by
  unfold State.fetch
  split
  · simp
  · next x hx =>
    obtain ⟨i, hi⟩ := h x (List.mem_of_getElem? hx)
    simp [hi]

/-- No step of a program whose words decode raises a fault (60_exceptions.md R402 to R404). -/
theorem State.Inv.step_noFault {s t : State} (h : s.Inv) (hf : s.fault = none) (hp : progDecodes s.prog)
    (ht : step s = .next t) : t.fault = none := by
  obtain ⟨w, r, hill, -⟩ | ⟨u, hu, rfl, -⟩ := h.step_stops_or_runs hf ht
  · exact absurd hill (fetch_ne_illegal hp w r)
  · have hc : (commit (executeAndWriteBack u)).fault = none := hu.executeAndWriteBack.commit.noFault
    rw [endOfCycle_of_noFault hc]
    exact hc

/-- What every step keeps and allows to go on, a run keeps and reaches: the one induction over whole runs. -/
theorem run_next_of_step (P : State → Prop) (hstep : ∀ s, P s → ∃ t, step s = .next t ∧ P t) (n : Nat) {s : State}
    (h : P s) : ∃ t, Host.Core.run Sys2Proof.core n s = .next t ∧ P t := by
  induction n generalizing s with
  | zero => exact ⟨s, rfl, h⟩
  | succ n ih =>
    obtain ⟨u, hu, hPu⟩ := hstep s h
    rw [run_succ_of_step hu]
    exact ih hPu

/-- Settles O52: the invariant, an empty fault register and the program are kept by every step. -/
theorem launchedRunsNeverFault : Obligations.LaunchedRunsNeverFault := by
  intro cfg prog arfInit memInit n hc hlen hprog
  obtain ⟨-, hp, -⟩ := launch_cfg (cfg := cfg) (prog := prog) arfInit memInit
  obtain ⟨t, ht, -, hf, -⟩ := run_next_of_step (fun s => s.Inv ∧ s.fault = none ∧ s.prog = prog)
    (fun s ⟨hs, hf, hp⟩ => by
      obtain ⟨t, ht, -, -, htp⟩ := everyStepCountsOneCycle s hs.sized.legal
      exact ⟨t, ht, engineInvariantKept s t hs ht, hs.step_noFault hf (hp ▸ hprog) ht, htp.trans hp⟩) n
    ⟨launch_inv hc hlen arfInit memInit, (launch_quiet hc hlen arfInit memInit).noFault, hp⟩
  exact ⟨t, ht, hf⟩

end Sys2Proof.Machine

/-! ## Timing records in flight (10_state.md R48, 60_exceptions.md R421)

`State.Timed` says what the timing record of every instruction in flight holds, next to `State.Running`. A countdown is
tied to its start by the cycle of the next visit, which differs from entry to entry while a table is scanned: `turn k i`
is that cycle for station `(k, i)`, and `due` the one for the store transaction. -/

namespace Sys2Proof.Machine

/-- Execution took `l` cycles and ended before cycle `b`, `m` and `n` are the memory times, and nothing came after. -/
def Timing.Executed (l b : Nat) (m n : Option Nat) (t : Timing) : Prop :=
  ∃ i x y, t = ⟨some i, some x, some y, m, n, none, none⟩ ∧ i < x ∧ y + 1 = x + l ∧ y < b

theorem Timing.Executed.mono {l b b' : Nat} {m n : Option Nat} {t : Timing} (h : t.Executed l b m n) (hb : b ≤ b') :
    t.Executed l b' m n := by
  obtain ⟨i, x, y, ht, hi, hl, hy⟩ := h
  exact ⟨i, x, y, ht, hi, hl, hy.trans_le hb⟩

/-- The cycle before which all that the entry records has happened, when the clock shows `c`: a done entry was complete
at the end of the last cycle (40_engine_cycle.md R260). -/
def RobEntry.settledBefore (c : Nat) (r : RobEntry) : Nat := if r.done then c else c + 1

theorem RobEntry.settledBefore_le (c : Nat) (r : RobEntry) : r.settledBefore c ≤ c + 1 := by
  unfold settledBefore
  split <;> omega

/-- Retirement of the entry in cycle `n` would leave a record as it has to be. -/
def RobEntry.RetirableAt (cfg : Config) (n : Nat) (r : RobEntry) : Prop :=
  Timing.RetiredOk cfg r.op { r.timing with commit := some n }

/-- Nothing but a store's record ties the retirement to a cycle. -/
theorem RobEntry.RetirableAt.mono {cfg : Config} {n n' : Nat} {r : RobEntry} (h : r.RetirableAt cfg n)
    (hk : r.op.kind ≠ .store) (hn : n ≤ n') : r.RetirableAt cfg n' := by
  unfold RobEntry.RetirableAt Timing.RetiredOk at *
  cases hop : r.op <;> simp only [hop, Timing.mk.injEq] at h ⊢
  case nop =>
    obtain ⟨i, c, ⟨hi, hx, hy, hm, hn', hw, hc⟩, hlt⟩ := h
    exact ⟨i, n', ⟨hi, hx, hy, hm, hn', hw, rfl⟩, by have := Option.some.inj hc; omega⟩
  case sd => exact absurd (congrArg Op.kind hop) hk
  case ld =>
    obtain ⟨i, x, y, m, e, w, c, ⟨hi, hx, hy, hm, he, hw, hc⟩, h1, h2, h3, h4, h5, h6⟩ := h
    exact ⟨i, x, y, m, e, w, n', ⟨hi, hx, hy, hm, he, hw, rfl⟩, h1, h2, h3, h4, h5,
      by have := Option.some.inj hc; omega⟩
  case beq | bne =>
    obtain ⟨i, x, y, c, ⟨hi, hx, hy, hm, he, hw, hc⟩, h1, h2, h3⟩ := h
    exact ⟨i, x, y, n', ⟨hi, hx, hy, hm, he, hw, rfl⟩, h1, h2, by have := Option.some.inj hc; omega⟩
  all_goals
    obtain ⟨i, x, y, w, c, ⟨hi, hx, hy, hm, he, hw, hc⟩, h1, h2, h3, h4⟩ := h
    exact ⟨i, x, y, w, n', ⟨hi, hx, hy, hm, he, hw, rfl⟩, h1, h2, h3, by have := Option.some.inj hc; omega⟩

/-- What the phase of a busy entry of table `k` says of its instruction's timing record, when the clock shows `c` and the
entry is visited next in cycle `turn`. -/
def PhaseTimed (cfg : Config) (c : Nat) (k : FuClass) (turn : Nat) (e : RsEntry) (r : RobEntry) : Prop :=
  match e.phase with
  | .waiting => ∃ i, r.timing = ⟨some i, none, none, none, none, none, none⟩
  | .executing => ∃ i x, r.timing = ⟨some i, some x, none, none, none, none, none⟩ ∧ i < x ∧
      e.remaining + turn = x + Config.latency cfg k
  | .memWait => r.timing.Executed (Config.latency cfg k) turn none none
  | .memAccess => ∃ m, r.timing.Executed (Config.latency cfg k) m (some m) none ∧ e.remaining + turn = m + cfg.memLat
  | .resultReady =>
    if e.op = .ld then ∃ m n, r.timing.Executed (Config.latency cfg k) m (some m) (some n) ∧
      (n = m ∨ n + 1 = m + cfg.memLat)
    else ∃ b, r.timing.Executed (Config.latency cfg k) b none none
  | .storeDone => ∃ m, r.timing.Executed (Config.latency cfg k) (r.settledBefore c) m none

/-- The timing records of the instructions in flight are as far as the instructions are. -/
structure State.Timed (s : State) (turn : FuClass → Nat → Nat) (due : Nat) : Prop where
  stations : ∀ k i, (s.station k i).busy = true →
    PhaseTimed s.cfg s.cycle k (turn k i) (s.station k i) (s.robAt (s.station k i).dest)
  complete : ∀ u, (s.robAt u).busy = true → (s.robAt u).complete = true → (s.robAt u).kind ≠ .store →
    (s.robAt u).RetirableAt s.cfg ((s.robAt u).settledBefore s.cycle)
  transaction : s.port.owner = .commit → ∃ m,
    (s.robAt s.rob.head).timing.Executed (Config.latency s.cfg .ls) m (some m) none ∧
      s.port.remaining + due = m + s.cfg.memLat

/-- `f` is `e` as far as timing records speak of it. -/
structure RobEntry.SameProgress (e f : RobEntry) : Prop where
  kind : f.kind = e.kind
  op : f.op = e.op
  complete : f.complete = e.complete
  done : f.done = e.done
  timing : f.timing = e.timing

theorem RobEntry.SameProgress.refl (e : RobEntry) : e.SameProgress e := ⟨rfl, rfl, rfl, rfl, rfl⟩

theorem RobEntry.SameProgress.settledBefore {e f : RobEntry} (h : e.SameProgress f) (c : Nat) :
    f.settledBefore c = e.settledBefore c := by
  unfold RobEntry.settledBefore
  rw [h.done]

/-- `f` is `e` as far as timing records speak of it. -/
structure RsEntry.SameProgress (e f : RsEntry) : Prop where
  phase : f.phase = e.phase
  op : f.op = e.op
  remaining : f.remaining = e.remaining

theorem RsEntry.SameProgress.refl (e : RsEntry) : e.SameProgress e := ⟨rfl, rfl, rfl⟩

/-- A station's record stays right while the station stays as it is, also when the entry's deadline moves on. -/
theorem PhaseTimed.congr {cfg : Config} {c c' turn : Nat} {k : FuClass} {e e' : RsEntry} {r r' : RobEntry}
    (h : PhaseTimed cfg c k turn e r) (he : e.SameProgress e') (ht : r'.timing = r.timing)
    (hle : r.settledBefore c ≤ r'.settledBefore c') : PhaseTimed cfg c' k turn e' r' := by
  unfold PhaseTimed at *
  rw [he.phase, he.op, he.remaining, ht]
  cases hp : e.phase <;> simp only [hp] at h ⊢
  case storeDone =>
    obtain ⟨m, hm⟩ := h
    exact ⟨m, hm.mono hle⟩
  all_goals exact h

/-- Without a countdown the next visit may as well be later. -/
theorem PhaseTimed.later {cfg : Config} {c turn turn' : Nat} {k : FuClass} {e : RsEntry} {r : RobEntry}
    (h : PhaseTimed cfg c k turn e r) (hexec : e.phase ≠ .executing) (hacc : e.phase ≠ .memAccess)
    (ht : turn ≤ turn') : PhaseTimed cfg c k turn' e r := by
  unfold PhaseTimed at *
  cases hp : e.phase <;> simp only [hp] at h ⊢
  case executing => exact absurd hp hexec
  case memAccess => exact absurd hp hacc
  case memWait => exact h.mono ht
  all_goals exact h

section Timed

variable {s t : State} {turn turn' : FuClass → Nat → Nat} {due : Nat}

/-- The one way from state to state within a cycle: each station and each complete entry either is as it was, or its
record is accounted for. -/
theorem State.Timed.carry (h : s.Timed turn due) (hcfg : t.cfg = s.cfg) (hcycle : t.cycle = s.cycle)
    (hst : ∀ k i, (t.station k i).busy = true →
      PhaseTimed s.cfg s.cycle k (turn' k i) (t.station k i) (t.robAt (t.station k i).dest) ∨
      ((s.station k i).busy = true ∧ turn' k i = turn k i ∧ (s.station k i).SameProgress (t.station k i) ∧
        (s.robAt (s.station k i).dest).SameProgress (t.robAt (t.station k i).dest)))
    (hent : ∀ u, (t.robAt u).busy = true →
      ((t.robAt u).complete = true → (t.robAt u).kind ≠ .store →
        (t.robAt u).RetirableAt s.cfg ((t.robAt u).settledBefore s.cycle)) ∨
      ((s.robAt u).busy = true ∧ (s.robAt u).SameProgress (t.robAt u)))
    {due' : Nat} (htrans : t.port.owner = .commit → ∃ m,
      (t.robAt t.rob.head).timing.Executed (Config.latency s.cfg .ls) m (some m) none ∧
        t.port.remaining + due' = m + s.cfg.memLat) : t.Timed turn' due' where
  stations k i hb := by
    rw [hcfg, hcycle]
    obtain hnew | ⟨hsb, hturn, hse, hsr⟩ := hst k i hb
    · exact hnew
    · rw [hturn]
      exact (h.stations k i hsb).congr hse hsr.timing (hsr.settledBefore _).ge
  complete u hb hc hk := by
    rw [hcfg, hcycle]
    obtain hnew | ⟨hsb, hsame⟩ := hent u hb
    · exact hnew hc hk
    · rw [hsame.settledBefore, RobEntry.RetirableAt, hsame.op, hsame.timing]
      exact h.complete u hsb (hsame.complete.symm.trans hc) (hsame.kind ▸ hk)
  transaction ho := hcfg ▸ htrans ho

/-- While a store's transaction holds the port, the head is complete. -/
theorem State.Mid.complete_of_transaction (h : s.Mid) (ho : s.port.owner = .commit) :
    (s.robAt s.rob.head).complete = true := by
  obtain ⟨hpos, -, hd, -⟩ := h.port.commit ho
  exact (h.entries _ ((h.ring.busy_iff h.sized _).2 ⟨0, hpos, h.ring.tagAt_zero.symm⟩)).done hd

/-- An instruction that is not complete is not done. -/
theorem State.Mid.settledBefore_of_incomplete (h : s.Mid) {u : Nat} (hb : (s.robAt u).busy = true)
    (hc : (s.robAt u).complete = false) : (s.robAt u).settledBefore s.cycle = s.cycle + 1 := by
  unfold RobEntry.settledBefore
  rw [if_neg fun hd => ?_]
  exact absurd ((h.entries u hb).done hd) (by simp [hc])

/-! ### One visit -/

section Visit

variable {k : FuClass} {i : Nat} {e : RsEntry} {r : RobEntry}

/-- Station `(k, i)` is visited next in cycle `n`, every other when it was. -/
def nextTurn (turn : FuClass → Nat → Nat) (k : FuClass) (i n : Nat) : FuClass → Nat → Nat :=
  fun c m => if c = k ∧ m = i then n else turn c m

/-- The one proof for every part of a visit to an instruction that is not complete: only its own record has to be
accounted for. -/
theorem State.Timed.visited (h : s.Timed turn due) (hm : s.Mid) (hb : (s.station k i).busy = true)
    (hv : s.Visited t k i e r) (hinc : (s.robAt (s.station k i).dest).complete = false)
    (hport : t.port.owner = .commit → t.port = s.port) {n : Nat}
    (hown : e.busy = true → PhaseTimed s.cfg s.cycle k n e r)
    (hret : r.complete = true → r.kind ≠ .store → r.RetirableAt s.cfg (r.settledBefore s.cycle)) :
    t.Timed (nextTurn turn k i n) due := by
  refine h.carry hv.kept.cfg hv.kept.cycle (fun c m hcm => ?_) (fun u hu => ?_) fun ho => ?_
  · rw [hv.stations] at hcm ⊢
    unfold nextTurn
    by_cases hki : c = k ∧ m = i
    · simp only [if_pos hki] at hcm ⊢
      rw [hv.dest, hv.entry, hki.1]
      exact .inl (hown hcm)
    · simp only [if_neg hki] at hcm ⊢
      rw [hv.entry_other fun hd => hki (hm.unique c m k i hcm hb hd)]
      exact .inr ⟨hcm, trivial, .refl _, .refl _⟩
  · rw [hv.kept.busy] at hu
    by_cases hd : u = (s.station k i).dest
    · rw [hd, hv.entry]
      exact .inl hret
    · rw [hv.entry_other hd]
      exact .inr ⟨hu, .refl _⟩
  · have hsame := hport ho
    rw [hsame] at ho ⊢
    have hne : s.rob.head ≠ (s.station k i).dest := by
      intro hd
      have hcomp := hm.complete_of_transaction ho
      rw [hd] at hcomp
      exact absurd (hinc.symm.trans hcomp) (by simp)
    rw [hv.kept.head, hv.entry_other hne]
    exact h.transaction ho

theorem nextTurn_self {n : Nat} (h : turn k i = n) : nextTurn turn k i n = turn := by
  funext c m
  unfold nextTurn
  split
  · next hcm => rw [hcm.1, hcm.2, h]
  · rfl

theorem State.Mid.incomplete (hm : s.Mid) (hb : (s.station k i).busy = true)
    (hp : (s.station k i).phase ≠ .storeDone) : (s.robAt (s.station k i).dest).complete = false := by
  rw [(hm.stations k i hb).completes]
  simp [hp]

/-- A visit that leaves the instruction incomplete. -/
theorem State.Timed.advanced (h : s.Timed turn due) (hm : s.Mid) (hb : (s.station k i).busy = true)
    (hv : s.Visited t k i e r) (hp : (s.station k i).phase ≠ .storeDone)
    (hcomp : r.complete = (s.robAt (s.station k i).dest).complete)
    (hport : t.port.owner = .commit → t.port = s.port) {n : Nat} (hown : PhaseTimed s.cfg s.cycle k n e r) :
    t.Timed (nextTurn turn k i n) due :=
  have hinc := hm.incomplete hb hp
  h.visited hm hb hv hinc hport (fun _ => hown) fun hc => absurd ((hcomp.trans hinc).symm.trans hc) (by simp)

/-- A visit that changes nothing. -/
theorem State.Timed.passed (h : s.Timed turn due) (hturn : turn k i = s.cycle)
    (hexec : (s.station k i).phase ≠ .executing) (hacc : (s.station k i).phase ≠ .memAccess) :
    s.Timed (nextTurn turn k i (s.cycle + 1)) due := by
  refine h.carry rfl rfl (fun c m hcm => ?_) (fun u hu => .inr ⟨hu, .refl _⟩) h.transaction
  unfold nextTurn
  by_cases hki : c = k ∧ m = i
  · rw [if_pos hki]
    obtain ⟨rfl, rfl⟩ := hki
    exact .inl ((h.stations c m hcm).later hexec hacc (by omega))
  · exact .inr ⟨hcm, if_neg hki, .refl _, .refl _⟩

/-! #### Starting and counting down -/

theorem State.Timed.started (h : s.Timed turn due) (hr : s.Running) (hb : (s.station k i).busy = true)
    (hp : (s.station k i).phase = .waiting) (hc : s.canStart k i = true) :
    (started k i s).Timed (nextTurn turn k i (s.cycle + 1)) due := by
  have hv := visited_started hb (hr.stations k i hb).inFlight
  have hold := h.stations k i hb
  simp only [PhaseTimed, hp] at hold
  obtain ⟨n, hn⟩ := hold
  simp only [State.canStart, hn, before, Bool.and_eq_true, decide_eq_true_eq] at hc
  obtain ⟨⟨-, hlt⟩, -⟩ := hc
  have hlat := hr.sized.latency_pos k
  refine h.advanced hr.toMid hb hv (by simp [hp]) rfl (fun _ => rfl) ⟨n, s.cycle, by rw [hn], hlt, ?_⟩
  dsimp only
  omega

theorem State.Timed.countdown (h : s.Timed turn due) (hr : s.Running) (hb : (s.station k i).busy = true)
    (hp : (s.station k i).phase = .executing ∨ (s.station k i).phase = .memAccess) (hturn : turn k i = s.cycle) :
    (s.modifyStation k i (fun e => { e with remaining := e.remaining - 1 })).Timed
      (nextTurn turn k i (s.cycle + 1)) due := by
  have hold := h.stations k i hb
  obtain ⟨hexec, hacc⟩ := hr.counting k i id hb
  refine h.advanced hr.toMid hb (visited_countdown hb) (by rcases hp with hp | hp <;> simp [hp]) rfl (fun _ => rfl) ?_
  unfold PhaseTimed at hold ⊢
  rw [hturn] at hold
  rcases hp with hp | hp <;> simp only [hp] at hold ⊢
  · obtain ⟨n, x, ht, hlt, hrem⟩ := hold
    have := hexec hp
    exact ⟨n, x, ht, hlt, by omega⟩
  · obtain ⟨m, ht, hrem⟩ := hold
    have := hacc hp
    exact ⟨m, ht, by omega⟩

/-! #### Finishing -/

/-- The last cycle of an execution is recorded as its end (40_engine_cycle.md R225, R226). -/
theorem State.Timed.executed (h : s.Timed turn due) (hb : (s.station k i).busy = true)
    (hp : (s.station k i).phase = .executing) (hrem : (s.station k i).remaining = 0) (hturn : turn k i = s.cycle + 1) :
    Timing.Executed (Config.latency s.cfg k) (s.cycle + 1) none none
      { (s.robAt (s.station k i).dest).timing with exEnd := some s.cycle } := by
  have hold := h.stations k i hb
  simp only [PhaseTimed, hp] at hold
  obtain ⟨n, x, ht, hlt, hsum⟩ := hold
  exact ⟨n, x, s.cycle, by rw [ht], hlt, by omega, by omega⟩

theorem State.Timed.finish_arith (h : s.Timed turn due) (hr : s.RunningBut k i) (hb : (s.station k i).busy = true)
    (hp : (s.station k i).phase = .executing) (hrem : (s.station k i).remaining = 0) (hturn : turn k i = s.cycle + 1)
    (hls : k ≠ .ls) (hbr : k ≠ .br) : (finish k i s).Timed turn due := by
  have hold := hr.stations k i hb
  obtain ⟨-, hld⟩ := kind_of_fuClass hold.table hls hbr
  have heq : finish k i s = (finishing k i s).modifyStation k i (fun e => { e with phase := .resultReady }) := by
    cases k with
    | fpadd | int | mult => rfl
    | ls => exact absurd rfl hls
    | br => exact absurd rfl hbr
  have hv := (visited_finishing hold.inFlight).modifyStation hb (fun e => { e with phase := .resultReady })
    rfl rfl rfl rfl
  rw [heq, ← nextTurn_self hturn]
  refine h.advanced hr.toMid hb hv (by simp [hp]) rfl (fun _ => rfl) ?_
  simp only [PhaseTimed, if_neg hld]
  exact ⟨_, h.executed hb hp hrem hturn⟩

theorem State.Timed.finish_ls (h : s.Timed turn due) (hr : s.RunningBut .ls i) (hb : (s.station .ls i).busy = true)
    (hp : (s.station .ls i).phase = .executing) (hrem : (s.station .ls i).remaining = 0)
    (hturn : turn .ls i = s.cycle + 1) : (finish .ls i s).Timed turn due := by
  have hold := hr.stations .ls i hb
  have hinc := hr.incomplete hb (by simp [hp])
  have hf := visited_finishing hold.inFlight
  have htimes := h.executed hb hp hrem hturn
  have heq : finish .ls i s = lsFinish i (finishing .ls i s) := rfl
  rw [heq, lsFinish, hf.station, ← nextTurn_self hturn]
  generalize effectiveAddress (s.station .ls i).j.val (s.station .ls i).imm = a
  split
  · have hv := hf.modifyStation hb (loadAddressed a) rfl rfl rfl rfl
    exact h.advanced hr.toMid hb hv (by simp [hp]) rfl (fun _ => rfl) htimes
  · next hop =>
    have hkind : (s.robAt (s.station .ls i).dest).kind = .store := by
      have htab := hold.table
      rw [(hr.entries _ hold.inFlight).kind, hold.op]
      cases ho : (s.station .ls i).op <;> simp_all [Op.fuClass, Op.kind]
    have hv := (hf.modifyStation hb (storeAddressed a) rfl rfl rfl rfl).modifyRob hold.inFlight
      (fun r => { r with stAddr := a, stData := (s.station .ls i).k.val, complete := true })
      ⟨rfl, rfl, rfl, rfl, rfl, rfl, rfl⟩ rfl
    refine h.visited hr.toMid hb hv hinc (fun _ => rfl) (fun _ => ⟨none, ?_⟩) fun _ hk => absurd hkind hk
    have hsettled := hr.settledBefore_of_incomplete hold.inFlight hinc
    unfold RobEntry.settledBefore at hsettled ⊢
    rw [hsettled]
    exact htimes

/-- A resolved branch could retire in the next cycle (44_branch_recovery.md R371). -/
theorem State.Timed.resolved (h : s.Timed turn due) (hr : s.RunningBut .br i) (hb : (s.station .br i).busy = true)
    (hp : (s.station .br i).phase = .executing) (hrem : (s.station .br i).remaining = 0)
    (hturn : turn .br i = s.cycle + 1) : (Machine.resolved i (finishing .br i s)).Timed turn due := by
  have hold := hr.stations .br i hb
  have hinc := hr.incomplete hb (by simp [hp])
  have hsettled := hr.settledBefore_of_incomplete hold.inFlight hinc
  have hv := (visited_finishing hold.inFlight).resolved hb hold.inFlight
  rw [← nextTurn_self hturn]
  refine h.visited hr.toMid hb hv hinc (fun _ => resolved_port i _) (fun hn => by cases hn) fun _ _ => ?_
  obtain ⟨n, x, y, ht, hlt, hlat, hy⟩ := h.executed hb hp hrem hturn
  unfold RobEntry.settledBefore at hsettled ⊢
  rw [hsettled]
  have hop : (s.robAt (s.station .br i).dest).op = .beq ∨ (s.robAt (s.station .br i).dest).op = .bne := by
    have htab := hold.table
    rw [hold.op]
    cases ho : (s.station .br i).op <;> simp_all [Op.fuClass]
  have hretired := congrArg (fun t : Timing => { t with commit := some (s.cycle + 1) }) ht
  unfold RobEntry.RetirableAt
  obtain hop | hop := hop <;> rw [hop] <;> exact ⟨n, x, y, s.cycle + 1, hretired, hlt, hlat, hy⟩

/-! #### Loads -/

theorem State.Timed.forward (h : s.Timed turn due) (hr : s.Running) (hb : (s.station .ls i).busy = true)
    (hp : (s.station .ls i).phase = .memWait) (hturn : turn .ls i = s.cycle) (q : Nat) :
    (forward i q s).Timed (nextTurn turn .ls i (s.cycle + 1)) due := by
  have hold := hr.stations .ls i hb
  have hv := State.LoadWaiting.visited_forward ⟨hb, hold.inFlight, hp⟩ q
  have hfits := hold.phase
  have htimes := h.stations .ls i hb
  simp only [PhaseFits, hp] at hfits
  simp only [PhaseTimed, hp] at htimes
  obtain ⟨n, x, y, ht, hlt, hlat, hy⟩ := htimes
  refine h.advanced hr.toMid hb hv (by simp [hp]) rfl (fun _ => rfl) ?_
  simp only [PhaseTimed, if_pos hfits.2.2.1]
  exact ⟨s.cycle, s.cycle, ⟨n, x, y, by rw [ht], hlt, hlat, hturn ▸ hy⟩, .inl rfl⟩

theorem State.Timed.loadStarted (h : s.Timed turn due) (hr : s.Running) (hb : (s.station .ls i).busy = true)
    (hp : (s.station .ls i).phase = .memWait) (hturn : turn .ls i = s.cycle) :
    (loadStarted i s).Timed (nextTurn turn .ls i (s.cycle + 1)) due := by
  have hv := visited_loadStarted hb (hr.stations .ls i hb).inFlight
  have htimes := h.stations .ls i hb
  simp only [PhaseTimed, hp] at htimes
  obtain ⟨n, x, y, ht, hlt, hlat, hy⟩ := htimes
  have hmem := hr.sized.memLat_pos
  refine h.advanced hr.toMid hb hv (by simp [hp]) rfl (fun ho => by cases ho) ?_
  refine ⟨s.cycle, ⟨n, x, y, by rw [ht], hlt, hlat, hturn ▸ hy⟩, ?_⟩
  dsimp only
  omega

theorem State.Timed.loadFinish (h : s.Timed turn due) (hr : s.RunningBut .ls i) (hb : (s.station .ls i).busy = true)
    (hp : (s.station .ls i).phase = .memAccess) (hrem : (s.station .ls i).remaining = 0)
    (hturn : turn .ls i = s.cycle + 1) : (loadFinish i s).Timed turn due := by
  have hold := hr.stations .ls i hb
  have hv := visited_loadFinish hb hold.inFlight
  have hfits := hold.phase
  have htimes := h.stations .ls i hb
  simp only [PhaseFits, hp] at hfits
  simp only [PhaseTimed, hp] at htimes
  obtain ⟨m, ⟨n, x, y, ht, hlt, hlat, hy⟩, hsum⟩ := htimes
  have howner := (hr.port.access i (by simp [RsEntry.accessing, hb, hp])).1
  rw [← nextTurn_self hturn]
  refine h.advanced hr.toMid hb hv (by simp [hp]) rfl (fun ho => ?_) ?_
  · exact absurd (howner.symm.trans ho) (by simp)
  · simp only [PhaseTimed, if_pos hfits.2.2.1]
    exact ⟨m, s.cycle, ⟨n, x, y, by rw [ht], hlt, hlat, hy⟩, .inr (by omega)⟩

end Visit

/-! #### Squash and recovery -/

/-- Dropping younger instructions leaves the records of the others (44_branch_recovery.md R375 to R378). -/
theorem State.Timed.squash (h : s.Timed turn due) (hr : s.Running) {b : Nat} (hb : (s.robAt b).busy = true)
    (hkind : (s.robAt b).kind = .branch) (taken : Bool) (target : Pc) :
    (unlessFaulted (recover b taken target) (squash b s)).Timed turn due := by
  have hrun := hr.squash hb hkind taken target
  have hsquashing : s.Squashing (s.robAt b).seq :=
    ⟨hr.toMid, fun t ht _ hc => hr.stationed t ht trivial hc, hr.counting⟩
  have hend := (hsquashing.squashTables tableOrder).1
  have hsq := squashedTables_squashed hr.noFault (fun k i hki => (hr.stations k i hki).inFlight) (s.robAt b).seq
  have heq := squash_recover_of_noFault b taken target hend.noFault
  rw [heq] at hrun ⊢
  change State.Squashing (squashedTables (s.robAt b).seq s) _ at hend
  change State.Running (recovered b _ taken target (squashedTables (s.robAt b).seq s)) at hrun
  change State.Timed (recovered b _ taken target (squashedTables (s.robAt b).seq s)) _ _
  have hcore := coreKept_recovered b (s.robAt b).seq taken target (squashedTables (s.robAt b).seq s)
  obtain ⟨pc, nextSeq, rat, cdb, hrec⟩ := recovered_eq b (s.robAt b).seq taken target (squashedTables (s.robAt b).seq s)
  generalize hn : (s.robAt b).seq = n at *
  generalize hs' : squashedTables n s = s' at *
  generalize ht : recovered b n taken target s' = t at *
  have hentry : ∀ u, (t.robAt u).busy = true → (s.robAt u).busy = true ∧ t.robAt u = s.robAt u := by
    intro u hu
    have hbn : (s'.robAt b).seq = n ∧ (s'.robAt b).busy = true := by rw [hsq.robAt]; exact ⟨hn, hb⟩
    rw [← ht] at hu ⊢
    obtain ⟨hsu, hle⟩ := hend.busy_of_recovered hbn.1 hbn.2 hu
    rw [hend.robAt_recovered_of_le hbn.1 hbn.2 hsu hle, hsq.robAt]
    exact ⟨hsq.robAt u ▸ hsu, rfl⟩
  have hstation : ∀ k i, (t.station k i).busy = true →
      (s.station k i).busy = true ∧ t.station k i = s.station k i := by
    intro k i hki
    have hts : t.station k i = s.dropYounger n (s.station k i) := by rw [hrec, ← hsq.station]; rfl
    rw [hts] at hki ⊢
    obtain ⟨hsame, hbusy, -⟩ := dropYounger_of_busy hki
    exact ⟨hbusy, hsame⟩
  have hport : t.port.owner = s.port.owner ∧ t.port.remaining = s.port.remaining := by
    rw [hrec, hsq.frame]
    exact ⟨rfl, rfl⟩
  refine h.carry ?_ ?_ (fun k i hki => ?_) (fun u hu => ?_) fun ho => ?_
  · rw [hcore.cfg, hsq.frame]
  · rw [hcore.cycle, hsq.frame]
  · obtain ⟨hsb, hsame⟩ := hstation k i hki
    have hflight := (hrun.stations k i hki).inFlight
    rw [hsame] at hflight ⊢
    rw [(hentry _ hflight).2]
    exact .inr ⟨hsb, rfl, .refl _, .refl _⟩
  · obtain ⟨hsu, hsame⟩ := hentry u hu
    rw [hsame]
    exact .inr ⟨hsu, .refl _⟩
  · have hhead : t.rob.head = s.rob.head := by rw [hcore.head, hsq.frame]
    have hbusy := hrun.head_busy (hrun.port.commit ho).1
    rw [(hentry _ hbusy).2, hport.2, hhead]
    exact h.transaction (hport.1 ▸ ho)

/-! #### The visit as a whole -/

section Visit

variable {k : FuClass} {i : Nat}

theorem State.Timed.finish (h : s.Timed turn due) (hr : s.RunningBut k i) (hb : (s.station k i).busy = true)
    (hp : (s.station k i).phase = .executing) (hrem : (s.station k i).remaining = 0) (hturn : turn k i = s.cycle + 1) :
    (finish k i s).Timed turn due := by
  by_cases hls : k = .ls
  · subst hls
    exact h.finish_ls hr hb hp hrem hturn
  by_cases hbr : k = .br
  · subst hbr
    have hold := hr.stations .br i hb
    have hf := visited_finishing hold.inFlight
    have hkept := (hf.resolved hb hold.inFlight).kept
    have hres := h.resolved hr hb hp hrem hturn
    have heq : Machine.finish .br i s = resolveBranch i (finishing .br i s) := rfl
    rw [heq]
    obtain hgo | ⟨taken, target, hgo⟩ := resolveBranch_cases i (finishing .br i s) <;> rw [hgo]
    · exact hres
    · rw [hf.station]
      exact hres.squash (hr.resolved hb hp) ((hkept.busy _).trans hold.inFlight)
        ((hkept.entry _).kind.trans (hr.branch_kind hb)) taken target
  · exact h.finish_arith hr hb hp hrem hturn hls hbr

theorem State.Timed.start (h : s.Timed turn due) (hr : s.Running) (hb : (s.station k i).busy = true)
    (hp : (s.station k i).phase = .waiting) (hc : s.canStart k i = true) :
    (start k i s).Timed (nextTurn turn k i (s.cycle + 1)) due := by
  have hv := visited_started hb (hr.stations k i hb).inFlight
  have hstarted := h.started hr hb hp hc
  rw [start_eq]
  split
  · next hlat =>
    exact hstarted.finish (hr.started hb hp hc) (by rw [hv.station]; exact hb) (by rw [hv.station])
      (by rw [hv.station]; exact hlat) (by rw [hv.kept.cycle]; exact if_pos ⟨rfl, rfl⟩)
  · exact hstarted

theorem State.Timed.executingStep (h : s.Timed turn due) (hr : s.Running) (hb : (s.station k i).busy = true)
    (hp : (s.station k i).phase = .executing) (hturn : turn k i = s.cycle) :
    (executingStep k i s).Timed (nextTurn turn k i (s.cycle + 1)) due := by
  have hv := visited_countdown hb
  have hcounted := h.countdown hr hb (.inl hp) hturn
  obtain ⟨s1, rfl, ⟨heq, -⟩ | ⟨heq, hrem⟩⟩ := executingStep_cases k i s <;> rw [heq]
  · exact hcounted
  · exact hcounted.finish (hr.countdown hb (by simp [hp])) (by rw [hv.station]; exact hb)
      (by rw [hv.station]; exact hp) hrem (if_pos ⟨rfl, rfl⟩)

theorem memAccessStep_eq (i : Nat) (s : State) : memAccessStep i s =
    if ((s.modifyStation .ls i (fun e => { e with remaining := e.remaining - 1 })).station .ls i).remaining = 0 then
      loadFinish i (s.modifyStation .ls i (fun e => { e with remaining := e.remaining - 1 }))
    else s.modifyStation .ls i (fun e => { e with remaining := e.remaining - 1 }) := rfl

theorem State.Timed.memAccessStep (h : s.Timed turn due) (hr : s.Running) (hb : (s.station .ls i).busy = true)
    (hp : (s.station .ls i).phase = .memAccess) (hturn : turn .ls i = s.cycle) :
    (memAccessStep i s).Timed (nextTurn turn .ls i (s.cycle + 1)) due := by
  have hv := visited_countdown hb
  have hcounted := h.countdown hr hb (.inr hp) hturn
  rw [memAccessStep_eq]
  split
  · next hrem =>
    exact hcounted.loadFinish (hr.countdown hb (by simp [hp])) (by rw [hv.station]; exact hb)
      (by rw [hv.station]; exact hp) hrem (if_pos ⟨rfl, rfl⟩)
  · exact hcounted

theorem State.Timed.memWaitStep (h : s.Timed turn due) (hr : s.Running) (hb : (s.station .ls i).busy = true)
    (hp : (s.station .ls i).phase = .memWait) (hturn : turn .ls i = s.cycle) :
    (memWaitStep i s).Timed (nextTurn turn .ls i (s.cycle + 1)) due := by
  have hv := visited_loadStarted hb (hr.stations .ls i hb).inFlight
  obtain heq | ⟨q, -, -, heq⟩ | ⟨-, ho, heq⟩ := memWaitStep_cases i s <;> rw [heq]
  · exact h.passed hturn (by simp [hp]) (by simp [hp])
  · exact h.forward hr hb hp hturn q
  · have hstarted := h.loadStarted hr hb hp hturn
    rw [loadStart_eq]
    split
    · next hlat =>
      exact hstarted.loadFinish (hr.loadStarted hb hp ho) (by rw [hv.station]; exact hb) (by rw [hv.station])
        (by rw [hv.station]; exact hlat) (by rw [hv.kept.cycle]; exact if_pos ⟨rfl, rfl⟩)
    · exact hstarted

/-- What a visit to an entry whose instruction is in flight can do: without a countdown nothing, or else its phase's step
(40_engine_cycle.md R222). -/
theorem visit_cases_of_phase (hb : (s.station k i).busy = true) (hr : (s.robAt (s.station k i).dest).busy = true) :
    ((s.station k i).phase ≠ .executing ∧ (s.station k i).phase ≠ .memAccess ∧ visit k i s = s) ∨
    ((s.station k i).phase = .waiting ∧ s.canStart k i = true ∧ visit k i s = start k i s) ∨
    ((s.station k i).phase = .executing ∧ visit k i s = executingStep k i s) ∨
    ((s.station k i).phase = .memWait ∧ visit k i s = memWaitStep i s) ∨
    ((s.station k i).phase = .memAccess ∧ visit k i s = memAccessStep i s) := by
  unfold visit
  cases hp : (s.station k i).phase
  case waiting => cases hc : s.canStart k i <;> simp [hb, hr, hp]
  all_goals simp [hb, hr, hp]

/-- Whether and when a free station is visited next does not matter. -/
theorem State.Timed.congr_busy (h : s.Timed turn due)
    (heq : ∀ k i, (s.station k i).busy = true → turn' k i = turn k i) : s.Timed turn' due :=
  { h with stations := fun k i hb => heq k i hb ▸ h.stations k i hb }

/-- Every visit of the execute stage keeps the records right and is over for this cycle. -/
theorem State.Timed.visit (h : s.Timed turn due) (hr : s.Running) (hturn : turn k i = s.cycle) :
    (visit k i s).Timed (nextTurn turn k i (s.cycle + 1)) due := by
  by_cases hb : (s.station k i).busy = true
  swap
  · have heq : Machine.visit k i s = s := by simp [Machine.visit, hb]
    rw [heq]
    exact h.congr_busy fun c m hcm => if_neg (by rintro ⟨rfl, rfl⟩; exact hb hcm)
  have hold := hr.stations k i hb
  have hls : (s.station k i).op = .ld → k = .ls := fun hop =>
    (Option.some.inj ((congrArg Op.fuClass hop).symm.trans hold.table)).symm
  have hfits := hold.phase
  obtain ⟨hexec, hacc, heq⟩ | ⟨hp, hc, heq⟩ | ⟨hp, heq⟩ | ⟨hp, heq⟩ | ⟨hp, heq⟩ :=
    visit_cases_of_phase hb hold.inFlight <;> rw [heq]
  · exact h.passed hturn hexec hacc
  · exact h.start hr hb hp hc
  · exact h.executingStep hr hb hp hturn
  · simp only [PhaseFits, hp] at hfits
    obtain rfl := hls hfits.2.2.1
    exact h.memWaitStep hr hb hp hturn
  · simp only [PhaseFits, hp] at hfits
    obtain rfl := hls hfits.2.2.1
    exact h.memAccessStep hr hb hp hturn

end Visit

/-! ### The execute stage -/

/-- The turns while the entries `l` of table `k` and the tables `ks` have still to be visited in cycle `c`. -/
def pendingTurn (c : Nat) (k : FuClass) (l : List Nat) (ks : List FuClass) : FuClass → Nat → Nat :=
  fun k' i => if k' = k ∧ i ∈ l ∨ k' ∈ ks then c else c + 1

theorem nextTurn_pendingTurn {c : Nat} {k : FuClass} {i : Nat} {l : List Nat} {ks : List FuClass} (hk : k ∉ ks)
    (hi : i ∉ l) : nextTurn (pendingTurn c k (i :: l) ks) k i (c + 1) = pendingTurn c k l ks := by
  funext k' m
  unfold nextTurn pendingTurn
  by_cases hcm : k' = k ∧ m = i
  · simp [hcm, hk, hi]
  · rw [if_neg hcm]
    refine if_congr (or_congr_left ?_) rfl rfl
    rw [List.mem_cons]
    tauto

/-- Visiting the entries of a list once each takes them off those still to be visited. -/
theorem State.Timed.visits {c : Nat} {k : FuClass} {ks : List FuClass} (hk : k ∉ ks) {l : List Nat} (hl : l.Nodup)
    (h : s.Timed (pendingTurn c k l ks) due) (hr : s.Running) (hc : s.cycle = c) :
    (foldUnlessFaulted (Machine.visit k) l s).Timed (pendingTurn c k [] ks) due := by
  induction l generalizing s with
  | nil => exact h
  | cons i l ih =>
    obtain ⟨hi, hl⟩ := List.nodup_cons.1 hl
    have hvisit := h.visit (k := k) (i := i) hr (by simp [pendingTurn, hc])
    rw [hc, nextTurn_pendingTurn hk hi] at hvisit
    rw [foldUnlessFaulted_cons, unlessFaulted_of_none _ hr.noFault]
    exact ih hl hvisit (hr.visit k i) ((coreKept_visit k i s).cycle.trans hc)

/-- A scan visits every busy entry of its table (40_engine_cycle.md R220, R221). -/
theorem State.Timed.scanTable {c : Nat} {k : FuClass} {ks : List FuClass} (hk : k ∉ ks)
    (h : s.Timed (pendingTurn c k [] (k :: ks)) due) (hr : s.Running) (hc : s.cycle = c) :
    (scanTable k s).Timed (pendingTurn c k [] ks) due := by
  unfold Machine.scanTable
  rw [hr.danglingStation k]
  refine State.Timed.visits hk (nodup_ageOrder s k) (h.congr_busy fun k' i hb => ?_) hr hc
  unfold pendingTurn
  refine if_congr ?_ rfl rfl
  rw [List.mem_cons]
  by_cases hkk : k' = k
  · subst hkk
    simp [mem_ageOrder, hb]
  · simp [hkk]

/-- Every countdown has run for this cycle when the tables have been scanned. -/
theorem State.Timed.scanTables {c : Nat} {ks : List FuClass} (hks : ks.Nodup)
    (h : s.Timed (pendingTurn c .br [] ks) due) (hr : s.Running) (hc : s.cycle = c) :
    (foldUnlessFaulted Machine.scanTable ks s).Timed (fun _ _ => c + 1) due := by
  induction ks generalizing s with
  | nil => exact h.congr_busy fun k i _ => by simp [pendingTurn]
  | cons k ks ih =>
    obtain ⟨hk, hks⟩ := List.nodup_cons.1 hks
    have hsame : ∀ l, pendingTurn c .br [] l = pendingTurn c k [] l := fun l => by
      funext k' i
      simp [pendingTurn]
    have hscan := State.Timed.scanTable hk (hsame _ ▸ h) hr hc
    have hkeep : (Machine.scanTable k s).Running ∧ (Machine.scanTable k s).cycle = s.cycle := by
      unfold Machine.scanTable
      rw [hr.danglingStation k]
      exact foldUnlessFaulted_keeps (fun t : State => t.Running ∧ t.cycle = s.cycle) _ _
        (fun i _ t _ ht => ⟨ht.1.visit k i, (coreKept_visit k i t).cycle.trans ht.2⟩) ⟨hr, rfl⟩
    rw [foldUnlessFaulted_cons, unlessFaulted_of_none _ hr.noFault]
    exact ih hks (hsame ks ▸ hscan) hkeep.1 (hkeep.2.trans hc)

/-- The execute stage visits every busy entry once. -/
theorem State.Timed.execute (h : s.Timed (fun _ _ => s.cycle) due) (hr : s.Running) :
    (execute s).Timed (fun _ _ => s.cycle + 1) due :=
  State.Timed.scanTables (by decide) (h.congr_busy fun k _ _ => by simp [pendingTurn, mem_tableOrder]) hr rfl

end Timed

end Sys2Proof.Machine

/-! ### Write-back -/

namespace Sys2Proof.Machine

section Broadcast

variable {s : State} {turn : FuClass → Nat → Nat} {due : Nat} {k : FuClass} {i : Nat}

/-- A result that was ready in an earlier cycle and is broadcast now could retire in the next one
(40_engine_cycle.md R230, R236). -/
theorem State.Timed.retirable_of_candidate (h : s.Timed turn due) (hr : s.Running)
    (hb : (s.station k i).busy = true) (hp : (s.station k i).phase = .resultReady)
    (hready : before (readyCycle (s.station k i) (s.robAt (s.station k i).dest).timing) s.cycle = true) :
    Timing.RetiredOk s.cfg (s.robAt (s.station k i).dest).op
      { (s.robAt (s.station k i).dest).timing with wb := some s.cycle, commit := some (s.cycle + 1) } := by
  have hold := hr.stations k i hb
  have htab := hold.table
  have hfits := hold.phase
  have htimes := h.stations k i hb
  simp only [PhaseFits, hp] at hfits
  simp only [PhaseTimed, hp] at htimes
  rw [hold.op]
  by_cases hld : (s.station k i).op = .ld
  · rw [if_pos hld] at htimes
    rw [hld] at htab
    obtain rfl := Option.some.inj htab
    obtain ⟨m, n, ⟨j, x, y, ht, hlt, hlat, hy⟩, hmem⟩ := htimes
    rw [readyCycle, if_pos hld, ht] at hready
    rw [hld, ht]
    exact ⟨j, x, y, m, n, s.cycle, s.cycle + 1, rfl, hlt, hlat, hy, hmem, of_decide_eq_true hready, Nat.lt_succ_self _⟩
  · rw [if_neg hld] at htimes
    obtain ⟨b, j, x, y, ht, hlt, hlat, -⟩ := htimes
    rw [readyCycle, if_neg hld, ht] at hready
    have hy : y < s.cycle := of_decide_eq_true hready
    rw [ht]
    cases hop : (s.station k i).op <;> rw [hop] at htab hfits
    case ld => exact absurd hop hld
    case nop | sd | beq | bne => cases hfits.2.2.1
    all_goals
      obtain rfl := Option.some.inj htab
      exact ⟨j, x, y, s.cycle, s.cycle + 1, rfl, hlt, hlat, hy, Nat.lt_succ_self _⟩

theorem State.Timed.broadcast (h : s.Timed turn due) (hr : s.Running) (hb : (s.station k i).busy = true)
    (hp : (s.station k i).phase = .resultReady)
    (hready : before (readyCycle (s.station k i) (s.robAt (s.station k i).dest).timing) s.cycle = true) (v : Word) :
    (broadcast k i v s).Timed turn due := by
  have hkept := robKept_broadcast k i v s
  have hinc := hr.incomplete hb (by simp [hp])
  have hflight := (hr.stations k i hb).inFlight
  have hret := h.retirable_of_candidate hr hb hp hready
  have hentry := robAt_drained_onBus (v := v) hflight
  have hsettled := hr.settledBefore_of_incomplete hflight hinc
  rw [hr.broadcast_eq] at hkept ⊢
  refine h.carry hkept.cfg hkept.cycle (fun c m hcm => ?_) (fun u hu => ?_) fun ho => ?_
  · obtain ⟨heq, hsb, hent⟩ := hr.station_of_busy_drained hb hcm
    rw [heq, captureBroadcast_dest, hent]
    exact .inr ⟨hsb, rfl, ⟨captureBroadcast_phase .., captureBroadcast_op .., captureBroadcast_remaining ..⟩, .refl _⟩
  · rw [hkept.busy] at hu
    rw [hentry]
    split
    · next hd =>
      subst hd
      refine .inl fun _ _ => ?_
      unfold RobEntry.settledBefore at hsettled ⊢
      rw [hsettled]
      exact hret
    · exact .inr ⟨hu, .refl _⟩
  · have hne : s.rob.head ≠ (s.station k i).dest := by
      intro hd
      have hcomp := hr.complete_of_transaction ho
      rw [hd] at hcomp
      exact absurd (hinc.symm.trans hcomp) (by simp)
    rw [hkept.head, hentry, if_neg hne]
    exact h.transaction ho

theorem State.Timed.writeBack (h : s.Timed turn due) (hr : s.Running) : (writeBack s).Timed turn due := by
  unfold Machine.writeBack
  split
  · exact h
  · next u hd => exact absurd hd (arbitrate_ne_dangling hr.danglingStation _ u)
  · next k i hw =>
    obtain ⟨-, -, -, -, hcand, -⟩ := arbitrate_winner hw
    simp only [State.isCandidate, Bool.and_eq_true, decide_eq_true_eq] at hcand
    obtain ⟨⟨hb, hp⟩, hready⟩ := hcand
    have hfits := (hr.stations k i hb).phase
    simp only [PhaseFits, hp] at hfits
    split
    · next hnone => exact absurd hnone (resultOf_ne_none hfits.2.2.1)
    · next v _ => exact h.broadcast hr hb hp hready v

end Broadcast

end Sys2Proof.Machine

/-! ### Commit -/

namespace Sys2Proof.Machine

section Commit

variable {s s1 t : State} {turn : FuClass → Nat → Nat} {due : Nat}

/-- What commit does under the invariant, the last cycle of a store's transaction told from the others
(40_engine_cycle.md R245, 43_load_store.md R336 to R338). -/
theorem commit_cases_of_running (h : s.Running) :
    (s.port.owner ≠ .commit ∧ commit s = s) ∨
    (s.HeadDone .store ∧ ∃ s1, (s1 = storeBegun s ∧ s.port.owner = .none ∨ s1 = storeCounted s ∧ s.port.owner = .commit) ∧
      (s1.port.remaining ≠ 0 ∧ commit s = s1 ∨ s1.port.remaining = 0 ∧ commit s = retire (stored s1))) ∨
    (s.port.owner ≠ .commit ∧ s.HeadDone .reg ∧ commit s = retire (written s)) ∨
    (s.port.owner ≠ .commit ∧ ∃ k, (k = .branch ∨ k = .nop) ∧ s.HeadDone k ∧ commit s = retire s) := by
  have hfault : (commit s).fault = none := h.commit.noFault
  by_cases ho : s.port.owner = .commit
  · obtain ⟨hpos, hk, hd, -⟩ := h.port.commit ho
    refine .inr (.inl ⟨⟨h.head_busy hpos, hd, hk⟩, _, .inr ⟨rfl, ho⟩, ?_⟩)
    rw [commit_of_commit_owner ho]
    by_cases hrem : s.port.remaining - 1 = 0
    · exact .inr ⟨hrem, storeCommitStep_of_last (h.head_busy hpos) hrem⟩
    · exact .inl ⟨hrem, storeCommitStep_of_wait hrem⟩
  · obtain heq | ⟨f, heq⟩ | ⟨hown, -⟩ | ⟨-, -, hb, hd, hkind⟩ := commit_cases s
    · exact .inl ⟨ho, heq⟩
    · rw [heq] at hfault
      cases hfault
    · exact absurd hown ho
    · obtain ⟨hk, heq⟩ | ⟨hk, hfree, heq⟩ | ⟨hk, heq⟩ := hkind
      · exact .inr (.inr (.inl ⟨ho, ⟨hb, hd, hk⟩, heq⟩))
      · refine .inr (.inl ⟨⟨hb, hd, hk⟩, _, .inl ⟨rfl, hfree⟩, ?_⟩)
        rw [heq]
        by_cases hrem : s.cfg.memLat - 1 = 0
        · exact .inr ⟨hrem, storeCommitStart_of_last hb hrem⟩
        · exact .inl ⟨hrem, storeCommitStart_of_wait hrem⟩
      · exact .inr (.inr (.inr ⟨ho, _, hk, ⟨hb, hd, rfl⟩, heq⟩))

theorem State.HeadDone.settledBefore {k : RobKind} (hd : s.HeadDone k) :
    (s.robAt s.rob.head).settledBefore s.cycle = s.cycle := if_pos hd.done

/-- The store at the head waits in its station for its commit (43_load_store.md R323, R339). -/
theorem State.Running.storeDone_of_head (hr : s.Running) (hd : s.HeadDone .store) {k : FuClass} {i : Nat}
    (hb : (s.station k i).busy = true) (hdest : (s.station k i).dest = s.rob.head) :
    (s.station k i).phase = .storeDone := by
  have hcomp := (hr.stations k i hb).completes
  rw [hdest, hd.complete hr] at hcomp
  simpa using hcomp.symm

/-- A store at the head ended its address phase in an earlier cycle (43_load_store.md R323, R336). -/
theorem State.Timed.store_executed (h : s.Timed turn due) (hr : s.Running) (hd : s.HeadDone .store) :
    ∃ m, (s.robAt s.rob.head).timing.Executed (Config.latency s.cfg .ls) s.cycle m none := by
  obtain ⟨k, i, hb, hdest⟩ := hr.stationed _ hd.busy trivial (.inr hd.kind)
  obtain rfl := hr.table_of_head hd hb hdest
  have htimes := h.stations .ls i hb
  simp only [PhaseTimed, hr.storeDone_of_head hd hb hdest] at htimes
  rwa [hdest, hd.settledBefore] at htimes

/-- Each cycle of a store's transaction leaves its start in the record and one cycle less to go
(43_load_store.md R336, R337). -/
theorem State.Timed.transaction_of_held (h : s.Timed turn s.cycle) (hr : s.Running) (hd : s.HeadDone .store)
    (hs : s1 = storeBegun s ∧ s.port.owner = .none ∨ s1 = storeCounted s ∧ s.port.owner = .commit) :
    ∃ m, (s1.robAt s.rob.head).timing.Executed (Config.latency s.cfg .ls) m (some m) none ∧
      s1.port.remaining + (s.cycle + 1) = m + s.cfg.memLat := by
  have hhead := storeHeld_head hd.busy hs
  obtain ⟨rfl, ho⟩ | ⟨rfl, ho⟩ := hs
  · obtain ⟨m, n, x, y, ht, hlt, hlat, hy⟩ := h.store_executed hr hd
    have hmem := hr.sized.memLat_pos
    refine ⟨s.cycle, ⟨n, x, y, ?_, hlt, hlat, hy⟩, ?_⟩
    · rw [hhead, if_pos ho, ht]
    · change s.cfg.memLat - 1 + (s.cycle + 1) = _
      omega
  · obtain ⟨m, ht, hsum⟩ := h.transaction ho
    obtain ⟨-, -, -, hpos, -⟩ := hr.port.commit ho
    refine ⟨m, ht, ?_⟩
    change s.port.remaining - 1 + (s.cycle + 1) = _
    omega

/-- While the transaction goes on, only the head's record changes. -/
theorem State.Timed.held (h : s.Timed turn s.cycle) (hr : s.Running) (hd : s.HeadDone .store)
    (hs : s1 = storeBegun s ∧ s.port.owner = .none ∨ s1 = storeCounted s ∧ s.port.owner = .commit) :
    s1.Timed turn (s.cycle + 1) := by
  obtain ⟨hk, hother, hrs, -⟩ := storeHeld hs
  have htrans := h.transaction_of_held hr hd hs
  have hst : ∀ k i, s1.station k i = s.station k i := fun k i => by rw [State.station, State.table, hrs]; rfl
  have hent : ∀ u, (s1.robAt u).kind ≠ .store → s1.robAt u = s.robAt u := fun u hu => by
    refine hother u fun hhead => hu ?_
    rw [hhead, (hk.entry _).kind, hd.kind]
  refine h.carry hk.cfg hk.cycle (fun k i hb => ?_) (fun u hu => ?_) fun _ => hk.head ▸ htrans
  · rw [hst] at hb ⊢
    by_cases hhead : (s.station k i).dest = s.rob.head
    · obtain rfl := hr.table_of_head hd hb hhead
      obtain ⟨m, n, x, y, ht, hlt, hlat, hy⟩ := h.store_executed hr hd
      refine .inl ?_
      simp only [PhaseTimed, hr.storeDone_of_head hd hb hhead]
      rw [hhead, storeHeld_head hd.busy hs]
      refine ⟨_, n, x, y, by rw [ht], hlt, hlat, ?_⟩
      change y < (s.robAt s.rob.head).settledBefore s.cycle
      rwa [hd.settledBefore]
    · rw [hother _ hhead]
      exact .inr ⟨hb, rfl, .refl _, .refl _⟩
  · by_cases hstore : (s1.robAt u).kind = .store
    · exact .inl fun _ hne => absurd hstore hne
    · rw [hent u hstore]
      exact .inr ⟨hk.busy u ▸ hu, .refl _⟩

/-- Retirement leaves the records of the instructions behind the head. -/
theorem State.Timed.retired (h : s.Timed turn due) (ht : s.Retired t) (ho : t.port.owner ≠ .commit) {due' : Nat} :
    t.Timed turn due' := by
  have hsame : ∀ u, u ≠ s.rob.head → (s.robAt u).SameProgress (t.robAt u) := fun u hu => by
    obtain ⟨m, hent, -⟩ := ht.entries u hu
    rw [hent]
    exact ⟨rfl, rfl, rfl, rfl, rfl⟩
  refine h.carry ht.shape.cfg ht.shape.cycle (fun k i hb => ?_) (fun u hu => ?_) fun hown => absurd hown ho
  · obtain ⟨heq, hsb, hne⟩ := ht.busy_station hb
    rw [heq]
    exact .inr ⟨hsb, rfl, .refl _, hsame _ hne⟩
  · have hne : u ≠ s.rob.head := by
      rintro rfl
      exact absurd (ht.freed.symm.trans hu) (by simp)
    obtain ⟨m, hent, -⟩ := ht.entries u hne
    exact .inr ⟨by rwa [hent] at hu, hsame u hne⟩

/-- Only a port that a store's transaction holds ends the cycle held by it. -/
theorem owner_of_settle {p : Port} (h : p.settle.owner = .commit) : p.settle = p := by
  unfold Port.settle at *
  split at h
  · cases h
  · next hr => rw [if_neg hr]

theorem State.Timed.settlePort (h : s.Timed turn due) : State.Timed { s with port := s.port.settle } turn due := by
  refine h.carry (t := { s with port := s.port.settle }) rfl rfl (fun k i hb => .inr ⟨hb, rfl, .refl _, .refl _⟩)
    (fun u hu => .inr ⟨hu, .refl _⟩) fun ho => ?_
  change s.port.settle.owner = .commit at ho
  have hport := owner_of_settle ho
  change ∃ m, _ ∧ s.port.settle.remaining + due = _
  rw [hport] at ho ⊢
  exact h.transaction ho

/-- What has happened before now has happened before the next cycle, when no transaction is under way. -/
theorem State.Timed.withDue (h : s.Timed turn due) (ho : s.port.owner ≠ .commit) (due' : Nat) : s.Timed turn due' :=
  { h with transaction := fun hown => absurd hown ho }

/-- Commit keeps the records right; the port is settled at the end of the cycle. -/
theorem State.Timed.commit (h : s.Timed turn s.cycle) (hr : s.Running) :
    State.Timed { commit s with port := (commit s).port.settle } turn (s.cycle + 1) := by
  obtain ⟨ho, heq⟩ | ⟨hd, s1, hs, ⟨-, heq⟩ | ⟨-, heq⟩⟩ | ⟨ho, hd, heq⟩ | ⟨ho, k, hk, hd, heq⟩ :=
    commit_cases_of_running hr <;> rw [heq]
  · exact (h.withDue ho _).settlePort
  · exact (h.held hr hd hs).settlePort
  · refine h.retired (hr.retired_stored hd hs) ?_
    change (Port.settle { s1.port with release := true }).owner ≠ .commit
    simp [Port.settle]
  · exact (h.retired (hr.retired_written ho hd) (by simpa using ho)).settlePort
  · exact (h.retired (hr.retired_plain ho hk hd) ho).settlePort

/-! ### The records of commit events -/

/-- An event emitted in the state `t` of configuration `cfg` carries a record as it has to be. -/
def EventsTimed (cfg : Config) (t : State) : Prop := ∀ e ∈ t.events, e.timing.RetiredOk cfg e.op

theorem EventsTimed.retire {cfg : Config} (h : EventsTimed cfg s) (hb : (s.robAt s.rob.head).busy = true)
    (hret : (s.robAt s.rob.head).RetirableAt cfg s.cycle) : EventsTimed cfg (retire s) := by
  intro e he
  rw [retire_events hb] at he
  obtain he | he := List.mem_append.1 he
  · exact h e he
  · rw [List.mem_singleton.1 he]
    exact hret

/-- What is not a store and done retires with a complete record. -/
theorem State.Timed.retirable_head (h : s.Timed turn due) (hr : s.Running) {k : RobKind} (hd : s.HeadDone k)
    (hk : k ≠ .store) : (s.robAt s.rob.head).RetirableAt s.cfg s.cycle := by
  have hret := h.complete _ hd.busy (hd.complete hr) (hd.kind ▸ hk)
  rwa [hd.settledBefore] at hret

theorem op_of_store_kind {o : Op} (h : o.kind = .store) : o = .sd := by
  cases o with
  | sd => rfl
  | _ => cases h

/-- A store retires in the last cycle of its transaction (43_load_store.md R338). -/
theorem State.Timed.retirable_stored (h : s.Timed turn s.cycle) (hr : s.Running) (hd : s.HeadDone .store)
    (hs : s1 = storeBegun s ∧ s.port.owner = .none ∨ s1 = storeCounted s ∧ s.port.owner = .commit)
    (hlast : s1.port.remaining = 0) :
    ((stored s1).robAt (stored s1).rob.head).RetirableAt s.cfg (stored s1).cycle := by
  have hk := (storeHeld hs).1
  obtain ⟨m, ⟨n, x, y, ht, hlt, hlat, hy⟩, hsum⟩ := h.transaction_of_held hr hd hs
  have hb : (s1.robAt s1.rob.head).busy = true := by rw [hk.head, hk.busy, hd.busy]
  have hop : (s1.robAt s.rob.head).op = .sd := by
    have hkind := (hr.entries _ hd.busy).kind
    rw [(hk.entry _).op]
    exact op_of_store_kind (hkind.symm.trans hd.kind)
  have hcycle : (stored s1).cycle = s.cycle := hk.cycle
  rw [stored_head, head_stored hb, hk.head, hcycle, hk.cycle]
  unfold RobEntry.RetirableAt
  simp only [hop, ht]
  exact ⟨n, x, y, m, s.cycle, rfl, hlt, hlat, hy, by omega⟩

theorem State.Timed.commit_events (h : s.Timed turn s.cycle) (hr : s.Running) (he : EventsTimed s.cfg s) :
    EventsTimed s.cfg (Machine.commit s) := by
  obtain ⟨-, heq⟩ | ⟨hd, s1, hs, ⟨-, heq⟩ | ⟨hlast, heq⟩⟩ | ⟨-, hd, heq⟩ | ⟨-, k, hk, hd, heq⟩ :=
    commit_cases_of_running hr <;> rw [heq]
  · exact he
  · rw [EventsTimed, (storeHeld hs).1.events]
    exact he
  · have hplace := (storeHeld hs).1.placeKept.trans (placeKept_stored s1)
    refine EventsTimed.retire ?_ (by rw [hplace.head, hplace.busy, hd.busy]) (h.retirable_stored hr hd hs hlast)
    rw [EventsTimed, hplace.events]
    exact he
  · have hplace := placeKept_written s
    have hhead : (written s).robAt (written s).rob.head = s.robAt s.rob.head := by
      rw [hplace.head, robAt_written, settleCheckpoint, if_neg (by simp [hd.kind])]
    refine EventsTimed.retire ?_ (by rw [hhead, hd.busy]) ?_
    · rw [EventsTimed, hplace.events]
      exact he
    · rw [hhead, hplace.cycle]
      exact h.retirable_head hr hd (by simp)
  · exact he.retire hd.busy (h.retirable_head hr hd (by rcases hk with rfl | rfl <;> simp))

/-! ### The end of the cycle -/

theorem RobEntry.le_settledBefore (c : Nat) (r : RobEntry) : c ≤ r.settledBefore c := by
  unfold settledBefore
  split <;> omega

/-- All deadlines of this cycle lie before those of the next. -/
theorem settledBefore_markDone (c : Nat) (r : RobEntry) :
    r.settledBefore c ≤ (markDone r).settledBefore (c + 1) :=
  (r.settledBefore_le c).trans (RobEntry.le_settledBefore _ _)

/-- When every countdown has run for this cycle, the end of the cycle makes the next one the cycle of every next visit
(40_engine_cycle.md R260). -/
theorem State.Timed.boundary (h : s.Timed (fun _ _ => s.cycle + 1) (s.cycle + 1)) (hr : s.Running) :
    (boundary s).Timed (fun _ _ => (boundary s).cycle) (boundary s).cycle where
  stations k i hb := by
    rw [robAt_boundary]
    exact (h.stations k i hb).congr (.refl _) (markDone_timing _) (settledBefore_markDone _ _)
  complete u hb hc hk := by
    rw [robAt_boundary] at *
    rw [markDone_busy] at hb
    rw [markDone_complete] at hc
    rw [markDone_kind] at hk
    have hret := (h.complete u hb hc hk).mono ((hr.entries u hb).kind ▸ hk) (settledBefore_markDone _ _)
    rw [RobEntry.RetirableAt, markDone_op, markDone_timing]
    exact hret
  transaction ho := by
    change s.port.settle.owner = .commit at ho
    change ∃ m, ((Machine.boundary s).robAt s.rob.head).timing.Executed _ m (some m) none ∧
      s.port.settle.remaining + (s.cycle + 1) = _
    have hport := owner_of_settle ho
    rw [hport] at ho ⊢
    rw [robAt_boundary, markDone_timing]
    exact h.transaction ho

/-- The stages after issue keep the records right and emit events with right records. -/
theorem State.Timed.restOfCycle (h : s.Timed (fun _ _ => s.cycle) s.cycle) (hr : s.Running)
    (he : EventsTimed s.cfg s) (ht : t = endOfCycle (Machine.commit (executeAndWriteBack s))) :
    t.Timed (fun _ _ => t.cycle) t.cycle ∧ EventsTimed s.cfg t := by
  have hcore := coreKept_executeAndWriteBack s
  have hrun := hr.executeAndWriteBack
  have htimed : (executeAndWriteBack s).Timed (fun _ _ => (executeAndWriteBack s).cycle + 1)
      (executeAndWriteBack s).cycle := by
    rw [hcore.cycle, executeAndWriteBack, unlessFaulted_of_none _ hr.noFault,
      unlessFaulted_of_none _ hr.execute.noFault]
    exact (h.execute hr).writeBack hr.execute
  have hevents : EventsTimed (executeAndWriteBack s).cfg (executeAndWriteBack s) := by
    rw [EventsTimed, hcore.cfg, hcore.events]
    exact he
  have hcommitted := htimed.commit hrun
  have hend := htimed.commit_events hrun hevents
  rw [hcore.cfg] at hend
  have hcycle : (Machine.commit (executeAndWriteBack s)).cycle = (executeAndWriteBack s).cycle :=
    (shapeKept_commit _).cycle
  rw [← hcycle] at hcommitted
  have hfault : (Machine.commit (executeAndWriteBack s)).fault = none := hrun.commit.noFault
  rw [ht, endOfCycle_of_noFault hfault]
  exact ⟨hcommitted.boundary hrun.commit, hend⟩

end Commit

end Sys2Proof.Machine

/-! ### Issue -/

namespace Sys2Proof.Machine

section Issue

variable {s t : State} {turn : FuClass → Nat → Nat} {due : Nat} {f : IssueForm}

/-- Filling a station, snapshot, rename and next pc leave the record, the opcode and the completion bit of every entry. -/
theorem robAt_issueToStation (f : IssueForm) (c : FuClass) (tag : Nat) (s : State) (u : Nat) :
    (s.robAt u).timing = ((issueToStation f c tag s).robAt u).timing ∧
      (s.robAt u).op = ((issueToStation f c tag s).robAt u).op ∧
      (s.robAt u).complete = ((issueToStation f c tag s).robAt u).complete := by
  obtain ⟨v, h⟩ | ⟨j, k, -, -, h⟩ := issueToStation_cases f c tag s <;> rw [h]
  · exact ⟨rfl, rfl, rfl⟩
  · obtain ⟨pc, hpc⟩ := chooseNextPc_eq f.op tag
      (renameDest f.dest tag (snapshotBranch f.op tag (fillStation f c tag j k s)))
    have hfill : (fillStation f c tag j k s).robAt u = s.robAt u := by
      unfold fillStation
      split <;> rfl
    have hrob : (issueToStation f c tag s).robAt u =
        (snapshotBranch f.op tag (fillStation f c tag j k s)).robAt u := by
      rw [h, hpc]
      cases f.dest <;> rfl
    rw [← h, hrob, robAt_snapshotBranch, hfill]
    split <;> exact ⟨rfl, rfl, rfl⟩

/-- The entry of the instruction just issued: issue is recorded, nothing else, and only a nop is complete
(40_engine_cycle.md R211, R218). -/
theorem robAt_issue_tail (hcan : s.canIssue f.op = true) (htail : s.rob.tail < s.rob.entries.length) :
    ((issue f s).robAt s.rob.tail).timing = ⟨some s.cycle, none, none, none, none, none, none⟩ ∧
      (((issue f s).robAt s.rob.tail).complete = true → ((issue f s).robAt s.rob.tail).op = .nop) := by
  have hnew : (allocateRob f s).robAt s.rob.tail = newRobEntry f s (s.robAt s.rob.tail) := by
    rw [robAt_allocateRob, if_pos ⟨rfl, htail⟩]
  obtain ⟨hno, -⟩ | ⟨-, hcls, heq⟩ | ⟨c, -, -, heq⟩ := issue_cases f s
  · exact absurd (hcan.symm.trans hno) (by simp)
  · obtain ⟨pc, hpc⟩ := chooseNextPc_eq f.op s.rob.tail (completeAtIssue s.rob.tail (allocateRob f s))
    have hlen : s.rob.tail < (allocateRob f s).rob.entries.length := (shapeKept_allocateRob f s).robLength ▸ htail
    have hrob : (issue f s).robAt s.rob.tail = { newRobEntry f s (s.robAt s.rob.tail) with complete := true } := by
      rw [heq, hpc, ← hnew]
      exact robAt_modifyRob_same _ _ hlen
    rw [hrob]
    refine ⟨rfl, fun _ => ?_⟩
    change f.op = .nop
    cases hop : f.op <;> simp_all [Op.fuClass]
  · obtain ⟨htiming, -, hcomp⟩ := robAt_issueToStation f c s.rob.tail (allocateRob f s) s.rob.tail
    rw [heq, ← htiming, ← hcomp, hnew]
    exact ⟨rfl, fun hc => by cases hc⟩

/-- A new instruction has its issue recorded and nothing else. -/
theorem State.Timed.issue (h : s.Timed turn due) (hr : s.Running) (i : Instr) :
    (issue (issueForm i) s).Timed turn due := by
  obtain heq | ⟨hc, r, c₀, i₀, he⟩ := hr.issue_stalls_or_enters i
  · rw [heq]; exact h
  have hcan : s.canIssue (issueForm i).op = true := by
    by_contra hno
    have heq : Machine.issue (issueForm i) s = s := if_neg hno
    have hcount := he.count
    rw [heq] at hcount
    omega
  obtain ⟨htiming, hcomplete⟩ := robAt_issue_tail hcan (hr.ring.tail_lt hr.sized)
  generalize Machine.issue (issueForm i) s = t at *
  have htail : t.robAt s.rob.tail = r := by rw [he.entries, if_pos rfl]
  have hkeep : ∀ u, (s.robAt u).busy = true → t.robAt u = s.robAt u := fun u hu => by
    rw [he.entries, if_neg (ne_tail_of_busy hr.ring hc hu)]
  refine h.carry he.shape.cfg he.shape.cycle (fun k m hb => ?_) (fun u hu => ?_) fun ho => ?_
  · obtain ⟨heq, hsb⟩ | ⟨-, -, -, hdest, hphase⟩ := he.busy_station hb
    · rw [heq, hkeep _ (hr.stations k m hsb).inFlight]
      exact .inr ⟨hsb, rfl, .refl _, .refl _⟩
    · refine .inl ?_
      simp only [PhaseTimed, hphase, hdest]
      exact ⟨_, htiming⟩
  · by_cases hu' : u = s.rob.tail
    · rw [hu']
      refine .inl fun hcomp _ => ?_
      have hdone : (t.robAt s.rob.tail).done = false := htail ▸ he.notDone
      rw [RobEntry.RetirableAt, RobEntry.settledBefore, hcomplete hcomp, htiming, if_neg (by simp [hdone])]
      exact ⟨s.cycle, s.cycle + 1, rfl, Nat.lt_succ_self _⟩
    · rw [he.entries, if_neg hu'] at hu ⊢
      exact .inr ⟨hu, .refl _⟩
  · rw [he.port] at ho ⊢
    rw [he.head, hkeep _ (hr.head_busy (hr.port.commit ho).1)]
    exact h.transaction ho

end Issue

/-! ### Whole runs -/

/-- At a cycle boundary every event emitted and, while no fault is set, every record in flight is as it has to be. -/
structure State.TimedRun (cfg : Config) (s : State) : Prop where
  inv : s.Inv
  config : s.cfg = cfg
  events : EventsTimed cfg s
  inFlight : s.fault = none → s.Timed (fun _ _ => s.cycle) s.cycle

theorem State.TimedRun.step {cfg : Config} {s t : State} (h : s.TimedRun cfg) (ht : step s = .next t) :
    t.TimedRun cfg := by
  have hinv := engineInvariantKept s t h.inv ht
  cases hf : s.fault with
  | some f =>
    rw [step_of_fault h.inv.sized.legal hf] at ht
    obtain rfl := Host.Outcome.next.inj ht
    exact ⟨hinv, h.config, h.events, fun hnone => absurd (hf.symm.trans hnone) (by simp)⟩
  | none =>
    obtain ⟨w, r, -, rfl⟩ | ⟨u, hu, heq, hfrom⟩ := h.inv.step_stops_or_runs hf ht
    · exact ⟨hinv, h.config, h.events, fun hnone => by cases hnone⟩
    · have hs := h.inv.running hf
      have htimed := h.inFlight hf
      obtain ⟨hcfg, hissued, hevents⟩ : u.cfg = s.cfg ∧ u.Timed (fun _ _ => u.cycle) u.cycle ∧ u.events = s.events := by
        obtain rfl | ⟨i, rfl⟩ := hfrom
        · exact ⟨rfl, htimed, rfl⟩
        · have hshape := shapeKept_issue (issueForm i) s
          rw [hshape.cycle]
          exact ⟨hshape.cfg, htimed.issue hs i, (hs.issue_beforeCommit i).events⟩
      have hbefore : EventsTimed u.cfg u := by
        rw [EventsTimed, hcfg, h.config, hevents]
        exact h.events
      obtain ⟨hend, hemitted⟩ := hissued.restOfCycle hu hbefore heq
      rw [hcfg, h.config] at hemitted
      refine ⟨hinv, ?_, hemitted, fun _ => hend⟩
      obtain ⟨t', ht', -, hcfg', -⟩ := everyStepCountsOneCycle s h.inv.sized.legal
      rw [Host.Outcome.next.inj (ht.symm.trans ht'), hcfg', h.config]

/-- Nothing has retired and nothing is in flight after a launch. -/
theorem launch_timedRun {cfg : Config} {prog : List InstrWord} (hc : cfg.legal = true) (hp : prog.length < 2 ^ 32)
    (arfInit : List (Reg × Word)) (memInit : List (Word × Word)) :
    (State.launch cfg prog arfInit memInit).TimedRun cfg := by
  obtain ⟨hcfg, -, hevents⟩ := launch_cfg (cfg := cfg) (prog := prog) arfInit memInit
  have hq := launch_quiet hc hp arfInit memInit
  refine ⟨launch_inv hc hp arfInit memInit, hcfg, by simp [EventsTimed, hevents], fun _ => ⟨fun k i hb => ?_,
    fun u hb => ?_, fun ho => ?_⟩⟩
  · exact absurd ((hq.stations k i).symm.trans hb) (by simp)
  · exact absurd ((hq.entries u).symm.trans hb) (by simp)
  · rw [hq.port] at ho
    cases ho

/-- A launch that is not legal has no run but the empty one (70_reset_and_hazards.md R433). -/
theorem run_of_illegal_launch {s t : State} (hl : s.launchLegal = false) {n : Nat}
    (h : Host.Core.run Sys2Proof.core n s = .next t) : t = s := by
  cases n with
  | zero => exact (Host.Outcome.next.inj h).symm
  | succ n =>
    have hstep : Sys2Proof.core.step s = .refused .illegalLaunch := if_neg (by simp [hl])
    simp only [Host.Core.run, hstep] at h
    cases h

/-- Settles O53: every step of a legal launch keeps the records in flight right, and commit emits the head's. -/
theorem retiredTimingRecords : Obligations.RetiredTimingRecords := by
  intro cfg prog arfInit memInit n t ht e he
  obtain ⟨hcfg, hprog, hevents⟩ := launch_cfg (cfg := cfg) (prog := prog) arfInit memInit
  by_cases hl : (State.launch cfg prog arfInit memInit).launchLegal = true
  · obtain ⟨hc, hp⟩ := Bool.and_eq_true_iff.1 hl
    rw [hcfg] at hc
    rw [hprog] at hp
    obtain ⟨t', ht', hrun⟩ := run_next_of_step (State.TimedRun cfg) (fun s hs => by
      obtain ⟨u, hu, -⟩ := everyStepCountsOneCycle s hs.inv.sized.legal
      exact ⟨u, hu, hs.step hu⟩) n (launch_timedRun hc (of_decide_eq_true hp) arfInit memInit)
    rw [Host.Outcome.next.inj (ht.symm.trans ht')] at he
    exact hrun.events e he
  · rw [run_of_illegal_launch (by simpa using hl) ht, hevents] at he
    cases he

end Sys2Proof.Machine

/-! ## Reset and the first cycle (70_reset_and_hazards.md R430 to R434) -/

namespace Sys2Proof.Machine

/-! ### The launched state -/

section Launch

variable {cfg : Config} {prog : List InstrWord}

theorem launch_nextSeq (arfInit : List (Reg × Word)) (memInit : List (Word × Word)) :
    (State.launch cfg prog arfInit memInit).nextSeq = 0 := by
  obtain ⟨ints, fps, hw⟩ := writeRegs_eq arfInit (State.blank cfg prog)
  rw [launch_eq, hw]
  rfl

/-- No event has been emitted at a launch and no sequence id has been given out. -/
theorem launch_eventsOk (hc : cfg.legal = true) (hp : prog.length < 2 ^ 32) (arfInit : List (Reg × Word))
    (memInit : List (Word × Word)) : (State.launch cfg prog arfInit memInit).EventsOk := by
  obtain ⟨-, -, hevents⟩ := launch_cfg (cfg := cfg) (prog := prog) arfInit memInit
  constructor
  case inOrder => rw [hevents]; rfl
  case dense => rw [hevents, launch_nextSeq, (launch_quiet hc hp arfInit memInit).count]; rfl

end Launch

/-- Settles O46: a launch is quiet, a quiet engine with a canonical memory meets the invariant, and a launch has emitted
nothing. -/
theorem launchMeetsInvariant : Obligations.LaunchMeetsInvariant := fun _ _ arfInit memInit hc hp =>
  ⟨launch_inv hc hp arfInit memInit, launch_eventsOk hc hp arfInit memInit, launch_quiet hc hp arfInit memInit⟩

/-! ### Halted engines (10_state.md R56, 40_engine_cycle.md R203, R204) -/

/-- A quiet engine with nothing left to fetch is halted. -/
theorem State.Quiet.halted {s : State} (h : s.Quiet) (hpc : s.prog.length ≤ s.pc.toNat) : s.halted = true := by
  simp [State.halted, State.faulted, h.noFault, h.count, hpc]

/-- A run from a halted engine performs no cycle (40_engine_cycle.md R204). -/
theorem runCycles_of_halted {s : State} (h : s.halted = true) (n : Nat) : runCycles n s = .next s := by
  cases n with
  | zero => rfl
  | succ n => simp [runCycles, h]

theorem default_legal : Config.default.legal = true := by decide

/-- Settles O45: without launch values a launch is the reset state of its configuration, and with an empty program it is
quiet with nothing to fetch. -/
theorem resetIsTheDefaultLaunch : Obligations.ResetIsTheDefaultLaunch :=
  ⟨rfl, (blank_quiet default_legal (by decide)).halted (Nat.zero_le _), rfl, rfl, rfl, rfl, rfl, rfl⟩

/-! ### The cycle of issue

An instruction is not older than its own issue: in the cycle in which it enters the engine it neither starts
(40_engine_cycle.md R222 to R224) nor broadcasts (R230) nor retires (R245). -/

/-- Every instruction in a station was issued in the present cycle, the head is not done, and no store's transaction is
under way: the stages after issue have nothing to do. -/
structure State.JustIssued (s : State) : Prop where
  inFlight : s.StationsInFlight
  waiting : ∀ k i, (s.station k i).busy = true → (s.station k i).phase = .waiting
  issued : ∀ k i, (s.station k i).busy = true → (s.robAt (s.station k i).dest).timing.issue = some s.cycle
  head : s.rob.count ≠ 0 → (s.robAt s.rob.head).busy = true ∧ (s.robAt s.rob.head).done = false
  port : s.port.owner ≠ .commit

theorem unlessFaulted_of_fixed {f : State → State} {s : State} (h : f s = s) : unlessFaulted f s = s := by
  unfold unlessFaulted
  rw [h, ite_self]

section JustIssued

variable {s : State}

theorem State.JustIssued.danglingStation (h : s.JustIssued) (k : FuClass) : s.danglingStation k = none :=
  (danglingStation_eq_none s k).2 (h.inFlight k)

/-- An instruction does not start in the cycle of its issue (40_engine_cycle.md R222, R223). -/
theorem State.JustIssued.canStart (h : s.JustIssued) {k : FuClass} {i : Nat} (hb : (s.station k i).busy = true) :
    s.canStart k i = false := by
  simp [State.canStart, h.issued k i hb, before]

theorem State.JustIssued.visit (h : s.JustIssued) (k : FuClass) (i : Nat) : visit k i s = s := by
  cases hb : (s.station k i).busy with
  | false => simp [Machine.visit, hb]
  | true => simp [Machine.visit, hb, h.inFlight k i hb, h.waiting k i hb, h.canStart hb]

theorem State.JustIssued.scanTable (h : s.JustIssued) (k : FuClass) : scanTable k s = s := by
  unfold Machine.scanTable
  rw [h.danglingStation]
  exact foldUnlessFaulted_of_fixed fun i _ => h.visit k i

theorem State.JustIssued.execute (h : s.JustIssued) : execute s = s :=
  foldUnlessFaulted_of_fixed fun k _ => h.scanTable k

theorem State.JustIssued.writeBack (h : s.JustIssued) : writeBack s = s := by
  refine writeBack_of_none h.danglingStation fun k i => ?_
  cases hb : (s.station k i).busy with
  | false => exact isCandidate_of_free hb
  | true => simp [State.isCandidate, h.waiting k i hb]

theorem State.JustIssued.commit (h : s.JustIssued) : commit s = s := by
  by_cases hc : s.rob.count = 0
  · unfold Machine.commit
    rw [if_neg h.port, if_pos hc]
  · obtain ⟨hb, hd⟩ := h.head hc
    exact commit_of_not_done h.port hb hd

/-- After the issue of the only instructions in flight the end of the cycle follows at once. -/
theorem State.JustIssued.restOfCycle (h : s.JustIssued) : restOfCycle s = endOfCycle s := by
  unfold Machine.restOfCycle
  rw [unlessFaulted_of_fixed h.execute, unlessFaulted_of_fixed h.writeBack, unlessFaulted_of_fixed h.commit]

/-- Raising a fault changes none of the structures. -/
theorem State.JustIssued.raiseFault (h : s.JustIssued) (f : EngineFault) :
    (raiseFault f s).JustIssued := ⟨h.inFlight, h.waiting, h.issued, h.head, h.port⟩

end JustIssued

/-! ### The issue stage of a quiet engine -/

section Quiet

variable {q : State}

theorem State.Quiet.justIssued (h : q.Quiet) : q.JustIssued := by
  have hnone : ∀ k i, ¬ (q.station k i).busy = true := by simp [h.stations]
  exact ⟨fun k i hb => absurd hb (hnone k i), fun k i hb => absurd hb (hnone k i),
    fun k i hb => absurd hb (hnone k i), fun hc => absurd h.count hc, by simp [h.port]⟩

theorem State.Quiet.canIssue (h : q.Quiet) (op : Op) : q.canIssue op = true := by
  cases hcls : op.fuClass with
  | none => simp [State.canIssue, hcls, h.rob_room]
  | some k => exact (h.gatesOpen k).canIssue hcls

/-- The instruction issued into the quiet engine is its only one: it is the head, and every busy station is its own. -/
theorem State.Quiet.justIssued_issue (h : q.Quiet) (hr : q.Running) (i : Instr) :
    (issue (issueForm i) q).JustIssued := by
  obtain hstall | ⟨-, r, c₀, i₀, he⟩ := hr.issue_stalls_or_enters i
  · rw [hstall]
    exact h.justIssued
  have hissue := (robAt_issue_tail (h.canIssue (issueForm i).op) (hr.ring.tail_lt hr.sized)).1
  have hr' := hr.issue i
  generalize issue (issueForm i) q = t at *
  have hown : ∀ k m, (t.station k m).busy = true →
      t.Holds k (t.station k m) ∧ (t.station k m).dest = q.rob.tail ∧ (t.station k m).phase = .waiting := by
    intro k m hb
    obtain ⟨-, hold⟩ | ⟨-, -, hnew⟩ := he.busy_station hb
    · exact absurd ((h.stations k m).symm.trans hold) (by simp)
    · exact hnew
  have hhead : t.robAt t.rob.head = r := by rw [he.head, ← h.tail, he.entries, if_pos rfl]
  constructor
  case inFlight => exact fun k m hb => (hown k m hb).1.inFlight
  case waiting => exact fun k m hb => (hown k m hb).2.2
  case issued =>
    intro k m hb
    rw [(hown k m hb).2.1, hissue, he.shape.cycle]
  case head => exact fun hc => ⟨hr'.head_busy (Nat.pos_of_ne_zero hc), hhead ▸ he.notDone⟩
  case port => rw [he.port]; exact h.justIssued.port

/-- What the issue stage can answer (40_engine_cycle.md R202, R206, R207). -/
theorem issueStage_cases {s u : State} (h : issueStage s = .next u) :
    u = s ∨ (∃ w r, u = raiseIllegal w r s) ∨ ∃ i, u = issue (issueForm i) s := by
  unfold issueStage at h
  split at h
  · exact .inl (Host.Outcome.next.inj h).symm
  · split at h
    · exact .inl (Host.Outcome.next.inj h).symm
    · exact .inr (.inl ⟨_, _, (Host.Outcome.next.inj h).symm⟩)
    · rw [exec_eq_issue] at h
      exact .inr (.inr ⟨_, (Host.Outcome.next.inj h).symm⟩)

/-- A quiet engine's issue stage leaves nothing that could act before the cycle's end. -/
theorem State.Quiet.justIssued_issueStage (h : q.Quiet) (hr : q.Running) {u : State} (hu : issueStage q = .next u) :
    u.JustIssued := by
  obtain rfl | ⟨w, r, rfl⟩ | ⟨i, rfl⟩ := issueStage_cases hu
  · exact h.justIssued
  · exact h.justIssued.raiseFault _
  · exact h.justIssued_issue hr i

/-- From a quiet engine a step is the issue stage and the end of the cycle (70_reset_and_hazards.md R432). -/
theorem State.Quiet.step_eq_issueStage (h : q.Quiet) (hr : q.Running) {u : State} (hu : issueStage q = .next u) :
    step q = .next (endOfCycle u) := by
  rw [step, if_pos h.sized.legal, hu, completeCycle, (h.justIssued_issueStage hr hu).restOfCycle]

end Quiet

/-- Settles O13: a launched engine is quiet, and with an empty program it has nothing to fetch. -/
theorem firstCycleOnlyIssues : Obligations.FirstCycleOnlyIssues := by
  intro cfg prog arfInit memInit hl
  obtain ⟨hcfg, hprog, -⟩ := launch_cfg (cfg := cfg) (prog := prog) arfInit memInit
  obtain ⟨hc, hp⟩ := Bool.and_eq_true_iff.1 hl
  rw [hcfg] at hc
  rw [hprog, decide_eq_true_eq] at hp
  have hq := launch_quiet hc hp arfInit memInit
  refine ⟨fun u hu => hq.step_eq_issueStage ((launch_inv hc hp arfInit memInit).running hq.noFault) hu, ?_⟩
  rintro rfl
  have hhalted := hq.halted (by rw [hprog]; exact Nat.zero_le _)
  exact ⟨hhalted, runCycles_of_halted hhalted⟩

end Sys2Proof.Machine

/-! ## The cycle as a whole: what a step runs, when it is idle, and how it ends (40_engine_cycle.md R200 to R207, R260) -/

namespace Sys2Proof.Machine

/-! ### Fetch (40_engine_cycle.md R207) -/

theorem fetch_of_valid {s : State} {w : InstrWord} {i : Instr} (hw : s.prog[s.pc.toNat]? = some w)
    (hd : decode w = .valid i) : s.fetch = .instr i := by
  unfold State.fetch
  rw [hw]
  simp only
  rw [hd]

theorem fetch_of_length_le {s : State} (h : s.prog.length ≤ s.pc.toNat) : s.fetch = .idle := by
  unfold State.fetch
  rw [List.getElem?_eq_none h]

/-- Settles O7: fetch delivers the decoded instruction, and every arm of `exec` issues its form. -/
theorem stepRunsDecodedInstruction : Obligations.StepRunsDecodedInstruction := by
  intro s w i hl hf hw hd
  exact ⟨_, exec_eq_issue i s, step_of_instr hl hf (fetch_of_valid hw hd)⟩

/-- Settles O8: fetch is idle, so issue leaves the state to the other stages. -/
theorem fetchPastTheEndIsIdle : Obligations.FetchPastTheEndIsIdle := by
  intro s hl hf hpc
  exact step_of_idle hl hf (fetch_of_length_le hpc)

/-- Settles O20: a full ROB or a full table closes a gate, and issue behind a closed gate is the identity. -/
theorem closedGateStalls : Obligations.ClosedGateStalls := by
  have hstall : ∀ (s : State) (i : Instr), s.canIssue i.op = false → exec i s = .next s := by
    intro s i hcan
    rw [exec_eq_issue, issue, issueForm_op, if_neg (by simp [hcan])]
  refine fun s i => ⟨fun hfull => hstall s i ?_, fun c hc hbusy => hstall s i ?_⟩
  · simp [State.canIssue, hfull]
  · have hnone : s.freeStation c = none := List.findIdx?_eq_none_iff.2 fun e he => by
      obtain ⟨n, hn, rfl⟩ := mem_table.1 he
      simp [hbusy n hn]
    simp [State.canIssue, hc, hnone]

/-! ### The end of the cycle (40_engine_cycle.md R260) -/

/-- Settles O43: a fault leaves the clock alone to advance; otherwise the registered effects are those of
`settleCycle`. -/
theorem endOfCycleSettles : Obligations.EndOfCycleSettles := by
  refine fun s => ⟨fun hf => ?_, fun hf => ?_⟩
  · obtain ⟨f, hf⟩ := Option.ne_none_iff_exists'.1 hf
    rw [endOfCycle_eq, unlessFaulted_of_some _ hf]
  · rw [endOfCycle_eq, unlessFaulted_of_none _ hf]
    refine ⟨robAt_settleCycle s, fun c p hp => ?_, rfl, rfl, rfl, rfl, rfl, rfl, rfl, rfl, rfl, rfl, rfl, rfl, rfl, hf,
      rfl, .of_eq rfl rfl rfl⟩
    change (s.pools.map Pool.settle).get? c = _
    rw [get?_map_pools, hp]
    rfl

/-! ### Halted engines (10_state.md R56, 40_engine_cycle.md R203) -/

theorem halted_iff (s : State) :
    s.halted = true ↔ s.fault = none ∧ s.prog.length ≤ s.pc.toNat ∧ s.rob.count = 0 := by
  simp [State.halted, State.faulted, and_assoc]

/-- Under the invariant an engine without a fault and with an empty ROB is quiet: units, port and stations are held for
instructions in flight alone. -/
theorem State.Inv.quiet {s : State} (h : s.Inv) (hf : s.fault = none) (hc : s.rob.count = 0) : s.Quiet := by
  have hentries : ∀ t, (s.robAt t).busy = false := fun t => by
    by_contra hb
    obtain ⟨n, hn, -⟩ := (h.ring.busy_iff h.sized t).1 (by simpa using hb)
    omega
  have hstations : ∀ k i, (s.station k i).busy = false := fun k i => by
    by_contra hb
    exact absurd ((hentries _).symm.trans (h.stations.inFlight k i (by simpa using hb))) (by simp)
  have hpool : ∀ k p, s.pools.get? k = some p → p = ⟨0, 0⟩ := fun k p hp => by
    have hunits : s.executingCount k = 0 := List.countP_eq_zero.2 fun e he => by
      obtain ⟨i, -, rfl⟩ := mem_table.1 he
      simp [hstations]
    obtain ⟨n, hn⟩ : ∃ n, s.cfg.fuCount.get? k = some n := by
      cases k with
      | fpadd | int | mult | ls => exact ⟨_, rfl⟩
      | br => cases hp
    obtain ⟨hrelease, hbusy, -⟩ := h.pools k p n hp hn
    cases p
    simp_all
  have howner : s.port.owner = .none := by
    cases ho : s.port.owner with
    | none => rfl
    | load i => exact absurd ((hstations _ _).symm.trans (h.port.load i ho).1) (by simp)
    | commit => exact absurd (h.port.commit ho).1 (by omega)
  refine ⟨h.sized, hf, hc, h.ring.head, ?_, hentries, hstations, ?_, ?_, h.port.cdb, fun r => ?_⟩
  · rw [h.ring.tail, hc, Nat.add_zero, Nat.mod_eq_of_lt h.ring.head]
  · have hfp := hpool .fpadd _ rfl
    have hint := hpool .int _ rfl
    have hmult := hpool .mult _ rfl
    have hls := hpool .ls _ rfl
    calc s.pools = ⟨s.pools.fpadd, s.pools.int, s.pools.mult, s.pools.ls⟩ := rfl
      _ = _ := by rw [hfp, hint, hmult, hls]
  · have hidle := h.port.idle (by simp [howner])
    rw [← howner, ← hidle, ← h.port.release]
  · rw [h.rat.rat, hc]
    rfl

/-- The end of a cycle finds nothing to settle in a quiet engine. -/
theorem State.Quiet.endOfCycle_eq {s : State} (h : s.Quiet) : endOfCycle s = { s with cycle := s.cycle + 1 } := by
  have hrob : s.rob.entries.map markDone = s.rob.entries :=
    (List.map_congr_left (g := id) fun x hx => by
      obtain ⟨t, rfl⟩ := mem_entries hx
      exact markDone_of_free (h.entries t)).trans (List.map_id _)
  have hpools : s.pools.map Pool.settle = s.pools := by rw [h.pools]; rfl
  have hport : s.port.settle = s.port := by rw [h.port]; rfl
  have hcdb : { s.cdb with valid := false } = s.cdb := by rw [← h.cdb]
  rw [Machine.endOfCycle_eq, unlessFaulted_of_none _ h.noFault, settleCycle, hrob, hpools, hport, hcdb]

/-- Settles O11: a halted engine is quiet with nothing to fetch, so that no stage has anything to do. -/
theorem haltedEngineOnlyCounts : Obligations.HaltedEngineOnlyCounts := by
  refine fun s h => ⟨halted_iff s, fun hh => ?_⟩
  obtain ⟨hf, hpc, hc⟩ := (halted_iff s).1 hh
  have hq := h.quiet hf hc
  refine ⟨?_, hh⟩
  rw [step_of_idle h.sized.legal hf (fetch_of_length_le hpc), hq.justIssued.restOfCycle, hq.endOfCycle_eq]

/-! ### Issue of three registers (40_engine_cycle.md R211 to R219) -/

/-- Settles O15: each of the five writes a register and resolves both its operands against the RAT. -/
theorem threeRegisterInstructionsIssue : Obligations.ThreeRegisterInstructionsIssue := by
  intro s rd rs rt i c j k hi hs hr hg hj hk
  have hj' := fun f => hj.resolveOperand hr hg.1 f
  have hk' := fun f => hk.resolveOperand hr hg.1 f
  simp only [List.mem_cons, Prod.mk.injEq, List.not_mem_nil, or_false] at hi
  refine ⟨_, exec_eq_issue i s, ?_⟩
  obtain ⟨rfl, rfl⟩ | ⟨rfl, rfl⟩ | ⟨rfl, rfl⟩ | ⟨rfl, rfl⟩ | ⟨rfl, rfl⟩ := hi
  case inl => exact writer_issues (f := issueForm (.add rd rs rt)) hs hr hg rfl rfl rfl (hj' _) (hk' _)
  case inr.inl => exact writer_issues (f := issueForm (.sub rd rs rt)) hs hr hg rfl rfl rfl (hj' _) (hk' _)
  case inr.inr.inl => exact writer_issues (f := issueForm (.addD rd rs rt)) hs hr hg rfl rfl rfl (hj' _) (hk' _)
  case inr.inr.inr.inl => exact writer_issues (f := issueForm (.subD rd rs rt)) hs hr hg rfl rfl rfl (hj' _) (hk' _)
  case inr.inr.inr.inr => exact writer_issues (f := issueForm (.multD rd rs rt)) hs hr hg rfl rfl rfl (hj' _) (hk' _)

end Sys2Proof.Machine

/-! ## When a waiting entry starts (40_engine_cycle.md R222 to R225) -/

namespace Sys2Proof.Machine

/-! ### The conditions of a start -/

theorem Slot.ready_iff (x : Slot) : x.ready = true ↔ ∃ a, x = .resolved a := by
  cases x with
  | resolved v => exact ⟨fun _ => ⟨v, rfl⟩, fun _ => rfl⟩
  | pending t => exact ⟨fun h => (by cases h), fun ⟨_, h⟩ => (by cases h)⟩

theorem before_iff (x : Option Nat) (c : Nat) : before x c = true ↔ ∃ n < c, x = some n := by
  cases x with
  | none => simp [before]
  | some n => simp [before]

theorem unitFree_iff (s : State) (k : FuClass) :
    s.unitFree k = true ↔ ∀ p n, s.pools.get? k = some p → s.cfg.fuCount.get? k = some n → p.busy < n := by
  unfold State.unitFree
  cases s.pools.get? k with
  | none => simp
  | some p =>
    cases s.cfg.fuCount.get? k with
    | none => simp
    | some n => simp

theorem canStart_iff (s : State) (c : FuClass) (i : Nat) : s.canStart c i = true ↔
    (∃ a b, (s.station c i).j = .resolved a ∧ (s.station c i).k = .resolved b) ∧
    (∃ n < s.cycle, (s.robAt (s.station c i).dest).timing.issue = some n) ∧
    ∀ p n, s.pools.get? c = some p → s.cfg.fuCount.get? c = some n → p.busy < n := by
  simp only [State.canStart, Bool.and_eq_true, Slot.ready_iff, before_iff, unitFree_iff, exists_and_left,
    exists_and_right, and_assoc]

/-! ### What a start records -/

/-- Freeing entries leaves the rest of them. -/
theorem robAt_freeRobFrom_eq (t n : Nat) (s : State) (u : Nat) :
    ∃ b, (freeRobFrom t n s).robAt u = { s.robAt u with busy := b } := by
  induction n generalizing t s with
  | zero => exact ⟨_, rfl⟩
  | succ n ih =>
    obtain ⟨b, hb⟩ := ih ((t + 1) % s.cfg.robSize) (s.modifyRob t (fun e => { e with busy := false }))
    refine ⟨b, hb.trans ?_⟩
    rw [robAt_modifyRob]
    split <;> rfl

theorem robAt_squashTables (n : Nat) (ks : List FuClass) (s : State) (u : Nat) :
    (foldUnlessFaulted (squashTable n) ks s).robAt u = s.robAt u := by
  refine foldUnlessFaulted_keeps (fun t => t.robAt u = s.robAt u) _ ks (fun k _ t _ h => Eq.trans ?_ h) rfl
  unfold squashTable
  split <;> rfl

/-- Squash and recovery leave every entry but its `busy` bit (44_branch_recovery.md R375 to R378). -/
theorem robAt_squash_recover (b : Nat) (taken : Bool) (target : Pc) (s : State) (u : Nat) :
    ∃ x, (unlessFaulted (recover b taken target) (squash b s)).robAt u = { s.robAt u with busy := x } := by
  have htables := robAt_squashTables (s.robAt b).seq tableOrder s u
  cases hf : (foldUnlessFaulted (squashTable (s.robAt b).seq) tableOrder s).fault with
  | some f => exact ⟨_, by rw [squash_recover_of_fault b taken target hf, htables]⟩
  | none =>
    rw [squash_recover_of_noFault b taken target hf, robAt_recovered]
    obtain ⟨x, hx⟩ := robAt_freeRobFrom_eq ((b + 1) % (foldUnlessFaulted (squashTable (s.robAt b).seq) tableOrder
      s).cfg.robSize) ((foldUnlessFaulted (squashTable (s.robAt b).seq) tableOrder s).rob.count -
        ((foldUnlessFaulted (squashTable (s.robAt b).seq) tableOrder s).robOffset b + 1))
      (foldUnlessFaulted (squashTable (s.robAt b).seq) tableOrder s) u
    rw [htables] at hx
    exact ⟨x, hx⟩

/-- The resolution of a branch touches no timing record. -/
theorem timing_resolveBranch (i : Nat) (s : State) (u : Nat) :
    ((resolveBranch i s).robAt u).timing = (s.robAt u).timing := by
  have hres : ((resolved i s).robAt u).timing = (s.robAt u).timing := by
    change ((s.modifyRob _ _).robAt u).timing = _
    rw [robAt_modifyRob]
    split <;> rfl
  obtain h | ⟨taken, target, h⟩ := resolveBranch_cases i s <;> rw [h]
  · exact hres
  · obtain ⟨x, hx⟩ := robAt_squash_recover (s.station .br i).dest taken target (resolved i s) u
    rw [hx]
    exact hres

/-- The end of execution leaves its start in the record. -/
theorem exStart_finish (k : FuClass) (i : Nat) (s : State) (u : Nat) :
    ((finish k i s).robAt u).timing.exStart = (s.robAt u).timing.exStart := by
  have hfinishing : ((finishing k i s).robAt u).timing.exStart = (s.robAt u).timing.exStart := by
    change ((s.modifyRob _ _).robAt u).timing.exStart = _
    rw [robAt_modifyRob]
    split <;> rfl
  have heq := finish_eq k i s
  cases k with
  | br => exact (congrArg Timing.exStart (timing_resolveBranch i (finishing .br i s) u)).trans hfinishing
  | ls =>
    rw [heq]
    change ((lsFinish i (finishing .ls i s)).robAt u).timing.exStart = _
    unfold lsFinish
    dsimp only
    split
    · exact hfinishing
    · rw [robAt_modifyRob]
      split <;> exact hfinishing
  | fpadd | int | mult => exact hfinishing

theorem exStart_start {k : FuClass} {i : Nat} {s : State} (hb : (s.station k i).busy = true)
    (hr : (s.robAt (s.station k i).dest).busy = true) :
    ((start k i s).robAt (s.station k i).dest).timing.exStart = some s.cycle := by
  have hstarted := congrArg (fun r : RobEntry => r.timing.exStart) (visited_started hb hr).entry
  rw [start_eq]
  split
  · exact (exStart_finish k i _ _).trans hstarted
  · exact hstarted

/-- Settles O29: the visit of a waiting entry is its start when it can start and nothing otherwise. -/
theorem waitingEntryStartsExactlyWhen : Obligations.WaitingEntryStartsExactlyWhen := by
  intro s c i hb hr hp
  have hvisit : visit c i s = if s.canStart c i then start c i s else s := by
    unfold visit
    simp [hb, hr, hp]
  rw [← canStart_iff, hvisit]
  refine ⟨fun hcan => ?_, fun hcan => if_neg hcan⟩
  rw [if_pos hcan]
  exact exStart_start hb hr

end Sys2Proof.Machine

/-! ## Write-back: arbitration and broadcast (40_engine_cycle.md R230 to R236) -/

namespace Sys2Proof.Machine

/-! ### Arbitration -/

section Arbitration

variable {s : State} {ks : List FuClass} {k : FuClass} {i : Nat}

theorem isCandidate_iff : s.isCandidate k i = true ↔ s.Candidate k i := by
  simp only [State.isCandidate, State.Candidate, Bool.and_eq_true, decide_eq_true_eq, and_assoc, before_iff, readyCycle]

theorem arbitrate_eq_noCandidate (h : s.arbitrate ks = .noCandidate) :
    ∀ c ∈ ks, ∀ m, s.isCandidate c m = false := by
  induction ks with
  | nil => simp
  | cons c ks ih =>
    unfold State.arbitrate at h
    split at h
    · cases h
    · split at h
      · cases h
      · next hnone =>
        intro d hd m
        rcases List.mem_cons.1 hd with rfl | hd
        · by_contra hm
          have hm : s.isCandidate d m = true := by simpa using hm
          exact List.find?_eq_none.1 hnone m ((mem_ageOrder s d m).2 (isCandidate_iff.1 hm).1) hm
        · exact ih h d hd m

/-- The winner is the first candidate of its table in age order (40_engine_cycle.md R231). -/
theorem find?_of_winner (h : s.arbitrate ks = .winner k i) : (s.ageOrder k).find? (s.isCandidate k) = some i := by
  induction ks with
  | nil => cases h
  | cons c ks ih =>
    unfold State.arbitrate at h
    split at h
    · cases h
    · split at h
      · next hfind =>
        obtain ⟨rfl, rfl⟩ := CdbPick.winner.inj h
        exact hfind
      · exact ih h

/-- The winner is the oldest candidate of its table. -/
theorem stationSeq_le_of_winner (h : s.arbitrate ks = .winner k i) {m : Nat} (hm : s.isCandidate k m = true) :
    s.stationSeq k i ≤ s.stationSeq k m := by
  obtain ⟨-, older, younger, heq, holder⟩ := List.find?_eq_some_iff_append.1 (find?_of_winner h)
  have hmem := (mem_ageOrder s k m).2 (isCandidate_iff.1 hm).1
  have hsorted := ageOrder_sorted s k
  rw [heq] at hmem hsorted
  obtain hmem | hmem := List.mem_append.1 hmem
  · simp at holder
    exact absurd hm (by simp [holder m hmem])
  · rcases List.mem_cons.1 hmem with rfl | hmem
    · exact le_rfl
    · exact (List.pairwise_cons.1 (List.pairwise_append.1 hsorted).2.1).1 m hmem

theorem idxOf_lt_of_append {c d : FuClass} {l : List FuClass} {l₁ l₂ : List FuClass} (hl : l.Nodup)
    (heq : l = l₁ ++ c :: l₂) (hd : d ∈ l) (hne : d ≠ c) (hl₁ : d ∉ l₁) : l.idxOf c < l.idxOf d := by
  subst heq
  have hc : c ∉ l₁ := fun hc => (List.nodup_append.1 hl).2.2 c hc c (by simp) rfl
  rw [List.idxOf_append_of_notMem hc, List.idxOf_append_of_notMem hl₁, List.idxOf_cons_self,
    List.idxOf_cons_ne _ (Ne.symm hne)]
  omega

end Arbitration

/-- Settles O36: the winner's table is the first with a candidate, and the scan of a table rises by age. -/
theorem arbitrationPicksFirst : Obligations.ArbitrationPicksFirst := by
  intro s hs
  have hd : ∀ c, s.danglingStation c = none := fun c => (danglingStation_eq_none s c).2 (hs c)
  refine ⟨fun c i hw => ?_, fun ⟨c, i, hci⟩ => ?_, fun hnone => ?_⟩
  · obtain ⟨earlier, later, horder, -, hcand, hearlier⟩ := arbitrate_winner hw
    refine ⟨isCandidate_iff.1 hcand, fun d m hdm => ?_⟩
    have hm := isCandidate_iff.2 hdm
    by_cases hdc : d = c
    · subst hdc
      exact .inr ⟨rfl, stationSeq_le_of_winner hw hm⟩
    · refine .inl (idxOf_lt_of_append (by decide) horder (mem_tableOrder d) hdc fun hmem => ?_)
      exact absurd hm (by simp [hearlier d hmem m ((mem_ageOrder s d m).2 hdm.1)])
  · cases hw : s.arbitrate tableOrder with
    | winner d m => exact ⟨d, m, rfl⟩
    | dangling u => exact absurd hw (arbitrate_ne_dangling hd _ u)
    | noCandidate =>
      exact absurd (isCandidate_iff.2 hci) (by simp [arbitrate_eq_noCandidate hw c (mem_tableOrder c) i])
  · exact writeBack_of_none hd fun c m => by
      by_contra hm
      exact hnone c m (isCandidate_iff.1 (by simpa using hm))

/-! ### The broadcast -/

section Broadcast

variable {s : State} {k : FuClass} {i : Nat} {v : Word}

theorem capture_eq (tag : Nat) (v : Word) (x : Slot) :
    x.capture tag v = if x = .pending tag then .resolved v else x := by
  cases x with
  | resolved w => simp [Slot.capture]
  | pending t => simp [Slot.capture]

/-- The drain meets no dead tag where all stations and all operands they wait for are in flight. -/
theorem danglingOperand_of_waits (hs : s.StationsInFlight) (hw : s.WaitsInFlight) (c : FuClass) :
    s.danglingOperand c = none := by
  unfold State.danglingOperand
  rw [(danglingStation_eq_none s c).2 (hs c)]
  refine List.findSome?_eq_none_iff.2 fun m hm => ?_
  have hb := (mem_ageOrder s c m).1 hm
  have hslot : ∀ x, (s.station c m).j = x ∨ (s.station c m).k = x → s.danglingSlot x = none := by
    intro x hx
    cases x with
    | resolved _ => rfl
    | pending u => simp [State.danglingSlot, hw c m u hb hx]
  rw [hslot _ (.inl rfl), hslot _ (.inr rfl)]

theorem broadcast_of_waits (hs : s.StationsInFlight) (hw : s.WaitsInFlight) :
    broadcast k i v s = drained (onBus k i v s) := by
  rw [broadcast_eq_drainCdb]
  refine drainCdb_eq (danglingOperand_of_waits (fun c m hb => ?_) fun c m u hb hu => ?_)
  · have heq := (station_onBus_of_busy hb).1
    rw [heq] at hb ⊢
    exact hs c m hb
  · have heq := (station_onBus_of_busy hb).1
    rw [heq] at hb hu
    exact hw c m u hb hu

end Broadcast

/-- Settles O37: under live tags write-back of a winner is the write of the CDB and the drain, station by station and
entry by entry. -/
theorem broadcastReachesEveryWaiter : Obligations.BroadcastReachesEveryWaiter := by
  intro s c i a b v hs hw hwin hj hk hv
  obtain ⟨-, -, -, -, hcand, -⟩ := arbitrate_winner hwin
  have hb := (isCandidate_iff.1 hcand).1
  have hr := hs c i hb
  have hresult : resultOf (s.station c i) = some v := by
    simp only [List.mem_cons, Prod.mk.injEq, List.not_mem_nil, or_false] at hv
    unfold resultOf
    rw [hj, hk]
    obtain ⟨ho, rfl⟩ | ⟨ho, rfl⟩ | ⟨ho, rfl⟩ | ⟨ho, rfl⟩ | ⟨ho, rfl⟩ | ⟨ho, rfl⟩ | ⟨ho, rfl⟩ := hv <;> rw [ho] <;> rfl
  have heq : writeBack s = drained (onBus c i v s) := by
    unfold writeBack
    rw [hwin]
    simp only
    rw [hresult]
    exact broadcast_of_waits hs hw
  have hentry := robAt_drained_onBus (v := v) hr
  rw [heq]
  refine ⟨⟨rfl, rfl, rfl⟩, ⟨rfl, rfl, rfl, rfl, rfl, rfl, rfl, rfl⟩, rfl, rfl, rfl, ?_, fun d m hdm hbusy => ?_,
    fun d m hfree => ?_, ?_, fun u hu => ?_, rfl, .of_eq rfl rfl rfl⟩
  · by_contra hfree
    exact (station_drained_onBus_of_busy (by simpa using hfree)).2.2 ⟨rfl, rfl⟩
  · rw [station_drained_onBus_other fun h => hdm (by rw [h.1, h.2]), captureBroadcast, if_pos hbusy, capture_eq,
      capture_eq]
  · have hne : ¬(d = c ∧ m = i) := by
      rintro ⟨rfl, rfl⟩
      exact absurd (hb.symm.trans hfree) (by simp)
    rw [station_drained_onBus_other hne, captureBroadcast, if_neg (by simp [hfree])]
  · rw [hentry, if_pos rfl]
  · rw [hentry, if_neg hu]

end Sys2Proof.Machine

/-! ## Commit: retirement and the register write (40_engine_cycle.md R245 to R249) -/

namespace Sys2Proof.Machine

section Commit

variable {s s1 t : State}

/-- A retirement of a head in flight (40_engine_cycle.md R248, R249). -/
theorem headRetired_retire (hb : (s.robAt s.rob.head).busy = true) (hc : s.rob.count ≠ 0) :
    s.HeadRetired (retire s) (eventEffect (s.robAt s.rob.head))
      { (s.robAt s.rob.head).timing with commit := some s.cycle } := by
  refine ⟨retire_events hb, ?_, rfl, rfl, Nat.sub_add_cancel (Nat.pos_of_ne_zero hc)⟩
  rw [robAt_retire hb, if_pos rfl]
  rfl

theorem commitHead_of_branch (hd : (s.robAt s.rob.head).done = true) (hk : (s.robAt s.rob.head).kind = .branch) :
    commitHead s = retire s := by
  simp [commitHead, hd, hk]

theorem lookup_settle_same (m : AliasTable) (r : Reg) (h : Nat) :
    (m.settle r h).lookup r = (m.lookup r).committed h := by
  unfold AliasTable.settle RatEntry.committed
  split
  · rw [lookup_assign, if_pos rfl]
  · rfl

theorem lookup_settle_other (m : AliasTable) {r q : Reg} (hq : q ≠ r) (h : Nat) :
    (m.settle r h).lookup q = m.lookup q := by
  unfold AliasTable.settle
  split
  · rw [lookup_assign, if_neg hq]
  · rfl

/-- The register write leaves the head's own entry, which is no branch (40_engine_cycle.md R246). -/
theorem head_written (hk : (s.robAt s.rob.head).kind = .reg) :
    (written s).robAt (written s).rob.head = s.robAt s.rob.head := by
  rw [(placeKept_written s).head, robAt_written, settleCheckpoint, if_neg (by simp [hk])]

theorem readReg_written (s : State) (q : Reg) : (written s).readReg q =
    if q = (s.robAt s.rob.head).dest then (s.robAt s.rob.head).value else s.readReg q := by
  rw [← readReg_writeReg]
  cases q <;> rfl

theorem controlKept_written (s : State) : s.ControlKept (written s) := by
  constructor <;> simp [written]

end Commit

/-- Settles O41: commit of such a head is the retirement alone. -/
theorem branchAndNopRetire : Obligations.BranchAndNopRetire := by
  intro s ho hc hb hd hk
  have heq : commit s = retire s := by
    rw [commit_eq_commitHead ho hc hb]
    obtain hk | hk := hk
    · exact commitHead_of_branch hd hk
    · exact commitHead_of_nop hd hk
  have heffect : eventEffect (s.robAt s.rob.head) = .nothing := by
    obtain hk | hk := hk <;> simp [eventEffect, hk]
  rw [heq]
  refine ⟨heffect ▸ headRetired_retire hb hc, ?_, fun u hu => ?_, controlKept_retire s, .of_eq rfl rfl rfl, rfl, rfl,
    rfl, rfl⟩
  · rw [robAt_retire hb, if_pos rfl]
    rfl
  · rw [robAt_retire hb, if_neg hu]

/-- Settles O38: commit of such a head is the register write, which settles RAT and checkpoints, and the retirement. -/
theorem commitWritesRegister : Obligations.CommitWritesRegister := by
  intro s ho hc hb hd hk
  have hplace := placeKept_written s
  have hhead := head_written hk
  have hb1 : ((written s).robAt (written s).rob.head).busy = true := by rw [hhead, hb]
  have hread : ∀ q, (retire (written s)).readReg q = (written s).readReg q := fun q => by cases q <;> rfl
  have hentry : ∀ u, u ≠ s.rob.head → (retire (written s)).robAt u =
      settleCheckpoint (s.robAt s.rob.head).dest s.rob.head (s.robAt u) := fun u hu => by
    rw [robAt_retire hb1, hplace.head, if_neg hu, robAt_written]
  have hretired := headRetired_retire hb1 (by rwa [hplace.count])
  obtain ⟨hevents, hfreed, hnext, htail, hcount⟩ := hretired
  rw [hhead] at hevents
  rw [commit_eq_commitHead ho hc hb, commitHead_of_reg hd hk]
  refine ⟨?_, fun q hq => ?_, fun a => by rw [retire_mem, written_mem], ?_, fun q hq => ?_, fun u hu hub hbr => ?_,
    fun u hu => ?_, ⟨?_, ?_, ?_, ?_, ?_⟩, (controlKept_written s).trans (controlKept_retire _), by simp, by simp, ?_⟩
  · rw [hread, readReg_written, if_pos rfl]
  · rw [hread, readReg_written, if_neg hq]
  · rw [retire_rat, written_rat, lookup_settle_same]
  · rw [retire_rat, written_rat, lookup_settle_other _ hq]
  · rw [hentry u hu, settleCheckpoint, if_pos (by simp [hub, hbr])]
    exact ⟨lookup_settle_same .., fun q hq => lookup_settle_other _ hq _⟩
  · rw [hentry u hu]
    unfold settleCheckpoint
    split <;> rfl
  · rw [hevents, hplace.events, hplace.cycle]
    simp [eventEffect, hk]
  · rwa [hplace.head] at hfreed
  · rw [hnext, hplace.head, hplace.cfg]
  · rw [htail, hplace.tail]
  · rw [hcount, hplace.count]
  · rw [retire_cdb]
    simp [written]

/-- Settles O42: commit keeps `busy` bits and events, or is a retirement after something that does. -/
theorem atMostOneRetirement : Obligations.AtMostOneRetirement := by
  intro s
  obtain hkept | ⟨s1, hkept, hb, heq⟩ := commit_keeps_or_retires s
  · exact ⟨⟨0, fun u _ => hkept.busy u⟩, .inl hkept.events⟩
  · have hb1 : (s1.robAt s1.rob.head).busy = true := by rw [hkept.head, hkept.busy, hb]
    rw [heq]
    refine ⟨⟨s.rob.head, fun u hu => ?_⟩, .inr ⟨_, by rw [retire_events hb1, hkept.events]⟩⟩
    rw [robAt_retire hb1, hkept.head, if_neg hu, hkept.busy]

end Sys2Proof.Machine

/-! ## The engine follows the one-at-a-time execution (40_engine_cycle.md R268)

The proof carries a trace `A` of architectural states, indexed by sequence id: `A q` is the state before the instruction
with id `q` on the path that fetch has taken. Along that path every value in the engine is the value of the
one-at-a-time execution, also behind a branch that has not been resolved; a resolved branch then shows whether the path
goes on as the one-at-a-time execution does. No stage but issue and recovery touches the trace, and retirement moves
the instruction it belongs to from the ROB to the events. -/

namespace Sys2Proof.Machine

/-! ### One instruction's effect -/

/-- The instruction at `pc`, a nop where there is none. -/
def Arch.instr (P : List InstrWord) (a : Arch) : Instr := (a.fetch P).getD .nop

/-- The state after the instruction at `pc`. -/
def Arch.next (P : List InstrWord) (a : Arch) : Arch := archExec (a.instr P) a

/-- The value an operand form has in the one-at-a-time execution (40_engine_cycle.md R214). -/
def Operand.valueIn (a : Arch) : Operand → Word
  | .reg r => a.readReg r
  | .value v => v

theorem Arch.instr_of_fetch {P : List InstrWord} {a : Arch} {i : Instr} (h : a.fetch P = some i) : a.instr P = i := by
  rw [Arch.instr, h]
  rfl

/-- The engine and the one-at-a-time execution fetch the same instruction from the same `pc`. -/
theorem Arch.fetch_of_instr {s : State} {i : Instr} (h : s.fetch = .instr i) {a : Arch} (ha : a.pc = s.pc) :
    a.fetch s.prog = some i := by
  unfold State.fetch at h
  unfold Arch.fetch
  rw [ha]
  cases hw : s.prog[s.pc.toNat]? with
  | none => rw [hw] at h; cases h
  | some w =>
    rw [hw] at h
    cases hd : decode w with
    | invalid r => simp only [hd] at h; cases h
    | valid j =>
      simp only [hd] at h ⊢
      rw [Fetched.instr.inj h]

theorem Arch.fetch_of_length_le {P : List InstrWord} {a : Arch} (h : P.length ≤ a.pc.toNat) : a.fetch P = none := by
  unfold Arch.fetch
  rw [List.getElem?_eq_none h]

section Effect

variable (a : Arch) (r q : Reg) (v : Word) (i : Instr)

@[simp] theorem Arch.readReg_writeReg : (a.writeReg r v).readReg q = if q = r then v else a.readReg q := by
  cases r <;> cases q <;> simp [Arch.writeReg, Arch.readReg, Vector.getElem_set, Fin.ext_iff, eq_comm]

@[simp] theorem Arch.readReg_nextPc : a.nextPc.readReg q = a.readReg q := by cases q <;> rfl
@[simp] theorem Arch.mem_nextPc : a.nextPc.mem = a.mem := rfl
@[simp] theorem Arch.mem_writeReg : (a.writeReg r v).mem = a.mem := by cases r <;> rfl
@[simp] theorem Arch.pc_writeReg : (a.writeReg r v).pc = a.pc := by cases r <;> rfl

variable {a r q v i}

/-- An instruction that renames a register writes it and goes on to the next `pc`. -/
theorem archExec_of_dest (h : (issueForm i).dest = some r) : ∃ v, archExec i a = (a.writeReg r v).nextPc := by
  cases i with
  | nop | sd | beq | bne => cases h
  | _ => obtain rfl := Option.some.inj h; exact ⟨_, rfl⟩

theorem archEffect_of_dest (h : (issueForm i).dest = some r) :
    archEffect i a = .wrote r ((archExec i a).readReg r) := by
  cases i with
  | nop | sd | beq | bne => cases h
  | _ => obtain rfl := Option.some.inj h; rfl

/-- Any other register keeps its value. -/
theorem readReg_archExec_of_ne (h : (issueForm i).dest ≠ some r) : (archExec i a).readReg r = a.readReg r := by
  cases hd : (issueForm i).dest with
  | some d =>
    obtain ⟨v, hv⟩ := archExec_of_dest (a := a) hd
    rw [hv, Arch.readReg_nextPc, Arch.readReg_writeReg, if_neg]
    rintro rfl
    exact h hd
  | none =>
    cases i with
    | nop | sd | beq | bne => cases r <;> rfl
    | _ => cases hd

theorem mem_archExec_of_ne_store (h : i.op.kind ≠ .store) : (archExec i a).mem = a.mem := by
  cases i with
  | sd => exact absurd rfl h
  | nop | beq | bne => rfl
  | _ => simp [archExec]

/-- A store writes the cell at base plus offset (43_load_store.md R321, R322). -/
theorem archExec_store (h : i.op.kind = .store) : archExec i a =
    { a with
      pc := a.pc + 1
      mem := a.mem.write (effectiveAddress ((issueForm i).j.valueIn a) (issueForm i).imm)
        ((issueForm i).k.valueIn a) } := by
  cases i with
  | sd => rfl
  | _ => cases h

theorem archEffect_store (h : i.op.kind = .store) : archEffect i a =
    .stored (effectiveAddress ((issueForm i).j.valueIn a) (issueForm i).imm) ((issueForm i).k.valueIn a) := by
  cases i with
  | sd => rfl
  | _ => cases h

theorem archEffect_nothing (h : i.op.kind = .branch ∨ i.op.kind = .nop) : archEffect i a = .nothing := by
  cases i with
  | nop | beq | bne => rfl
  | _ => simp [Instr.op, Op.kind] at h

theorem pc_archExec_of_not_branch (h : i.op.kind ≠ .branch) : (archExec i a).pc = a.pc + 1 := by
  cases i with
  | beq | bne => exact absurd rfl h
  | nop | sd => rfl
  | _ => simp [archExec, Arch.nextPc]

/-- A branch goes to its target or to the next `pc` by the outcome (44_branch_recovery.md R365, R366). -/
theorem archExec_branch (h : i.op.kind = .branch) : archExec i a = { a with
    pc := if branchOutcome i.op ((issueForm i).j.valueIn a) ((issueForm i).k.valueIn a) then
      branchTarget a.pc (issueForm i).imm else a.pc + 1 } := by
  cases i with
  | beq | bne => rfl
  | _ => cases h

/-- The result table computes what the instruction writes when the operands are its own (40_engine_cycle.md R232). -/
theorem resultOf_eq {e : RsEntry} (hop : e.op = i.op) (hd : (issueForm i).dest = some r)
    (hj : e.j.val = (issueForm i).j.valueIn a) (hk : e.k.val = (issueForm i).k.valueIn a)
    (hld : e.op = .ld → e.result =
      a.mem.read (effectiveAddress ((issueForm i).j.valueIn a) (issueForm i).imm)) :
    resultOf e = some ((archExec i a).readReg r) := by
  unfold resultOf
  rw [hop] at hld ⊢
  cases i with
  | nop | sd | beq | bne => cases hd
  | ld rt rb off =>
    obtain rfl := Option.some.inj hd
    simp [Instr.op, archExec, ldValue, hld rfl, issueForm, Operand.valueIn, Arch.address]
  | _ =>
    obtain rfl := Option.some.inj hd
    simp [Instr.op, archExec, hj, hk, issueForm, Operand.valueIn]

end Effect

/-! ### The run so far -/

/-- What an event says of an instruction to the one-at-a-time execution. -/
def CommitEvent.record (e : CommitEvent) : Pc × Op × EventEffect := (e.pc, e.op, e.effect)

/-- One more instruction at the end of a run. -/
theorem seqRun_succ {P : List InstrWord} {n : Nat} {a b : Arch} {es : List (Pc × Op × EventEffect)} {i : Instr}
    (h : seqRun P n a = some (b, es)) (hi : b.fetch P = some i) :
    seqRun P (n + 1) a = some (archExec i b, es ++ [(b.pc, i.op, archEffect i b)]) := by
  induction n generalizing a es with
  | zero =>
    obtain ⟨rfl, rfl⟩ := Prod.mk.inj (Option.some.inj h)
    simp only [seqRun, hi, List.nil_append]
  | succ n ih =>
    unfold seqRun at h ⊢
    cases hf : a.fetch P with
    | none => rw [hf] at h; cases h
    | some j =>
      rw [hf] at h
      simp only at h ⊢
      cases hrest : seqRun P n (archExec j a) with
      | none => rw [hrest] at h; cases h
      | some p =>
        obtain ⟨c, es'⟩ := p
        rw [hrest] at h
        obtain ⟨rfl, rfl⟩ := Prod.mk.inj (Option.some.inj h)
        rw [ih hrest]
        rfl

end Sys2Proof.Machine

/-! ### The trace and what in the engine agrees with it -/

namespace Sys2Proof.Machine

/-- Where fetch went on after the instruction (44_branch_recovery.md R362, 40_engine_cycle.md R219). -/
def RobEntry.predictedPc (r : RobEntry) : Pc := if r.predTaken then r.predTarget else r.pc + 1

/-- The `pc` that follows on the fetched path: the predicted one behind a branch that has not been resolved. -/
def RobEntry.nextPc (r : RobEntry) (actual : Pc) : Pc :=
  if r.kind = .branch ∧ r.complete = false then r.predictedPc else actual

/-- The ROB entry holds the instruction that the trace runs from its sequence id to the next. -/
structure RobEntry.Follows (r : RobEntry) (P : List InstrWord) (A : Nat → Arch) : Prop where
  fetched : (A r.seq).fetch P = some ((A r.seq).instr P)
  pc : (A r.seq).pc = r.pc
  op : r.op = ((A r.seq).instr P).op
  dest : ∀ d, (issueForm ((A r.seq).instr P)).dest = some d → r.dest = d
  next : A (r.seq + 1) = { (A r.seq).next P with pc := r.nextPc ((A r.seq).next P).pc }
  effect : r.complete = true → eventEffect r = archEffect ((A r.seq).instr P) (A r.seq)

/-- The slot holds the word `x`, or waits for an instruction after which its register holds `x`. -/
def State.SlotHolds (s : State) (A : Nat → Arch) (x : Word) : Slot → Prop
  | .resolved v => v = x
  | .pending w => (A ((s.robAt w).seq + 1)).readReg (s.robAt w).dest = x

/-- The station entry holds instruction `i` with the operands, the address and the loaded value it has in state `a`. -/
structure State.Serves (s : State) (A : Nat → Arch) (i : Instr) (a : Arch) (e : RsEntry) : Prop where
  imm : e.imm = (issueForm i).imm
  slotJ : s.SlotHolds A ((issueForm i).j.valueIn a) e.j
  slotK : s.SlotHolds A ((issueForm i).k.valueIn a) e.k
  addr : e.addrValid = true → e.addr = effectiveAddress ((issueForm i).j.valueIn a) (issueForm i).imm
  access : e.phase = .memAccess → s.mem.read e.addr = a.mem.read e.addr
  result : e.phase = .resultReady → e.op = .ld → e.result = a.mem.read e.addr

/-- The station entry serves the instruction that the trace runs at its sequence id. -/
def State.ServesPath (s : State) (P : List InstrWord) (A : Nat → Arch) (e : RsEntry) : Prop :=
  s.Serves A ((A (s.robAt e.dest).seq).instr P) (A (s.robAt e.dest).seq) e

/-- The engine follows trace `A` of program `P` from the launch state `a₀`: the instructions in flight and their
stations agree with it, registers and memory are those of the trace where the ROB starts, and up to there the trace is
the one-at-a-time execution with the events emitted. -/
structure State.Follows (s : State) (P : List InstrWord) (a₀ : Arch) (A : Nat → Arch) : Prop where
  prog : s.prog = P
  entries : ∀ u, (s.robAt u).busy = true → (s.robAt u).Follows P A
  stations : ∀ k i, (s.station k i).busy = true → s.ServesPath P A (s.station k i)
  front : (A s.nextSeq).pc = s.pc
  regs : ∀ r, (A s.events.length).readReg r = s.readReg r
  mem : (A s.events.length).mem = s.mem
  events : s.EventsOk
  history : seqRun P s.events.length a₀ = some (A s.events.length, s.events.map CommitEvent.record)

/-- The engine follows some trace. -/
def State.OnPath (s : State) (P : List InstrWord) (a₀ : Arch) : Prop := ∃ A, s.Follows P a₀ A

@[simp] theorem Arch.readReg_withPc (a : Arch) (pc : Pc) (r : Reg) :
    Arch.readReg { a with pc := pc } r = a.readReg r := by
  cases r <;> rfl

section Entry

variable {r : RobEntry} {P : List InstrWord} {A B : Nat → Arch}

theorem RobEntry.nextPc_of_not_branch (h : r.kind ≠ .branch) (pc : Pc) : r.nextPc pc = pc := if_neg fun hc => h hc.1

theorem RobEntry.nextPc_of_complete (h : r.complete = true) (pc : Pc) : r.nextPc pc = pc :=
  if_neg fun hc => absurd (h.symm.trans hc.2) (by simp)

theorem RobEntry.nextPc_of_branch (hk : r.kind = .branch) (h : r.complete = false) (pc : Pc) :
    r.nextPc pc = r.predictedPc := if_pos ⟨hk, h⟩

theorem RobEntry.Follows.readReg_next (h : r.Follows P A) (q : Reg) :
    (A (r.seq + 1)).readReg q = ((A r.seq).next P).readReg q := by
  rw [h.next, Arch.readReg_withPc]

theorem RobEntry.Follows.mem_next (h : r.Follows P A) : (A (r.seq + 1)).mem = ((A r.seq).next P).mem := by
  rw [h.next]

/-- Timing, the done bit and the checkpoint have no part in the trace. -/
theorem RobEntry.Follows.progress (h : r.Follows P A) (busy done : Bool) (ckpt : AliasTable) (timing : Timing) :
    RobEntry.Follows { r with busy := busy, done := done, ckpt := ckpt, timing := timing } P A :=
  ⟨h.fetched, h.pc, h.op, h.dest, h.next, h.effect⟩

/-- What is not a branch is complete with its effect. -/
theorem RobEntry.Follows.completed (h : r.Follows P A) (hk : r.kind ≠ .branch) (v d : Word) (a : Word)
    (timing : Timing)
    (heff : eventEffect { r with value := v, stAddr := a, stData := d } =
      archEffect ((A r.seq).instr P) (A r.seq)) :
    RobEntry.Follows { r with value := v, stAddr := a, stData := d, complete := true, timing := timing } P A where
  fetched := h.fetched
  pc := h.pc
  op := h.op
  dest := h.dest
  next := by
    rw [RobEntry.nextPc_of_not_branch (r := { r with
      value := v, stAddr := a, stData := d, complete := true, timing := timing }) hk]
    have hnext := h.next
    rwa [RobEntry.nextPc_of_not_branch hk] at hnext
  effect _ := heff

/-- The trace matters only at the instruction's two ends. -/
theorem RobEntry.Follows.congr (h : r.Follows P A) (h0 : B r.seq = A r.seq) (h1 : B (r.seq + 1) = A (r.seq + 1)) :
    r.Follows P B := by
  refine ⟨?_, ?_, ?_, ?_, ?_, ?_⟩ <;> simp only [h0, h1]
  · exact h.fetched
  · exact h.pc
  · exact h.op
  · exact h.dest
  · exact h.next
  · exact h.effect

theorem RobEntry.Follows.instr_kind (h : r.Follows P A) (hk : r.kind = r.op.kind) :
    ((A r.seq).instr P).op.kind = r.kind := by rw [hk, h.op]

/-- A register writer's destination is its instruction's. -/
theorem RobEntry.Follows.dest_of_reg (h : r.Follows P A) (hk : r.kind = r.op.kind) (hreg : r.kind = .reg) :
    (issueForm ((A r.seq).instr P)).dest = some r.dest := by
  have hsome := issueForm_dest_isSome ((A r.seq).instr P)
  rw [h.instr_kind hk, hreg] at hsome
  obtain ⟨d, hd⟩ := Option.isSome_iff_exists.1 (hsome.trans (by simp))
  rw [hd, h.dest d hd]

/-- A register that the instruction does not rename keeps its value. -/
theorem RobEntry.Follows.readReg_next_other (h : r.Follows P A) (hk : r.kind = r.op.kind) {q : Reg}
    (hq : ¬(r.kind = .reg ∧ r.dest = q)) : (A (r.seq + 1)).readReg q = (A r.seq).readReg q := by
  rw [h.readReg_next]
  refine readReg_archExec_of_ne fun hd => hq ⟨?_, h.dest q hd⟩
  have hsome := issueForm_dest_isSome ((A r.seq).instr P)
  rw [hd, h.instr_kind hk] at hsome
  exact of_decide_eq_true hsome.symm

/-- A complete register writer holds the value of its register. -/
theorem RobEntry.Follows.value_of_complete (h : r.Follows P A) (hk : r.kind = r.op.kind) (hreg : r.kind = .reg)
    (hc : r.complete = true) : r.value = (A (r.seq + 1)).readReg r.dest := by
  have heff := h.effect hc
  rw [archEffect_of_dest (h.dest_of_reg hk hreg), eventEffect, hreg] at heff
  rw [h.readReg_next]
  exact (EventEffect.wrote.inj heff).2

end Entry

section Path

variable {s t : State} {P : List InstrWord} {a₀ : Arch} {A B : Nat → Arch}

/-- Slots, stations and entries of instructions up to id `n` look at the trace up to `n` alone. -/
theorem State.SlotHolds.congr {x : Word} {v : Slot} (h : s.SlotHolds A x v)
    (hw : ∀ w, v = .pending w → B ((s.robAt w).seq + 1) = A ((s.robAt w).seq + 1) ∧
      (t.robAt w).seq = (s.robAt w).seq ∧ (t.robAt w).dest = (s.robAt w).dest) : t.SlotHolds B x v := by
  cases v with
  | resolved _ => exact h
  | pending w =>
    obtain ⟨hB, hseq, hdest⟩ := hw w rfl
    simp only [State.SlotHolds, hseq, hdest, hB]
    exact h

/-- What a stage keeps of the instructions in flight is all that slots look at. -/
theorem State.SlotHolds.of_coreKept (hk : s.CoreKept t) {x : Word} {v : Slot} (h : s.SlotHolds A x v) :
    t.SlotHolds A x v :=
  h.congr fun w _ => ⟨rfl, (hk.entry w).seq, (hk.entry w).dest⟩

theorem State.Serves.of_coreKept (hk : s.CoreKept t) {i : Instr} {a : Arch} {e : RsEntry} (h : s.Serves A i a e) :
    t.Serves A i a e :=
  ⟨h.imm, h.slotJ.of_coreKept hk, h.slotK.of_coreKept hk, h.addr, hk.mem ▸ h.access, h.result⟩

theorem State.ServesPath.of_coreKept (hk : s.CoreKept t) {e : RsEntry} (h : s.ServesPath P A e) :
    t.ServesPath P A e := by
  unfold State.ServesPath
  rw [(hk.entry _).seq]
  exact State.Serves.of_coreKept hk h

/-- A stage that keeps the ROB and `pc` stays on the trace when its entries and stations do. -/
theorem State.Follows.of_robKept (h : s.Follows P a₀ A) (hr : s.RingOk) (hk : s.RobKept t) (hpc : t.pc = s.pc)
    (hent : ∀ u, (s.robAt u).busy = true → (t.robAt u).Follows P A)
    (hst : ∀ k i, (t.station k i).busy = true → t.ServesPath P A (t.station k i)) : t.Follows P a₀ A where
  prog := hk.prog.trans h.prog
  entries u hu := hent u ((hk.busy u).symm.trans hu)
  stations := hst
  front := by rw [hk.nextSeq, hpc, h.front]
  regs r := by rw [hk.events, h.regs, hk.readReg]
  mem := by rw [hk.events, h.mem, hk.mem]
  events := h.events.of_dense (hk.orderSame.dense hr)
  history := by rw [hk.events, h.history]

/-! #### The ids in flight -/

/-- The `n`-th oldest instruction in flight has the `n`-th id after the events (44_branch_recovery.md R378). -/
theorem State.Follows.seq_nth (h : s.Follows P a₀ A) (hr : s.RingOk) {n : Nat} (hn : n < s.rob.count) :
    (s.nthEntry n).seq = s.events.length + n := by
  have hseq := hr.seq n hn
  have hd := h.events.dense
  omega

/-- Every id between the events and the sequence counter is that of an instruction in flight. -/
theorem State.Follows.exists_entry (h : s.Follows P a₀ A) (hm : s.Mid) {q : Nat} (hlo : s.events.length ≤ q)
    (hhi : q < s.nextSeq) : ∃ u, (s.robAt u).busy = true ∧ (s.robAt u).seq = q := by
  have hd := h.events.dense
  have hn : q - s.events.length < s.rob.count := by omega
  refine ⟨s.tagAt (q - s.events.length), (hm.ring.busy_iff hm.sized _).2 ⟨_, hn, rfl⟩, ?_⟩
  have hseq := h.seq_nth hm.ring hn
  rw [State.nthEntry] at hseq
  omega

theorem State.Follows.seq_bounds (h : s.Follows P a₀ A) (hm : s.Mid) {u : Nat} (hu : (s.robAt u).busy = true) :
    s.events.length ≤ (s.robAt u).seq ∧ (s.robAt u).seq < s.nextSeq := by
  obtain ⟨n, hn, rfl⟩ := (hm.ring.busy_iff hm.sized u).1 hu
  have hseq := h.seq_nth hm.ring hn
  have hd := h.events.dense
  rw [State.nthEntry] at hseq
  omega

/-! #### Registers -/

/-- The value that the trace gives register `r` through RAT entry `x` (10_state.md R39, R40). -/
def State.renamedValue (s : State) (A : Nat → Arch) (r : Reg) : RatEntry → Word
  | .arf => s.readReg r
  | .rob u => (A ((s.robAt u).seq + 1)).readReg r

/-- After the `n` oldest instructions the register holds what its youngest writer among them leaves. -/
theorem State.Follows.readReg_youngestWriter (h : s.Follows P a₀ A) (hm : s.Mid) (r : Reg) {n : Nat}
    (hn : n ≤ s.rob.count) :
    (A (s.events.length + n)).readReg r = s.renamedValue A r (s.youngestWriter r n) := by
  induction n with
  | zero => exact h.regs r
  | succ n ih =>
    have hseq := h.seq_nth hm.ring (Nat.lt_of_succ_le hn)
    have hbusy : (s.nthEntry n).busy = true := (hm.ring.busy_iff hm.sized _).2 ⟨n, hn, rfl⟩
    rw [youngestWriter_succ]
    split
    · change _ = (A ((s.nthEntry n).seq + 1)).readReg r
      rw [hseq]
      rfl
    · next hk =>
      rw [← ih (by omega), ← Nat.add_assoc, ← hseq]
      exact (h.entries _ hbusy).readReg_next_other (hm.entries _ hbusy).kind hk

/-- Before the next instruction a register holds what its RAT entry stands for (10_state.md R40). -/
theorem State.Follows.readReg_front (h : s.Follows P a₀ A) (hm : s.Mid) (r : Reg) :
    (A s.nextSeq).readReg r = s.renamedValue A r (s.rat.lookup r) := by
  rw [hm.rat.rat, ← h.readReg_youngestWriter hm r le_rfl, h.events.dense]

/-! #### Memory -/

theorem State.Follows.mem_wf (h : s.Follows P a₀ A) (hm : s.Mid) {q : Nat} (hlo : s.events.length ≤ q)
    (hhi : q ≤ s.nextSeq) : (A q).mem.wf = true := by
  induction q, hlo using Nat.le_induction with
  | base => rw [h.mem]; exact hm.mem
  | succ q hlo ih =>
    obtain ⟨u, hu, rfl⟩ := h.exists_entry hm hlo (by omega)
    rw [(h.entries u hu).mem_next]
    by_cases hk : ((A (s.robAt u).seq).instr P).op.kind = .store
    · rw [Arch.next, archExec_store hk]
      exact write_wf (ih (by omega)) _ _
    · rw [Arch.next, mem_archExec_of_ne_store hk]
      exact ih (by omega)

/-- The address of the store at id `q`. -/
def Arch.storeAddr (P : List InstrWord) (a : Arch) : Word :=
  effectiveAddress ((issueForm (a.instr P)).j.valueIn a) (issueForm (a.instr P)).imm

/-- Between two ids a cell changes only by a store to it. -/
theorem State.Follows.read_const (h : s.Follows P a₀ A) (hm : s.Mid) (a : Word) {lo hi : Nat}
    (hlo : s.events.length ≤ lo) (hle : lo ≤ hi) (hhi : hi ≤ s.nextSeq)
    (hno : ∀ u, (s.robAt u).busy = true → (s.robAt u).kind = .store → lo ≤ (s.robAt u).seq → (s.robAt u).seq < hi →
      (A (s.robAt u).seq).storeAddr P ≠ a) : (A hi).mem.read a = (A lo).mem.read a := by
  induction hi, hle using Nat.le_induction with
  | base => rfl
  | succ q hle ih =>
    obtain ⟨u, hu, rfl⟩ := h.exists_entry hm (hlo.trans hle) (by omega)
    rw [← ih (by omega) fun w hw hk hl hlt => hno w hw hk hl (by omega), (h.entries u hu).mem_next, Arch.next]
    by_cases hk : ((A (s.robAt u).seq).instr P).op.kind = .store
    · have hkind := ((h.entries u hu).instr_kind (hm.entries u hu).kind).symm.trans hk
      rw [archExec_store hk]
      exact (read_write (h.mem_wf hm (hlo.trans hle) (by omega)) _ _ _).trans
        (if_neg (hno u hu hkind hle (by omega)).symm)
    · rw [mem_archExec_of_ne_store hk]

/-- Right after a store its cell holds its data. -/
theorem State.Follows.read_store (h : s.Follows P a₀ A) (hm : s.Mid) {u : Nat} (hu : (s.robAt u).busy = true)
    (hk : (s.robAt u).kind = .store) (hc : (s.robAt u).complete = true) :
    (A ((s.robAt u).seq + 1)).mem.read ((A (s.robAt u).seq).storeAddr P) = (s.robAt u).stData := by
  have hf := h.entries u hu
  have hkind := (hf.instr_kind (hm.entries u hu).kind).trans hk
  have heff := hf.effect hc
  rw [archEffect_store hkind, eventEffect, hk] at heff
  obtain ⟨hlo, hhi⟩ := h.seq_bounds hm hu
  rw [hf.mem_next, Arch.next, archExec_store hkind, (EventEffect.stored.inj heff).2]
  exact (read_write (h.mem_wf hm hlo hhi.le) _ _ _).trans (if_pos rfl)

end Path

end Sys2Proof.Machine

/-! ### Visits of the execute stage stay on the trace -/

namespace Sys2Proof.Machine

section Visit

variable {s t : State} {k : FuClass} {i : Nat} {e : RsEntry} {r : RobEntry} {P : List InstrWord} {a₀ : Arch}
  {A : Nat → Arch}

/-- A slot with a value holds the operand. -/
theorem State.SlotHolds.val_eq {x : Word} {v : Slot} (h : s.SlotHolds A x v) (hready : v.ready = true) : v.val = x := by
  cases v with
  | resolved _ => exact h
  | pending _ => cases hready

/-- A part of a visit stays on the trace when the visited entry and its ROB entry do. -/
theorem State.Follows.visited (h : s.Follows P a₀ A) (hm : s.Mid)
    (hv : s.Visited t k i e r) (hpc : t.pc = s.pc) (hr : r.Follows P A)
    (he : e.busy = true → s.ServesPath P A e) : t.Follows P a₀ A := by
  refine h.of_robKept hm.ring hv.kept hpc (fun u hu => ?_) fun c m hcm => ?_
  · rw [hv.entries]
    split
    · exact hr
    · exact h.entries u hu
  · rw [hv.stations] at hcm ⊢
    split at hcm
    · next hki => rw [if_pos hki]; exact (he hcm).of_coreKept hv.kept.toCoreKept
    · next hki => rw [if_neg hki]; exact (h.stations c m hcm).of_coreKept hv.kept.toCoreKept

/-- The entry of a station's instruction agrees with the trace, whatever its timing record. -/
theorem State.Follows.entry_timing (h : s.Follows P a₀ A) (hm : s.Mid) (hb : (s.station k i).busy = true)
    (timing : Timing) : RobEntry.Follows { s.robAt (s.station k i).dest with timing := timing } P A :=
  (h.entries _ (hm.stations k i hb).inFlight).progress _ _ _ timing

/-- An entry that changes phase and counter, to one in which it neither accesses memory nor has a result. -/
theorem State.ServesPath.rephased (h : s.ServesPath P A e) {phase : Phase} (remaining : Nat)
    (hacc : phase ≠ .memAccess) (hres : phase = .resultReady → e.op ≠ .ld) :
    s.ServesPath P A { e with phase := phase, remaining := remaining } :=
  ⟨h.imm, h.slotJ, h.slotK, h.addr, fun hp => absurd hp hacc, fun hp hop => absurd hop (hres hp)⟩

theorem State.Follows.started (h : s.Follows P a₀ A) (hm : s.Mid) (hb : (s.station k i).busy = true) :
    (started k i s).Follows P a₀ A :=
  h.visited hm (visited_started hb (hm.stations k i hb).inFlight) rfl (h.entry_timing hm hb _)
    fun _ => (h.stations k i hb).rephased _ (by simp) (by simp)

theorem State.Follows.countdown (h : s.Follows P a₀ A) (hm : s.Mid) (hb : (s.station k i).busy = true) :
    (s.modifyStation k i (fun e => { e with remaining := e.remaining - 1 })).Follows P a₀ A := by
  have hold := h.stations k i hb
  exact h.visited hm (visited_countdown hb) rfl (h.entries _ (hm.stations k i hb).inFlight)
    fun _ => ⟨hold.imm, hold.slotJ, hold.slotK, hold.addr, hold.access, hold.result⟩

/-- An arithmetic entry's result is ready: it is computed at write-back, from the slots (40_engine_cycle.md R226). -/
theorem State.Follows.finish_arith (h : s.Follows P a₀ A) (hm : s.Mid) (hb : (s.station k i).busy = true)
    (hls : k ≠ .ls) (hbr : k ≠ .br) : (finish k i s).Follows P a₀ A := by
  have hold := hm.stations k i hb
  have heq : finish k i s = (finishing k i s).modifyStation k i (fun e => { e with phase := .resultReady }) := by
    cases k with
    | ls => exact absurd rfl hls
    | br => exact absurd rfl hbr
    | fpadd | int | mult => rfl
  have hv := (visited_finishing hold.inFlight).modifyStation hb (fun e => { e with phase := .resultReady })
    rfl rfl rfl rfl
  rw [heq]
  exact h.visited hm hv rfl (h.entry_timing hm hb _)
    fun _ => (h.stations k i hb).rephased _ (by simp) fun _ => (kind_of_fuClass hold.table hls hbr).2

/-- The address phase of a load or a store computes the address the trace gives it, and a store's effect is complete
(43_load_store.md R322, R323). -/
theorem State.Follows.finish_ls (h : s.Follows P a₀ A) (hm : s.Mid) (hb : (s.station .ls i).busy = true)
    (hp : (s.station .ls i).phase = .executing) : (finish .ls i s).Follows P a₀ A := by
  have hold := hm.stations .ls i hb
  have hserves := h.stations .ls i hb
  have hentry := h.entries _ hold.inFlight
  have hfits := hold.phase
  simp only [PhaseFits, hp] at hfits
  obtain ⟨hj, hk, -⟩ := hfits
  have hf := visited_finishing hold.inFlight
  have heq : finish .ls i s = lsFinish i (finishing .ls i s) := rfl
  rw [heq, lsFinish, hf.station]
  have haddr : effectiveAddress (s.station .ls i).j.val (s.station .ls i).imm =
      (A (s.robAt (s.station .ls i).dest).seq).storeAddr P := by
    rw [hserves.slotJ.val_eq hj, hserves.imm]
    rfl
  rw [haddr]
  split
  · exact h.visited hm (hf.modifyStation hb (loadAddressed _) rfl rfl rfl rfl) rfl (h.entry_timing hm hb _)
      fun _ => ⟨hserves.imm, hserves.slotJ, hserves.slotK, fun _ => rfl, nofun, nofun⟩
  · next hop =>
    have hsd : (s.station .ls i).op = .sd := by
      have htab := hold.table
      cases ho : (s.station .ls i).op <;> simp_all [Op.fuClass]
    have hgood := (hm.entries _ hold.inFlight).kind
    have hkind : (s.robAt (s.station .ls i).dest).kind = .store := by
      rw [hgood, hold.op, hsd]
      rfl
    have hv := (hf.modifyStation hb (storeAddressed ((A (s.robAt (s.station .ls i).dest).seq).storeAddr P))
      rfl rfl rfl rfl).modifyRob hold.inFlight (fun r => { r with
        stAddr := (A (s.robAt (s.station .ls i).dest).seq).storeAddr P, stData := (s.station .ls i).k.val,
        complete := true }) ⟨rfl, rfl, rfl, rfl, rfl, rfl, rfl⟩ rfl
    refine h.visited hm hv rfl (hentry.completed (by simp [hkind]) _ _ _ _ ?_)
      fun _ => ⟨hserves.imm, hserves.slotJ, hserves.slotK, fun _ => rfl, nofun, nofun⟩
    rw [archEffect_store ((hentry.instr_kind hgood).trans hkind), hserves.slotK.val_eq hk, eventEffect]
    simp only [hkind]
    rfl

/-! #### Loads -/

/-- A resident store older than the load at `i`, as the trace sees it. -/
theorem State.Follows.storeAddr_of_station (h : s.Follows P a₀ A) {q : Nat} (hb : (s.station .ls q).busy = true)
    (ha : (s.station .ls q).addrValid = true) :
    (A (s.stationSeq .ls q)).storeAddr P = (s.station .ls q).addr := ((h.stations .ls q hb).addr ha).symm

/-- A store in flight and older than the load sits in the load/store table (43_load_store.md R339). -/
theorem State.Running.olderStore_of_busy (hr : s.Running) {u : Nat} (hu : (s.robAt u).busy = true)
    (hk : (s.robAt u).kind = .store) (hlt : (s.robAt u).seq < s.stationSeq .ls i) :
    ∃ q, s.OlderStore i q ∧ (s.station .ls q).dest = u := by
  obtain ⟨c, q, hb, rfl⟩ := hr.stationed u hu trivial (.inr hk)
  have hold := hr.stations c q hb
  have hop : (s.station c q).op = .sd := by
    rw [← hold.op]
    exact op_of_store_kind ((hr.entries _ hu).kind.symm.trans hk)
  have htab := hold.table
  rw [hop] at htab
  obtain rfl := Option.some.inj htab
  exact ⟨q, ⟨hb, hop, hlt⟩, rfl⟩

/-- Memory holds for the load what the trace gives it when no older store in flight writes its cell
(43_load_store.md R327). -/
theorem State.Follows.read_of_noMatch (h : s.Follows P a₀ A) (hr : s.Running)
    (hb : (s.station .ls i).busy = true) (hno : ∀ q, s.OlderStore i q →
      (s.station .ls q).addrValid = true ∧ (s.station .ls q).addr ≠ (s.station .ls i).addr) :
    s.mem.read (s.station .ls i).addr = (A (s.stationSeq .ls i)).mem.read (s.station .ls i).addr := by
  obtain ⟨hlo, hhi⟩ := h.seq_bounds hr.toMid (hr.stations .ls i hb).inFlight
  rw [← h.mem]
  refine (h.read_const hr.toMid _ le_rfl hlo hhi.le fun u hu hk _ hlt => ?_).symm
  obtain ⟨q, hq, rfl⟩ := hr.olderStore_of_busy hu hk hlt
  obtain ⟨hvalid, hne⟩ := hno q hq
  exact fun heq => hne ((h.storeAddr_of_station hq.1 hvalid).symm.trans heq)

/-- A store with an address has its data in the ROB (43_load_store.md R323). -/
theorem State.Mid.complete_of_addressed (hm : s.Mid) {q : Nat} (hb : (s.station .ls q).busy = true)
    (hop : (s.station .ls q).op = .sd) (ha : (s.station .ls q).addrValid = true) :
    (s.robAt (s.station .ls q).dest).complete = true := by
  have hold := hm.stations .ls q hb
  have hfits := hold.phase
  rw [hold.completes, decide_eq_true_iff]
  unfold PhaseFits at hfits
  cases hp : (s.station .ls q).phase <;> simp only [hp, hop] at hfits
  case waiting => exact absurd (ha.symm.trans hfits) (by simp)
  case executing => exact absurd (ha.symm.trans hfits.2.2) (by simp)
  case memWait => cases hfits.2.2.1
  case memAccess => cases hfits.2.2.1
  case resultReady => cases hfits.2.2.1
  case storeDone => rfl

/-- The youngest older store to the load's cell holds what the trace gives the load (43_load_store.md R326). -/
theorem State.Follows.read_of_match (h : s.Follows P a₀ A) (hr : s.Running) (hb : (s.station .ls i).busy = true)
    (hvalid : ∀ p, s.OlderStore i p → (s.station .ls p).addrValid = true) {q : Nat}
    (hq : q ∈ s.matchingStores i) (hyoung : ∀ p ∈ s.matchingStores i, s.stationSeq .ls p ≤ s.stationSeq .ls q) :
    (s.robAt (s.station .ls q).dest).stData = (A (s.stationSeq .ls i)).mem.read (s.station .ls i).addr := by
  obtain ⟨holder, hmatch⟩ := mem_matchingStores.1 hq
  obtain ⟨hqb, hop, hlt⟩ := holder
  have hqv := hvalid q ⟨hqb, hop, hlt⟩
  have hold := hr.stations .ls q hqb
  obtain ⟨-, hhi⟩ := h.seq_bounds hr.toMid (hr.stations .ls i hb).inFlight
  obtain ⟨hlo, -⟩ := h.seq_bounds hr.toMid hold.inFlight
  have hkind : (s.robAt (s.station .ls q).dest).kind = .store := by
    rw [(hr.entries _ hold.inFlight).kind, hold.op, hop]
    rfl
  rw [← h.read_store hr.toMid hold.inFlight hkind (hr.complete_of_addressed hqb hop hqv), ← hmatch,
    ← h.storeAddr_of_station hqb hqv]
  refine (h.read_const hr.toMid _ (Nat.le_succ_of_le hlo) hlt hhi.le fun u hu hk hge hlt' => ?_).symm
  obtain ⟨p, hp, rfl⟩ := hr.olderStore_of_busy hu hk hlt'
  have hpaddr := h.storeAddr_of_station hp.1 (hvalid p hp)
  intro heq
  have hpm : p ∈ s.matchingStores i := mem_matchingStores.2
    ⟨hp, hpaddr.symm.trans (heq.trans ((h.storeAddr_of_station hqb hqv).trans hmatch))⟩
  exact absurd (hyoung p hpm) (not_le.2 hge)

theorem State.Follows.loadFinish (h : s.Follows P a₀ A) (hm : s.Mid) (hb : (s.station .ls i).busy = true)
    (hp : (s.station .ls i).phase = .memAccess) : (loadFinish i s).Follows P a₀ A := by
  have hold := h.stations .ls i hb
  exact h.visited hm (visited_loadFinish hb (hm.stations .ls i hb).inFlight) rfl (h.entry_timing hm hb _)
    fun _ => ⟨hold.imm, hold.slotJ, hold.slotK, hold.addr, nofun, fun _ _ => hold.access hp⟩

theorem State.Follows.loadStarted (h : s.Follows P a₀ A) (hr : s.Running) (hb : (s.station .ls i).busy = true)
    (hno : ∀ q, s.OlderStore i q →
      (s.station .ls q).addrValid = true ∧ (s.station .ls q).addr ≠ (s.station .ls i).addr) :
    (loadStarted i s).Follows P a₀ A := by
  have hold := h.stations .ls i hb
  exact h.visited hr.toMid (visited_loadStarted hb (hr.stations .ls i hb).inFlight) rfl
    (h.entry_timing hr.toMid hb _)
    fun _ => ⟨hold.imm, hold.slotJ, hold.slotK, hold.addr, fun _ => h.read_of_noMatch hr hb hno,
      nofun⟩

/-- A waiting load reads its cell, or takes it from the youngest older store to it: either is what the trace gives it
(43_load_store.md R324 to R327). -/
theorem State.Follows.memWaitStep (h : s.Follows P a₀ A) (hr : s.Running) (hb : (s.station .ls i).busy = true)
    (hp : (s.station .ls i).phase = .memWait) : (memWaitStep i s).Follows P a₀ A := by
  have hold := hr.stations .ls i hb
  by_cases hvalid : ∀ p, s.OlderStore i p → (s.station .ls p).addrValid = true
  · by_cases hnil : s.matchingStores i = []
    · have hno : ∀ q, s.OlderStore i q →
          (s.station .ls q).addrValid = true ∧ (s.station .ls q).addr ≠ (s.station .ls i).addr := fun q hq =>
        ⟨hvalid q hq, fun heq => by simpa [hnil] using mem_matchingStores.2 ⟨hq, heq⟩⟩
      rw [memWaitStep_of_noMatch hno]
      split
      · next ho =>
        have hstart := h.loadStarted hr hb hno
        have hv := visited_loadStarted hb hold.inFlight
        rw [loadStart_eq]
        split
        · exact hstart.loadFinish (hr.loadStarted hb hp ho).toMid (by rw [hv.station]; exact hb) (by rw [hv.station])
        · exact hstart
      · exact h
    · obtain ⟨q, hy, hq, hyoung⟩ := youngest_exists s hnil
      rw [memWaitStep_of_match hvalid hy]
      split
      · have hserves := h.stations .ls i hb
        exact h.visited hr.toMid (State.LoadWaiting.visited_forward ⟨hb, hold.inFlight, hp⟩ q) rfl
          (h.entry_timing hr.toMid hb _)
          fun _ => ⟨hserves.imm, hserves.slotJ, hserves.slotK, hserves.addr, nofun,
            fun _ _ => h.read_of_match hr hb hvalid hq hyoung⟩
      · exact h
  · push Not at hvalid
    obtain ⟨p, hp, ha⟩ := hvalid
    rw [memWaitStep_of_unaddressed hp (by simpa using ha)]
    exact h

theorem State.Follows.memAccessStep (h : s.Follows P a₀ A) (hr : s.Running) (hb : (s.station .ls i).busy = true)
    (hp : (s.station .ls i).phase = .memAccess) : (memAccessStep i s).Follows P a₀ A := by
  have hcount := h.countdown hr.toMid hb
  have hv := visited_countdown (k := .ls) hb
  obtain ⟨s1, rfl, ⟨heq, -⟩ | heq⟩ := memAccessStep_cases i s <;> rw [heq]
  · exact hcount
  · exact hcount.loadFinish (hr.countdown hb (by simp [hp])).toMid (by rw [hv.station]; exact hb)
      (by rw [hv.station]; exact hp)

end Visit

end Sys2Proof.Machine

/-! ### Branches -/

namespace Sys2Proof.Machine

/-- A prediction that was not wrong names the `pc` the branch goes to (44_branch_recovery.md R370). -/
theorem predictedPc_of_right {r : RobEntry} {taken : Bool} {target : Pc} (h : ¬ r.PredictedWrong taken target) :
    r.predictedPc = if taken then target else r.pc + 1 := by
  unfold RobEntry.PredictedWrong at h
  push Not at h
  obtain ⟨hdir, htarget⟩ := h
  unfold RobEntry.predictedPc
  rw [hdir]
  cases taken with
  | false => rfl
  | true => exact htarget hdir rfl

/-- `t` is `s` after the recovery from the branch in ROB entry `b`, which is now `r`: nothing younger is in flight,
fetch goes on at `pc`, and what is older is as it was (44_branch_recovery.md R375 to R378). -/
structure State.RecoveredFrom (s t : State) (b : Nat) (r : RobEntry) (pc : Pc) : Prop where
  kept : s.CoreKept t
  dense : s.Dense t
  pc : t.pc = pc
  nextSeq : t.nextSeq = (s.robAt b).seq + 1
  branch : t.robAt b = r
  entries : ∀ u, (t.robAt u).busy = true → u ≠ b →
    (s.robAt u).busy = true ∧ (s.robAt u).seq < (s.robAt b).seq ∧ t.robAt u = s.robAt u
  stations : ∀ c m, (t.station c m).busy = true → (s.station c m).busy = true ∧
    (s.robAt (s.station c m).dest).seq ≤ (s.robAt b).seq ∧ t.station c m = s.station c m

section Branch

variable {s t : State} {i b : Nat} {r : RobEntry} {P : List InstrWord} {a₀ X : Arch} {A : Nat → Arch}

/-- Up to id `q` the trace is the old one when only what comes after it has changed. -/
theorem update_succ_of_le {q n : Nat} (h : n ≤ q) : Function.update A (q + 1) X n = A n :=
  Function.update_of_ne (by omega) X A

/-- A station of an instruction up to id `q` looks at the trace up to `q`. -/
theorem State.ServesPath.update (hm : s.Mid) {c : FuClass} {m q : Nat} (hb : (s.station c m).busy = true)
    (hle : (s.robAt (s.station c m).dest).seq ≤ q) (h : s.ServesPath P A (s.station c m)) :
    s.ServesPath P (Function.update A (q + 1) X) (s.station c m) := by
  have hold := hm.stations c m hb
  have hslot : ∀ {x : Word} {v : Slot}, s.SlotOk (s.station c m).dest v → s.SlotHolds A x v →
      s.SlotHolds (Function.update A (q + 1) X) x v := fun hok hv =>
    hv.congr fun w hw => by
      subst hw
      obtain ⟨-, -, -, hlt⟩ := hok
      exact ⟨update_succ_of_le (by omega), rfl, rfl⟩
  unfold State.ServesPath
  rw [update_succ_of_le hle]
  exact ⟨h.imm, hslot hold.slotJ h.slotJ, hslot hold.slotK h.slotK, h.addr, h.access, h.result⟩

/-- An older instruction looks at the trace up to id `q`. -/
theorem RobEntry.Follows.update {q : Nat} (h : r.Follows P A) (hlt : r.seq < q) :
    r.Follows P (Function.update A (q + 1) X) :=
  h.congr (update_succ_of_le hlt.le) (update_succ_of_le hlt)

/-- After a recovery the engine follows the trace that goes on as the branch does. -/
theorem State.Follows.recoveredFrom (h : s.Follows P a₀ A) (hm : s.Mid) (hb : (s.robAt b).busy = true)
    (ht : s.RecoveredFrom t b r X.pc) (hr : r.Follows P (Function.update A ((s.robAt b).seq + 1) X)) :
    t.Follows P a₀ (Function.update A ((s.robAt b).seq + 1) X) := by
  obtain ⟨hlo, -⟩ := h.seq_bounds hm hb
  have hbase := update_succ_of_le (A := A) (X := X) hlo
  rw [← ht.kept.events] at hbase
  refine ⟨ht.kept.prog.trans h.prog, fun u hu => ?_, fun c m hcm => ?_, ?_, fun q => ?_, ?_,
    h.events.of_dense ht.dense, ?_⟩
  · by_cases hub : u = b
    · rw [hub, ht.branch]
      exact hr
    · obtain ⟨hsu, hlt, heq⟩ := ht.entries u hu hub
      rw [heq]
      exact (h.entries u hsu).update hlt
  · obtain ⟨hsb, hle, heq⟩ := ht.stations c m hcm
    rw [heq]
    exact ((h.stations c m hsb).update hm hsb hle).of_coreKept ht.kept
  · rw [ht.nextSeq, ht.pc, Function.update_self]
  · rw [hbase, ht.kept.events, h.regs, ht.kept.readReg]
  · rw [hbase, ht.kept.events, h.mem, ht.kept.mem]
  · rw [hbase, ht.kept.events, h.history]

/-- A branch whose operands are there goes where the trace goes (44_branch_recovery.md R365, R366). -/
theorem State.Follows.next_of_branch (h : s.Follows P a₀ A) (hm : s.Mid) (hb : (s.station .br i).busy = true)
    (hkind : (s.robAt (s.station .br i).dest).kind = .branch) (hj : (s.station .br i).j.ready = true)
    (hk : (s.station .br i).k.ready = true) :
    (A (s.robAt (s.station .br i).dest).seq).next P = { A (s.robAt (s.station .br i).dest).seq with
      pc := if branchOutcome (s.station .br i).op (s.station .br i).j.val (s.station .br i).k.val then
          branchTarget (s.robAt (s.station .br i).dest).pc (s.station .br i).imm
        else (s.robAt (s.station .br i).dest).pc + 1 } := by
  have hold := hm.stations .br i hb
  have hserves := h.stations .br i hb
  have hentry := h.entries _ hold.inFlight
  rw [Arch.next, archExec_branch ((hentry.instr_kind (hm.entries _ hold.inFlight).kind).trans hkind),
    hserves.slotJ.val_eq hj, hserves.slotK.val_eq hk, hserves.imm, ← hold.op, ← hentry.op, hentry.pc]

/-- A branch whose entry goes on as the one-at-a-time execution does is complete. -/
theorem RobEntry.Follows.resolved (h : r.Follows P A) (hk : r.kind = r.op.kind) (hbranch : r.kind = .branch)
    (hnext : A (r.seq + 1) = (A r.seq).next P) (timing : Timing) :
    RobEntry.Follows { r with complete := true, timing := timing } P A where
  fetched := h.fetched
  pc := h.pc
  op := h.op
  dest := h.dest
  next := by rw [RobEntry.nextPc_of_complete rfl]; exact hnext
  effect _ := by
    rw [archEffect_nothing (.inl ((h.instr_kind hk).trans hbranch)), eventEffect]
    simp only [hbranch]

/-- The same for a branch that goes elsewhere than predicted: the trace goes on from there. -/
theorem RobEntry.Follows.redirected (h : r.Follows P A) (hk : r.kind = r.op.kind) (hbranch : r.kind = .branch)
    (timing : Timing) : RobEntry.Follows { r with complete := true, timing := timing } P
      (Function.update A (r.seq + 1) ((A r.seq).next P)) := by
  have hself := update_succ_of_le (A := A) (X := (A r.seq).next P) (le_refl r.seq)
  refine ⟨?_, ?_, ?_, ?_, ?_, fun _ => ?_⟩ <;> simp only [hself]
  · exact h.fetched
  · exact h.pc
  · exact h.op
  · exact h.dest
  · rw [RobEntry.nextPc_of_complete rfl, Function.update_self]
  · rw [archEffect_nothing (.inl ((h.instr_kind hk).trans hbranch)), eventEffect]
    simp only [hbranch]

/-- A branch at the end of its countdown, as the statements about resolution speak of it. -/
theorem State.RunningBut.branchAt (h : s.RunningBut .br i) (hb : (s.station .br i).busy = true)
    (hp : (s.station .br i).phase = .executing) :
    ∃ n, (s.station .br i).dest = s.tagAt n ∧ (finishing .br i s).BranchAt i n (s.station .br i).j.val
      (s.station .br i).k.val := by
  have hold := h.stations .br i hb
  have hfits := hold.phase
  simp only [PhaseFits, hp] at hfits
  obtain ⟨hj, hk, -⟩ := hfits
  have hv := visited_finishing hold.inFlight
  have hst : ∀ c m, (finishing .br i s).station c m = s.station c m := fun c m => by
    rw [hv.stations]
    split
    · next hcm => rw [hcm.1, hcm.2]
    · rfl
  obtain ⟨n, hn, hdest⟩ := (h.ring.busy_iff h.sized _).1 hold.inFlight
  have hres : ∀ {v : Slot}, v.ready = true → v = .resolved v.val := fun {v} hv => by
    cases v with
    | resolved _ => rfl
    | pending _ => cases hv
  refine ⟨n, hdest, h.sized.of_shapeKept hv.kept.toShapeKept, h.ring.of_orderSame hv.kept.orderSame,
    hv.fault.trans h.noFault, fun c m hcm => ?_, by rw [hst, hb], hv.kept.count ▸ hn, ?_, ?_, ?_, ?_⟩
  · rw [hst] at hcm ⊢
    rw [hv.kept.busy]
    exact (h.stations c m hcm).inFlight
  · rw [hst, hdest]
    exact (hv.kept.orderSame.tagAt n).symm
  · have htab := hold.table
    rw [hst]
    cases hop : (s.station .br i).op with
    | beq => exact .inl rfl
    | bne => exact .inr rfl
    | _ => rw [hop] at htab; cases htab
  · rw [hst]; exact hres hj
  · rw [hst]; exact hres hk

/-- What a misprediction leaves, seen from before the branch finished. -/
theorem State.RunningBut.recoveredFrom (h : s.RunningBut .br i) (hb : (s.station .br i).busy = true) {n : Nat}
    (hdest : (s.station .br i).dest = s.tagAt n) {x y : Word} (hat : (finishing .br i s).BranchAt i n x y)
    (hwrong : ((finishing .br i s).nthEntry n).PredictedWrong ((finishing .br i s).outcomeAt i x y)
      ((finishing .br i s).targetAt i n)) :
    s.RecoveredFrom (Machine.finish .br i s) (s.station .br i).dest
      { s.robAt (s.station .br i).dest with
        complete := true
        timing := { (s.robAt (s.station .br i).dest).timing with exEnd := some s.cycle } }
      (if (finishing .br i s).outcomeAt i x y then (finishing .br i s).targetAt i n
        else ((finishing .br i s).nthEntry n).pc + 1) := by
  have hinFlight := (h.stations .br i hb).inFlight
  have hv := visited_finishing hinFlight
  have htag := hv.kept.orderSame.tagAt
  have hnth : (finishing .br i s).nthEntry n = (finishing .br i s).robAt (s.station .br i).dest := by
    rw [State.nthEntry, htag, hdest]
  have hseq : ((finishing .br i s).nthEntry n).seq = (s.robAt (s.station .br i).dest).seq := by rw [hnth, hv.entry]
  have hst : ∀ c m, (finishing .br i s).station c m = s.station c m := fun c m => by
    rw [hv.stations]
    split
    · next hcm => rw [hcm.1, hcm.2]
    · rfl
  have hring := hat.ring
  have hcore := hv.kept.toCoreKept.trans (coreKept_resolveBranch i (finishing .br i s))
  obtain ⟨-, hpc, -, hnext, -, -, hcount, -, hbranch, holder, hfree, hstations, hsame, -⟩ :=
    mispredictedBranchRecovers _ _ _ _ _ hat hwrong
  have heq : Machine.finish .br i s = resolveBranch i (finishing .br i s) := rfl
  rw [heq]
  refine ⟨hcore, (hv.kept.orderSame.dense h.ring).trans
    (resolveBranch_dense hring hat.sized i (hat.inFlight _ _ hat.busy)), hpc, by rw [hnext, hseq], ?_,
    fun u hu hne => ?_, fun c m hcm => ?_⟩
  · rw [htag, ← hdest, hnth, hv.entry] at hbranch
    exact hbranch
  · have hsu := hcore.freed u hu
    obtain ⟨m, hm, rfl⟩ := (h.ring.busy_iff h.sized u).1 hsu
    have hlt : m < n := by
      rcases lt_trichotomy m n with hlt | heq | hgt
      · exact hlt
      · exact absurd (by rw [hdest, heq]) hne
      · have hnot := hfree m hgt (hv.kept.cfg ▸ hm.trans_le h.ring.count)
        rw [htag] at hnot
        exact absurd (hnot.symm.trans hu) (by simp)
    have hold := holder m hlt
    rw [htag, State.nthEntry, htag, hv.entries, if_neg hne] at hold
    refine ⟨hsu, ?_, hold⟩
    have hplace : n < s.rob.count := hv.kept.count ▸ hat.place
    have hle := h.ring.seq_le_iff hplace hm
    rw [hdest]
    exact lt_of_not_ge fun hge => absurd (hle.1 hge) (by omega)
  · obtain ⟨hsb, -, hle⟩ := (hstations c m).1 hcm
    rw [State.stationSeq, hst, hseq, (hv.kept.entry _).seq] at hle
    rw [hsame c m hcm]
    rw [hst] at hsb ⊢
    exact ⟨hsb, hle, rfl⟩

theorem resolved_pc (i : Nat) (s : State) : (Machine.resolved i s).pc = s.pc := rfl

/-- Where a resolved branch was predicted right the engine stays on the trace, and where it was not, the trace after the
branch is replaced (44_branch_recovery.md R364 to R378). -/
theorem State.Follows.finish_br (h : s.Follows P a₀ A) (hr : s.RunningBut .br i)
    (hb : (s.station .br i).busy = true) (hp : (s.station .br i).phase = .executing) :
    (finish .br i s).OnPath P a₀ := by
  have hold := hr.stations .br i hb
  have hentry := h.entries _ hold.inFlight
  have hgood := (hr.entries _ hold.inFlight).kind
  have hkind := hr.branch_kind hb
  have hfits := hold.phase
  simp only [PhaseFits, hp] at hfits
  obtain ⟨hj, hk, -⟩ := hfits
  have hnext := h.next_of_branch hr.toMid hb hkind hj hk
  have hv := visited_finishing hold.inFlight
  obtain ⟨n, hdest, hat⟩ := hr.branchAt hb hp
  have hnth : (finishing .br i s).nthEntry n = (finishing .br i s).robAt (s.station .br i).dest := by
    rw [State.nthEntry, hv.kept.orderSame.tagAt, hdest]
  have hactual : ((A (s.robAt (s.station .br i).dest).seq).next P).pc =
      if (finishing .br i s).outcomeAt i (s.station .br i).j.val (s.station .br i).k.val then
        (finishing .br i s).targetAt i n else ((finishing .br i s).nthEntry n).pc + 1 := by
    rw [hnext, ← hat.outcome, ← hat.target, hat.robAt_dest, hnth, hv.entry, hv.station]
  by_cases hwrong : ((finishing .br i s).nthEntry n).PredictedWrong
      ((finishing .br i s).outcomeAt i (s.station .br i).j.val (s.station .br i).k.val)
      ((finishing .br i s).targetAt i n)
  · have hrec := hr.recoveredFrom hb hdest hat hwrong
    rw [← hactual] at hrec
    exact ⟨_, h.recoveredFrom hr.toMid hold.inFlight hrec (hentry.redirected hgood hkind _)⟩
  · have heq : finish .br i s = resolved i (finishing .br i s) := hat.resolveBranch_of_right hwrong
    have hpred := predictedPc_of_right hwrong
    rw [← hactual, hnth, hv.entry] at hpred
    have hstays : A ((s.robAt (s.station .br i).dest).seq + 1) = (A (s.robAt (s.station .br i).dest).seq).next P := by
      rw [hentry.next, RobEntry.nextPc_of_branch hkind (by rw [hold.completes]; simp [hp])]
      exact congrArg (fun pc => { (A (s.robAt (s.station .br i).dest).seq).next P with pc := pc }) hpred
    rw [heq]
    have hres := hentry.resolved hgood hkind hstays
      { (s.robAt (s.station .br i).dest).timing with exEnd := some s.cycle }
    exact ⟨A, h.visited hr.toMid (hv.resolved hb hold.inFlight) (resolved_pc i _) hres nofun⟩

end Branch

end Sys2Proof.Machine

/-! ### Execute and write-back stay on the trace -/

namespace Sys2Proof.Machine

section Visit

variable {s : State} {k : FuClass} {i : Nat} {P : List InstrWord} {a₀ : Arch} {A : Nat → Arch}

theorem State.Follows.finish (h : s.Follows P a₀ A) (hr : s.RunningBut k i) (hb : (s.station k i).busy = true)
    (hp : (s.station k i).phase = .executing) : (finish k i s).OnPath P a₀ := by
  by_cases hls : k = .ls
  · subst hls; exact ⟨A, h.finish_ls hr.toMid hb hp⟩
  · by_cases hbr : k = .br
    · subst hbr; exact h.finish_br hr hb hp
    · exact ⟨A, h.finish_arith hr.toMid hb hls hbr⟩

theorem State.Follows.start (h : s.Follows P a₀ A) (hr : s.Running) (hb : (s.station k i).busy = true)
    (hp : (s.station k i).phase = .waiting) (hc : s.canStart k i = true) : (start k i s).OnPath P a₀ := by
  have hstarted := h.started hr.toMid hb
  have hv := visited_started hb (hr.stations k i hb).inFlight
  rw [start_eq]
  split
  · exact hstarted.finish (hr.started hb hp hc) (by rw [hv.station]; exact hb) (by rw [hv.station])
  · exact ⟨A, hstarted⟩

theorem State.Follows.executingStep (h : s.Follows P a₀ A) (hr : s.Running) (hb : (s.station k i).busy = true)
    (hp : (s.station k i).phase = .executing) : (executingStep k i s).OnPath P a₀ := by
  have hcount := h.countdown hr.toMid hb
  have hv := visited_countdown hb
  obtain ⟨s1, rfl, ⟨heq, -⟩ | ⟨heq, -⟩⟩ := executingStep_cases k i s <;> rw [heq]
  · exact ⟨A, hcount⟩
  · exact hcount.finish (hr.countdown hb (by simp [hp])) (by rw [hv.station]; exact hb) (by rw [hv.station]; exact hp)

/-- Every visit of the execute stage stays on a trace. -/
theorem State.Follows.visit (h : s.Follows P a₀ A) (hr : s.Running) (k : FuClass) (i : Nat) :
    (visit k i s).OnPath P a₀ := by
  cases hb : (s.station k i).busy
  · have heq : Machine.visit k i s = s := by simp [Machine.visit, hb]
    rw [heq]
    exact ⟨A, h⟩
  · have hold := hr.stations k i hb
    have hls : (s.station k i).op = .ld → k = .ls := fun hop =>
      (Option.some.inj ((congrArg Op.fuClass hop).symm.trans hold.table)).symm
    have hfits := hold.phase
    obtain heq | ⟨hp, hc, heq⟩ | ⟨hp, heq⟩ | ⟨hp, heq⟩ | ⟨hp, heq⟩ := visit_cases_of_inFlight hb hold.inFlight <;>
      rw [heq]
    · exact ⟨A, h⟩
    · exact h.start hr hb hp hc
    · exact h.executingStep hr hb hp
    · simp only [PhaseFits, hp] at hfits
      obtain rfl := hls hfits.2.2.1
      exact ⟨A, h.memWaitStep hr hb hp⟩
    · simp only [PhaseFits, hp] at hfits
      obtain rfl := hls hfits.2.2.1
      exact ⟨A, h.memAccessStep hr hb hp⟩

/-- The execute stage stays on a trace. -/
theorem State.OnPath.execute (h : s.OnPath P a₀) (hr : s.Running) : (execute s).OnPath P a₀ := by
  have hvisit : ∀ (k : FuClass) (i : Nat) (t : State), t.Running ∧ t.OnPath P a₀ →
      (Machine.visit k i t).Running ∧ (Machine.visit k i t).OnPath P a₀ := fun k i t ⟨ht, _, hA⟩ =>
    ⟨ht.visit k i, hA.visit ht k i⟩
  refine (foldUnlessFaulted_keeps (fun t => t.Running ∧ t.OnPath P a₀) _ _ (fun k _ t _ ht => ?_) ⟨hr, h⟩).2
  unfold scanTable
  rw [ht.1.danglingStation k]
  exact foldUnlessFaulted_keeps (fun t => t.Running ∧ t.OnPath P a₀) _ _ (fun i _ u _ hu => hvisit k i u hu) ht

/-! #### Write-back -/

/-- The word on the bus is what the trace gives the winner's register (40_engine_cycle.md R232). -/
theorem State.Follows.result_eq (h : s.Follows P a₀ A) (hm : s.Mid) (hb : (s.station k i).busy = true)
    (hp : (s.station k i).phase = .resultReady) {v : Word} (hv : resultOf (s.station k i) = some v) :
    (s.robAt (s.station k i).dest).kind = .reg ∧
      v = (A ((s.robAt (s.station k i).dest).seq + 1)).readReg (s.robAt (s.station k i).dest).dest := by
  have hold := hm.stations k i hb
  have hserves := h.stations k i hb
  have hentry := h.entries _ hold.inFlight
  have hgood := (hm.entries _ hold.inFlight).kind
  have hfits := hold.phase
  simp only [PhaseFits, hp] at hfits
  obtain ⟨hj, hk, hkind, hld, -⟩ := hfits
  have hreg : (s.robAt (s.station k i).dest).kind = .reg := by rw [hgood, hold.op, hkind]
  refine ⟨hreg, ?_⟩
  rw [hentry.readReg_next]
  refine Option.some.inj (hv.symm.trans (resultOf_eq (hold.op.symm.trans hentry.op) (hentry.dest_of_reg hgood hreg)
    (hserves.slotJ.val_eq hj) (hserves.slotK.val_eq hk) fun hop => ?_))
  rw [hserves.result hp hop, hserves.addr (hld hop)]

/-- A slot that waits for the winner takes the word its operand has; any other keeps what it holds. -/
theorem State.SlotHolds.capture {tag : Nat} {v x : Word} {y : Slot} (h : s.SlotHolds A x y)
    (hv : v = (A ((s.robAt tag).seq + 1)).readReg (s.robAt tag).dest) : s.SlotHolds A x (y.capture tag v) := by
  cases y with
  | resolved _ => exact h
  | pending w =>
    by_cases hw : w = tag
    · subst hw
      rw [Slot.capture, if_pos rfl]
      exact hv.trans h
    · rw [Slot.capture, if_neg hw]
      exact h

theorem captureBroadcast_imm (tag : Nat) (v : Word) (e : RsEntry) : (captureBroadcast tag v e).imm = e.imm := by
  unfold captureBroadcast; split <;> rfl

theorem captureBroadcast_result (tag : Nat) (v : Word) (e : RsEntry) :
    (captureBroadcast tag v e).result = e.result := by
  unfold captureBroadcast; split <;> rfl

/-- A broadcast completes its instruction and wakes those that waited for it with the trace's values
(40_engine_cycle.md R233 to R236). -/
theorem State.Follows.broadcast (h : s.Follows P a₀ A) (hm : s.Mid) (hb : (s.station k i).busy = true)
    (hp : (s.station k i).phase = .resultReady) {v : Word} (hv : resultOf (s.station k i) = some v) :
    (broadcast k i v s).Follows P a₀ A := by
  have hflight := (hm.stations k i hb).inFlight
  obtain ⟨hreg, hval⟩ := h.result_eq hm hb hp hv
  have hkept := robKept_broadcast k i v s
  rw [hm.broadcast_eq] at hkept ⊢
  refine h.of_robKept hm.ring hkept rfl (fun u hu => ?_) fun c m hcm => ?_
  · have hentry := h.entries u hu
    rw [robAt_drained_onBus hflight]
    split
    · next hd =>
      subst hd
      refine hentry.completed (by simp [hreg]) _ _ _ _ ?_
      rw [archEffect_of_dest (hentry.dest_of_reg (hm.entries _ hu).kind hreg), eventEffect]
      simp only [hreg]
      rw [hval, hentry.readReg_next]
      rfl
    · exact hentry
  · obtain ⟨heq, hsb, -⟩ := hm.station_of_busy_drained hb hcm
    have hold := h.stations c m hsb
    rw [heq]
    refine State.ServesPath.of_coreKept hkept.toCoreKept ?_
    unfold State.ServesPath
    rw [captureBroadcast_dest]
    refine ⟨?_, ?_, ?_, ?_, ?_, ?_⟩
    · rw [captureBroadcast_imm]; exact hold.imm
    · rw [captureBroadcast_j _ _ hsb]; exact hold.slotJ.capture hval
    · rw [captureBroadcast_k _ _ hsb]; exact hold.slotK.capture hval
    · rw [captureBroadcast_addrValid, captureBroadcast_addr]; exact hold.addr
    · rw [captureBroadcast_phase, captureBroadcast_addr]; exact hold.access
    · rw [captureBroadcast_phase, captureBroadcast_op, captureBroadcast_result, captureBroadcast_addr]
      exact hold.result

theorem State.Follows.writeBack (h : s.Follows P a₀ A) (hr : s.Running) : (writeBack s).Follows P a₀ A := by
  unfold Machine.writeBack
  split
  · exact h
  · next u hd => exact absurd hd (arbitrate_ne_dangling hr.danglingStation _ u)
  · next k i hw =>
    obtain ⟨-, -, -, -, hcand, -⟩ := arbitrate_winner hw
    simp only [State.isCandidate, Bool.and_eq_true, decide_eq_true_eq] at hcand
    obtain ⟨⟨hb, hp⟩, -⟩ := hcand
    have hfits := (hr.stations k i hb).phase
    simp only [PhaseFits, hp] at hfits
    split
    · next hnone => exact absurd hnone (resultOf_ne_none hfits.2.2.1)
    · next v hv => exact h.broadcast hr.toMid hb hp hv

theorem State.OnPath.executeAndWriteBack (h : s.OnPath P a₀) (hr : s.Running) :
    (executeAndWriteBack s).OnPath P a₀ := by
  rw [Machine.executeAndWriteBack, unlessFaulted_of_none _ hr.noFault, unlessFaulted_of_none _ hr.execute.noFault]
  obtain ⟨A, hA⟩ := h.execute hr
  exact ⟨A, hA.writeBack hr.execute⟩

end Visit

end Sys2Proof.Machine

/-! ### Commit and the end of the cycle: the trace's next instruction joins the one-at-a-time execution -/

namespace Sys2Proof.Machine

section Commit

variable {s s1 t : State} {P : List InstrWord} {a₀ : Arch} {A : Nat → Arch}

theorem retire_pc (s : State) : (retire s).pc = s.pc := rfl
theorem stored_pc (s : State) : (stored s).pc = s.pc := rfl
theorem retire_nextSeq (s : State) : (retire s).nextSeq = s.nextSeq := rfl

theorem State.Follows.withPort (h : s.Follows P a₀ A) (hr : s.RingOk) (port : Port) :
    State.Follows { s with port := port } P a₀ A :=
  have hk := robKept_port s port
  h.of_robKept hr hk rfl h.entries fun k i hb => (h.stations k i hb).of_coreKept hk.toCoreKept

/-- The head has the first id that is not among the events (40_engine_cycle.md R265). -/
theorem State.Follows.seq_head (h : s.Follows P a₀ A) (hr : s.Running) (hb : (s.robAt s.rob.head).busy = true) :
    (s.robAt s.rob.head).seq = s.events.length := by
  have hseq := h.seq_nth hr.ring (count_pos_of_busy_head hr.ring hr.sized hb)
  rwa [State.nthEntry, hr.ring.tagAt_zero] at hseq

/-- A retiring head is what the one-at-a-time execution runs next; the engine stays on the trace when registers and
memory become those after the head. -/
theorem State.Follows.retired (h : s.Follows P a₀ A) (hr : s.Running) (hb : (s.robAt s.rob.head).busy = true)
    (hc : (s.robAt s.rob.head).complete = true) (ht : s.Retired t) (hpc : t.pc = s.pc) (hseq : t.nextSeq = s.nextSeq)
    (hok : t.EventsOk) {e : CommitEvent} (hev : t.events = s.events ++ [e])
    (he : e.record = ((s.robAt s.rob.head).pc, (s.robAt s.rob.head).op, eventEffect (s.robAt s.rob.head)))
    (hregs : ∀ q, ((A s.events.length).next P).readReg q = t.readReg q)
    (hmem : ((A s.events.length).next P).mem = t.mem)
    (haccess : ∀ i, (s.station .ls i).accessing = true → t.mem = s.mem) : t.Follows P a₀ A := by
  have hhead := h.entries _ hb
  have hid := h.seq_head hr hb
  have hlen : t.events.length = s.events.length + 1 := by rw [hev, List.length_append]; rfl
  have hnext : A (s.events.length + 1) = (A s.events.length).next P := by
    have hn := hhead.next
    rwa [RobEntry.nextPc_of_complete hc, hid] at hn
  have hentry : ∀ u, u ≠ s.rob.head → ∃ m, t.robAt u = { s.robAt u with ckpt := m } := fun u hu => by
    obtain ⟨m, hm, -⟩ := ht.entries u hu
    exact ⟨m, hm⟩
  refine ⟨ht.shape.prog.trans h.prog, fun u hu => ?_, fun k i hki => ?_, by rw [hseq, hpc, h.front], fun q => ?_, ?_,
    hok, ?_⟩
  · have hne : u ≠ s.rob.head := by
      rintro rfl
      exact absurd (ht.freed.symm.trans hu) (by simp)
    obtain ⟨m, heq⟩ := hentry u hne
    rw [heq] at hu ⊢
    exact (h.entries u hu).progress _ _ m _
  · obtain ⟨heq, hsb, hne⟩ := ht.busy_station hki
    have hold := hr.stations k i hsb
    have hserves := h.stations k i hsb
    obtain ⟨m, hent⟩ := hentry _ hne
    have hslot : ∀ {x : Word} {v : Slot}, s.SlotOk (s.station k i).dest v → s.SlotHolds A x v →
        t.SlotHolds A x v := fun hok hv => hv.congr fun w hw => by
      subst hw
      obtain ⟨-, -, hwc, -⟩ := hok
      obtain ⟨m', hent'⟩ := hentry w (by rintro rfl; exact absurd (hc.symm.trans hwc) (by simp))
      exact ⟨rfl, by rw [hent'], by rw [hent']⟩
    rw [heq]
    unfold State.ServesPath
    rw [hent]
    refine ⟨hserves.imm, hslot hold.slotJ hserves.slotJ, hslot hold.slotK hserves.slotK, hserves.addr, fun hp => ?_,
      hserves.result⟩
    have hacc : (s.station k i).accessing = true := by simp [RsEntry.accessing, hsb, hp]
    obtain rfl := hr.table_of_accessing hacc
    rw [haccess i hacc]
    exact hserves.access hp
  · rw [hlen, hnext, hregs]
  · rw [hlen, hnext, hmem]
  · have hfetched := hhead.fetched
    rw [hid] at hfetched
    have hrec : e.record = ((A s.events.length).pc, ((A s.events.length).instr P).op,
        archEffect ((A s.events.length).instr P) (A s.events.length)) := by
      rw [he, ← hhead.pc, hhead.op, hhead.effect hc, hid]
    rw [hlen, seqRun_succ h.history hfetched, hev, List.map_append, ← hrec, hnext]
    rfl

/-- The instruction at the head, as the one-at-a-time execution runs it. -/
theorem State.Follows.head_instr (h : s.Follows P a₀ A) (hr : s.Running) {k : RobKind} (hd : s.HeadDone k) :
    ((A s.events.length).instr P).op.kind = k := by
  have hkind := (h.entries _ hd.busy).instr_kind (hr.entries _ hd.busy).kind
  rwa [h.seq_head hr hd.busy, hd.kind] at hkind

theorem State.Follows.head_effect (h : s.Follows P a₀ A) (hr : s.Running) {k : RobKind} (hd : s.HeadDone k) :
    eventEffect (s.robAt s.rob.head) = archEffect ((A s.events.length).instr P) (A s.events.length) := by
  have heff := (h.entries _ hd.busy).effect (hd.complete hr)
  rwa [h.seq_head hr hd.busy] at heff

/-- A branch or a nop changes neither registers nor memory. -/
theorem State.Follows.retired_plain (h : s.Follows P a₀ A) (hr : s.Running) (ho : s.port.owner ≠ .commit) {k : RobKind}
    (hk : k = .branch ∨ k = .nop) (hd : s.HeadDone k) : (retire s).Follows P a₀ A := by
  have hinstr := h.head_instr hr hd
  have hreg : (issueForm ((A s.events.length).instr P)).dest.isSome = false := by
    rw [issueForm_dest_isSome, hinstr]
    rcases hk with rfl | rfl <;> rfl
  refine h.retired hr hd.busy (hd.complete hr) (hr.retired_plain ho hk hd) rfl rfl
    (retire_eventsOk hr.ring hr.sized hd.busy h.events) (retire_events hd.busy) rfl (fun q => ?_) ?_ fun _ _ => rfl
  · rw [Arch.next, readReg_archExec_of_ne fun hd => by rw [hd] at hreg; cases hreg]
    exact h.regs q
  · rw [Arch.next, mem_archExec_of_ne_store (by rw [hinstr]; rcases hk with rfl | rfl <;> simp)]
    exact h.mem

/-- A register writer leaves its value, which is the one-at-a-time execution's, in its register. -/
theorem State.Follows.retired_written (h : s.Follows P a₀ A) (hr : s.Running) (ho : s.port.owner ≠ .commit)
    (hd : s.HeadDone .reg) : (retire (written s)).Follows P a₀ A := by
  have hplace := placeKept_written s
  have hhead := head_written hd.kind
  have hb : ((written s).robAt (written s).rob.head).busy = true := by rw [hhead, hd.busy]
  have hentry := h.entries _ hd.busy
  have hgood := (hr.entries _ hd.busy).kind
  have hid := h.seq_head hr hd.busy
  have hdest := hentry.dest_of_reg hgood hd.kind
  have hval := hentry.value_of_complete hgood hd.kind (hd.complete hr)
  have hinstr := h.head_instr hr hd
  rw [hentry.readReg_next] at hval
  rw [hid] at hdest hval
  refine h.retired hr hd.busy (hd.complete hr) (hr.retired_written ho hd)
    ((retire_pc _).trans (controlKept_written s).pc) ((retire_nextSeq _).trans hplace.nextSeq)
    (retire_eventsOk (hr.ring.of_orderSame hplace.toOrderSame) (hr.sized.of_shapeKept hplace.toShapeKept) hb
      (h.events.of_dense (hplace.toOrderSame.dense hr.ring)))
    ((retire_events hb).trans (by rw [hplace.events])) (by rw [hhead]; rfl) (fun q => ?_) ?_ fun _ _ => by simp
  · have hread : (retire (written s)).readReg q = (written s).readReg q := by cases q <;> simp [State.readReg]
    rw [hread, readReg_written, Arch.next]
    split
    · next hq => rw [hq]; exact hval.symm
    · next hq =>
      rw [readReg_archExec_of_ne fun hdq => hq (Option.some.inj (hdq.symm.trans hdest))]
      exact h.regs q
  · rw [Arch.next, mem_archExec_of_ne_store (by rw [hinstr]; simp), h.mem]
    simp

/-- A store leaves its data in its cell. -/
theorem State.Follows.retired_stored (h : s.Follows P a₀ A) (hr : s.Running) (hd : s.HeadDone .store)
    (hs : s1 = storeBegun s ∧ s.port.owner = .none ∨ s1 = storeCounted s ∧ s.port.owner = .commit) :
    State.Follows { retire (stored s1) with port := (retire (stored s1)).port.settle } P a₀ A := by
  obtain ⟨hk, -, -, -, -, hnoload⟩ := storeHeld hs
  have hplace := hk.placeKept.trans (placeKept_stored s1)
  have hb1 : (s1.robAt s1.rob.head).busy = true := by rw [hk.head, hk.busy, hd.busy]
  have hb : ((stored s1).robAt (stored s1).rob.head).busy = true := by rw [hplace.head, hplace.busy, hd.busy]
  have hheld := storeHeld_head hd.busy hs
  have hhead := head_stored hb1
  rw [hk.head, hheld] at hhead
  have hinstr := h.head_instr hr hd
  have heff := h.head_effect hr hd
  rw [archEffect_store hinstr, eventEffect, hd.kind] at heff
  obtain ⟨haddr, hdata⟩ := EventEffect.stored.inj heff
  have hpc : (retire (stored s1)).pc = s.pc := by
    rw [retire_pc, stored_pc]
    obtain ⟨rfl, -⟩ | ⟨rfl, -⟩ := hs <;> rfl
  have hok := retire_eventsOk (hr.ring.of_orderSame hplace.toOrderSame) (hr.sized.of_shapeKept hplace.toShapeKept) hb
      (h.events.of_dense (hplace.toOrderSame.dense hr.ring))
  have hev := retire_events hb
  rw [hplace.events, stored_head, hk.head, hhead] at hev
  refine h.retired hr hd.busy (hd.complete hr) (hr.retired_stored hd hs) hpc
    ((retire_nextSeq _).trans hplace.nextSeq) ⟨hok.inOrder, hok.dense⟩ hev rfl (fun q => ?_) ?_
    fun i hi => absurd (hr.port.access i hi).1 (hnoload i)
  · have hread : State.readReg { retire (stored s1) with port := (retire (stored s1)).port.settle } q =
        s1.readReg q := by cases q <;> simp [State.readReg]
    rw [hread, hk.readReg, ← h.regs, Arch.next, archExec_store hinstr]
    cases q <;> rfl
  · change _ = (retire (stored s1)).mem
    rw [retire_mem, stored_mem, hk.head, hheld, hk.mem, haddr, hdata, ← h.mem, Arch.next, archExec_store hinstr]

/-- A cycle of a store's transaction that is not the last changes a timing record and the port. -/
theorem State.Follows.held (h : s.Follows P a₀ A) (hr : s.Running) (hd : s.HeadDone .store)
    (hs : s1 = storeBegun s ∧ s.port.owner = .none ∨ s1 = storeCounted s ∧ s.port.owner = .commit) :
    s1.Follows P a₀ A := by
  obtain ⟨hk, hother, hrs, -⟩ := storeHeld hs
  have hpc : s1.pc = s.pc := by obtain ⟨rfl, -⟩ | ⟨rfl, -⟩ := hs <;> rfl
  have hst : ∀ k i, s1.station k i = s.station k i := fun k i => by rw [State.station, State.table, hrs]; rfl
  refine h.of_robKept hr.ring hk hpc (fun u hu => ?_) fun k i hb => ?_
  · by_cases hhead : u = s.rob.head
    · rw [hhead, storeHeld_head hd.busy hs]
      exact (h.entries _ hd.busy).progress _ _ _ _
    · rw [hother u hhead]
      exact h.entries u hu
  · rw [hst] at hb ⊢
    exact (h.stations k i hb).of_coreKept hk.toCoreKept

/-- After commit, with the port settled, the engine is still on the trace. -/
theorem State.Follows.commit (h : s.Follows P a₀ A) (hr : s.Running) :
    State.Follows { commit s with port := (commit s).port.settle } P a₀ A := by
  have hring := commit_ringOk hr.ring hr.sized
  obtain ⟨-, heq⟩ | ⟨hd, s1, hs, ⟨-, heq⟩ | ⟨-, heq⟩⟩ | ⟨ho, hd, heq⟩ | ⟨ho, k, hk, hd, heq⟩ :=
    commit_cases_of_running hr <;> rw [heq] at hring ⊢
  · exact h.withPort hring _
  · exact (h.held hr hd hs).withPort hring _
  · exact h.retired_stored hr hd hs
  · exact (h.retired_written hr ho hd).withPort hring _
  · exact (h.retired_plain hr ho hk hd).withPort hring _

/-- The end of the cycle marks complete entries done (40_engine_cycle.md R260). -/
theorem RobEntry.Follows.markDone {r : RobEntry} (h : r.Follows P A) : (markDone r).Follows P A := by
  unfold Machine.markDone
  split
  · exact h.progress _ true _ _
  · exact h

theorem State.Follows.boundary (h : s.Follows P a₀ A) : (boundary s).Follows P a₀ A := by
  have hslot : ∀ {x : Word} {v : Slot}, s.SlotHolds A x v → (Machine.boundary s).SlotHolds A x v := fun hv =>
    hv.congr fun w _ => ⟨rfl, by rw [robAt_boundary, markDone_seq], by rw [robAt_boundary, markDone_dest]⟩
  refine ⟨h.prog, fun u hu => ?_, fun k i hb => ?_, h.front, h.regs, h.mem, ⟨h.events.inOrder, h.events.dense⟩,
    h.history⟩
  · rw [robAt_boundary] at hu ⊢
    rw [markDone_busy] at hu
    exact (h.entries u hu).markDone
  · have hold := h.stations k i hb
    unfold State.ServesPath
    rw [robAt_boundary, markDone_seq]
    exact ⟨hold.imm, hslot hold.slotJ, hslot hold.slotK, hold.addr, hold.access, hold.result⟩

/-- The stages after issue keep the engine on a trace. -/
theorem State.OnPath.restOfCycle (h : s.OnPath P a₀) (hr : s.Running) :
    (endOfCycle (Machine.commit (Machine.executeAndWriteBack s))).OnPath P a₀ := by
  obtain ⟨A, hA⟩ := h.executeAndWriteBack hr
  have hfault : (Machine.commit (Machine.executeAndWriteBack s)).fault = none := hr.executeAndWriteBack.commit.noFault
  rw [endOfCycle_of_noFault hfault]
  exact ⟨A, (hA.commit hr.executeAndWriteBack).boundary⟩

end Commit

end Sys2Proof.Machine

/-! ### Issue puts the next instruction of the path on the trace -/

namespace Sys2Proof.Machine

/-- `t` is `s` after the issue of form `f` into the ROB entry at the old tail, with what its entry, its station and the
next `pc` say of it (40_engine_cycle.md R211 to R219). -/
structure State.Issued (s t : State) (f : IssueForm) : Prop where
  shape : s.ShapeKept t
  dense : s.Dense t
  intRegs : t.intRegs = s.intRegs
  fpRegs : t.fpRegs = s.fpRegs
  mem : t.mem = s.mem
  count : s.rob.count < s.cfg.robSize
  nextSeq : t.nextSeq = s.nextSeq + 1
  others : ∀ u, u ≠ s.rob.tail → t.robAt u = s.robAt u
  seq : (t.robAt s.rob.tail).seq = s.nextSeq
  pc : (t.robAt s.rob.tail).pc = s.pc
  op : (t.robAt s.rob.tail).op = f.op
  kind : (t.robAt s.rob.tail).kind = f.op.kind
  dest : ∀ d, f.dest = some d → (t.robAt s.rob.tail).dest = d
  complete : (t.robAt s.rob.tail).complete = true → f.op.kind = .nop
  next : t.pc = if f.op.kind = .branch then (t.robAt s.rob.tail).predictedPc else s.pc + 1
  stations : ∀ k i, (t.station k i).busy = true →
    ((s.station k i).busy = true ∧ t.station k i = s.station k i) ∨
    ((t.station k i).dest = s.rob.tail ∧ (t.station k i).imm = f.imm ∧ (t.station k i).phase = .waiting ∧
      (t.station k i).addrValid = false ∧
      resolveOperand (allocateRob f s) f.j = .slot (t.station k i).j ∧
      resolveOperand (allocateRob f s) f.k = .slot (t.station k i).k)

section Issue

variable {s t : State} {f : IssueForm}

@[simp] theorem robAt_chooseNextPc (op : Op) (tag : Nat) (s : State) (u : Nat) :
    (chooseNextPc op tag s).robAt u = s.robAt u := by
  obtain ⟨pc, h⟩ := chooseNextPc_eq op tag s
  rw [h]
  rfl

/-- A branch goes on where its entry predicts, anything else at the next `pc` (40_engine_cycle.md R219). -/
theorem pc_chooseNextPc {op : Op} {tag : Nat} (h : (s.robAt tag).pc = s.pc) : (chooseNextPc op tag s).pc =
    if op.kind = .branch then (s.robAt tag).predictedPc else s.pc + 1 := by
  unfold chooseNextPc RobEntry.predictedPc
  rw [h]
  by_cases hk : op.kind = .branch <;> by_cases hp : (s.robAt tag).predTaken = true <;> simp [hk, hp]

@[simp] theorem robAt_renameDest (dest : Option Reg) (tag : Nat) (s : State) (u : Nat) :
    (renameDest dest tag s).robAt u = s.robAt u := by
  cases dest <;> rfl

/-- An issue to a station, as the chain of its updates (40_engine_cycle.md R206). -/
theorem issue_eq_chain (h : s.Running) (hcan : s.canIssue f.op = true) {c : FuClass}
    (hcls : f.op.fuClass = some c) : ∃ j k n, s.freeStation c = some n ∧
      resolveOperand (allocateRob f s) f.j = .slot j ∧ resolveOperand (allocateRob f s) f.k = .slot k ∧
      issue f s = chooseNextPc f.op s.rob.tail (renameDest f.dest s.rob.tail (snapshotBranch f.op s.rob.tail
        ((allocateRob f s).modifyStation c n (newStation f s.rob.tail j k)))) := by
  have hc := (issue_frame hcan).1
  obtain ⟨j, hj, -⟩ := h.resolveOperand hc f f.j
  obtain ⟨k, hk, -⟩ := h.resolveOperand hc f f.k
  obtain ⟨n, hn⟩ : ∃ n, s.freeStation c = some n := by
    simp only [State.canIssue, hcls, Bool.and_eq_true] at hcan
    exact Option.isSome_iff_exists.1 hcan.2
  obtain ⟨hno, -⟩ | ⟨-, hnone, -⟩ | ⟨c', -, hsome, heq⟩ := issue_cases f s
  · exact absurd (hcan.symm.trans hno) (by simp)
  · exact absurd (hcls.symm.trans hnone) (by simp)
  · obtain rfl : c = c' := Option.some.inj (hcls.symm.trans hsome)
    exact ⟨j, k, n, hn, hj, hk, by rw [heq, issueToStation_eq hj hk, fillStation_eq (s := allocateRob f s) hn]⟩

/-- What every issue keeps, with the entry that the allocation wrote. -/
theorem State.Entered.issued {r : RobEntry} {c : FuClass} {m : Nat} (he : s.Entered t r c m)
    (hc : s.rob.count < s.cfg.robSize) {complete predTaken : Bool} {predTarget : Pc} {ckpt : AliasTable}
    (hr : t.robAt s.rob.tail = { newRobEntry f s (s.robAt s.rob.tail) with
      complete := complete, predTaken := predTaken, predTarget := predTarget, ckpt := ckpt })
    (hcomp : complete = true → f.op.kind = .nop)
    (hnext : t.pc = if f.op.kind = .branch then (t.robAt s.rob.tail).predictedPc else s.pc + 1)
    (hst : ∀ k i, (t.station k i).busy = true →
      ((s.station k i).busy = true ∧ t.station k i = s.station k i) ∨
      ((t.station k i).dest = s.rob.tail ∧ (t.station k i).imm = f.imm ∧ (t.station k i).phase = .waiting ∧
        (t.station k i).addrValid = false ∧
        resolveOperand (allocateRob f s) f.j = .slot (t.station k i).j ∧
        resolveOperand (allocateRob f s) f.k = .slot (t.station k i).k)) : s.Issued t f where
  shape := he.shape
  dense := he.dense
  intRegs := he.intRegs
  fpRegs := he.fpRegs
  mem := he.mem
  count := hc
  nextSeq := by
    have hgap := he.dense.gap
    have hcount := he.count
    omega
  others u hu := by rw [he.entries, if_neg hu]
  seq := by rw [hr]; rfl
  pc := by rw [hr]; rfl
  op := by rw [hr]; rfl
  kind := by rw [hr]; rfl
  dest d hd := by rw [hr]; simp [newRobEntry, hd]
  complete h := hcomp (by rw [hr] at h; exact h)
  next := hnext
  stations := hst

theorem issued_nop (h : s.Running) (hcan : s.canIssue f.op = true) (hcls : f.op.fuClass = none) :
    s.Issued (issue f s) f := by
  have hnop : f.op.kind = .nop := by cases ho : f.op <;> simp_all [Op.fuClass, Op.kind]
  have htail := h.ring.tail_lt h.sized
  have hlen : s.rob.tail < (allocateRob f s).rob.entries.length := (shapeKept_allocateRob f s).robLength ▸ htail
  obtain ⟨r, he⟩ := issue_nop_entered h hcan hcls
  obtain ⟨hno, -⟩ | ⟨-, -, heq⟩ | ⟨c, -, hsome, -⟩ := issue_cases f s
  · exact absurd (hcan.symm.trans hno) (by simp)
  · have hentry : (completeAtIssue s.rob.tail (allocateRob f s)).robAt s.rob.tail =
        { newRobEntry f s (s.robAt s.rob.tail) with complete := true } := by
      rw [completeAtIssue, robAt_modifyRob_same _ _ hlen, robAt_allocateRob, if_pos ⟨rfl, htail⟩]
    have hstation : ∀ k i, (issue f s).station k i = s.station k i := fun k i => by
      obtain ⟨pc, hpc⟩ := chooseNextPc_eq f.op s.rob.tail (completeAtIssue s.rob.tail (allocateRob f s))
      rw [heq, hpc]
      rfl
    refine he.issued (issue_frame hcan).1 (by rw [heq, robAt_chooseNextPc, hentry]) (fun _ => hnop) ?_
      fun k i hb => .inl ⟨hstation k i ▸ hb, hstation k i⟩
    rw [heq, pc_chooseNextPc (by rw [hentry]; rfl), robAt_chooseNextPc]
    rfl
  · exact absurd (hcls.symm.trans hsome) (by simp)

theorem issued_station (h : s.Running) (hdest : f.dest.isSome = decide (f.op.kind = .reg))
    (hcan : s.canIssue f.op = true) {c : FuClass} (hcls : f.op.fuClass = some c) : s.Issued (issue f s) f := by
  obtain ⟨r, m, he⟩ := issue_station_entered h hdest hcan hcls
  obtain ⟨j, k, n, hn, hj, hk, heq⟩ := issue_eq_chain h hcan hcls
  obtain ⟨hnlt, -, -⟩ := (freeStation_eq_some s c n).1 hn
  obtain ⟨taken, target, ckpt, hsnap, -⟩ := robAt_allocated_snapshot (f := f) (h.ring.tail_lt h.sized)
    (a := (allocateRob f s).modifyStation c n (newStation f s.rob.tail j k)) rfl rfl
  have hentry := hsnap s.rob.tail
  rw [if_pos rfl] at hentry
  have hstation : ∀ c' i, (issue f s).station c' i =
      if c' = c ∧ i = n then newStation f s.rob.tail j k (s.station c' i) else s.station c' i := by
    intro c' i
    obtain ⟨entries, hent⟩ := snapshotBranch_eq f.op s.rob.tail
      ((allocateRob f s).modifyStation c n (newStation f s.rob.tail j k))
    obtain ⟨pc, hpc⟩ := chooseNextPc_eq f.op s.rob.tail (renameDest f.dest s.rob.tail (snapshotBranch f.op s.rob.tail
      ((allocateRob f s).modifyStation c n (newStation f s.rob.tail j k))))
    have hst : (issue f s).station c' i = (s.modifyStation c n (newStation f s.rob.tail j k)).station c' i := by
      rw [heq, hpc, hent]
      cases f.dest <;> rfl
    rw [hst, station_modifyStation]
    by_cases hcm : c' = c ∧ i = n
    · rw [if_pos ⟨hcm.1, hcm.2, hcm.2 ▸ hnlt⟩, if_pos hcm]
    · rw [if_neg fun hcon => hcm ⟨hcon.1, hcon.2.1⟩, if_neg hcm]
  refine he.issued (issue_frame hcan).1 (complete := false)
    (by rw [heq, robAt_chooseNextPc, robAt_renameDest, hentry]; rfl)
    (fun hc => by cases hc) ?_ fun c' i hb => ?_
  · have hpc : (renameDest f.dest s.rob.tail (snapshotBranch f.op s.rob.tail
        ((allocateRob f s).modifyStation c n (newStation f s.rob.tail j k)))).pc = s.pc := by
      obtain ⟨entries, hent⟩ := snapshotBranch_eq f.op s.rob.tail
        ((allocateRob f s).modifyStation c n (newStation f s.rob.tail j k))
      rw [hent]
      cases f.dest <;> rfl
    rw [heq, pc_chooseNextPc (by rw [robAt_renameDest, hentry, hpc]; rfl), robAt_chooseNextPc, hpc]
  · rw [hstation] at hb ⊢
    split at hb
    · next hcm => rw [if_pos hcm]; exact .inr ⟨rfl, rfl, rfl, rfl, hj, hk⟩
    · next hcm => rw [if_neg hcm]; exact .inl ⟨hb, rfl⟩

/-- Issue stalls, or puts its instruction into the ROB and a station. -/
theorem State.Running.issue_stalls_or_issued (h : s.Running) (i : Instr) :
    Machine.issue (issueForm i) s = s ∨ s.Issued (Machine.issue (issueForm i) s) (issueForm i) := by
  have hdest : (issueForm i).dest.isSome = decide ((issueForm i).op.kind = .reg) := by
    rw [issueForm_dest_isSome, issueForm_op]
  cases hcan : s.canIssue (issueForm i).op with
  | false => exact .inl (if_neg (Bool.eq_false_iff.1 hcan))
  | true =>
    cases hcls : (issueForm i).op.fuClass with
    | none => exact .inr (issued_nop h hcan hcls)
    | some c => exact .inr (issued_station h hdest hcan hcls)

end Issue

section Trace

variable {s t : State} {P : List InstrWord} {a₀ : Arch} {A : Nat → Arch}

/-- A resolved operand is the word the trace gives it before the next instruction, or waits for the instruction that
leaves it (40_engine_cycle.md R213, R214). -/
theorem State.Follows.slotHolds_of_resolve (h : s.Follows P a₀ A) (hm : s.Mid) (hc : s.rob.count < s.cfg.robSize)
    {f : IssueForm} {o : Operand} {v : Slot} (hv : resolveOperand (allocateRob f s) o = .slot v) :
    s.SlotHolds A (o.valueIn (A s.nextSeq)) v ∧ ∀ w, v = .pending w → (s.robAt w).busy = true := by
  cases o with
  | value w =>
    obtain rfl := Resolution.slot.inj hv
    exact ⟨rfl, nofun⟩
  | reg r =>
    have hfront := h.readReg_front hm r
    change s.SlotHolds A ((A s.nextSeq).readReg r) v ∧ _
    rw [hfront]
    change resolveReg (allocateRob f s) r = .slot v at hv
    obtain ⟨hrat, hres⟩ | ⟨u, hrat, hres⟩ := resolveReg_cases (allocateRob f s) r
    · obtain rfl := Resolution.slot.inj (hres.symm.trans hv)
      rw [show s.rat.lookup r = .arf from hrat]
      have hread : (allocateRob f s).readReg r = s.readReg r := by cases r <;> rfl
      exact ⟨hread, nofun⟩
    · change s.rat.lookup r = .rob u at hrat
      obtain ⟨n, hn, hu, hkind, hdest⟩ := youngestWriter_eq_rob ((hm.rat.rat r).symm.trans hrat)
      have hbusy : (s.robAt u).busy = true := (hm.ring.busy_iff hm.sized u).2 ⟨n, hn, hu⟩
      have hkeep : (allocateRob f s).robAt u = s.robAt u := by
        rw [robAt_allocateRob, if_neg fun hcon => ne_tail_of_busy hm.ring hc hbusy hcon.1]
      rw [State.nthEntry, ← hu] at hkind hdest
      rw [hkeep] at hres
      rw [hrat]
      obtain ⟨hfree, -⟩ | ⟨-, hcomp, hres⟩ | ⟨-, -, hres⟩ := hres
      · exact absurd (hbusy.symm.trans hfree) (by simp)
      · obtain rfl := Resolution.slot.inj (hres.symm.trans hv)
        have hval := (h.entries u hbusy).value_of_complete (hm.entries u hbusy).kind hkind hcomp
        rw [hdest] at hval
        exact ⟨hval, nofun⟩
      · obtain rfl := Resolution.slot.inj (hres.symm.trans hv)
        refine ⟨?_, fun w hw => Slot.pending.inj hw ▸ hbusy⟩
        change (A ((s.robAt u).seq + 1)).readReg (s.robAt u).dest = (A ((s.robAt u).seq + 1)).readReg r
        rw [hdest]

/-- The new instruction runs from the last state of the trace to a new one, at the next `pc`. -/
theorem State.Issued.entry_follows {i : Instr} (ht : s.Issued t (issueForm i)) (hf : (A s.nextSeq).fetch P = some i)
    (hpc : (A s.nextSeq).pc = s.pc) : (t.robAt s.rob.tail).Follows P
      (Function.update A (s.nextSeq + 1) { archExec i (A s.nextSeq) with pc := t.pc }) := by
  have hself := update_succ_of_le (A := A) (X := { archExec i (A s.nextSeq) with pc := t.pc }) (le_refl s.nextSeq)
  have hinstr := Arch.instr_of_fetch hf
  have hkind : (t.robAt s.rob.tail).kind = i.op.kind := by rw [ht.kind, issueForm_op]
  refine ⟨?_, ?_, ?_, ?_, ?_, fun hc => ?_⟩ <;> simp only [ht.seq, hself, hinstr, Arch.next]
  · exact hf
  · rw [hpc, ht.pc]
  · rw [ht.op, issueForm_op]
  · exact ht.dest
  · rw [Function.update_self]
    have hnext := ht.next
    rw [issueForm_op] at hnext
    by_cases hb : i.op.kind = .branch
    · rw [if_pos hb] at hnext
      rw [RobEntry.nextPc_of_branch (hkind.trans hb), hnext]
      by_contra hc
      have hnop := ht.complete (by simpa using hc)
      rw [issueForm_op, hb] at hnop
      cases hnop
    · rw [if_neg hb] at hnext
      rw [RobEntry.nextPc_of_not_branch (fun hk => hb (hkind.symm.trans hk)), hnext, pc_archExec_of_not_branch hb, hpc]
  · have hnop := ht.complete hc
    rw [issueForm_op] at hnop
    rw [archEffect_nothing (.inr hnop), eventEffect, hkind, hnop]

/-- An issue extends the trace by the instruction fetched (40_engine_cycle.md R206 to R219). -/
theorem State.Follows.issued (h : s.Follows P a₀ A) (hm : s.Mid) {i : Instr} (ht : s.Issued t (issueForm i))
    (hf : (A s.nextSeq).fetch P = some i) : t.Follows P a₀
      (Function.update A (s.nextSeq + 1) { archExec i (A s.nextSeq) with pc := t.pc }) := by
  have hinstr := Arch.instr_of_fetch hf
  have hdense := h.events.dense
  have hbase := update_succ_of_le (A := A) (X := { archExec i (A s.nextSeq) with pc := t.pc })
    (show s.events.length ≤ s.nextSeq by omega)
  have hself := update_succ_of_le (A := A) (X := { archExec i (A s.nextSeq) with pc := t.pc }) (le_refl s.nextSeq)
  have hkeep : ∀ u, (s.robAt u).busy = true → t.robAt u = s.robAt u := fun u hu =>
    ht.others u (ne_tail_of_busy hm.ring ht.count hu)
  have hslot : ∀ {x : Word} {v : Slot} {B : Nat → Arch}, (∀ w, v = .pending w → (s.robAt w).busy = true) →
      s.SlotHolds B x v → t.SlotHolds B x v := fun hw hv => hv.congr fun w hpend => by
    rw [hkeep w (hw w hpend)]
    exact ⟨rfl, rfl, rfl⟩
  rw [← ht.dense.events] at hbase
  refine ⟨ht.shape.prog.trans h.prog, fun u hu => ?_, fun k m hb => ?_, ?_, fun q => ?_, ?_,
    h.events.of_dense ht.dense, ?_⟩
  · by_cases hu' : u = s.rob.tail
    · rw [hu']
      exact ht.entry_follows hf h.front
    · rw [ht.others u hu'] at hu ⊢
      exact (h.entries u hu).update (h.seq_bounds hm hu).2
  · obtain ⟨hsb, heq⟩ | ⟨hdest, himm, hphase, hvalid, hj, hk⟩ := ht.stations k m hb
    · have hold := hm.stations k m hsb
      have hserves := (h.stations k m hsb).update (X := { archExec i (A s.nextSeq) with pc := t.pc }) hm hsb
        (h.seq_bounds hm hold.inFlight).2.le
      have hbusy : ∀ {v : Slot}, s.SlotOk (s.station k m).dest v → ∀ w, v = .pending w → (s.robAt w).busy = true :=
        fun hok w hw => by subst hw; exact hok.1
      rw [heq]
      unfold State.ServesPath
      rw [hkeep _ hold.inFlight]
      exact ⟨hserves.imm, hslot (hbusy hold.slotJ) hserves.slotJ, hslot (hbusy hold.slotK) hserves.slotK,
        hserves.addr, ht.mem ▸ hserves.access, hserves.result⟩
    · have hnew : ∀ {o : Operand} {v : Slot}, resolveOperand (allocateRob (issueForm i) s) o = .slot v →
          t.SlotHolds (Function.update A (s.nextSeq + 1) { archExec i (A s.nextSeq) with pc := t.pc })
            (o.valueIn (A s.nextSeq)) v := fun {o v} hv => by
        obtain ⟨hholds, hpend⟩ := h.slotHolds_of_resolve hm ht.count hv
        refine hholds.congr fun w hw => ?_
        rw [hkeep w (hpend w hw)]
        exact ⟨update_succ_of_le (h.seq_bounds hm (hpend w hw)).2, rfl, rfl⟩
      unfold State.ServesPath
      rw [hdest, ht.seq, hself, hinstr]
      exact ⟨himm, hnew hj, hnew hk, fun hv => absurd (hvalid.symm.trans hv) (by simp),
        fun hp => absurd (hphase.symm.trans hp) (by simp), fun hp => absurd (hphase.symm.trans hp) (by simp)⟩
  · rw [ht.nextSeq, Function.update_self]
  · rw [hbase, ht.dense.events, h.regs]
    cases q <;> simp [State.readReg, ht.intRegs, ht.fpRegs]
  · rw [hbase, ht.dense.events, h.mem, ht.mem]
  · rw [hbase, ht.dense.events, h.history]

end Trace

end Sys2Proof.Machine

/-! ### Steps, runs and halting -/

namespace Sys2Proof.Machine

section Run

variable {s t : State} {P : List InstrWord} {a₀ : Arch} {A : Nat → Arch}

theorem restOfCycle_of_running (h : s.Running) :
    restOfCycle s = endOfCycle (commit (executeAndWriteBack s)) := by
  rw [restOfCycle_eq, unlessFaulted_of_none _ h.executeAndWriteBack.noFault]

/-- The engine issues what the one-at-a-time execution would run at the same `pc`. -/
theorem State.Follows.issue (h : s.Follows P a₀ A) (hr : s.Running) {i : Instr} (hf : s.fetch = .instr i) :
    (issue (issueForm i) s).OnPath P a₀ := by
  obtain heq | hissued := hr.issue_stalls_or_issued i
  · rw [heq]
    exact ⟨A, h⟩
  · exact ⟨_, h.issued hr.toMid hissued (h.prog ▸ Arch.fetch_of_instr hf h.front)⟩

theorem State.OnPath.step (h : s.OnPath P a₀) (hi : s.Inv) (hf : s.fault = none) (hp : progDecodes P)
    (ht : step s = .next t) : t.OnPath P a₀ := by
  obtain ⟨A, hA⟩ := h
  have hr := hi.running hf
  cases hfetch : s.fetch with
  | idle =>
    rw [step_of_idle hi.sized.legal hf hfetch, restOfCycle_of_running hr] at ht
    rw [← Host.Outcome.next.inj ht]
    exact State.OnPath.restOfCycle ⟨A, hA⟩ hr
  | illegal w r => exact absurd hfetch (fetch_ne_illegal (hA.prog.symm ▸ hp) w r)
  | instr i =>
    rw [step_of_instr hi.sized.legal hf hfetch, restOfCycle_of_running (hr.issue i)] at ht
    rw [← Host.Outcome.next.inj ht]
    exact (hA.issue hr hfetch).restOfCycle (hr.issue i)

/-- With nothing in flight and no event the trace is the state itself. -/
theorem State.Quiet.follows (h : s.Quiet) (he : s.EventsOk) (hev : s.events = []) :
    s.Follows s.prog s.arch (fun _ => s.arch) where
  prog := rfl
  entries u hu := absurd ((h.entries u).symm.trans hu) (by simp)
  stations k i hb := absurd ((h.stations k i).symm.trans hb) (by simp)
  front := rfl
  regs r := by cases r <;> rfl
  mem := rfl
  events := he
  history := by rw [hev]; rfl

/-- Where nothing is in flight the trace ends in the engine's own registers, memory and `pc`. -/
theorem State.Follows.drained (h : s.Follows P a₀ A) (hc : s.rob.count = 0) :
    ∃ b, seqRun P s.events.length a₀ = some (b, s.events.map CommitEvent.record) ∧ b.pc = s.pc ∧
      (∀ r, b.readReg r = s.readReg r) ∧ b.mem = s.mem := by
  have hd := h.events.dense
  have hfront := h.front
  rw [hd, hc] at hfront
  exact ⟨_, h.history, hfront, h.regs, h.mem⟩

end Run

/-- Settles O54: the engine follows a trace of its program from the launch on, and when it halts all of that trace up to
the sequence counter has retired. -/
theorem sequentialEquivalence : Obligations.SequentialEquivalence := by
  intro cfg prog arfInit memInit n t hc hlen hprog ht hhalt
  obtain ⟨-, hp, hev⟩ := launch_cfg (cfg := cfg) (prog := prog) arfInit memInit
  have hquiet := launch_quiet hc hlen arfInit memInit
  have hstart := hquiet.follows (launch_eventsOk hc hlen arfInit memInit) hev
  rw [hp] at hstart
  obtain ⟨t', ht', -, -, A, hA⟩ := run_next_of_step
    (fun s => s.Inv ∧ s.fault = none ∧ s.OnPath prog (State.launch cfg prog arfInit memInit).arch)
    (fun s ⟨hi, hf, hs⟩ => by
      obtain ⟨u, hu, -⟩ := everyStepCountsOneCycle s hi.sized.legal
      obtain ⟨A, hA⟩ := hs
      exact ⟨u, hu, engineInvariantKept s u hi hu, hi.step_noFault hf (hA.prog.symm ▸ hprog) hu,
        State.OnPath.step ⟨A, hA⟩ hi hf hprog hu⟩) n
    ⟨launch_inv hc hlen arfInit memInit, hquiet.noFault, _, hstart⟩
  obtain rfl := Host.Outcome.next.inj (ht.symm.trans ht')
  obtain ⟨-, hpc, hcount⟩ := (halted_iff t).1 hhalt
  obtain ⟨b, hrun, hbpc, hregs, hmem⟩ := hA.drained hcount
  refine ⟨b, hrun, Arch.fetch_of_length_le ?_, hbpc, hregs, fun a => by rw [hmem]⟩
  rw [hbpc, ← hA.prog]
  exact hpc

end Sys2Proof.Machine
